-- ==== Sys2Proof/Word.lean ====
section
/-! DEFINITION. The word types of the block (spec/00_scope.md R9, R12): every value is unsigned, so each
is a plain bit vector of the width R9 gives. -/

namespace Sys2Proof

/-- A u8: a buffer-memory byte, a symbol, a byte operand. -/
abbrev Byte := BitVec 8

/-- A u32: a register of the window (REG_W), a count (COUNT_W), a buffer-memory address (ADDR_W). -/
abbrev Word := BitVec 32

/-- A u40: a node weight (WEIGHT_W). -/
abbrev Weight := BitVec 40

/-- A u9: a node index. 0x1FF is NIL. -/
abbrev NodeIx := BitVec 9

/-- A bit string, first bit first (R11, R12). A code is one. -/
abbrev Bits := List Bool

end Sys2Proof
end

