-- ==== Sys2Proof/Syntax.lean ====
section
/-! DEFINITION. The 17 commands of the HUF1 command set (spec/30_encoding.md R81), one constructor per
row of spec/opcode_table.json. An operand has exactly the width of its form (R82), so a term of this
type cannot name an operand the form does not admit. -/

namespace Sys2Proof

/-- A command of the block. -/
inductive Instr where
  /-- NOP, 0x00 (R225). -/
  | nop
  /-- FT_CLEAR, 0x10 (R101). -/
  | ftClear
  /-- FT_COUNT b, 0x11, byte form (R102). -/
  | ftCount (b : Byte)
  /-- FT_SCAN, 0x12 (R103). -/
  | ftScan
  /-- PQ_CLEAR, 0x20 (R121). -/
  | pqClear
  /-- PQ_INSERT n, 0x21, node form (R122). -/
  | pqInsert (n : NodeIx)
  /-- PQ_EXTRACT, 0x22 (R123). -/
  | pqExtract
  /-- TREE_BUILD, 0x30 (R140). -/
  | treeBuild
  /-- CODE_GEN, 0x40 (R160). -/
  | codeGen
  /-- BW_RESET, 0x50 (R181). -/
  | bwReset
  /-- BW_PUT b, 0x51, bit form (R183). -/
  | bwPut (b : Bool)
  /-- BW_PUT_CODE s, 0x52, byte form (R184). -/
  | bwPutCode (sym : Byte)
  /-- BW_FLUSH, 0x53 (R185). -/
  | bwFlush
  /-- BR_RESET, 0x60 (R201). -/
  | brReset
  /-- BR_GET, 0x61 (R203). -/
  | brGet
  /-- COMPRESS, 0x70 (R227). -/
  | compress
  /-- DECOMPRESS, 0x71 (R229). -/
  | decompress
  deriving DecidableEq, Repr

end Sys2Proof
end

