-- ==== Sys2Proof/Decode.lean ====
section
/-! DEFINITION. The decoder of spec/30_encoding.md R87, total on every u32 and rejecting by name, the
encoder of R80 and R88, and the host's view of both. -/

namespace Sys2Proof

/-- Why a word is illegal: the three conditions of R84. Each completes with ILLEGAL_COMMAND. -/
inductive Illegal where
  /-- RSV ≠ 0 (R83). -/
  | reservedBits
  /-- OPC is not in the table of R81 (R85). -/
  | reservedOpcode
  /-- A bit that R82 requires to be 0 is 1. -/
  | operandBits
  deriving DecidableEq, Repr

/-- What a word decodes to: `Command | Illegal` of R87. -/
inductive Decoded where
  | command (i : Instr)
  | illegal (why : Illegal)
  deriving DecidableEq, Repr

/-- OPC, bits [7:0] (R80). -/
def opcOf (w : Word) : BitVec 8 := w.extractLsb' 0 8
/-- IMM, bits [23:8] (R80). -/
def immOf (w : Word) : BitVec 16 := w.extractLsb' 8 16
/-- RSV, bits [31:24] (R80). -/
def rsvOf (w : Word) : BitVec 8 := w.extractLsb' 24 8

/-- The none form: IMM = 0. -/
def noneForm (i : Instr) (imm : BitVec 16) : Decoded :=
  if imm = 0#16 then .command i else .illegal .operandBits

/-- The byte form: IMM[15:8] = 0, operand IMM[7:0]. -/
def byteForm (mk : Byte → Instr) (imm : BitVec 16) : Decoded :=
  if imm.extractLsb' 8 8 = 0#8 then .command (mk (imm.extractLsb' 0 8)) else .illegal .operandBits

/-- The node form: IMM[15:9] = 0, operand IMM[8:0]. -/
def nodeForm (mk : NodeIx → Instr) (imm : BitVec 16) : Decoded :=
  if imm.extractLsb' 9 7 = 0#7 then .command (mk (imm.extractLsb' 0 9)) else .illegal .operandBits

/-- The bit form: IMM[15:1] = 0, operand IMM[0]. -/
def bitForm (mk : Bool → Instr) (imm : BitVec 16) : Decoded :=
  if imm.extractLsb' 1 15 = 0#15 then .command (mk (imm.getLsbD 0)) else .illegal .operandBits

/-- The opcode map of R81 on a word whose RSV is 0. -/
def decodeOpc (opc : BitVec 8) (imm : BitVec 16) : Decoded :=
  if opc = 0x00#8 then noneForm .nop imm
  else if opc = 0x10#8 then noneForm .ftClear imm
  else if opc = 0x11#8 then byteForm .ftCount imm
  else if opc = 0x12#8 then noneForm .ftScan imm
  else if opc = 0x20#8 then noneForm .pqClear imm
  else if opc = 0x21#8 then nodeForm .pqInsert imm
  else if opc = 0x22#8 then noneForm .pqExtract imm
  else if opc = 0x30#8 then noneForm .treeBuild imm
  else if opc = 0x40#8 then noneForm .codeGen imm
  else if opc = 0x50#8 then noneForm .bwReset imm
  else if opc = 0x51#8 then bitForm .bwPut imm
  else if opc = 0x52#8 then byteForm .bwPutCode imm
  else if opc = 0x53#8 then noneForm .bwFlush imm
  else if opc = 0x60#8 then noneForm .brReset imm
  else if opc = 0x61#8 then noneForm .brGet imm
  else if opc = 0x70#8 then noneForm .compress imm
  else if opc = 0x71#8 then noneForm .decompress imm
  else .illegal .reservedOpcode

/-- `decode(w)` of R87. -/
def decode (w : Word) : Decoded :=
  if rsvOf w ≠ 0#8 then .illegal .reservedBits else decodeOpc (opcOf w) (immOf w)

/-- The OPC value of a command (R81). -/
def opcode : Instr → BitVec 8
  | .nop => 0x00#8
  | .ftClear => 0x10#8
  | .ftCount _ => 0x11#8
  | .ftScan => 0x12#8
  | .pqClear => 0x20#8
  | .pqInsert _ => 0x21#8
  | .pqExtract => 0x22#8
  | .treeBuild => 0x30#8
  | .codeGen => 0x40#8
  | .bwReset => 0x50#8
  | .bwPut _ => 0x51#8
  | .bwPutCode _ => 0x52#8
  | .bwFlush => 0x53#8
  | .brReset => 0x60#8
  | .brGet => 0x61#8
  | .compress => 0x70#8
  | .decompress => 0x71#8

/-- The IMM field of a command: its operand, zero-extended (R82). -/
def immediate : Instr → BitVec 16
  | .ftCount b => b.setWidth 16
  | .pqInsert n => n.setWidth 16
  | .bwPut b => (BitVec.ofBool b).setWidth 16
  | .bwPutCode sym => sym.setWidth 16
  | .nop | .ftClear | .ftScan | .pqClear | .pqExtract | .treeBuild | .codeGen | .bwReset
  | .bwFlush | .brReset | .brGet | .compress | .decompress => 0#16

/-- The assembled word `OPC | (operand << 8)` (R88); RSV is 0 (R83). -/
def encode (i : Instr) : Word :=
  (opcode i).setWidth 32 ||| ((immediate i).setWidth 32 <<< 8)

/-- The command the decoder reads from a table word: the whole command is one 32-bit word (R86). -/
def decodeTableWord (nbits w : Nat) : Option Instr :=
  match decode (BitVec.ofNat 32 (w % 2 ^ nbits)) with
  | .command i => some i
  | .illegal _ => none

end Sys2Proof
end

