-- ==== Sys2Proof/Config.lean ====
section
/-! DEFINITION. What the platform or the implementation fixes (spec/00_scope.md R9), and the free values:
opaque constants with no body, so that nothing can be proved about the value drawn. -/

namespace Sys2Proof.Config

/-- NSYM: number of byte values. -/
def nsym : Nat := 256
/-- PQ_CAP: capacity of the priority queue in entries. -/
def pqCap : Nat := 511
/-- NODE_CAP: capacity of the node store. -/
def nodeCap : Nat := 511
/-- HDR_LEN: container header length in bytes. -/
def hdrLen : Nat := 1028
/-- MAX_CODE_LEN: largest code length in bits. -/
def maxCodeLen : Nat := 255
/-- WIN_SIZE: size of the register window in bytes. -/
def winSize : Nat := 0x8000
/-- ADDR_W as a size: the number of buffer-memory addresses. -/
def memSize : Nat := 2 ^ 32

/-- HUFF_BASE (OPEN): host address of the register window. -/
opaque huffBase : Nat
/-- IRQ_LINE (OPEN): which platform interrupt input the `irq` output drives. -/
opaque irqLine : Nat

/-- Free value: whether the core completes its command before the host's next access, where the host
is not waiting (LATENCY is OPEN, R302; notes/assumptions/4.md). The argument numbers the draw. -/
opaque coreFirst : Nat → Bool
/-- Free value: a register word "any value" (R34, R42; notes/assumptions/4.md). -/
opaque freeWord : Nat → Word
/-- Free value: a memory byte "any value" (R65, R293; notes/assumptions/4.md). -/
opaque freeByte : Nat → Byte
/-- Free value: how many bytes a command had written when a reset aborted it (R293; notes/assumptions/4.md). -/
opaque freeProgress : Nat → Nat
/-- Free value: whether the reset interrupted a further write (R293; notes/assumptions/4.md). -/
opaque freeInterrupted : Nat → Bool

end Sys2Proof.Config
end

