-- ==== Sys2Proof/Machine/State.lean ====
section
/-! DEFINITION. The machine's state as plain data: the block's own state (exactly spec/10_state.md R20),
the platform state its rules read and write (buffer memory, BUS_FAULT), and the model's own fields
(the host's pending accesses, the last bus answer, the counter of free values). -/

namespace Sys2Proof.Machine

/-- The values of STATUS.CODE (R260); their numbers are in Flags.lean. -/
inductive StatusCode where
  | ok
  | ioError
  | corruptContainer
  | emptyAlphabet
  | queueEmpty
  | queueFull
  | endOfData
  | illegalCommand
  | badArgument
  | badRegion
  | countOverflow
  | noCode
  deriving DecidableEq, Repr

/-- The values of STATUS.DETAIL (R261); `none` is 0. -/
inductive Detail where
  | none
  | srcReadFault
  | dstWriteFault
  | dstFull
  | headerShort
  | emptyAlphabet
  | freqSumMismatch
  | truncated
  deriving DecidableEq, Repr

/-- STATUS (R24). -/
structure Status where
  busy : Bool
  done : Bool
  code : StatusCode
  detail : Detail
  deriving DecidableEq, Repr

/-- INT (R27). -/
structure IntReg where
  donePend : Bool
  overrun : Bool
  deriving DecidableEq, Repr

/-- The region registers (R30). -/
structure Region where
  srcBase : Word
  srcLen : Word
  dstBase : Word
  dstCap : Word
  deriving DecidableEq, Repr

/-- The frequency table (R31): COUNT[0..255] and FT_TOTAL. -/
structure FreqTable where
  count : Vector Word 256
  total : Word
  deriving DecidableEq, Repr

/-- One entry of the node store (R34). -/
structure Node where
  weight : Weight
  leaf : Bool
  symbol : Byte
  left : NodeIx
  right : NodeIx
  deriving DecidableEq, Repr

/-- The tree (R33, R34): TREE_ROOT, NODE_COUNT and NODE[0..510]. -/
structure Tree where
  valid : Bool
  root : NodeIx
  nodeCount : BitVec 10
  nodes : Vector Node 511
  deriving DecidableEq, Repr

/-- An entry of the priority queue (R35, R120). -/
structure Entry where
  weight : Weight
  index : NodeIx
  deriving DecidableEq, Repr

/-- The bit writer (R37). -/
structure Writer where
  pending : Byte
  nbits : BitVec 4
  pos : Word
  deriving DecidableEq, Repr

/-- The bit reader (R38). -/
structure Reader where
  cur : Byte
  cursor : BitVec 4
  pos : Word
  deriving DecidableEq, Repr

/-- The `kind` of BUS_FAULT (R9). -/
inductive AccessKind where
  | read
  | write
  deriving DecidableEq, Repr

/-- One access of the host (R8, R304; the statements of R89). Offsets are into the register window. -/
inductive HostAction where
  /-- A read of `bytes` bytes at window offset `off` (RD is 4 bytes). -/
  | readReg (off : BitVec 15) (bytes : Nat)
  /-- A write of `v`, `bytes` bytes wide, at window offset `off` (WR and CMD are 4 bytes). -/
  | writeReg (off : BitVec 15) (bytes : Nat) (v : Word)
  /-- A read of one byte of buffer memory. -/
  | readMem (addr : Word)
  /-- A write of one byte of buffer memory (MEMW is one of these a byte). -/
  | writeMem (addr : Word) (v : Byte)
  /-- The platform makes BUS_FAULT(addr, kind) true or false. -/
  | setBusFault (kind : AccessKind) (addr : Word) (on : Bool)
  /-- WAIT: read STATUS until BUSY reads 0. -/
  | wait
  /-- The platform asserts and releases `rst` (R290). -/
  | rst
  deriving DecidableEq, Repr

/-- What the last host access answered on the host's bus. -/
inductive HostResp where
  /-- No data: after reset, after a write, after `rst`. -/
  | none
  /-- A register read answered this word. -/
  | word (v : Word)
  /-- A buffer-memory read answered this byte. -/
  | byte (v : Byte)
  /-- The block's bus error response (R66). -/
  | busError
  deriving DecidableEq, Repr

/-- The reasons a step can stop with a fault. -/
inductive Fault where
  /-- Raised by CODE_GEN and DECOMPRESS (and COMPRESS through CODE_GEN's body) when the tree's links
  name a node outside NODE[0..510], or a walk has taken 511 edges and met no leaf. R141 excludes both
  in every state the rules reach. Safe: the model stops where the pseudocode would not end
  (notes/assumptions/8.md). -/
  | treeWalk
  deriving DecidableEq, Repr

/-- The reasons a step can be refused. -/
inductive Refusal where
  /-- Raised by exec's arm of an instruction with no meaning yet; safe. No arm uses it now. -/
  | notModelled (mnemonic : String)
  /-- Raised by the step when the host's next access breaks the host duty of R77 while a command runs:
  the model offers the host no such move. Safe in a run that keeps the duty; it errs toward proving
  for a platform that breaks it, as the spec's 93 section 4 says (notes/assumptions/7.md). -/
  | hostDuty
  deriving DecidableEq, Repr

/-- The whole machine. -/
structure State where
  /-- The latched command word (R25): read only while BUSY = 1. -/
  cmdWord : Word
  status : Status
  /-- CTRL.IRQ_EN (R26). -/
  irqEn : Bool
  int : IntReg
  /-- RESULT (R28). -/
  result : Word
  /-- ERR_ADDR (R29). -/
  errAddr : Word
  region : Region
  /-- OUT_LEN (R32). -/
  outLen : Word
  /-- DECODED (R32). -/
  decoded : Word
  ft : FreqTable
  tree : Tree
  /-- PQ_ENTRIES (R35), in ascending key order; PQ_SIZE is its length. -/
  pq : List Entry
  /-- CODE_BITS[s] (R36); CODE_LEN[s] is its length, and the empty string is "no code". -/
  codes : Vector Bits 256
  bw : Writer
  br : Reader
  /-- Platform: buffer memory M (R60), ascending addresses, no entry that reads as an unlisted byte. -/
  mem : List Host.Cell
  /-- Platform: the (kind, address) pairs for which BUS_FAULT holds (R9). -/
  busFault : List (AccessKind × Word)
  /-- Model: the host's pending accesses, oldest first. -/
  inbox : List HostAction
  /-- Model: the last answer on the host's bus. -/
  resp : HostResp
  /-- Model: the number of the next free value. -/
  draws : Nat
  deriving DecidableEq, Repr

/-- A node store entry as State.reset holds it. The spec leaves it unspecified (R292) and no rule reads
it. DESIGN CHOICE, unsafe: notes/assumptions/1.md. -/
def Node.blank : Node :=
  { weight := 0, leaf := false, symbol := 0, left := 0, right := 0 }

/-- The block's part of the state after reset is the table of R45. Buffer memory lists nothing
(notes/assumptions/3.md), no address faults (notes/assumptions/5.md), and the host has nothing
pending (notes/assumptions/6.md). -/
def State.reset : State where
  cmdWord := 0
  status := { busy := false, done := false, code := .ok, detail := .none }
  irqEn := false
  int := { donePend := false, overrun := false }
  result := 0
  errAddr := 0
  region := { srcBase := 0, srcLen := 0, dstBase := 0, dstCap := 0 }
  outLen := 0
  decoded := 0
  ft := { count := Vector.replicate 256 0, total := 0 }
  tree := { valid := false, root := 0, nodeCount := 0, nodes := Vector.replicate 511 Node.blank }
  pq := []
  codes := Vector.replicate 256 []
  bw := { pending := 0, nbits := 0, pos := 0 }
  br := { cur := 0, cursor := 8, pos := 0 }
  mem := []
  busFault := []
  inbox := []
  resp := .none
  draws := 0

end Sys2Proof.Machine
end

