-- ==== Sys2Proof/Machine/Flags.lean ====
section
/-! DEFINITION. The numbers of STATUS.CODE and STATUS.DETAIL (spec/60_exceptions.md R260, R261), the
status and interrupt words as the window shows them (spec/10_state.md R24, R26, R27), and the irq
output (R43). -/

namespace Sys2Proof.Machine

/-- STATUS.CODE's value (R260). -/
def StatusCode.value : StatusCode → Byte
  | .ok => 0x00
  | .ioError => 0x01
  | .corruptContainer => 0x02
  | .emptyAlphabet => 0x03
  | .queueEmpty => 0x04
  | .queueFull => 0x05
  | .endOfData => 0x06
  | .illegalCommand => 0x10
  | .badArgument => 0x11
  | .badRegion => 0x12
  | .countOverflow => 0x13
  | .noCode => 0x14

/-- STATUS.DETAIL's value (R261). -/
def Detail.value : Detail → Byte
  | .none => 0x00
  | .srcReadFault => 0x01
  | .dstWriteFault => 0x02
  | .dstFull => 0x03
  | .headerShort => 0x01
  | .emptyAlphabet => 0x02
  | .freqSumMismatch => 0x03
  | .truncated => 0x04

/-- One bit as a word. -/
def bitWord (b : Bool) : Word := if b then 1 else 0

/-- STATUS as a word (R24): [0] BUSY, [1] DONE, [15:8] CODE, [23:16] DETAIL, other bits 0. -/
def Status.word (st : Status) : Word :=
  bitWord st.busy ||| (bitWord st.done <<< 1) ||| (st.code.value.setWidth 32 <<< 8) |||
    (st.detail.value.setWidth 32 <<< 16)

/-- INT as a word (R27): [0] DONE_PEND, [1] OVERRUN, other bits 0. -/
def IntReg.word (r : IntReg) : Word := bitWord r.donePend ||| (bitWord r.overrun <<< 1)

/-- W1C (R27): a 1 in bit 0 clears DONE_PEND, in bit 1 OVERRUN; a 0 leaves its bit, bits [31:2] are ignored. -/
def IntReg.writeOnes (r : IntReg) (v : Word) : IntReg :=
  { donePend := r.donePend && !v.getLsbD 0, overrun := r.overrun && !v.getLsbD 1 }

/-- The `irq` output (R43): CTRL.IRQ_EN and INT.DONE_PEND, level-sensitive. -/
def irq (s : State) : Bool := s.irqEn && s.int.donePend

/-- The platform's interrupt inputs as the block drives them (R269): `irq` reaches IRQ_LINE only. -/
def interruptInput (s : State) (line : Nat) : Bool := (line == Config.irqLine) && irq s

end Sys2Proof.Machine
end

