-- ==== Sys2Proof/Machine/Ops.lean ====
section
/-! DEFINITION. The operations every command is written over: buffer memory (spec/20_memory.md R60, R64,
R65), the command lifecycle (acceptance, raise, completion: spec/60_exceptions.md R266, R270, R271,
which take the place of exception entry and return), and the access to the register files. -/

namespace Sys2Proof.Machine

/-! ## Buffer memory -/

/-- What an address no write has listed reads as. DESIGN CHOICE, unsafe: notes/assumptions/3.md. -/
def unlistedByte : Byte := 0

/-- The byte at address `a`. -/
def Mem.read : List Host.Cell → Nat → Byte
  | [], _ => unlistedByte
  | (k, v) :: rest, a => if k = a then v else Mem.read rest a

/-- Set the byte at address `a`, keeping the canonical form. -/
def Mem.write : List Host.Cell → Nat → Byte → List Host.Cell
  | [], a, v => if v = unlistedByte then [] else [(a, v)]
  | (k, w) :: rest, a, v =>
    if a < k then
      if v = unlistedByte then (k, w) :: rest else (a, v) :: (k, w) :: rest
    else if a = k then
      if v = unlistedByte then rest else (a, v) :: rest
    else (k, w) :: Mem.write rest a v

/-- The canonical form: addresses strictly rising and inside the address space, no entry equal to what
an unlisted address reads as. -/
abbrev Mem.wf (m : List Host.Cell) : Prop :=
  m.Pairwise (fun c d => c.1 < d.1) ∧ ∀ c ∈ m, c.2 ≠ unlistedByte ∧ c.1 < Config.memSize

/-! ## Outcomes inside a command -/

/-- What `raise <Code>(<detail>, <info>)` names (R13, R266). -/
structure Raise where
  code : StatusCode
  detail : Detail
  addr : Option Word
  deriving DecidableEq, Repr

/-- How a piece of a command's pseudocode ends: with a value, with a raise, or where the model stops. -/
inductive Res (α : Type) where
  | ok (a : α) (s : State)
  | raise (e : Raise) (s : State)
  | fault (f : Fault)
  deriving Repr

/-- Sequencing: a raise ends the caller too (R266). -/
def Res.bind {α β : Type} (r : Res α) (f : α → State → Res β) : Res β :=
  match r with
  | .ok a s => f a s
  | .raise e s => .raise e s
  | .fault w => .fault w

/-- `raise C(0)`. -/
def raiseCode {α : Type} (code : StatusCode) (s : State) : Res α :=
  .raise { code := code, detail := .none, addr := none } s

/-- `raise CORRUPT_CONTAINER(d)`. -/
def raiseCorrupt {α : Type} (detail : Detail) (s : State) : Res α :=
  .raise { code := .corruptContainer, detail := detail, addr := none } s

/-- `raise IO_ERROR(d, a)`. -/
def raiseIo {α : Type} (detail : Detail) (addr : Word) (s : State) : Res α :=
  .raise { code := .ioError, detail := detail, addr := some addr } s

/-! ## The core's accesses -/

/-- BUS_FAULT(addr, kind) (R9). -/
def busFaults (s : State) (kind : AccessKind) (addr : Word) : Bool := s.busFault.contains (kind, addr)

/-- Count one free value as drawn. -/
def State.tick (s : State) : State := { s with draws := s.draws + 1 }

/-- `MemRead(addr, 1)` (R64). -/
def coreRead (addr : Word) (s : State) : Res Byte :=
  if busFaults s .read addr then raiseIo .srcReadFault addr s
  else .ok (Mem.read s.mem addr.toNat) s

/-- `MemWrite(addr, 1, v)` (R65). After a faulted write the byte is any value: a free byte. -/
def coreWrite (addr : Word) (v : Byte) (s : State) : Res Unit :=
  if busFaults s .write addr then
    raiseIo .dstWriteFault addr
      { s with mem := Mem.write s.mem addr.toNat (Config.freeByte s.draws), draws := s.draws + 1 }
  else .ok () { s with mem := Mem.write s.mem addr.toNat v }

/-! ## The command lifecycle -/

/-- Acceptance of the word `w` (R270), up to the decode: latch, BUSY, DONE, CODE, DETAIL, RESULT and
ERR_ADDR. INT is not changed. -/
def State.accept (w : Word) (s : State) : State :=
  { s with
    cmdWord := w
    status := { busy := true, done := false, code := .ok, detail := .none }
    result := 0
    errAddr := 0 }

/-- What a raise leaves (R266 item 2): CODE, DETAIL, and ERR_ADDR when an address is given. -/
def State.report (e : Raise) (s : State) : State :=
  { s with
    status := { s.status with code := e.code, detail := e.detail }
    errAddr := e.addr.getD s.errAddr }

/-- Completion (R271): BUSY 0, DONE 1, DONE_PEND 1. CODE and DETAIL stay. -/
def State.complete (s : State) : State :=
  { s with
    status := { s.status with busy := false, done := true }
    int := { s.int with donePend := true } }

/-- A command's end: by reaching the end of its pseudocode, or by a raise; both complete (R271). -/
def finish (r : Res Unit) : Host.Outcome State Fault Refusal :=
  match r with
  | .ok _ s => .next s.complete
  | .raise e s => .next (s.report e).complete
  | .fault f => .fault f

/-! ## The register files -/

/-- COUNT[b]. -/
def FreqTable.at (t : FreqTable) (b : Byte) : Word := t.count[b.toNat]'b.isLt

/-- COUNT[b] <- COUNT[b] + 1; FT_TOTAL <- FT_TOTAL + 1 (R102, R103). -/
def FreqTable.bump (t : FreqTable) (b : Byte) : FreqTable :=
  { count := t.count.set b.toNat (t.at b + 1) b.isLt, total := t.total + 1 }

/-- The all-zero table (R101). -/
def FreqTable.clear : FreqTable := { count := Vector.replicate 256 0, total := 0 }

/-- The exact sum of the counts, over the natural numbers (R229, R233). -/
def FreqTable.sum (t : FreqTable) : Nat := (t.count.toList.map BitVec.toNat).sum

/-- NODE[n], when n is an index of the node store. -/
def Tree.node (t : Tree) (n : NodeIx) : Option Node := t.nodes[n.toNat]?

/-- NIL (R9). -/
def nil : NodeIx := 0x1FF

/-- CODE_BITS[b] as the bit string of length CODE_LEN[b]; empty is "no code" (R36). -/
def codeOf (codes : Vector Bits 256) (b : Byte) : Bits := codes[b.toNat]'b.isLt

/-- The table with no code (R160). -/
def noCodes : Vector Bits 256 := Vector.replicate 256 []

end Sys2Proof.Machine
end

