-- ==== Sys2Proof/Machine/Operands.lean ====
section
/-! DEFINITION. What a command's operand names: the two regions and their addresses (spec/20_memory.md
R69, spec/46_orchestrator.md R236), and the little-endian integers of the container
(spec/00_scope.md R12). The immediate operands themselves are the constructors' arguments (R82). -/

namespace Sys2Proof.Machine

/-- `valid_src` (R69): the natural-number sum does not pass 2^32. -/
def Region.validSrc (r : Region) : Bool := r.srcBase.toNat + r.srcLen.toNat ≤ Config.memSize

/-- `valid_dst` (R69). -/
def Region.validDst (r : Region) : Bool := r.dstBase.toNat + r.dstCap.toNat ≤ Config.memSize

/-- `disjoint` (R69). -/
def Region.disjoint (r : Region) : Bool :=
  r.srcLen == 0 || r.dstCap == 0 ||
    r.srcBase.toNat + r.srcLen.toNat ≤ r.dstBase.toNat ||
    r.dstBase.toNat + r.dstCap.toNat ≤ r.srcBase.toNat

/-- What COMPRESS and DECOMPRESS require (R226). -/
def Region.codecOk (r : Region) : Bool := r.validSrc && r.validDst && r.disjoint

/-- The SRC region holds address `a` (R30). -/
def Region.inSrc (r : Region) (a : Word) : Bool :=
  r.srcBase.toNat ≤ a.toNat && a.toNat < r.srcBase.toNat + r.srcLen.toNat

/-- The DST region holds address `a` (R30). -/
def Region.inDst (r : Region) (a : Word) : Bool :=
  r.dstBase.toNat ≤ a.toNat && a.toNat < r.dstBase.toNat + r.dstCap.toNat

/-- The effective address `SRC_BASE + j` (R236). It cannot wrap for an in-region j of a valid region (R69). -/
def Region.srcAddr (r : Region) (j : Nat) : Word := r.srcBase + BitVec.ofNat 32 j

/-- The effective address `DST_BASE + o` (R236), and for DST_FULL `(DST_BASE + o) mod 2^32` (R264). -/
def Region.dstAddr (r : Region) (o : Nat) : Word := r.dstBase + BitVec.ofNat 32 o

/-- `LE32_bytes(v)` (R12). -/
def le32Bytes (v : Word) : List Byte :=
  [v.extractLsb' 0 8, v.extractLsb' 8 8, v.extractLsb' 16 8, v.extractLsb' 24 8]

/-- `LE32(b0, b1, b2, b3)` (R12). -/
def le32 (b0 b1 b2 b3 : Byte) : Word := b3 ++ b2 ++ b1 ++ b0

end Sys2Proof.Machine
end

