-- ==== Sys2Proof/Machine/BitReader.lean ====
section
/-! DEFINITION. The bitstream reader (spec/45_bitstream_reader.md R201 to R203). -/

namespace Sys2Proof.Machine

/-- The empty reader at SRC offset `pos` (R201, R229). -/
def Reader.emptyAt (pos : Word) : Reader := { cur := 0, cursor := 8, pos := pos }

/-- The next unread bit of BR_CUR, and the reader after it (R202). -/
def Reader.nextBit (r : Reader) : Bool := r.cur.getLsbD (7 - r.cursor.toNat)

/-- BR_CURSOR <- BR_CURSOR + 1. -/
def State.bitTaken (s : State) : State := { s with br := { s.br with cursor := s.br.cursor + 1 } }

/-- `get_bit()` (R202); `none` is EOD. -/
def getBit (s : State) : Res (Option Bool) :=
  if s.br.cursor = 8 then
    if s.region.srcLen.toNat ≤ s.br.pos.toNat then .ok none s
    else
      (coreRead (s.region.srcAddr s.br.pos.toNat) s).bind fun v s1 =>
        let s2 := { s1 with br := { cur := v, cursor := 0, pos := s1.br.pos + 1 } }
        .ok (some s2.br.nextBit) s2.bitTaken
  else .ok (some s.br.nextBit) s.bitTaken

/-- BR_RESET (R201). -/
def execBrReset (s : State) : Host.Outcome State Fault Refusal :=
  finish (.ok () { s with br := Reader.emptyAt 0 })

/-- BR_GET (R203). -/
def execBrGet (s : State) : Host.Outcome State Fault Refusal :=
  finish
    (if s.region.validSrc then
      (getBit s).bind fun bit s1 =>
        match bit with
        | none => raiseCode .endOfData s1
        | some b => .ok () { s1 with result := bitWord b }
    else raiseCode .badRegion s)

end Sys2Proof.Machine
end

