-- ==== Sys2Proof/Machine/BitWriter.lean ====
section
/-! DEFINITION. The bitstream writer (spec/44_bitstream_writer.md R181 to R185). -/

namespace Sys2Proof.Machine

/-- The empty writer at DST offset 0 (R181). -/
def Writer.empty : Writer := { pending := 0, nbits := 0, pos := 0 }

/-- `emit(v)` (R182). -/
def emit (v : Byte) (s : State) : Res Unit :=
  if s.region.dstCap.toNat ≤ s.bw.pos.toNat then
    raiseIo .dstFull (s.region.dstAddr s.bw.pos.toNat) s
  else
    (coreWrite (s.region.dstAddr s.bw.pos.toNat) v s).bind fun _ s1 =>
      .ok () { s1 with bw := { s1.bw with pos := s1.bw.pos + 1 } }

/-- The accumulated bits and one more, the new bit at the least significant end (R182). -/
def Writer.shifted (w : Writer) (b : Bool) : Byte :=
  BitVec.ofNat 8 (w.pending.toNat * 2 + b.toNat)

/-- BW_PENDING <- 0; BW_NBITS <- 0. -/
def State.dropPending (s : State) : State := { s with bw := { s.bw with pending := 0, nbits := 0 } }

/-- `put_bit(b)` (R182): when emit raises, the writer keeps its values from before. -/
def putBit (b : Bool) (s : State) : Res Unit :=
  if s.bw.nbits.toNat + 1 = 8 then
    (emit (s.bw.shifted b) s).bind fun _ s1 => .ok () s1.dropPending
  else
    .ok () { s with bw := { s.bw with pending := s.bw.shifted b, nbits := s.bw.nbits + 1 } }

/-- put_bit of each bit of a code, first code bit first (R184, R227). -/
def putBits : Bits → State → Res Unit
  | [], s => .ok () s
  | b :: bs, s => (putBit b s).bind fun _ s1 => putBits bs s1

/-- The partial byte, zero-padded in the unused low bits (R185). -/
def Writer.padded (w : Writer) : Byte :=
  BitVec.ofNat 8 (w.pending.toNat * 2 ^ (8 - w.nbits.toNat))

/-- BW_FLUSH without its region check (R185, R227 step 5). -/
def flushBody (s : State) : Res Unit :=
  if 0 < s.bw.nbits.toNat then
    (emit s.bw.padded s).bind fun _ s1 => .ok () s1.dropPending
  else .ok () s

/-- BW_RESET (R181). -/
def execBwReset (s : State) : Host.Outcome State Fault Refusal :=
  finish (.ok () { s with bw := Writer.empty })

/-- BW_PUT b (R183). -/
def execBwPut (b : Bool) (s : State) : Host.Outcome State Fault Refusal :=
  finish (if s.region.validDst then putBit b s else raiseCode .badRegion s)

/-- BW_PUT_CODE s (R184). -/
def execBwPutCode (sym : Byte) (s : State) : Host.Outcome State Fault Refusal :=
  finish
    (if s.region.validDst then
      if (codeOf s.codes sym).isEmpty then raiseCode .noCode s else putBits (codeOf s.codes sym) s
    else raiseCode .badRegion s)

/-- BW_FLUSH (R185). -/
def execBwFlush (s : State) : Host.Outcome State Fault Refusal :=
  finish (if s.region.validDst then flushBody s else raiseCode .badRegion s)

end Sys2Proof.Machine
end

