-- ==== Sys2Proof/Machine/CodeGenerator.lean ====
section
/-! DEFINITION. CODE_GEN (spec/43_code_generator.md R160, R161). -/

namespace Sys2Proof.Machine

/-- The most edges a walk from the root can take before it has met every node (NODE_CAP; R141: each edge
goes to a lower index). -/
def walkFuel : Nat := Config.nodeCap

/-- `visit(n, p)` (R160), LEFT first; nothing when the links leave the node store or the fuel is spent. -/
def visit (t : Tree) : Nat → NodeIx → Bits → Vector Bits 256 → Option (Vector Bits 256)
  | 0, _, _, _ => none
  | fuel + 1, n, p, codes =>
    match t.node n with
    | none => none
    | some node =>
      if node.leaf then some (codes.set node.symbol.toNat p node.symbol.isLt)
      else
        match visit t fuel node.left (p ++ [false]) codes with
        | none => none
        | some codes1 => visit t fuel node.right (p ++ [true]) codes1

/-- The code table of a tree (R160); a root that is a leaf gets the code "0" (R161). -/
def codesOf (t : Tree) : Option (Vector Bits 256) :=
  if t.valid then
    match t.node t.root with
    | none => none
    | some node =>
      if node.leaf then some (noCodes.set node.symbol.toNat [false] node.symbol.isLt)
      else visit t (walkFuel + 1) t.root [] noCodes
  else some noCodes

/-- CODE_GEN's pseudocode, which COMPRESS and DECOMPRESS run too. -/
def codeGenBody (s : State) : Res Unit :=
  match codesOf s.tree with
  | some codes => .ok () { s with codes := codes }
  | none => .fault .treeWalk

/-- CODE_GEN (R160). -/
def execCodeGen (s : State) : Host.Outcome State Fault Refusal := finish (codeGenBody s)

end Sys2Proof.Machine
end

