-- ==== Sys2Proof/Machine/FreqTable.lean ====
section
/-! DEFINITION. NOP (spec/46_orchestrator.md R225) and the frequency table commands
(spec/40_freq_table.md R101 to R103). -/

namespace Sys2Proof.Machine

/-- NOP (R225): nothing beyond acceptance and completion. -/
def execNop (s : State) : Host.Outcome State Fault Refusal := finish (.ok () s)

/-- FT_CLEAR (R101). -/
def execFtClear (s : State) : Host.Outcome State Fault Refusal :=
  finish (.ok () { s with ft := FreqTable.clear })

/-- The overflow check of FT_COUNT (R102): either field is at its maximum. -/
def FreqTable.full (t : FreqTable) (b : Byte) : Bool :=
  t.at b == 0xFFFFFFFF || t.total == 0xFFFFFFFF

/-- FT_COUNT b (R102). -/
def execFtCount (b : Byte) (s : State) : Host.Outcome State Fault Refusal :=
  finish (if s.ft.full b then raiseCode .countOverflow s else .ok () { s with ft := s.ft.bump b })

/-- The loop of FT_SCAN (R103): count SRC bytes j, j + 1, …, `n` of them. -/
def scanFrom : Nat → Nat → State → Res Unit
  | 0, _, s => .ok () s
  | n + 1, j, s =>
    (coreRead (s.region.srcAddr j) s).bind fun b s1 =>
      scanFrom n (j + 1) { s1 with ft := s1.ft.bump b }

/-- FT_SCAN without its region check: the body COMPRESS uses too (R103, R227). -/
def scanBody (s : State) : Res Unit :=
  scanFrom s.region.srcLen.toNat 0 { s with ft := FreqTable.clear }

/-- FT_SCAN (R103). -/
def execFtScan (s : State) : Host.Outcome State Fault Refusal :=
  finish (if s.region.validSrc then scanBody s else raiseCode .badRegion s)

end Sys2Proof.Machine
end

