-- ==== Sys2Proof/Machine/PriorityQueue.lean ====
section
/-! DEFINITION. The priority queue commands (spec/41_priority_queue.md R120 to R123). PQ_ENTRIES is a
multiset (R124), held in its one canonical order, ascending by key (notes/assumptions/9.md). -/

namespace Sys2Proof.Machine

/-- `e1 <key e2` (R120): by weight, then by index. -/
def Entry.keyLt (e1 e2 : Entry) : Bool :=
  e1.weight.toNat < e2.weight.toNat ||
    (e1.weight == e2.weight && e1.index.toNat < e2.index.toNat)

/-- Multiset union with one entry, keeping the canonical order. -/
def pqInsert (e : Entry) : List Entry → List Entry
  | [] => [e]
  | x :: xs => if x.keyLt e then x :: pqInsert e xs else e :: x :: xs

/-- The entry that is least under <key (R123), if any is held. -/
def pqLeast : List Entry → Option Entry
  | [] => none
  | x :: xs =>
    match pqLeast xs with
    | none => some x
    | some m => if m.keyLt x then some m else some x

/-- The least entry and the queue without one copy of it (R123). -/
def pqExtract (q : List Entry) : Option (Entry × List Entry) :=
  (pqLeast q).map fun e => (e, q.erase e)

/-- PQ_SIZE (R35), as the 10-bit field of the window. -/
def pqSize (s : State) : BitVec 10 := BitVec.ofNat 10 s.pq.length

/-- PQ_CLEAR (R121). -/
def execPqClear (s : State) : Host.Outcome State Fault Refusal := finish (.ok () { s with pq := [] })

/-- PQ_INSERT n (R122): BAD_ARGUMENT before QUEUE_FULL (R267). A node index the store does not have is at or
above every NODE_COUNT the rules reach, so it is a BAD_ARGUMENT too. -/
def execPqInsert (n : NodeIx) (s : State) : Host.Outcome State Fault Refusal :=
  finish
    (if s.tree.nodeCount.toNat ≤ n.toNat then raiseCode .badArgument s
    else if Config.pqCap ≤ s.pq.length then raiseCode .queueFull s
    else
      match s.tree.node n with
      | some node => .ok () { s with pq := pqInsert { weight := node.weight, index := n } s.pq }
      | none => raiseCode .badArgument s)

/-- PQ_EXTRACT (R123). -/
def execPqExtract (s : State) : Host.Outcome State Fault Refusal :=
  finish
    (match pqExtract s.pq with
    | some (e, rest) => .ok () { s with pq := rest, result := e.index.setWidth 32 }
    | none => raiseCode .queueEmpty s)

end Sys2Proof.Machine
end

