-- ==== Sys2Proof/Machine/TreeBuilder.lean ====
section
/-! DEFINITION. TREE_BUILD (spec/42_tree_builder.md R140). -/

namespace Sys2Proof.Machine

/-- The leaf of symbol `sym` with occurrence count `c`. -/
def leafNode (c : Word) (sym : Nat) : Node :=
  { weight := c.setWidth 40, leaf := true, symbol := BitVec.ofNat 8 sym, left := nil, right := nil }

/-- The leaves of the nonzero counts, ascending byte value from `sym` on. -/
def leavesFrom : List Word → Nat → List Node
  | [], _ => []
  | c :: cs, sym => if c = 0 then leavesFrom cs (sym + 1) else leafNode c sym :: leavesFrom cs (sym + 1)

/-- The leaves of a frequency table, in the order TREE_BUILD allocates them. -/
def leavesOf (t : FreqTable) : List Node := leavesFrom t.count.toList 0

/-- The build in progress: NODE, PQ_ENTRIES and the next free node index c. -/
structure Builder where
  nodes : Vector Node 511
  pq : List Entry
  next : Nat
  deriving DecidableEq, Repr

/-- NODE[c] <- node; pq_insert((node.WEIGHT, c)); c <- c + 1. -/
def Builder.add (b : Builder) (node : Node) : Builder :=
  { nodes := b.nodes.setIfInBounds b.next node
    pq := pqInsert { weight := node.weight, index := BitVec.ofNat 9 b.next } b.pq
    next := b.next + 1 }

/-- Write and seed the leaves, in index order. -/
def seedLeaves (leaves : List Node) (nodes : Vector Node 511) : Builder :=
  leaves.foldl Builder.add { nodes := nodes, pq := [], next := 0 }

/-- The internal node of the first and second extracted entries: the first becomes LEFT. -/
def mergedNode (a b : Entry) : Node :=
  { weight := a.weight + b.weight, leaf := false, symbol := 0, left := a.index, right := b.index }

/-- One merge, when PQ_SIZE > 1. -/
def Builder.merge (b : Builder) : Option Builder :=
  match pqExtract b.pq with
  | none => none
  | some (e1, q1) =>
    match pqExtract q1 with
    | none => none
    | some (e2, q2) => some (Builder.add { b with pq := q2 } (mergedNode e1 e2))

/-- `while PQ_SIZE > 1`, at most `n` times; k leaves take k - 1 merges (R141). -/
def mergeLoop : Nat → Builder → Builder
  | 0, b => b
  | n + 1, b =>
    match b.merge with
    | none => b
    | some b1 => mergeLoop n b1

/-- The whole build over a nonempty list of leaves. -/
def buildFrom (leaves : List Node) (nodes : Vector Node 511) : Builder :=
  mergeLoop leaves.length (seedLeaves leaves nodes)

/-- The tree a finished build leaves: its one remaining entry is the root. -/
def Builder.tree (b : Builder) (root : Entry) : Tree :=
  { valid := true, root := root.index, nodeCount := BitVec.ofNat 10 b.next, nodes := b.nodes }

/-- No tree: VALID = 0, ROOT = 0, NODE_COUNT = 0; the node store stays. -/
def Tree.cleared (t : Tree) : Tree := { t with valid := false, root := 0, nodeCount := 0 }

/-- TREE_BUILD's pseudocode (R140), which COMPRESS and DECOMPRESS run too. -/
def treeBody (s : State) : Res Unit :=
  let s0 := { s with pq := [], tree := s.tree.cleared }
  let leaves := leavesOf s.ft
  if leaves.isEmpty then
    if s.ft.total = 0 then .ok () s0 else raiseCode .emptyAlphabet s0
  else
    let b := buildFrom leaves s.tree.nodes
    match pqExtract b.pq with
    | some (root, rest) => .ok () { s0 with pq := rest, tree := b.tree root }
    | none => .ok () s0

/-- TREE_BUILD (R140). -/
def execTreeBuild (s : State) : Host.Outcome State Fault Refusal := finish (treeBody s)

end Sys2Proof.Machine
end

