-- ==== Sys2Proof/Machine/Codec.lean ====
section
/-! DEFINITION. COMPRESS and DECOMPRESS (spec/46_orchestrator.md R226, R227, R229, R230) and the container
header (R220). -/

namespace Sys2Proof.Machine

/-! ## COMPRESS -/

/-- The 1028 header bytes of a frequency table (R220). -/
def headerBytes (t : FreqTable) : List Byte :=
  le32Bytes t.total ++ t.count.toList.flatMap le32Bytes

/-- emit of each byte in turn. -/
def emitAll : List Byte → State → Res Unit
  | [], s => .ok () s
  | v :: vs, s => (emit v s).bind fun _ s1 => emitAll vs s1

/-- Step 4 (R227): SRC bytes j, j + 1, …, `n` of them, each one's code bits. -/
def encodeFrom : Nat → Nat → State → Res Unit
  | 0, _, s => .ok () s
  | n + 1, j, s =>
    (coreRead (s.region.srcAddr j) s).bind fun b s1 =>
      if (codeOf s1.codes b).isEmpty then raiseCode .noCode s1
      else (putBits (codeOf s1.codes b) s1).bind fun _ s2 => encodeFrom n (j + 1) s2

/-- Steps 1 and 2 (R227), after OUT_LEN <- 0 and the region check: table, tree, codes. -/
def compressSetup (s : State) : Res Unit :=
  let s0 := { s with outLen := 0 }
  if s.region.codecOk then
    (scanBody s0).bind fun _ s1 => (treeBody s1).bind fun _ s2 => codeGenBody s2
  else raiseCode .badRegion s0

/-- Steps 3 to 5 (R227): header, bitstream, flush, OUT_LEN. -/
def compressWrite (s : State) : Res Unit :=
  (emitAll (headerBytes s.ft) { s with bw := Writer.empty }).bind fun _ s1 =>
    (encodeFrom s1.region.srcLen.toNat 0 s1).bind fun _ s2 =>
      (flushBody s2).bind fun _ s3 => .ok () { s3 with outLen := s3.bw.pos }

/-- COMPRESS (R227). -/
def execCompress (s : State) : Host.Outcome State Fault Refusal :=
  finish ((compressSetup s).bind fun _ s1 => compressWrite s1)

/-! ## DECOMPRESS -/

/-- Read SRC bytes o, o + 1, …, `n` of them. -/
def readSrc : Nat → Nat → State → Res (List Byte)
  | 0, _, s => .ok [] s
  | n + 1, o, s =>
    (coreRead (s.region.srcAddr o) s).bind fun b s1 =>
      (readSrc n (o + 1) s1).bind fun bs s2 => .ok (b :: bs) s2

/-- The little-endian words of a byte string (R220). -/
def wordsOf : List Byte → List Word
  | b0 :: b1 :: b2 :: b3 :: rest => le32 b0 b1 b2 b3 :: wordsOf rest
  | _ => []

/-- The frequency table a header holds: T, then the 256 counts (R220). -/
def tableOf (h : List Byte) : FreqTable :=
  let ws := wordsOf h
  { count := ⟨⟨(List.range 256).map fun i => ws.getD (i + 1) 0⟩, by simp⟩, total := ws.getD 0 0 }

/-- A bit the walk needs: EOD is TRUNCATED (R230). -/
def needBit (s : State) : Res Bool :=
  (getBit s).bind fun bit s1 =>
    match bit with
    | none => raiseCorrupt .truncated s1
    | some b => .ok b s1

/-- The loop of `decode_symbol` (R230) from an internal node: LEFT on 0, RIGHT on 1, until a leaf. -/
def walkFrom : Nat → Node → State → Res Byte
  | 0, _, _ => .fault .treeWalk
  | fuel + 1, node, s =>
    (needBit s).bind fun b s1 =>
      match s1.tree.node (if b then node.right else node.left) with
      | none => .fault .treeWalk
      | some child => if child.leaf then .ok child.symbol s1 else walkFrom fuel child s1

/-- `decode_symbol()` (R230): a single-leaf tree takes one bit, of either value. -/
def decodeSymbol (s : State) : Res Byte :=
  match s.tree.node s.tree.root with
  | none => .fault .treeWalk
  | some node =>
    if node.leaf then (needBit s).bind fun _ s1 => .ok node.symbol s1 else walkFrom walkFuel node s

/-- Write one decoded symbol at DST offset DECODED (R229). -/
def storeSymbol (sym : Byte) (s : State) : Res Unit :=
  if s.region.dstCap.toNat ≤ s.decoded.toNat then
    raiseIo .dstFull (s.region.dstAddr s.decoded.toNat) s
  else
    (coreWrite (s.region.dstAddr s.decoded.toNat) sym s).bind fun _ s1 =>
      .ok () { s1 with decoded := s1.decoded + 1 }

/-- `while DECODED < FT_TOTAL` (R229), with `n` symbols left to decode. -/
def decodeFrom : Nat → State → Res Unit
  | 0, s => .ok () s
  | n + 1, s =>
    (decodeSymbol s).bind fun sym s1 => (storeSymbol sym s1).bind fun _ s2 => decodeFrom n s2

/-- The tree step of DECOMPRESS: EMPTY_ALPHABET is reported as CORRUPT_CONTAINER(EMPTY_ALPHABET) (90 C2). -/
def treeForContainer (s : State) : Res Unit :=
  match treeBody s with
  | .raise e s1 =>
    if e.code = .emptyAlphabet then raiseCorrupt .emptyAlphabet s1 else .raise e s1
  | .ok _ s1 => .ok () s1
  | .fault f => .fault f

/-- Steps 1 and 2 of R229, after OUT_LEN <- 0, DECODED <- 0 and the region check. -/
def decompressSetup (s : State) : Res Unit :=
  let s0 := { s with outLen := 0, decoded := 0 }
  if s.region.codecOk then
    if s.region.srcLen.toNat < Config.hdrLen then raiseCorrupt .headerShort s0
    else
      (readSrc Config.hdrLen 0 s0).bind fun h s1 =>
        (treeForContainer { s1 with ft := tableOf h }).bind fun _ s2 =>
          if s2.ft.sum = s2.ft.total.toNat then codeGenBody s2 else raiseCorrupt .freqSumMismatch s2
  else raiseCode .badRegion s0

/-- Step 3 of R229. -/
def decompressDecode (s : State) : Res Unit :=
  if s.ft.total = 0 then .ok () { s with outLen := 0 }
  else
    (decodeFrom s.ft.total.toNat { s with br := Reader.emptyAt (BitVec.ofNat 32 Config.hdrLen) }).bind
      fun _ s1 => .ok () { s1 with outLen := s1.decoded }

/-- DECOMPRESS (R229). -/
def execDecompress (s : State) : Host.Outcome State Fault Refusal :=
  finish ((decompressSetup s).bind fun _ s1 => decompressDecode s1)

end Sys2Proof.Machine
end

