-- ==== Sys2Proof/Machine/Dispatch.lean ====
section
/-! DEFINITION. One arm per command (spec/30_encoding.md R81). exec runs a command's rule to its completion
from the state acceptance has left (spec/60_exceptions.md R270, R271). -/

namespace Sys2Proof.Machine

def exec (i : Instr) (s : State) : Host.Outcome State Fault Refusal :=
  match i with
  | .nop => Sys2Proof.Machine.execNop s
  | .ftClear => Sys2Proof.Machine.execFtClear s
  | .ftCount b => Sys2Proof.Machine.execFtCount b s
  | .ftScan => Sys2Proof.Machine.execFtScan s
  | .pqClear => Sys2Proof.Machine.execPqClear s
  | .pqInsert n => Sys2Proof.Machine.execPqInsert n s
  | .pqExtract => Sys2Proof.Machine.execPqExtract s
  | .treeBuild => Sys2Proof.Machine.execTreeBuild s
  | .codeGen => Sys2Proof.Machine.execCodeGen s
  | .bwReset => Sys2Proof.Machine.execBwReset s
  | .bwPut b => Sys2Proof.Machine.execBwPut b s
  | .bwPutCode sym => Sys2Proof.Machine.execBwPutCode sym s
  | .bwFlush => Sys2Proof.Machine.execBwFlush s
  | .brReset => Sys2Proof.Machine.execBrReset s
  | .brGet => Sys2Proof.Machine.execBrGet s
  | .compress => Sys2Proof.Machine.execCompress s
  | .decompress => Sys2Proof.Machine.execDecompress s

end Sys2Proof.Machine
end

