-- ==== Sys2Proof/Machine/Sequencer.lean ====
section
/-! DEFINITION. The core sequencer (spec/00_scope.md R7, R8): running the latched command, and what of it
stays when `rst` aborts it (spec/70_reset_and_hazards.md R290, R293). -/

namespace Sys2Proof.Machine

/-- An accepted illegal word: ILLEGAL_COMMAND(0), and nothing else but completion (R84, R270). -/
def execIllegal (s : State) : Host.Outcome State Fault Refusal := finish (raiseCode .illegalCommand s)

/-- The core's step: the whole latched command (R7). -/
def coreStep (s : State) : Host.Outcome State Fault Refusal :=
  match decode s.cmdWord with
  | .command i => exec i s
  | .illegal _ => execIllegal s

/-- The writes of DST a command has made when it ends in `t`: the first DST offset and how many, one
after the other (each put_bit, header and decoded byte goes to the next offset: R182, R227, R229). -/
def dstWrites (i : Instr) (s t : State) : Nat × Nat :=
  match i with
  | .bwPut _ | .bwPutCode _ | .bwFlush => (s.bw.pos.toNat, t.bw.pos.toNat - s.bw.pos.toNat)
  | .compress =>
    match compressSetup s with
    | .ok _ _ => (0, t.bw.pos.toNat)
    | _ => (0, 0)
  | .decompress => (0, t.decoded.toNat)
  | .nop | .ftClear | .ftCount _ | .ftScan | .pqClear | .pqInsert _ | .pqExtract | .treeBuild
  | .codeGen | .bwReset | .brReset | .brGet => (0, 0)

/-- Buffer memory with DST bytes o, …, o + n - 1 taken from `new`. -/
def copyDst (r : Region) (new : List Host.Cell) : Nat → Nat → List Host.Cell → List Host.Cell
  | 0, _, m => m
  | n + 1, o, m =>
    copyDst r new n (o + 1) (Mem.write m (r.dstAddr o).toNat (Mem.read new (r.dstAddr o).toNat))

/-- Buffer memory after `rst` has aborted command `i` in state `s` (R293): the command's first writes stay,
how many is free, and one more may have been interrupted, which leaves any byte (notes/assumptions/4.md). -/
def abortedMem (i : Instr) (s : State) : List Host.Cell :=
  match exec i s with
  | .next t =>
    let first := (dstWrites i s t).1
    let count := (dstWrites i s t).2
    let k := Config.freeProgress s.draws
    if count ≤ k then t.mem
    else
      let m := copyDst s.region t.mem k first s.mem
      if Config.freeInterrupted s.draws then
        Mem.write m (s.region.dstAddr (first + k)).toNat (Config.freeByte s.draws)
      else m
  | .fault _ | .refused _ => s.mem

/-- The state after `rst` (R290, R292): the block's part is the table of R45; the platform's part and the
host's plans stay, buffer memory as `mem` says. -/
def resetBlock (mem : List Host.Cell) (s : State) : State :=
  { State.reset with mem := mem, busFault := s.busFault, inbox := s.inbox, draws := s.draws + 1 }

/-- `rst` (R290), idle or with a command running (R293). -/
def resetEvent (s : State) : State :=
  if s.status.busy then
    match decode s.cmdWord with
    | .command i => resetBlock (abortedMem i s) s
    | .illegal _ => resetBlock s.mem s
  else resetBlock s.mem s

end Sys2Proof.Machine
end

