-- ==== Sys2Proof/Machine/Window.lean ====
section
/-! DEFINITION. The register window (spec/10_state.md R23 to R43): what a host read of each offset returns
and what a host write of it does. -/

namespace Sys2Proof.Machine

/-- A register as the host reads it: the bits the spec defines, and a mask of the bits that are any
value (R34, R42). -/
structure RegView where
  fixed : Word
  free : Word
  deriving DecidableEq, Repr

/-- A register every bit of which the spec defines. -/
def RegView.of (w : Word) : RegView := { fixed := w, free := 0 }

/-- A read that returns any value. -/
def RegView.any : RegView := { fixed := 0, free := 0xFFFFFFFF }

/-- ID (R39). -/
def idWord : Word := 0x48554631

/-- TREE_ROOT (R23, R33): [8:0] ROOT, [31] VALID. ROOT reads 0 when VALID = 0. -/
def treeRootWord (t : Tree) : Word :=
  if t.valid then t.root.setWidth 32 ||| (1 <<< 31) else 0

/-- BW_STATE (R23): [7:0] BW_PENDING, [11:8] BW_NBITS. -/
def bwStateWord (w : Writer) : Word := w.pending.setWidth 32 ||| (w.nbits.setWidth 32 <<< 8)

/-- BR_STATE (R23): [7:0] BR_CUR, [11:8] BR_CURSOR. -/
def brStateWord (r : Reader) : Word := r.cur.setWidth 32 ||| (r.cursor.setWidth 32 <<< 8)

/-- Word `k` of NODE[i] (R34): NODE_WLO, NODE_WHI, NODE_LINK, NODE_SYM. -/
def nodeWord (n : Node) (k : Nat) : Word :=
  match k with
  | 0 => n.weight.setWidth 32
  | 1 => (n.weight >>> 32).setWidth 32
  | 2 => n.left.setWidth 32 ||| (n.right.setWidth 32 <<< 16)
  | _ => n.symbol.setWidth 32 ||| (bitWord n.leaf <<< 31)

/-- The bits of word `k` of NODE[i] that hold a field (R34); the others read 0. -/
def nodeMask (k : Nat) : Word :=
  match k with
  | 0 => 0xFFFFFFFF
  | 1 => 0x000000FF
  | 2 => 0x01FF01FF
  | _ => 0x800000FF

/-- NODE[i] word `k`: any value of its fields for i ≥ NODE_COUNT (R34). -/
def nodeView (t : Tree) (i k : Nat) : RegView :=
  if i < t.nodeCount.toNat then
    match t.nodes[i]? with
    | some n => .of (nodeWord n k)
    | none => { fixed := 0, free := nodeMask k }
  else { fixed := 0, free := nodeMask k }

/-- CODE_LEN[s] (R36). -/
def codeLen (c : Bits) : Byte := BitVec.ofNat 8 c.length

/-- CODE_WORD[j] (R36): bit 31 - k is code bit 32·j + k, or 0 past the code's end. -/
def codeWord (c : Bits) (j : Nat) : Word :=
  (List.range 32).foldl (fun w k => (w <<< 1) ||| bitWord (c.getD (32 * j + k) false)) 0

/-- Word `k` of CODE[s] (R36): CODE_LENW, CODE_WORD[0..7], reserved words. -/
def codeView (c : Bits) (k : Nat) : Word :=
  if k = 0 then (codeLen c).setWidth 32 else if k ≤ 8 then codeWord c (k - 1) else 0

/-- The control block, offsets 0x0000 to 0x03FC (R23). -/
def controlWord (s : State) (off : Nat) : Word :=
  match off with
  | 0x00 => idWord
  | 0x04 => 0
  | 0x08 => s.status.word
  | 0x0C => bitWord s.irqEn
  | 0x10 => s.int.word
  | 0x14 => s.result
  | 0x18 => s.errAddr
  | 0x20 => s.region.srcBase
  | 0x24 => s.region.srcLen
  | 0x28 => s.region.dstBase
  | 0x2C => s.region.dstCap
  | 0x30 => s.outLen
  | 0x34 => s.decoded
  | 0x38 => s.ft.total
  | 0x3C => treeRootWord s.tree
  | 0x40 => s.tree.nodeCount.setWidth 32
  | 0x44 => (pqSize s).setWidth 32
  | 0x48 => bwStateWord s.bw
  | 0x4C => s.bw.pos
  | 0x50 => brStateWord s.br
  | 0x54 => s.br.pos
  | _ => 0

/-- A read of the window at an aligned offset while idle (R23, R40, R42). -/
def idleView (s : State) (off : Nat) : RegView :=
  if off < 0x400 then .of (controlWord s off)
  else if off < 0x800 then .of (s.ft.at (BitVec.ofNat 8 ((off - 0x400) / 4)))
  else if off < 0x2000 then .of 0
  else if off < 0x3FF0 then nodeView s.tree ((off - 0x2000) / 16) ((off - 0x2000) % 16 / 4)
  else if off < 0x4000 then .of 0
  else .of (codeView (codeOf s.codes (BitVec.ofNat 8 ((off - 0x4000) / 64))) ((off - 0x4000) % 64 / 4))

/-- ID, STATUS, CTRL and INT: the registers that read true while busy (R42). -/
def readableBusy (off : Nat) : Bool := off == 0x00 || off == 0x08 || off == 0x0C || off == 0x10

/-- A read of the window at an aligned offset (R42). -/
def regView (s : State) (off : Nat) : RegView :=
  if s.status.busy && !readableBusy off then .any else idleView s off

/-- The word a host read returns: the defined bits, and a free word in the bits that are any value. -/
def RegView.word (v : RegView) (draw : Word) : Word :=
  if v.free = 0 then v.fixed else v.fixed ||| (draw &&& v.free)

/-- A host read of the window at an aligned offset. -/
def readWord (s : State) (off : Nat) : Word := (regView s off).word (Config.freeWord s.draws)

/-- A host write of a register that takes one at any time: CTRL and INT (R26, R27, R41). -/
def writeAnytime (off : Nat) (v : Word) (s : State) : State :=
  if off = 0x0C then { s with irqEn := v.getLsbD 0 }
  else if off = 0x10 then { s with int := s.int.writeOnes v }
  else s

/-- A host write while BUSY = 1 (R41): CTRL and INT take it, CMD sets OVERRUN (R272), the rest ignore it. -/
def writeBusy (off : Nat) (v : Word) (s : State) : State :=
  if off = 0x04 then { s with int := { s.int with overrun := true } } else writeAnytime off v s

/-- A host write while BUSY = 0 (R23, R40, R41). CMD accepts the word (R270); RO registers, reserved
offsets and reserved bits ignore it. -/
def writeIdle (off : Nat) (v : Word) (s : State) : State :=
  if off = 0x04 then s.accept v
  else if off = 0x20 then { s with region := { s.region with srcBase := v } }
  else if off = 0x24 then { s with region := { s.region with srcLen := v } }
  else if off = 0x28 then { s with region := { s.region with dstBase := v } }
  else if off = 0x2C then { s with region := { s.region with dstCap := v } }
  else if off = 0x38 then { s with ft := { s.ft with total := v } }
  else if 0x400 ≤ off ∧ off < 0x800 then
    { s with ft := { s.ft with count := s.ft.count.setIfInBounds ((off - 0x400) / 4) v } }
  else writeAnytime off v s

/-- A host write of the window at an aligned offset. -/
def writeWord (off : Nat) (v : Word) (s : State) : State :=
  if s.status.busy then writeBusy off v s else writeIdle off v s

/-- The host address of a window offset (R23, R61). -/
def hostAddress (off : BitVec 15) : Nat := Config.huffBase + off.toNat

end Sys2Proof.Machine
end

