-- ==== Sys2Proof/Machine/HostAgent.lean ====
section
/-! DEFINITION. The host agent (spec/00_scope.md R8, spec/70_reset_and_hazards.md R304): one access is one
step, and who moves next. -/

namespace Sys2Proof.Machine

/-- A host register access must be 32 bits wide and at a multiple of 4 (R66). -/
def accessOk (off : BitVec 15) (bytes : Nat) : Bool := bytes == 4 && off.toNat % 4 == 0

/-- The host duty of R77 forbids this access of buffer address `a` now: BUSY = 1 and `a` in a region the
access may not touch. -/
def dutyForbids (s : State) (touchesSrc : Bool) (a : Word) : Bool :=
  s.status.busy && (s.region.inDst a || (touchesSrc && s.region.inSrc a))

/-- BUS_FAULT(addr, kind) made true or false (R9, R304). -/
def changeFault (faults : List (AccessKind × Word)) (kind : AccessKind) (addr : Word) (on : Bool) :
    List (AccessKind × Word) :=
  if on then
    if faults.contains (kind, addr) then faults else (kind, addr) :: faults
  else faults.filter fun f => f != (kind, addr)

/-- One host access, already taken from the inbox. -/
def hostAct (a : HostAction) (s : State) : Host.Outcome State Fault Refusal :=
  match a with
  | .readReg off bytes =>
    if accessOk off bytes then .next { s with resp := .word (readWord s off.toNat) }
    else .next { s with resp := .busError }
  | .writeReg off bytes v =>
    if accessOk off bytes then .next { writeWord off.toNat v s with resp := .none }
    else .next { s with resp := .busError }
  | .readMem addr =>
    if dutyForbids s false addr then .refused .hostDuty
    else .next { s with resp := .byte (Mem.read s.mem addr.toNat) }
  | .writeMem addr v =>
    if dutyForbids s true addr then .refused .hostDuty
    else .next { s with mem := Mem.write s.mem addr.toNat v, resp := .none }
  | .setBusFault kind addr on =>
    if dutyForbids s true addr then .refused .hostDuty
    else .next { s with busFault := changeFault s.busFault kind addr on, resp := .none }
  | .wait => .next { s with resp := .word s.status.word }
  | .rst => .next (resetEvent s)

/-- The host has nothing to do but poll STATUS. -/
def hostWaits (s : State) : Bool :=
  match s.inbox with
  | [] => true
  | .wait :: _ => true
  | _ :: _ => false

/-- The core moves next: a command is running, and the host waits or the open latency has the core
finish first (R302; notes/assumptions/4.md). -/
def coreMoves (s : State) : Bool := s.status.busy && (hostWaits s || Config.coreFirst s.draws)

/-- The host's step: its oldest pending access; with none, the block stays idle (R280). -/
def hostStep (s : State) : Host.Outcome State Fault Refusal :=
  match s.inbox with
  | [] => .next s
  | a :: rest => hostAct a { s with inbox := rest, draws := s.draws + 1 }

/-- The core takes its command with the draw that let it move counted. -/
def machineStep (s : State) : Host.Outcome State Fault Refusal :=
  if coreMoves s then coreStep s.tick else hostStep s

/-- The machine with the word `w` accepted and the host waiting: the very next step runs it. -/
def placeCommand (w : Word) (s : State) : State := { s.accept w with inbox := [] }

end Sys2Proof.Machine
end

