-- ==== Sys2Proof/Machine/Step.lean ====
section
/-! DEFINITION. One step of the machine, and the host's way to place an instruction before it. The block
fetches nothing (spec/10_state.md R22): an instruction comes to run by a host write of CMD, so placing
one is its acceptance (notes/assumptions/11.md). -/

namespace Sys2Proof.Machine

/-- One step: the core runs its whole command, or the host makes one access, or nothing happens. -/
def step (s : State) : Host.Outcome State Fault Refusal := machineStep s

/-- The table word `w` of `nbits` bits accepted as the running command. -/
def State.withFetchWord (s : State) (nbits w : Nat) : State :=
  placeCommand (BitVec.ofNat 32 (w % 2 ^ nbits)) s

end Sys2Proof.Machine
end

