-- ==== Sys2Proof/WellFormed.lean ====
section
/-! DEFINITION. Which command words are well formed. A term of Instr always is (its operands have the
width of their form), so the checks are on the 32-bit word: the three of spec/30_encoding.md R84, and,
beside them, R82's own criterion by mask and match, from spec/opcode_table.json. -/

namespace Sys2Proof

/-- The operand forms of R82. -/
inductive OperandForm where
  | none
  | byte
  | node
  | bit
  deriving DecidableEq, Repr

/-- How many low bits of IMM the form uses; the bits above them must be 0 (R82). -/
def OperandForm.width : OperandForm → Nat
  | .none => 0
  | .byte => 8
  | .node => 9
  | .bit => 1

/-- The mask column of R82. -/
def OperandForm.mask : OperandForm → Word
  | .none => 0xFFFFFFFF#32
  | .byte => 0xFFFF00FF#32
  | .node => 0xFFFE00FF#32
  | .bit => 0xFFFFFEFF#32

/-- The opcode map of R81: each OPC value with its operand form. -/
def opcodeMap : List (BitVec 8 × OperandForm) :=
  [(0x00#8, .none), (0x10#8, .none), (0x11#8, .byte), (0x12#8, .none),
   (0x20#8, .none), (0x21#8, .node), (0x22#8, .none), (0x30#8, .none), (0x40#8, .none)] ++
  [(0x50#8, .none), (0x51#8, .bit), (0x52#8, .byte), (0x53#8, .none),
   (0x60#8, .none), (0x61#8, .none), (0x70#8, .none), (0x71#8, .none)]

/-- The form of an OPC value, when R81 lists it. -/
def formOf (opc : BitVec 8) : Option OperandForm :=
  (opcodeMap.find? fun row => row.1 == opc).map Prod.snd

/-- R84, first check: RSV is 0 (R83). -/
def reservedZero (w : Word) : Bool := w.toNat / 2 ^ 24 == 0

/-- R84, second check: OPC is in the table of R81. -/
def opcodeListed (w : Word) : Bool := (formOf (w.setWidth 8)).isSome

/-- R84, third check: every IMM bit above the form's operand is 0. An OPC R81 does not list has no
form, and the check holds of it. -/
def operandFits (w : Word) : Bool :=
  match formOf (w.setWidth 8) with
  | some form => w.toNat / 2 ^ 8 % 2 ^ 16 / 2 ^ form.width == 0
  | none => true

/-- A legal command word: none of R84's three conditions holds. -/
def WellFormed (w : Word) : Bool := reservedZero w && opcodeListed w && operandFits w

/-- R82: "A word w selects a command when (w AND mask) = match". -/
def selectsRow (w : Word) : Bool :=
  opcodeMap.any fun row => w &&& row.2.mask == row.1.setWidth 32

end Sys2Proof
end

