-- ==== Sys2Proof/Safety.lean ====
section
/-! DEFINITION. The terms in which claims are made: the state acceptance leaves, how a command ends, what it
keeps, the bytes of the regions and the bits of the streams, and the invariants of the machine
(spec/10_state.md R46, spec/42_tree_builder.md R141). -/

namespace Sys2Proof.Machine

/-! ## A command's start and end -/

/-- What acceptance leaves (R270): BUSY 1, DONE 0, CODE and DETAIL 0, RESULT and ERR_ADDR 0. -/
def Accepted (s : State) : Prop :=
  s.status = { busy := true, done := false, code := .ok, detail := .none } ∧ s.result = 0 ∧ s.errAddr = 0

/-- A completion with this CODE and DETAIL (R260, R261, R271). -/
def Ended (code : StatusCode) (detail : Detail) (t : State) : Prop :=
  t.status = { busy := false, done := true, code := code, detail := detail } ∧ t.int.donePend = true

/-! ## What a command keeps -/

/-- The pieces of state some command writes. STATUS and INT.DONE_PEND are not among them: every command
writes those. -/
inductive Part where
  | ft
  | tree
  | pq
  | codes
  | bw
  | br
  | result
  | errAddr
  | outLen
  | decoded
  | mem
  deriving DecidableEq, Repr

/-- `t` has this part as `s` has it; of buffer memory, every byte. -/
def keeps (p : Part) (s t : State) : Prop :=
  match p with
  | .ft => t.ft = s.ft
  | .tree => t.tree = s.tree
  | .pq => t.pq = s.pq
  | .codes => t.codes = s.codes
  | .bw => t.bw = s.bw
  | .br => t.br = s.br
  | .result => t.result = s.result
  | .errAddr => t.errAddr = s.errAddr
  | .outLen => t.outLen = s.outLen
  | .decoded => t.decoded = s.decoded
  | .mem => ∀ a, Mem.read t.mem a = Mem.read s.mem a

/-- What no command writes: the region registers, CTRL, INT.OVERRUN, and the platform's and the host's own side.
The latched word, which the spec leaves open once a command is complete (R25), is not among it. -/
def HostSideKept (s t : State) : Prop :=
  t.region = s.region ∧ t.irqEn = s.irqEn ∧ t.int.overrun = s.int.overrun ∧
    t.busFault = s.busFault ∧ t.inbox = s.inbox ∧ t.resp = s.resp

/-- Everything is kept but the parts listed (and STATUS and INT.DONE_PEND). -/
def KeptExcept (ps : List Part) (s t : State) : Prop :=
  HostSideKept s t ∧ ∀ p, p ∉ ps → keeps p s t

/-- Every byte of buffer memory outside the given addresses is kept. -/
def MemoryKeptBut (addrs : Nat → Prop) (s t : State) : Prop :=
  ∀ a, ¬ addrs a → Mem.read t.mem a = Mem.read s.mem a

/-! ## The regions' bytes -/

/-- Byte j of the SRC region. -/
def srcByte (s : State) (j : Nat) : Byte := Mem.read s.mem (s.region.srcAddr j).toNat

/-- Byte o of the DST region. -/
def dstByte (s : State) (o : Nat) : Byte := Mem.read s.mem (s.region.dstAddr o).toNat

/-- The first n bytes of the SRC region. -/
def srcPart (s : State) (n : Nat) : List Byte := (List.range n).map (srcByte s)

/-- The SRC region's bytes. -/
def srcBytes (s : State) : List Byte := srcPart s s.region.srcLen.toNat

/-- The first n bytes of the DST region. -/
def dstPart (s : State) (n : Nat) : List Byte := (List.range n).map (dstByte s)

/-- Reading SRC byte j faults. -/
def srcFaults (s : State) (j : Nat) : Bool := busFaults s .read (s.region.srcAddr j)

/-- Writing DST byte o faults. -/
def dstFaults (s : State) (o : Nat) : Bool := busFaults s .write (s.region.dstAddr o)

/-- No read of the first n SRC bytes faults. -/
def SrcReadableTo (s : State) (n : Nat) : Prop := ∀ j, j < n → srcFaults s j = false

/-- No write of the first n DST bytes faults. -/
def DstWritableTo (s : State) (n : Nat) : Prop := ∀ o, o < n → dstFaults s o = false

/-- No read of a SRC byte faults. -/
def SrcReadable (s : State) : Prop := SrcReadableTo s s.region.srcLen.toNat

/-- No write of a DST byte faults. -/
def DstWritable (s : State) : Prop := DstWritableTo s s.region.dstCap.toNat

/-! ## Streams -/

/-- Bit i of a byte stream, most significant bit of each byte first (R63, R186, R204). -/
def bitAt (bytes : Nat → Byte) (i : Nat) : Bool := (bytes (i / 8)).getLsbD (7 - i % 8)

/-- The bits of a list of bytes, in stream order. -/
def bitsOf (bytes : List Byte) : Bits :=
  (List.range (8 * bytes.length)).map (bitAt fun i => bytes.getD i 0)

/-- How many bits the writer has accepted since DST offset 0. -/
def bitsHeld (w : Writer) : Nat := 8 * w.pos.toNat + w.nbits.toNat

/-- Bit i of what the writer has accepted: in DST below BW_POS, in BW_PENDING above. -/
def acceptedBit (s : State) (i : Nat) : Bool :=
  if i < 8 * s.bw.pos.toNat then bitAt (dstByte s) i
  else s.bw.pending.getLsbD (s.bw.nbits.toNat - 1 - i % 8)

/-- How many bytes hold n bits: ceil(n / 8). -/
def bytesFor (n : Nat) : Nat := (n + 7) / 8

/-- The code bits of a message under a code table, in order (R222). -/
def codeBits (codes : Vector Bits 256) (msg : List Byte) : Bits := msg.flatMap (codeOf codes)

/-- The first n bytes of DST are those of a container (R220, R222): FT_TOTAL and the counts little-endian, then
`bits`, most significant bit first, and 0 past their end. -/
structure ContainerPrefix (t : State) (bits : Bits) (n : Nat) : Prop where
  total : ∀ k, k < 4 → k < n → (dstByte t k).toNat = t.ft.total.toNat / 256 ^ k % 256
  counts : ∀ (b : Byte) (k : Nat), k < 4 → 4 + 4 * b.toNat + k < n →
    (dstByte t (4 + 4 * b.toNat + k)).toNat = (t.ft.at b).toNat / 256 ^ k % 256
  stream : ∀ i, 1028 + i / 8 < n → bitAt (fun o => dstByte t (1028 + o)) i = bits.getD i false

/-! ## The tree -/

/-- The node reached from the root by a path, LEFT on 0 and RIGHT on 1 (R160). -/
def follow (t : Tree) : NodeIx → Bits → Option Node
  | n, [] => t.node n
  | n, b :: bs =>
    match t.node n with
    | none => none
    | some node => if node.leaf then none else follow t (if b then node.right else node.left) bs

/-- Node c of the tree has d as a child. -/
def hasChild (t : Tree) (c : Nat) (right : Bool) (d : Nat) : Prop :=
  ∃ n, t.nodes[c]? = some n ∧ n.leaf = false ∧ (if right then n.right else n.left).toNat = d

/-- The facts of R141 about a tree of k leaves: its leaves, its internal nodes, and that every node but
the root is the child of exactly one. -/
structure TreeShape (t : Tree) (k : Nat) : Prop where
  count : t.nodeCount.toNat = 2 * k - 1
  root : t.root.toNat = 2 * k - 2
  leaves : ∀ i, i < k → ∃ n, t.nodes[i]? = some n ∧ n.leaf = true ∧ n.left = nil ∧ n.right = nil
  symbols : ∀ i j m n, i < j → j < k → t.nodes[i]? = some m → t.nodes[j]? = some n →
    m.symbol.toNat < n.symbol.toNat
  internals : ∀ c, k ≤ c → c < 2 * k - 1 → ∃ n m1 m2, t.nodes[c]? = some n ∧ n.leaf = false ∧ n.symbol = 0 ∧
    n.left.toNat < c ∧ n.right.toNat < c ∧ n.left ≠ n.right ∧
    t.node n.left = some m1 ∧ t.node n.right = some m2 ∧
    n.weight.toNat = m1.weight.toNat + m2.weight.toNat
  parents : ∀ d, d < 2 * k - 2 → ∃ c right, k ≤ c ∧ c < 2 * k - 1 ∧ hasChild t c right d ∧
    ∀ c' right', k ≤ c' → c' < 2 * k - 1 → hasChild t c' right' d → c' = c ∧ right' = right

/-- The key order of R120 on the nodes of the store: by weight, then by index. -/
def nodeBefore (t : Tree) (d e : Nat) : Prop :=
  ∃ m n, t.nodes[d]? = some m ∧ t.nodes[e]? = some n ∧
    (m.weight.toNat < n.weight.toNat ∨ (m.weight = n.weight ∧ d < e))

/-- Node d is queued when node c of a tree of k leaves is made (R140): it was made before c, and no internal
node before c has it as a child. -/
def queuedAt (t : Tree) (k c d : Nat) : Prop :=
  d < c ∧ ∀ c' right, k ≤ c' → c' < c → ¬ hasChild t c' right d

/-- Internal node c merges the two least queued nodes, the least of all, which is extracted first, as LEFT
(R140, R120). -/
def mergesLeast (t : Tree) (k c : Nat) : Prop :=
  ∃ n, t.nodes[c]? = some n ∧ queuedAt t k c n.left.toNat ∧ queuedAt t k c n.right.toNat ∧
    nodeBefore t n.left.toNat n.right.toNat ∧
    ∀ d, queuedAt t k c d → d = n.left.toNat ∨ d = n.right.toNat ∨ nodeBefore t n.right.toNat d

/-- Two trees with the same TREE_ROOT, NODE_COUNT and NODE[0..NODE_COUNT-1] (R143). -/
structure SameTree (t u : Tree) : Prop where
  valid : t.valid = u.valid
  root : t.root = u.root
  nodeCount : t.nodeCount = u.nodeCount
  nodes : ∀ i, i < t.nodeCount.toNat → t.nodes[i]? = u.nodes[i]?

/-- The tree is the one that TREE_BUILD leaves for the table (R140). -/
def TreeOf (ft : FreqTable) (t : Tree) : Prop :=
  ∃ u v : State, Accepted u ∧ u.ft = ft ∧ exec .treeBuild u = .next v ∧ SameTree v.tree t

/-- TREE_ROOT and NODE_COUNT agree, and the tree is one R141 describes (R46, first two items). -/
def TreeInv (t : Tree) : Prop :=
  (t.valid = false ∧ t.root = 0 ∧ t.nodeCount = 0) ∨
    (t.valid = true ∧ ∃ k, 1 ≤ k ∧ k ≤ 256 ∧ TreeShape t k)

/-! ## The other invariants -/

/-- PQ_SIZE ≤ 511 (R46), the canonical order (the model's own, notes/assumptions/9.md), and each entry is a node
of the tree with its weight (R122). -/
def QueueInv (s : State) : Prop :=
  s.pq.length ≤ 511 ∧ s.pq.Pairwise (fun e1 e2 => e2.keyLt e1 = false) ∧
    ∀ e, e ∈ s.pq → e.index.toNat < s.tree.nodeCount.toNat ∧
      ∃ n, s.tree.node e.index = some n ∧ n.weight = e.weight

/-- BW_NBITS ≤ 7 and BW_PENDING < 2^BW_NBITS (R46). -/
def WriterInv (w : Writer) : Prop := w.nbits.toNat ≤ 7 ∧ w.pending.toNat < 2 ^ w.nbits.toNat

/-- BR_CURSOR ≤ 8 (R46). -/
def ReaderInv (r : Reader) : Prop := r.cursor.toNat ≤ 8

/-- CODE_LEN[s] ≤ 255 for every s (R46). -/
def CodesInv (codes : Vector Bits 256) : Prop := ∀ b, (codeOf codes b).length ≤ Config.maxCodeLen

/-- While a command runs, CODE, DETAIL, RESULT and ERR_ADDR are as acceptance left them (R24, R28, R29). -/
def RunningInv (s : State) : Prop := s.status.busy = true → Accepted s

/-- The invariant of the machine: R46, the canonical memory (the model's own form, notes/assumptions/3.md), and the
running command's registers. -/
structure Inv (s : State) : Prop where
  memory : Mem.wf s.mem
  tree : TreeInv s.tree
  queue : QueueInv s
  writer : WriterInv s.bw
  reader : ReaderInv s.br
  codes : CodesInv s.codes
  running : RunningInv s

end Sys2Proof.Machine
end

