-- ==== Sys2Proof/Certificates/Slice0/Obligations.lean ====
section
/-! DEFINITION. The statements for the provers. Each docstring names the rules of spec/ it formalises. -/

open Sys2Proof Sys2Proof.Machine

/-! ## Encoding (spec/30_encoding.md) -/

/-- Sanity, R81 and R88: words written out from the encoding table decode to their commands, and words that
break R84 do not. -/
def Obligations.SampleWordsDecode : Prop :=
  decode 0x00000000#32 = .command .nop ∧ decode 0x00006111#32 = .command (.ftCount 0x61#8) ∧
    decode 0x00012C21#32 = .command (.pqInsert 300#9) ∧ decode 0x00000030#32 = .command .treeBuild ∧
    decode 0x00000040#32 = .command .codeGen ∧ decode 0x00000151#32 = .command (.bwPut true) ∧
    decode 0x00006252#32 = .command (.bwPutCode 0x62#8) ∧ decode 0x00000061#32 = .command .brGet ∧
    decode 0x00000070#32 = .command .compress ∧ decode 0x80000070#32 = .illegal .reservedBits ∧
    decode 0x00000013#32 = .illegal .reservedOpcode ∧ decode 0x00020021#32 = .illegal .operandBits

/-- R87, R88: decoding the assembled word of any command gives it back, at every operand. -/
def Obligations.DecodeOfEncode : Prop := ∀ i : Instr, decode (encode i) = .command i

/-- R86, R87: a word that decodes to a command is the command's one assembled word. -/
def Obligations.EncodeOfDecode : Prop :=
  ∀ (w : Word) (i : Instr), decode w = .command i → encode i = w

/-- R82, R84: the decoder takes exactly the words that mask and match select, and those are exactly the
words none of R84's three conditions holds of. -/
def Obligations.LegalWordsByMaskAndMatch : Prop :=
  ∀ w : Word, ((∃ i, decode w = .command i) ↔ selectsRow w = true) ∧ WellFormed w = selectsRow w

/-! ## The step and the command lifecycle (spec/60_exceptions.md) -/

/-- R7, R270: when the core moves and the latched word decodes to i, the step is exec of i, with one free
value counted (the model's own counter); and a word placed by withFetchWord is run by the very next step. -/
def Obligations.StepRunsDecodedInstruction : Prop :=
  (∀ (s : State) (i : Instr), coreMoves s = true → decode s.cmdWord = .command i →
      step s = exec i s.tick) ∧
    ∀ (s : State) (nbits w : Nat) (i : Instr), decodeTableWord nbits w = some i →
      step (s.withFetchWord nbits w) = exec i (s.withFetchWord nbits w).tick

/-- R84: an accepted illegal word completes with ILLEGAL_COMMAND, DETAIL 0, and has no other effect. -/
def Obligations.IllegalWordOnlyCompletes : Prop :=
  ∀ (s : State) (why : Illegal), coreMoves s = true → Accepted s → decode s.cmdWord = .illegal why →
    ∃ t, step s = .next t ∧ Ended .illegalCommand .none t ∧ KeptExcept [] s t

/-- R272: a CMD write while busy sets INT.OVERRUN and changes nothing else. -/
def Obligations.CmdWriteWhileBusySetsOverrun : Prop :=
  ∀ (s : State) (w : Word), s.status.busy = true →
    hostAct (.writeReg 0x0004#15 4 w) s =
      .next { s with int := { donePend := s.int.donePend, overrun := true }, resp := .none }

/-- R270, R89: a host that writes the word of command i to CMD while idle and then waits runs it: one step
accepts the word (BUSY 1; DONE, CODE, DETAIL, RESULT and ERR_ADDR 0; INT and all else unchanged), the next
is exec of i from the accepted state, with one free value counted (the model's own counter). -/
def Obligations.HostRunsACommand : Prop :=
  ∀ (s : State) (w : Word) (i : Instr) (rest : List HostAction), s.status.busy = false →
    s.inbox = .writeReg 0x0004#15 4 w :: .wait :: rest → decode w = .command i →
    ∃ t, step s = .next t ∧ Accepted t ∧ t.cmdWord = w ∧ t.inbox = .wait :: rest ∧ t.int = s.int ∧
      t.region = s.region ∧ t.irqEn = s.irqEn ∧ t.busFault = s.busFault ∧
      (∀ p, p ≠ .result → p ≠ .errAddr → keeps p s t) ∧ step t = exec i t.tick

/-- R271: whatever a command that completes ends with, BUSY is 0, DONE is 1, DONE_PEND is 1, and OVERRUN is as it
was. -/
def Obligations.CompletionWritesBusyDonePend : Prop :=
  ∀ (i : Instr) (s t : State), exec i s = .next t →
    t.status.busy = false ∧ t.status.done = true ∧ t.int = { donePend := true, overrun := s.int.overrun }

/-- The CODE values R263 lists for each command. -/
def possibleCodes : Instr → List StatusCode
  | .nop | .ftClear | .pqClear | .codeGen | .bwReset | .brReset => [.ok]
  | .ftCount _ => [.ok, .countOverflow]
  | .ftScan => [.ok, .badRegion, .ioError]
  | .pqInsert _ => [.ok, .badArgument, .queueFull]
  | .pqExtract => [.ok, .queueEmpty]
  | .treeBuild => [.ok, .emptyAlphabet]
  | .bwPut _ | .bwFlush => [.ok, .badRegion, .ioError]
  | .bwPutCode _ => [.ok, .badRegion, .noCode, .ioError]
  | .brGet => [.ok, .badRegion, .endOfData, .ioError]
  | .compress => [.ok, .badRegion, .ioError, .noCode]
  | .decompress => [.ok, .badRegion, .corruptContainer, .ioError]

/-- The DETAIL values R261 gives a CODE. -/
def possibleDetails : StatusCode → List Detail
  | .ioError => [.srcReadFault, .dstWriteFault, .dstFull]
  | .corruptContainer => [.headerShort, .emptyAlphabet, .freqSumMismatch, .truncated]
  | _ => [.none]

/-- R263: a command completes with no CODE but those listed for it, an illegal word with ILLEGAL_COMMAND; R261:
DETAIL is 0 for every CODE but IO_ERROR and CORRUPT_CONTAINER, and one of their listed causes there. -/
def Obligations.PossibleStatusCodes : Prop :=
  (∀ (i : Instr) (s t : State), Accepted s → exec i s = .next t →
      t.status.code ∈ possibleCodes i ∧ t.status.detail ∈ possibleDetails t.status.code) ∧
    ∀ s t : State, Accepted s → execIllegal s = .next t → t.status.code = .illegalCommand

/-- The DST offset of the next byte a command would write: DECODED for DECOMPRESS, BW_POS for the others (R236). -/
def nextDstOffset (i : Instr) (t : State) : Nat :=
  match i with
  | .decompress => t.decoded.toNat
  | _ => t.bw.pos.toNat

/-- R264: ERR_ADDR stays 0 unless the command ends with IO_ERROR; then it is the address of a SRC byte whose read
faults, or that of the DST offset the command has reached (BW_POS, or DECODED for DECOMPRESS): below DST_CAP,
where the write faults, or at or past DST_CAP, the first byte that did not fit. COMPRESS and DECOMPRESS, which
start at offset 0, are full at DST_CAP itself. -/
def Obligations.ErrAddrNamesTheAccess : Prop :=
  ∀ (i : Instr) (s t : State), Accepted s → exec i s = .next t →
    (t.status.code ≠ .ioError → t.errAddr = 0) ∧
    (t.status.code = .ioError → t.status.detail = .srcReadFault →
      ∃ j, j < s.region.srcLen.toNat ∧ srcFaults s j = true ∧ t.errAddr = s.region.srcAddr j) ∧
    (t.status.code = .ioError → t.status.detail = .dstWriteFault →
      nextDstOffset i t < s.region.dstCap.toNat ∧ dstFaults s (nextDstOffset i t) = true ∧
        t.errAddr = s.region.dstAddr (nextDstOffset i t)) ∧
    (t.status.code = .ioError → t.status.detail = .dstFull →
      s.region.dstCap.toNat ≤ nextDstOffset i t ∧
        t.errAddr.toNat = (s.region.dstBase.toNat + nextDstOffset i t) % 2 ^ 32 ∧
        (i = .compress ∨ i = .decompress → nextDstOffset i t = s.region.dstCap.toNat))

/-- The parts each command may write, by R20 to R38 and the command's own rule. -/
def writtenParts : Instr → List Part
  | .nop => []
  | .ftClear | .ftCount _ => [.ft]
  | .ftScan => [.ft, .errAddr]
  | .pqClear | .pqInsert _ => [.pq]
  | .pqExtract => [.pq, .result]
  | .treeBuild => [.pq, .tree]
  | .codeGen => [.codes]
  | .bwReset => [.bw]
  | .bwPut _ | .bwPutCode _ | .bwFlush => [.bw, .errAddr, .mem]
  | .brReset => [.br]
  | .brGet => [.br, .result, .errAddr]
  | .compress => [.outLen, .ft, .tree, .pq, .codes, .bw, .errAddr, .mem]
  | .decompress => [.outLen, .decoded, .ft, .tree, .pq, .codes, .br, .errAddr, .mem]

/-- The frame of every command: each part of the state is written only by the commands that R28, R29 and
R31 to R38 name as its writers. The last clause is the model's choice (notes/assumptions/2.md): the spec leaves
the latched word open once a command is complete (R25), and the model keeps it. -/
def Obligations.OnlyTheNamedWritersWrite : Prop :=
  ∀ (i : Instr) (s t : State), exec i s = .next t →
    KeptExcept (writtenParts i) s t ∧ t.cmdWord = s.cmdWord

/-- The DST offsets from `first` on that a command which ended at offset `next` wrote: those below `next`, and
`next` itself when its write faulted. -/
def spanOffsets (first next : Nat) (t : State) (o : Nat) : Prop :=
  first ≤ o ∧ (o < next ∨ (o = next ∧ t.status.detail = .dstWriteFault))

/-- The DST offsets a command writes, from the state before and after it: the writer's from BW_POS on,
COMPRESS's from 0 to BW_POS, DECOMPRESS's from 0 to DECODED. -/
def writtenOffsets (i : Instr) (s t : State) (o : Nat) : Prop :=
  match i with
  | .bwPut _ | .bwPutCode _ | .bwFlush => spanOffsets s.bw.pos.toNat t.bw.pos.toNat t o
  | .compress => spanOffsets 0 t.bw.pos.toNat t o
  | .decompress => spanOffsets 0 t.decoded.toNat t o
  | _ => False

/-- R60, R236: a command changes no byte of buffer memory but those of the DST region at the offsets it has
written, each at `DST_BASE + o`. -/
def Obligations.MemoryWrittenOnlyInDst : Prop :=
  ∀ (i : Instr) (s t : State), exec i s = .next t →
    MemoryKeptBut (fun a => ∃ o, writtenOffsets i s t o ∧ o < s.region.dstCap.toNat ∧
      a = (s.region.dstAddr o).toNat) s t

/-- `valid_src` (R69), over the natural numbers. -/
def srcInSpace (r : Region) : Prop := r.srcBase.toNat + r.srcLen.toNat ≤ 2 ^ 32

/-- `valid_dst` (R69). -/
def dstInSpace (r : Region) : Prop := r.dstBase.toNat + r.dstCap.toNat ≤ 2 ^ 32

/-- `disjoint` (R69). -/
def regionsApart (r : Region) : Prop :=
  r.srcLen.toNat = 0 ∨ r.dstCap.toNat = 0 ∨ r.srcBase.toNat + r.srcLen.toNat ≤ r.dstBase.toNat ∨
    r.dstBase.toNat + r.dstCap.toNat ≤ r.srcBase.toNat

/-- The region requirement R69 gives a command. -/
def regionOk (i : Instr) (r : Region) : Prop :=
  match i with
  | .ftScan | .brGet => srcInSpace r
  | .bwPut _ | .bwPutCode _ | .bwFlush => dstInSpace r
  | .compress | .decompress => srcInSpace r ∧ dstInSpace r ∧ regionsApart r
  | _ => True

/-- R69, R226: a command whose region requirement fails ends with BAD_REGION, DETAIL 0, and no other effect
but OUT_LEN 0 (and DECODED 0 for DECOMPRESS); with the requirement met no command reports BAD_REGION, and
no in-region address wraps. The first three clauses say that what the other statements name validSrc, validDst
and codecOk are R69's inequalities. -/
def Obligations.BadRegionBeforeAnyOtherEffect : Prop :=
  ∀ (i : Instr) (s : State), Accepted s →
    (s.region.validSrc = true ↔ srcInSpace s.region) ∧ (s.region.validDst = true ↔ dstInSpace s.region) ∧
    (s.region.codecOk = true ↔ srcInSpace s.region ∧ dstInSpace s.region ∧ regionsApart s.region) ∧
    (¬ regionOk i s.region → ∃ t, exec i s = .next t ∧ Ended .badRegion .none t ∧
      (i ≠ .compress → i ≠ .decompress → KeptExcept [] s t) ∧
      (i = .compress → t.outLen = 0 ∧ KeptExcept [.outLen] s t) ∧
      (i = .decompress → t.outLen = 0 ∧ t.decoded = 0 ∧ KeptExcept [.outLen, .decoded] s t)) ∧
    (regionOk i s.region → ∀ t, exec i s = .next t → t.status.code ≠ .badRegion) ∧
    (srcInSpace s.region → ∀ j, j < s.region.srcLen.toNat →
      (s.region.srcAddr j).toNat = s.region.srcBase.toNat + j) ∧
    (dstInSpace s.region → ∀ o, o < s.region.dstCap.toNat →
      (s.region.dstAddr o).toNat = s.region.dstBase.toNat + o)

/-! ## The register window (spec/10_state.md) -/

/-- The offsets whose register a host may write while idle with plain effect (R23). -/
def plainRegister (off : Nat) : Prop :=
  off = 0x20 ∨ off = 0x24 ∨ off = 0x28 ∨ off = 0x2C ∨ off = 0x38 ∨ (0x400 ≤ off ∧ off < 0x800)

/-- R41, R68: while idle every RW and RW(idle) register takes the written value, as a read shows, and the write
only stores it: the others of them read as before, and all state but the region registers and the table, buffer
memory too, is kept. CTRL keeps bit 0 only and INT clears the bits written 1, at any time;
while busy CMD sets OVERRUN, and every other write is ignored. -/
def Obligations.HostWritesIdleAndBusy : Prop :=
  ∀ (s : State) (off : BitVec 15) (v : Word), off.toNat % 4 = 0 →
    ∃ t, hostAct (.writeReg off 4 v) s = .next t ∧
      (off.toNat = 0x0C → readWord t 0x0C = v &&& 1 ∧ t = { s with irqEn := t.irqEn, resp := .none }) ∧
      (off.toNat = 0x10 → readWord t 0x10 = s.int.word &&& ~~~v ∧ t = { s with int := t.int, resp := .none }) ∧
      (s.status.busy = false → plainRegister off.toNat → readWord t off.toNat = v ∧
        t = { s with region := t.region, ft := t.ft, resp := .none } ∧
        ∀ other : BitVec 15, other.toNat % 4 = 0 → plainRegister other.toNat → other ≠ off →
          readWord t other.toNat = readWord s other.toNat) ∧
      (s.status.busy = true → off.toNat = 0x04 →
        t = { s with int := { s.int with overrun := true }, resp := .none }) ∧
      (s.status.busy = true → off.toNat ≠ 0x04 → off.toNat ≠ 0x0C → off.toNat ≠ 0x10 →
        t = { s with resp := .none })

/-- The offsets of the window's reserved words (R23, R36). -/
def reservedOffset (off : Nat) : Prop :=
  off = 0x1C ∨ (0x58 ≤ off ∧ off < 0x400) ∨ (0x800 ≤ off ∧ off < 0x2000) ∨ (0x3FF0 ≤ off ∧ off < 0x4000) ∨
    (0x4000 ≤ off ∧ 0x24 ≤ off % 64)

/-- The offsets of the read-only registers (R23). -/
def readOnlyOffset (off : Nat) : Prop :=
  off = 0x00 ∨ off = 0x08 ∨ off = 0x14 ∨ off = 0x18 ∨ (0x30 ≤ off ∧ off ≤ 0x34) ∨ (0x3C ≤ off ∧ off ≤ 0x54) ∨
    (0x2000 ≤ off ∧ off < 0x3FF0) ∨ 0x4000 ≤ off

/-- R40: a reserved offset reads 0 while idle, the reserved bits of every register read 0, and a write of a
reserved offset or of a read-only register has no effect. -/
def Obligations.ReservedReadsZeroAndIgnoresWrites : Prop :=
  ∀ (s : State) (off : BitVec 15) (v : Word), off.toNat % 4 = 0 → s.status.busy = false →
    (reservedOffset off.toNat → readWord s off.toNat = 0) ∧
    (reservedOffset off.toNat ∨ readOnlyOffset off.toNat →
      hostAct (.writeReg off 4 v) s = .next { s with resp := .none }) ∧
    readWord s 0x08 &&& 0xFF0000FC#32 = 0 ∧ readWord s 0x0C &&& 0xFFFFFFFE#32 = 0 ∧
    readWord s 0x10 &&& 0xFFFFFFFC#32 = 0 ∧ readWord s 0x3C &&& 0x7FFFFE00#32 = 0 ∧
    readWord s 0x40 &&& 0xFFFFFC00#32 = 0 ∧ readWord s 0x44 &&& 0xFFFFFC00#32 = 0 ∧
    readWord s 0x48 &&& 0xFFFFF000#32 = 0 ∧ readWord s 0x50 &&& 0xFFFFF000#32 = 0 ∧
    (0x2000 ≤ off.toNat → off.toNat < 0x3FF0 →
      readWord s off.toNat &&& ~~~(nodeMask (off.toNat % 16 / 4)) = 0) ∧
    (0x4000 ≤ off.toNat → off.toNat % 64 = 0 → readWord s off.toNat &&& 0xFFFFFF00#32 = 0)

/-- R39: ID reads 0x48554631 in every state, and a host write of it changes nothing. -/
def Obligations.IdIsConstant : Prop :=
  ∀ (s : State) (v : Word), readWord s 0x0000 = 0x48554631#32 ∧
    hostAct (.writeReg 0x0000#15 4 v) s = .next { s with resp := .none }

/-- The numbers of STATUS.CODE (R260). -/
def codeNumber : StatusCode → Nat
  | .ok => 0x00
  | .ioError => 0x01
  | .corruptContainer => 0x02
  | .emptyAlphabet => 0x03
  | .queueEmpty => 0x04
  | .queueFull => 0x05
  | .endOfData => 0x06
  | .illegalCommand => 0x10
  | .badArgument => 0x11
  | .badRegion => 0x12
  | .countOverflow => 0x13
  | .noCode => 0x14

/-- The numbers of STATUS.DETAIL (R261). -/
def detailNumber : Detail → Nat
  | .none => 0x00
  | .srcReadFault => 0x01
  | .dstWriteFault => 0x02
  | .dstFull => 0x03
  | .headerShort => 0x01
  | .emptyAlphabet => 0x02
  | .freqSumMismatch => 0x03
  | .truncated => 0x04

/-- STATUS, CTRL and INT as numbers, with the places of their fields (R24, R26, R27) and the CODE and DETAIL
numbers (R260, R261). -/
def controlReads (s : State) : Prop :=
  (readWord s 0x08).toNat =
      s.status.busy.toNat + 2 * s.status.done.toNat + 2 ^ 8 * codeNumber s.status.code +
        2 ^ 16 * detailNumber s.status.detail ∧
    (readWord s 0x0C).toNat = s.irqEn.toNat ∧
    (readWord s 0x10).toNat = s.int.donePend.toNat + 2 * s.int.overrun.toNat

/-- The other registers of the control block and the counts, as R23, R25 and R28 to R38 lay them out. -/
def idleReads (s : State) : Prop :=
  readWord s 0x04 = 0 ∧ readWord s 0x14 = s.result ∧ readWord s 0x18 = s.errAddr ∧
    readWord s 0x20 = s.region.srcBase ∧ readWord s 0x24 = s.region.srcLen ∧ readWord s 0x28 = s.region.dstBase ∧
    readWord s 0x2C = s.region.dstCap ∧ readWord s 0x30 = s.outLen ∧ readWord s 0x34 = s.decoded ∧
    readWord s 0x38 = s.ft.total ∧ (∀ b : Byte, readWord s (0x400 + 4 * b.toNat) = s.ft.at b) ∧
    (readWord s 0x3C).toNat = (if s.tree.valid then s.tree.root.toNat + 2 ^ 31 else 0) ∧
    (readWord s 0x40).toNat = s.tree.nodeCount.toNat ∧
    (s.pq.length ≤ 511 → (readWord s 0x44).toNat = s.pq.length) ∧
    (readWord s 0x48).toNat = s.bw.pending.toNat + 2 ^ 8 * s.bw.nbits.toNat ∧ readWord s 0x4C = s.bw.pos ∧
    (readWord s 0x50).toNat = s.br.cur.toNat + 2 ^ 8 * s.br.cursor.toNat ∧ readWord s 0x54 = s.br.pos

/-- R23, R24, R42, R68: a host read answers the register and has no side effect; STATUS, CTRL and INT read their
values at any time, STATUS being BUSY alone while a command runs, with the numbers of R260 and R261 for CODE and
DETAIL; while idle, after any command too, every register of the control block and every count reads what the
state holds. -/
def Obligations.RegistersReadTheState : Prop :=
  ∀ s : State,
    (∀ off : BitVec 15, off.toNat % 4 = 0 →
      hostAct (.readReg off 4) s = .next { s with resp := .word (readWord s off.toNat) }) ∧
    controlReads s ∧ (s.status.busy = false → idleReads s) ∧ (Accepted s → readWord s 0x08 = 1) ∧
    ∀ i t, Accepted s → exec i s = .next t →
      (readWord t 0x08).toNat = 2 + 2 ^ 8 * codeNumber t.status.code + 2 ^ 16 * detailNumber t.status.detail ∧
        idleReads t

/-- R66: a host access of another width or alignment gets a bus error response and has no effect on any state. -/
def Obligations.MisalignedAccessHasNoEffect : Prop :=
  ∀ (s : State) (off : BitVec 15) (bytes : Nat) (v : Word), (bytes ≠ 4 ∨ off.toNat % 4 ≠ 0) →
    hostAct (.readReg off bytes) s = .next { s with resp := .busError } ∧
      hostAct (.writeReg off bytes v) s = .next { s with resp := .busError }

/-- R34, R36: while idle the window shows NODE[i] for i < NODE_COUNT, its weight in two words, its links and its
symbol and leaf bit; and CODE[s], its length, bit 31 - k of CODE_WORD[j] being code bit 32·j + k, or 0 past
the code's end. -/
def Obligations.WindowShowsNodesAndCodes : Prop :=
  (∀ (s : State) (sym : Byte) (j k : Nat), s.status.busy = false → j < 8 → k < 32 →
    (codeOf s.codes sym).length ≤ 255 →
    (readWord s (0x4000 + 64 * sym.toNat)).toNat = (codeOf s.codes sym).length ∧
      (readWord s (0x4004 + 64 * sym.toNat + 4 * j)).getLsbD (31 - k) =
        (codeOf s.codes sym).getD (32 * j + k) false) ∧
  ∀ (s : State) (i : Nat) (n : Node), s.status.busy = false → i < s.tree.nodeCount.toNat →
    s.tree.nodes[i]? = some n →
    (readWord s (0x2000 + 16 * i)).toNat = n.weight.toNat % 2 ^ 32 ∧
      (readWord s (0x2004 + 16 * i)).toNat = n.weight.toNat / 2 ^ 32 ∧
      (readWord s (0x2008 + 16 * i)).toNat = n.left.toNat + 2 ^ 16 * n.right.toNat ∧
      (readWord s (0x200C + 16 * i)).toNat = n.symbol.toNat + 2 ^ 31 * n.leaf.toNat

/-- The SRC region holds address a (R30). -/
def srcHolds (r : Region) (a : Word) : Prop :=
  r.srcBase.toNat ≤ a.toNat ∧ a.toNat < r.srcBase.toNat + r.srcLen.toNat

/-- The DST region holds address a (R30). -/
def dstHolds (r : Region) (a : Word) : Prop :=
  r.dstBase.toNat ≤ a.toNat ∧ a.toNat < r.dstBase.toNat + r.dstCap.toNat

/-- R8, R60, R77, R304: while a command runs the model offers the host no write of SRC, no access to DST and no
change of BUS_FAULT in either region (its refusal hostDuty, notes/assumptions/7.md); every other access, and each
one while idle, is made: a read answers the byte and changes nothing, a write sets that byte alone, and a change
of BUS_FAULT sets that pair alone. -/
def Obligations.HostMemoryMovesAndDuty : Prop :=
  ∀ (s : State) (a : Word) (v : Byte) (kind : AccessKind) (on : Bool),
    (s.status.busy = true → dstHolds s.region a →
      hostAct (.readMem a) s = .refused .hostDuty ∧ hostAct (.writeMem a v) s = .refused .hostDuty ∧
        hostAct (.setBusFault kind a on) s = .refused .hostDuty) ∧
    (s.status.busy = true → srcHolds s.region a →
      hostAct (.writeMem a v) s = .refused .hostDuty ∧
        hostAct (.setBusFault kind a on) s = .refused .hostDuty) ∧
    (s.status.busy = false ∨ ¬ dstHolds s.region a →
      hostAct (.readMem a) s = .next { s with resp := .byte (Mem.read s.mem a.toNat) }) ∧
    (s.status.busy = false ∨ (¬ dstHolds s.region a ∧ ¬ srcHolds s.region a) → Mem.wf s.mem →
      ∃ t, hostAct (.writeMem a v) s = .next t ∧ t = { s with mem := t.mem, resp := .none } ∧
        Mem.read t.mem a.toNat = v ∧ MemoryKeptBut (fun b => b = a.toNat) s t) ∧
    (s.status.busy = false ∨ (¬ dstHolds s.region a ∧ ¬ srcHolds s.region a) →
      ∃ t, hostAct (.setBusFault kind a on) s = .next t ∧ t = { s with busFault := t.busFault, resp := .none } ∧
        busFaults t kind a = on ∧
        ∀ k b, k ≠ kind ∨ b ≠ a → busFaults t k b = busFaults s k b)

/-- R43, R269: irq is CTRL.IRQ_EN and DONE_PEND, so after any command, an error too, it is CTRL.IRQ_EN; it
is 0 at reset; and after a host has written 1 to INT bit 0 it is 0. -/
def Obligations.IrqFollowsCompletion : Prop :=
  (∀ s : State, irq s = true ↔ s.irqEn = true ∧ s.int.donePend = true) ∧ irq State.reset = false ∧
    (∀ (i : Instr) (s t : State), exec i s = .next t → irq t = s.irqEn) ∧
    ∀ (s t : State) (v : Word), v.getLsbD 0 = true → hostAct (.writeReg 0x0010#15 4 v) s = .next t →
      irq t = false

/-- R45, R291: after reset the host reads ID 0x48554631, BR_STATE 0x00000800, and 0 from every other offset
outside the node store; the core is idle and irq is 0. -/
def Obligations.ResetRegisterValues : Prop :=
  readWord State.reset 0x00 = 0x48554631#32 ∧ readWord State.reset 0x50 = 0x00000800#32 ∧
    State.reset.status.busy = false ∧ irq State.reset = false ∧
    ∀ off : BitVec 15, off.toNat % 4 = 0 → off.toNat ≠ 0x00 → off.toNat ≠ 0x50 →
      (off.toNat < 0x2000 ∨ 0x3FF0 ≤ off.toNat) → readWord State.reset off.toNat = 0

/-- R290, R292, R293: `rst` puts every register of the block to its reset value and reports no completion; idle
it leaves buffer memory alone, and busy it changes no byte outside the DST region. Two clauses are the model's:
the host's remaining accesses stay (notes/assumptions/15.md), and so does BUS_FAULT, which is the platform's
(notes/assumptions/5.md). -/
def Obligations.ResetEventRestoresTheBlock : Prop :=
  ∀ s : State, ∃ t, hostAct .rst s = .next t ∧
    t.status = State.reset.status ∧ t.int = State.reset.int ∧ t.irqEn = false ∧ t.region = State.reset.region ∧
    (∀ p, p ≠ .mem → p ≠ .tree → keeps p State.reset t) ∧
    t.tree.valid = false ∧ t.tree.root = 0 ∧ t.tree.nodeCount = 0 ∧
    t.busFault = s.busFault ∧ t.inbox = s.inbox ∧
    (s.status.busy = false → keeps .mem s t) ∧
    MemoryKeptBut (fun a => ∃ o, o < s.region.dstCap.toNat ∧ a = (s.region.dstAddr o).toNat) s t

/-! ## NOP and the frequency table (spec/40_freq_table.md) -/

/-- R225: NOP completes with OK and does nothing beyond acceptance and completion. -/
def Obligations.NopOnlyCompletes : Prop :=
  encode .nop = 0x00000000#32 ∧
    ∀ s : State, Accepted s →
      ∃ t, exec .nop s = .next t ∧ Ended .ok .none t ∧ KeptExcept [] s t ∧ t.result = 0 ∧ t.errAddr = 0 ∧
        readWord t 0x08 = 2

/-- R101: FT_CLEAR sets every COUNT and FT_TOTAL to 0 and touches nothing else. -/
def Obligations.FtClearZeroesTheTable : Prop :=
  encode .ftClear = 0x00000010#32 ∧
    ∀ s : State, Accepted s →
      ∃ t, exec .ftClear s = .next t ∧ Ended .ok .none t ∧ (∀ b, t.ft.at b = 0) ∧ t.ft.total = 0 ∧
        KeptExcept [.ft] s t

/-- R102: FT_COUNT b adds one to COUNT[b] and to FT_TOTAL; when either is at its maximum it reports
COUNT_OVERFLOW and changes no state. -/
def Obligations.FtCountAddsOne : Prop :=
  ∀ (b : Byte) (s : State), Accepted s →
    (encode (.ftCount b)).toNat = 0x11 + 256 * b.toNat ∧
    ∃ t, exec (.ftCount b) s = .next t ∧
      if (s.ft.at b).toNat = 2 ^ 32 - 1 ∨ s.ft.total.toNat = 2 ^ 32 - 1 then
        Ended .countOverflow .none t ∧ KeptExcept [] s t
      else
        Ended .ok .none t ∧ KeptExcept [.ft] s t ∧ t.ft.total.toNat = s.ft.total.toNat + 1 ∧
          (t.ft.at b).toNat = (s.ft.at b).toNat + 1 ∧ ∀ c, c ≠ b → t.ft.at c = s.ft.at c

/-- The table of a byte string (R100): the count of each byte value, and the total. -/
def countsOf (t : FreqTable) (msg : List Byte) : Prop :=
  (∀ b, (t.at b).toNat = msg.count b) ∧ t.total.toNat = msg.length

/-- R103, R104: FT_SCAN of a valid region leaves the counts of the SRC bytes and their number, which is the sum of
the counts and SRC_LEN, or, when the read of byte j is the first to fault, those of bytes 0 to j - 1 with
IO_ERROR and the address of byte j; a region that is not valid gives BAD_REGION and changes nothing. -/
def Obligations.FtScanCountsTheSource : Prop :=
  ∀ s : State, Accepted s →
    (s.region.validSrc = false →
      ∃ t, exec .ftScan s = .next t ∧ Ended .badRegion .none t ∧ KeptExcept [] s t) ∧
    (s.region.validSrc = true → SrcReadable s →
      ∃ t, exec .ftScan s = .next t ∧ Ended .ok .none t ∧ KeptExcept [.ft] s t ∧
        countsOf t.ft (srcBytes s) ∧ t.ft.sum = t.ft.total.toNat ∧ t.ft.total = s.region.srcLen ∧
        (t.ft.total ≠ 0 → ∃ b, t.ft.at b ≠ 0)) ∧
    (s.region.validSrc = true → ∀ j, j < s.region.srcLen.toNat → srcFaults s j = true →
      (∀ k, k < j → srcFaults s k = false) →
      ∃ t, exec .ftScan s = .next t ∧ Ended .ioError .srcReadFault t ∧ KeptExcept [.ft, .errAddr] s t ∧
        t.errAddr = s.region.srcAddr j ∧ countsOf t.ft (srcPart s j))

/-! ## The priority queue (spec/41_priority_queue.md) -/

/-- R121: PQ_CLEAR empties the queue and touches nothing else; a PQ_EXTRACT that follows returns QUEUE_EMPTY. -/
def Obligations.PqClearEmptiesTheQueue : Prop :=
  encode .pqClear = 0x00000020#32 ∧
    ∀ s : State, Accepted s →
      ∃ t, exec .pqClear s = .next t ∧ Ended .ok .none t ∧ t.pq = [] ∧ pqSize t = 0 ∧ KeptExcept [.pq] s t ∧
        ∀ w, ∃ u, exec .pqExtract (t.accept w) = .next u ∧ Ended .queueEmpty .none u

/-- R122: PQ_INSERT n adds the entry (NODE[n].WEIGHT, n) to the multiset; n at or above NODE_COUNT is
BAD_ARGUMENT, and else a full queue is QUEUE_FULL, both changing nothing. -/
def Obligations.PqInsertAddsTheEntry : Prop :=
  ∀ (n : NodeIx) (s : State), Accepted s → s.tree.nodeCount.toNat ≤ 511 →
    ∃ t, exec (.pqInsert n) s = .next t ∧
      if s.tree.nodeCount.toNat ≤ n.toNat then Ended .badArgument .none t ∧ KeptExcept [] s t
      else if 511 ≤ s.pq.length then Ended .queueFull .none t ∧ KeptExcept [] s t
      else
        Ended .ok .none t ∧ KeptExcept [.pq] s t ∧ t.pq.length = s.pq.length + 1 ∧
          ∃ node, s.tree.node n = some node ∧
            t.pq.Perm ({ weight := node.weight, index := n } :: s.pq)

/-- R120: the lexicographic key order, by weight and then by index. -/
def keyBefore (e1 e2 : Entry) : Prop :=
  e1.weight.toNat < e2.weight.toNat ∨ (e1.weight = e2.weight ∧ e1.index.toNat < e2.index.toNat)

/-- R123, R120: PQ_EXTRACT removes one copy of the entry that is least under the key order and returns its
index in RESULT; on an empty queue it reports QUEUE_EMPTY and changes nothing, RESULT staying 0. -/
def Obligations.PqExtractReturnsTheLeast : Prop :=
  encode .pqExtract = 0x00000022#32 ∧ ∀ s : State, Accepted s →
    ∃ t, exec .pqExtract s = .next t ∧
      if s.pq = [] then Ended .queueEmpty .none t ∧ KeptExcept [] s t ∧ t.result = 0
      else
        Ended .ok .none t ∧ KeptExcept [.pq, .result] s t ∧
          ∃ e, s.pq.Perm (e :: t.pq) ∧ (∀ x, x ∈ s.pq → ¬ keyBefore x e) ∧
            t.result.toNat = e.index.toNat

/-- R124: what the queue holds, and so every later extract, does not depend on the order of the inserts. -/
def Obligations.QueueForgetsInsertionOrder : Prop :=
  ∀ l1 l2 : List Entry, l1.Perm l2 →
    l1.foldr pqInsert [] = l2.foldr pqInsert [] ∧ (l1.foldr pqInsert []).Perm l1

/-! ## The tree and the codes (spec/42_tree_builder.md, spec/43_code_generator.md) -/

/-- The number k of nonzero counts. -/
def symbolsUsed (t : FreqTable) : Nat := (t.count.toList.filter (fun c => c != 0)).length

/-- R140, R142: TREE_BUILD completes on every table: with no nonzero count it leaves no tree, with OK or,
when FT_TOTAL is not 0, EMPTY_ALPHABET; else OK with a valid tree; the queue ends empty. -/
def Obligations.TreeBuildCompletes : Prop :=
  ∀ s : State, Accepted s →
    ∃ t, exec .treeBuild s = .next t ∧ KeptExcept [.pq, .tree] s t ∧ t.pq = [] ∧
      if symbolsUsed s.ft = 0 then
        t.tree.valid = false ∧ t.tree.root = 0 ∧ t.tree.nodeCount = 0 ∧
          if s.ft.total = 0 then Ended .ok .none t else Ended .emptyAlphabet .none t
      else Ended .ok .none t ∧ t.tree.valid = true

/-- R141, R140, R120: a TREE_BUILD with k ≥ 1 nonzero counts leaves a strict binary tree of 2k - 1 nodes, its
leaves the counted symbols with their counts, ascending, and its root's weight the sum of the counts; and internal
node c merges the two key-least of the nodes below c that are no child of a node below c, the lesser, which is
extracted first, as LEFT. -/
def Obligations.TreeBuildShape : Prop :=
  ∀ s t : State, Accepted s → exec .treeBuild s = .next t → symbolsUsed s.ft ≠ 0 →
    TreeShape t.tree (symbolsUsed s.ft) ∧
    (∀ b : Byte, s.ft.at b ≠ 0 ↔ ∃ i n, i < symbolsUsed s.ft ∧ t.tree.nodes[i]? = some n ∧ n.symbol = b) ∧
    (∀ i n, i < symbolsUsed s.ft → t.tree.nodes[i]? = some n → n.weight.toNat = (s.ft.at n.symbol).toNat) ∧
    (∃ r, t.tree.node t.tree.root = some r ∧ r.weight.toNat = s.ft.sum) ∧
    ∀ c, symbolsUsed s.ft ≤ c → c < 2 * symbolsUsed s.ft - 1 → mergesLeast t.tree (symbolsUsed s.ft) c

/-- R143: TREE_BUILDs from equal COUNT arrays and FT_TOTAL leave equal trees, whatever was held before. -/
def Obligations.TreeBuildIsDeterministic : Prop :=
  ∀ s1 s2 t1 t2 : State, s1.ft = s2.ft → exec .treeBuild s1 = .next t1 → exec .treeBuild s2 = .next t2 →
    SameTree t1.tree t2.tree

/-- R160, R161: on the tree of any reachable state CODE_GEN completes with OK; with no tree every code is
empty, a root that is a leaf gives its symbol the code "0" alone, and otherwise a symbol's code is the path
from the root to its leaf, and empty if it has none. -/
def Obligations.CodeGenReadsOffThePaths : Prop :=
  ∀ s : State, Accepted s → TreeInv s.tree →
    ∃ t, exec .codeGen s = .next t ∧ Ended .ok .none t ∧ KeptExcept [.codes] s t ∧
      (s.tree.valid = false → ∀ b, codeOf t.codes b = []) ∧
      (s.tree.valid = true → ∀ r, s.tree.node s.tree.root = some r →
        (r.leaf = true → ∀ b, codeOf t.codes b = if b = r.symbol then [false] else []) ∧
        (r.leaf = false → ∀ b p, p ≠ [] →
          (codeOf t.codes b = p ↔ ∃ n, follow s.tree s.tree.root p = some n ∧ n.leaf = true ∧ n.symbol = b)))

/-- R162: after CODE_GEN on the tree of counts COUNT, a symbol has a code exactly when its count is not 0,
and its code is at most 255 bits long. -/
def Obligations.CodesExactlyForCountedSymbols : Prop :=
  ∀ s t u : State, ∀ w : Word, exec .treeBuild s = .next t → exec .codeGen (t.accept w) = .next u →
    ∀ b, (codeOf u.codes b ≠ [] ↔ s.ft.at b ≠ 0) ∧ (codeOf u.codes b).length ≤ 255

/-- R162: prefix-freedom. No code CODE_GEN gives is a leading part of another symbol's code. -/
def Obligations.CodesArePrefixFree : Prop :=
  ∀ s t : State, TreeInv s.tree → exec .codeGen s = .next t →
    ∀ b c : Byte, codeOf t.codes b ≠ [] → codeOf t.codes c ≠ [] → codeOf t.codes b <+: codeOf t.codes c → b = c

/-! ## The bitstream writer and reader (spec/44_bitstream_writer.md, spec/45_bitstream_reader.md) -/

/-- R181: BW_RESET empties the writer at DST offset 0 and makes no memory access. -/
def Obligations.BwResetEmptiesTheWriter : Prop :=
  encode .bwReset = 0x00000050#32 ∧
    ∀ s : State, Accepted s →
      ∃ t, exec .bwReset s = .next t ∧ Ended .ok .none t ∧ readWord t 0x48 = 0 ∧ readWord t 0x4C = 0 ∧
        bitsHeld t.bw = 0 ∧ KeptExcept [.bw] s t

/-- The outcome of one emit of the byte v (R182): DST_FULL or DST_WRITE_FAULT with the writer unchanged, or the
byte at DST offset BW_POS and the writer empty of bits at the next offset. -/
def emitOutcome (v : Byte) (s t : State) : Prop :=
  if s.region.dstCap.toNat ≤ s.bw.pos.toNat then
    Ended .ioError .dstFull t ∧ t.errAddr = s.region.dstAddr s.bw.pos.toNat ∧ KeptExcept [.errAddr] s t
  else if dstFaults s s.bw.pos.toNat then
    Ended .ioError .dstWriteFault t ∧ t.errAddr = s.region.dstAddr s.bw.pos.toNat ∧
      KeptExcept [.errAddr, .mem] s t ∧
      MemoryKeptBut (fun a => a = (s.region.dstAddr s.bw.pos.toNat).toNat) s t
  else
    Ended .ok .none t ∧ KeptExcept [.bw, .mem] s t ∧ dstByte t s.bw.pos.toNat = v ∧
      t.bw.pending = 0 ∧ t.bw.nbits = 0 ∧ t.bw.pos.toNat = s.bw.pos.toNat + 1 ∧
      MemoryKeptBut (fun a => a = (s.region.dstAddr s.bw.pos.toNat).toNat) s t

/-- R183, R182: BW_PUT b appends one bit at the least significant end; the eighth bit emits the byte. -/
def Obligations.BwPutAppendsOneBit : Prop :=
  ∀ (b : Bool) (s : State), Accepted s → WriterInv s.bw → Mem.wf s.mem →
    ∃ t, exec (.bwPut b) s = .next t ∧
      if s.region.validDst = false then Ended .badRegion .none t ∧ KeptExcept [] s t
      else if s.bw.nbits.toNat = 7 then
        emitOutcome (BitVec.ofNat 8 (2 * s.bw.pending.toNat + b.toNat)) s t
      else
        Ended .ok .none t ∧ KeptExcept [.bw] s t ∧ t.bw.pos = s.bw.pos ∧
          t.bw.pending.toNat = 2 * s.bw.pending.toNat + b.toNat ∧ t.bw.nbits.toNat = s.bw.nbits.toNat + 1

/-- R185, R182: BW_FLUSH writes the pending bits zero-padded in the unused low bits, and with no bit pending
makes no memory access. -/
def Obligations.BwFlushPadsTheLastByte : Prop :=
  ∀ s : State, Accepted s → WriterInv s.bw → Mem.wf s.mem →
    ∃ t, exec .bwFlush s = .next t ∧
      if s.region.validDst = false then Ended .badRegion .none t ∧ KeptExcept [] s t
      else if s.bw.nbits = 0 then Ended .ok .none t ∧ KeptExcept [] s t
      else emitOutcome (s.bw.pending <<< (8 - s.bw.nbits.toNat)) s t

/-- R184: BW_PUT_CODE s appends the code of s, first code bit first; a symbol with no code is NO_CODE; an
IO_ERROR leaves the code bits before the failing one accepted, and no later one; whenever every byte the code
completes fits and does not fault, it ends with OK. -/
def Obligations.BwPutCodeAppendsTheCode : Prop :=
  ∀ (sym : Byte) (s : State), Accepted s → WriterInv s.bw → Mem.wf s.mem →
    (s.region.validDst = true → codeOf s.codes sym ≠ [] → DstWritable s →
      (bitsHeld s.bw + (codeOf s.codes sym).length) / 8 ≤ s.region.dstCap.toNat →
      ∃ t, exec (.bwPutCode sym) s = .next t ∧ Ended .ok .none t) ∧
    ∃ t, exec (.bwPutCode sym) s = .next t ∧
      if s.region.validDst = false then Ended .badRegion .none t ∧ KeptExcept [] s t
      else if codeOf s.codes sym = [] then Ended .noCode .none t ∧ KeptExcept [] s t
      else
        KeptExcept [.bw, .errAddr, .mem] s t ∧
        ∃ n, n ≤ (codeOf s.codes sym).length ∧ bitsHeld t.bw = bitsHeld s.bw + n ∧
          (∀ i, i < bitsHeld s.bw → acceptedBit t i = acceptedBit s i) ∧
          (∀ i, i < n → acceptedBit t (bitsHeld s.bw + i) = (codeOf s.codes sym).getD i false) ∧
          (n = (codeOf s.codes sym).length ∧ Ended .ok .none t ∧ t.errAddr = 0 ∨
            n < (codeOf s.codes sym).length ∧ t.bw.nbits.toNat = 7 ∧
              t.errAddr = s.region.dstAddr t.bw.pos.toNat ∧
              (s.region.dstCap.toNat ≤ t.bw.pos.toNat ∧ Ended .ioError .dstFull t ∨
                t.bw.pos.toNat < s.region.dstCap.toNat ∧ dstFaults s t.bw.pos.toNat = true ∧
                  Ended .ioError .dstWriteFault t))

/-- R186: from the empty writer, put_bit of N bits and a flush, all successful, write exactly ceil(N/8) bytes
from DST offset 0: bit i of the stream is bit i, and the padding is 0. -/
def Obligations.WriterPacksBitsMsbFirst : Prop :=
  ∀ (bits : Bits) (s t u : State), s.bw = Writer.empty → s.region.validDst = true → Mem.wf s.mem →
    putBits bits s = .ok () t → flushBody t = .ok () u →
    u.bw.pos.toNat = bytesFor bits.length ∧
      (∀ i, i < bits.length → bitAt (dstByte u) i = bits.getD i false) ∧
      (∀ i, bits.length ≤ i → i < 8 * bytesFor bits.length → bitAt (dstByte u) i = false) ∧
      MemoryKeptBut (fun a => ∃ o, o < bytesFor bits.length ∧ a = (s.region.dstAddr o).toNat) s u

/-- R201: BR_RESET empties the reader at SRC offset 0; BR_STATE then reads 0x00000800. -/
def Obligations.BrResetEmptiesTheReader : Prop :=
  encode .brReset = 0x00000060#32 ∧
    ∀ s : State, Accepted s →
      ∃ t, exec .brReset s = .next t ∧ Ended .ok .none t ∧ readWord t 0x50 = 0x00000800#32 ∧
        readWord t 0x54 = 0 ∧ KeptExcept [.br] s t

/-- R203, R202: BR_GET returns in RESULT the next bit of BR_CUR, or, with none buffered, consumes the next SRC
byte and returns its top bit; END_OF_DATA, SRC_READ_FAULT and BAD_REGION leave the reader unchanged. -/
def Obligations.BrGetReturnsTheNextBit : Prop :=
  ∀ s : State, Accepted s → ReaderInv s.br →
    ∃ t, exec .brGet s = .next t ∧
      if s.region.validSrc = false then Ended .badRegion .none t ∧ KeptExcept [] s t
      else if s.br.cursor.toNat < 8 then
        Ended .ok .none t ∧ KeptExcept [.br, .result] s t ∧
          t.result = bitWord (s.br.cur.getLsbD (7 - s.br.cursor.toNat)) ∧
          t.br.cur = s.br.cur ∧ t.br.cursor.toNat = s.br.cursor.toNat + 1 ∧ t.br.pos = s.br.pos
      else if s.region.srcLen.toNat ≤ s.br.pos.toNat then
        Ended .endOfData .none t ∧ KeptExcept [] s t ∧ t.result = 0
      else if srcFaults s s.br.pos.toNat then
        Ended .ioError .srcReadFault t ∧ KeptExcept [.errAddr] s t ∧
          t.errAddr = s.region.srcAddr s.br.pos.toNat
      else
        Ended .ok .none t ∧ KeptExcept [.br, .result] s t ∧
          t.result = bitWord ((srcByte s s.br.pos.toNat).getLsbD 7) ∧
          t.br.cur = srcByte s s.br.pos.toNat ∧ t.br.cursor.toNat = 1 ∧
          t.br.pos.toNat = s.br.pos.toNat + 1

/-- The answers of n get_bit calls in a row (R202): a bit, or nothing for EOD. -/
def getBits : Nat → State → Option (List (Option Bool))
  | 0, _ => some []
  | n + 1, s =>
    match getBit s with
    | .ok b t => (getBits n t).map fun bs => b :: bs
    | .raise _ _ => none
    | .fault _ => none

/-- R204: after BR_RESET, over a readable SRC region, the i-th get_bit returns stream bit i of SRC for
i < 8·SRC_LEN, and EOD from then on. -/
def Obligations.ReaderYieldsTheStream : Prop :=
  ∀ (n : Nat) (s : State), s.br = Reader.emptyAt 0 → SrcReadable s →
    getBits n s = some ((List.range n).map fun i =>
      if i < 8 * s.region.srcLen.toNat then some (bitAt (srcByte s) i) else none)

/-! ## COMPRESS and DECOMPRESS (spec/46_orchestrator.md) -/

/-- The length of the container of a table and its codes: `1028 + ceil(N/8)` (R224). -/
def containerLength (codes : Vector Bits 256) (msg : List Byte) : Nat :=
  1028 + bytesFor (codeBits codes msg).length

/-- R220, R222, R224, R227, R228: COMPRESS of a readable SRC into a writable DST that has room ends with OK;
OUT_LEN is 1028 + ceil(N/8); DST holds the container: the counts of the SRC bytes little-endian and then their
codes, most significant bit first and zero-padded, by the tree TREE_BUILD leaves for those counts; no byte past
OUT_LEN is written. When the container is longer than DST_CAP it ends with DST_FULL at DST offset DST_CAP and
OUT_LEN 0, DST holding the container's first DST_CAP bytes. -/
def Obligations.CompressWritesTheContainer : Prop :=
  ∀ s : State, Accepted s → s.region.codecOk = true → SrcReadable s → DstWritable s → Mem.wf s.mem →
    ∃ t, exec .compress s = .next t ∧
      KeptExcept [.outLen, .ft, .tree, .pq, .codes, .bw, .errAddr, .mem] s t ∧
      countsOf t.ft (srcBytes s) ∧ t.pq = [] ∧ TreeOf t.ft t.tree ∧ codesOf t.tree = some t.codes ∧
      if containerLength t.codes (srcBytes s) ≤ s.region.dstCap.toNat then
        Ended .ok .none t ∧ t.errAddr = 0 ∧ t.outLen.toNat = containerLength t.codes (srcBytes s) ∧
          t.bw.pos = t.outLen ∧ t.bw.nbits = 0 ∧
          ContainerPrefix t (codeBits t.codes (srcBytes s)) t.outLen.toNat ∧
          MemoryKeptBut (fun a => ∃ o, o < t.outLen.toNat ∧ a = (s.region.dstAddr o).toNat) s t
      else
        Ended .ioError .dstFull t ∧ t.errAddr = s.region.dstAddr s.region.dstCap.toNat ∧ t.outLen = 0 ∧
          t.bw.pos = s.region.dstCap ∧
          ContainerPrefix t (codeBits t.codes (srcBytes s)) s.region.dstCap.toNat ∧
          MemoryKeptBut (fun a => ∃ o, o < s.region.dstCap.toNat ∧ a = (s.region.dstAddr o).toNat) s t

/-- R228: COMPRESS reads nothing but the SRC bytes and the region registers: two COMPRESSes of equal inputs that
both return OK write byte-identical containers, whatever else the states held. -/
def Obligations.CompressIsDeterministic : Prop :=
  ∀ s1 s2 t1 t2 : State, Accepted s1 → Accepted s2 → Mem.wf s1.mem → Mem.wf s2.mem →
    srcBytes s1 = srcBytes s2 → exec .compress s1 = .next t1 → exec .compress s2 = .next t2 →
    t1.status.code = .ok → t2.status.code = .ok →
    t1.outLen = t2.outLen ∧ dstPart t1 t1.outLen.toNat = dstPart t2 t2.outLen.toNat

/-- R232: after any COMPRESS or DECOMPRESS that does not return OK, OUT_LEN is 0. -/
def Obligations.FailureCommitsNoContainer : Prop :=
  ∀ (i : Instr) (s t : State), (i = .compress ∨ i = .decompress) → Accepted s → exec i s = .next t →
    t.status.code ≠ .ok → t.outLen = 0

/-- The header fields of a container in SRC (R220): T, and F[i]. -/
def headerTotal (s : State) : Nat :=
  (srcByte s 0).toNat + 256 * (srcByte s 1).toNat + 65536 * (srcByte s 2).toNat + 16777216 * (srcByte s 3).toNat

/-- F[i] of the container in SRC (R220). -/
def headerCount (s : State) (i : Nat) : Nat :=
  (srcByte s (4 + 4 * i)).toNat + 256 * (srcByte s (5 + 4 * i)).toNat +
    65536 * (srcByte s (6 + 4 * i)).toNat + 16777216 * (srcByte s (7 + 4 * i)).toNat

/-- The exact sum of F[0..255]. -/
def headerSum (s : State) : Nat := ((List.range 256).map (headerCount s)).sum

/-- The table registers hold the header of the container in SRC. -/
def holdsHeader (t : FreqTable) (s : State) : Prop :=
  t.total.toNat = headerTotal s ∧ ∀ b : Byte, (t.at b).toNat = headerCount s b.toNat

/-- R229, R267: the header checks of DECOMPRESS, in their order: HEADER_SHORT with no memory access, a read
fault of the lowest faulting header byte with the table unchanged, EMPTY_ALPHABET, then FREQ_SUM_MISMATCH,
with the header in the table registers; T = 0 with every count 0 ends with OK and no output. -/
def Obligations.DecompressChecksTheHeader : Prop :=
  ∀ s : State, Accepted s → s.region.codecOk = true →
    (s.region.srcLen.toNat < 1028 → ∃ t, exec .decompress s = .next t ∧
      Ended .corruptContainer .headerShort t ∧ t.outLen = 0 ∧ t.decoded = 0 ∧
      KeptExcept [.outLen, .decoded] s t) ∧
    (1028 ≤ s.region.srcLen.toNat → ∀ o, o < 1028 → srcFaults s o = true →
      (∀ k, k < o → srcFaults s k = false) → ∃ t, exec .decompress s = .next t ∧
        Ended .ioError .srcReadFault t ∧ t.errAddr = s.region.srcAddr o ∧ t.outLen = 0 ∧ t.decoded = 0 ∧
        KeptExcept [.outLen, .decoded, .errAddr] s t) ∧
    (1028 ≤ s.region.srcLen.toNat → (∀ o, o < 1028 → srcFaults s o = false) → headerSum s = 0 →
      headerTotal s ≠ 0 → ∃ t, exec .decompress s = .next t ∧
        Ended .corruptContainer .emptyAlphabet t ∧ t.outLen = 0 ∧ t.decoded = 0 ∧ holdsHeader t.ft s ∧
        t.tree.valid = false ∧ KeptExcept [.outLen, .decoded, .ft, .tree, .pq] s t) ∧
    (1028 ≤ s.region.srcLen.toNat → (∀ o, o < 1028 → srcFaults s o = false) → headerSum s ≠ 0 →
      headerSum s ≠ headerTotal s → ∃ t, exec .decompress s = .next t ∧
        Ended .corruptContainer .freqSumMismatch t ∧ t.outLen = 0 ∧ t.decoded = 0 ∧ holdsHeader t.ft s ∧
        TreeOf t.ft t.tree ∧ KeptExcept [.outLen, .decoded, .ft, .tree, .pq] s t) ∧
    (1028 ≤ s.region.srcLen.toNat → (∀ o, o < 1028 → srcFaults s o = false) → headerSum s = 0 →
      headerTotal s = 0 → ∃ t, exec .decompress s = .next t ∧ Ended .ok .none t ∧ t.outLen = 0 ∧
        t.decoded = 0 ∧ holdsHeader t.ft s ∧ t.tree.valid = false ∧
        KeptExcept [.outLen, .decoded, .ft, .tree, .pq, .codes] s t)

/-- The bits of the container in SRC after its header. -/
def payloadBits (s : State) : Bits := (bitsOf (srcBytes s)).drop (8 * 1028)

/-- What DECOMPRESS needs to come to its payload: regions, a readable header, and counts that sum to T ≠ 0. -/
def SoundHeader (s : State) : Prop :=
  Accepted s ∧ s.region.codecOk = true ∧ Mem.wf s.mem ∧ 1028 ≤ s.region.srcLen.toNat ∧ SrcReadableTo s 1028 ∧
    headerSum s = headerTotal s ∧ headerTotal s ≠ 0

/-- A sound header, and no access that faults. -/
def DecodableHeader (s : State) : Prop := SoundHeader s ∧ SrcReadable s ∧ DstWritable s

/-- The table, tree and codes DECOMPRESS decodes by: the header's counts, the tree TREE_BUILD leaves for them, and
the codes of that tree (R229 steps 1 and 2). -/
def DecodesByHeader (s t : State) : Prop :=
  holdsHeader t.ft s ∧ TreeOf t.ft t.tree ∧ codesOf t.tree = some t.codes

/-- R223, R229, R230: DECOMPRESS rebuilds tree and codes from the header, and when the payload begins with the
codes of a message of T bytes, whatever bits follow, it ends with OK, OUT_LEN = DECODED = T and the message
in DST; with DST_CAP below T it ends with DST_FULL at offset DST_CAP after that many bytes. -/
def Obligations.DecompressDecodesTheMessage : Prop :=
  ∀ s : State, DecodableHeader s →
    ∃ t, exec .decompress s = .next t ∧ DecodesByHeader s t ∧
      ∀ msg : List Byte, msg.length = headerTotal s → (∀ b, b ∈ msg → codeOf t.codes b ≠ []) →
        codeBits t.codes msg <+: payloadBits s →
        if headerTotal s ≤ s.region.dstCap.toNat then
          Ended .ok .none t ∧ t.outLen.toNat = msg.length ∧ t.decoded = t.outLen ∧
            dstPart t msg.length = msg ∧
            MemoryKeptBut (fun a => ∃ o, o < msg.length ∧ a = (s.region.dstAddr o).toNat) s t
        else
          Ended .ioError .dstFull t ∧ t.outLen = 0 ∧ t.decoded = s.region.dstCap ∧
            t.errAddr = s.region.dstAddr s.region.dstCap.toNat ∧
            dstPart t s.region.dstCap.toNat = msg.take s.region.dstCap.toNat

/-- R229, R230: when the payload holds the codes of fewer than T bytes and then too few bits for another
codeword, DECOMPRESS ends with TRUNCATED, OUT_LEN 0, DECODED the number of symbols decoded and BR_POS =
SRC_LEN. -/
def Obligations.DecompressDetectsTruncation : Prop :=
  ∀ s : State, DecodableHeader s → headerTotal s ≤ s.region.dstCap.toNat →
    ∃ t, exec .decompress s = .next t ∧ DecodesByHeader s t ∧
      ∀ (msg : List Byte) (rest : Bits), msg.length < headerTotal s →
        (∀ b, b ∈ msg → codeOf t.codes b ≠ []) → payloadBits s = codeBits t.codes msg ++ rest →
        (∃ b, codeOf t.codes b ≠ rest ∧ rest <+: codeOf t.codes b) →
        Ended .corruptContainer .truncated t ∧ t.outLen = 0 ∧ t.decoded.toNat = msg.length ∧
          t.br.pos = s.region.srcLen ∧ dstPart t msg.length = msg

/-- R230: with a single counted symbol DECOMPRESS takes one bit per symbol, of either value, and writes T copies
of it. -/
def Obligations.SingleSymbolTakesEitherBit : Prop :=
  ∀ (s : State) (b : Byte), DecodableHeader s → headerCount s b.toNat = headerTotal s →
    headerTotal s ≤ (payloadBits s).length → headerTotal s ≤ s.region.dstCap.toNat →
    ∃ t, exec .decompress s = .next t ∧ Ended .ok .none t ∧ t.outLen.toNat = headerTotal s ∧
      dstPart t (headerTotal s) = List.replicate (headerTotal s) b

/-- `u` is a state ready to run DECOMPRESS on the first `len` bytes of the container that `t` holds in DST, with
room for `n` bytes of output and no faults. -/
def ReadyToDecompress (t u : State) (len n : Nat) : Prop :=
  Accepted u ∧ u.region.codecOk = true ∧ SrcReadable u ∧ DstWritable u ∧ Mem.wf u.mem ∧
    u.region.srcLen.toNat = len ∧ n ≤ u.region.dstCap.toNat ∧ ∀ o, o < len → srcByte u o = dstByte t o

/-- R231: the round trip. Decompressing the container a COMPRESS with status OK wrote gives OK, OUT_LEN = n and
the original bytes. -/
def Obligations.DecompressInvertsCompress : Prop :=
  ∀ s t u : State, Accepted s → Mem.wf s.mem → exec .compress s = .next t → t.status.code = .ok →
    ReadyToDecompress t u t.outLen.toNat s.region.srcLen.toNat →
    ∃ v, exec .decompress u = .next v ∧ Ended .ok .none v ∧ v.outLen = s.region.srcLen ∧
      dstPart v s.region.srcLen.toNat = srcBytes s

/-- R231: removing the final byte of a container COMPRESS wrote makes DECOMPRESS report CORRUPT_CONTAINER:
TRUNCATED for an input of at least one byte, HEADER_SHORT for the empty input. -/
def Obligations.MissingFinalByteIsDetected : Prop :=
  ∀ s t u : State, Accepted s → Mem.wf s.mem → exec .compress s = .next t → t.status.code = .ok →
    ReadyToDecompress t u (t.outLen.toNat - 1) s.region.srcLen.toNat →
    ∃ v, exec .decompress u = .next v ∧ v.outLen = 0 ∧
      if s.region.srcLen = 0 then Ended .corruptContainer .headerShort v
      else Ended .corruptContainer .truncated v

/-! ## The machine as a whole -/

/-- R46: the reset state meets the invariant, of which the canonical form of buffer memory (notes/assumptions/3.md)
and the order of the queue (notes/assumptions/9.md) are the model's. -/
def Obligations.ResetMeetsTheInvariant : Prop := Inv State.reset

/-- Every step keeps buffer memory in its canonical form (the model's own form, notes/assumptions/3.md). -/
def Obligations.StepKeepsMemoryCanonical : Prop :=
  ∀ s t : State, Mem.wf s.mem → step s = .next t → Mem.wf t.mem

/-- R46, R141, R122: every step, of the core or of the host, from any state that meets the invariant gives one
that meets it. Two parts of Inv are the model's: the canonical form of buffer memory (notes/assumptions/3.md) and
the ascending order in which the queue's multiset is held (notes/assumptions/9.md). -/
def Obligations.StepKeepsTheInvariant : Prop :=
  ∀ s t : State, Inv s → step s = .next t → Inv t

/-- R271, R301: from a state that meets the invariant no step stops with a fault: every accepted word, legal or
not, completes, and the only refusal is of a host move that breaks the host duty of R77. -/
def Obligations.NoStepFromTheInvariantStops : Prop :=
  ∀ s : State, Inv s →
    (∃ t, step s = .next t) ∨ (step s = .refused .hostDuty ∧ s.status.busy = true ∧ coreMoves s = false)

/-! ## The access errors of COMPRESS and DECOMPRESS (spec/46_orchestrator.md, spec/60_exceptions.md R267) -/

/-- The first SRC byte whose read faults is byte j. -/
def FirstReadFault (s : State) (j : Nat) : Prop :=
  j < s.region.srcLen.toNat ∧ srcFaults s j = true ∧ SrcReadableTo s j

/-- The first DST byte whose write faults is byte o. -/
def FirstWriteFault (s : State) (o : Nat) : Prop :=
  o < s.region.dstCap.toNat ∧ dstFaults s o = true ∧ DstWritableTo s o

/-- COMPRESS over faults (R227, R267): a SRC byte that cannot be read ends it in its first pass, before any write,
with the counts of the bytes before it; a DST byte within the container that cannot be written ends it there, the
container's bytes before it in DST and that byte any value. -/
def compressStops (s : State) : Prop :=
  (∀ j, FirstReadFault s j → ∃ t, exec .compress s = .next t ∧ Ended .ioError .srcReadFault t ∧
      t.errAddr = s.region.srcAddr j ∧ t.outLen = 0 ∧ countsOf t.ft (srcPart s j) ∧
      KeptExcept [.outLen, .ft, .errAddr] s t) ∧
    (SrcReadable s → Mem.wf s.mem → ∃ t, exec .compress s = .next t ∧ countsOf t.ft (srcBytes s) ∧
      TreeOf t.ft t.tree ∧ codesOf t.tree = some t.codes ∧
      ∀ o, FirstWriteFault s o → o < containerLength t.codes (srcBytes s) →
        Ended .ioError .dstWriteFault t ∧ t.errAddr = s.region.dstAddr o ∧ t.outLen = 0 ∧ t.bw.pos.toNat = o ∧
          ContainerPrefix t (codeBits t.codes (srcBytes s)) o ∧
          KeptExcept [.outLen, .ft, .tree, .pq, .codes, .bw, .errAddr, .mem] s t ∧
          MemoryKeptBut (fun a => ∃ p, p ≤ o ∧ a = (s.region.dstAddr p).toNat) s t)

/-- DECOMPRESS over a sound header and faults (R229, R230, R267): when the payload bits before the first SRC byte
that cannot be read are the codes of fewer than T bytes and a proper part of another, it ends at that byte, those
symbols in DST; when the codes of o + 1 bytes can be read and DST byte o is the first that cannot be written, it
ends there with o symbols in DST and that byte any value. -/
def decompressStops (s : State) : Prop :=
  ∃ t, exec .decompress s = .next t ∧ DecodesByHeader s t ∧
    (∀ (j : Nat) (msg : List Byte) (rest : Bits), FirstReadFault s j → msg.length < headerTotal s →
      msg.length ≤ s.region.dstCap.toNat → DstWritableTo s msg.length → (∀ b, b ∈ msg → codeOf t.codes b ≠ []) →
      (payloadBits s).take (8 * (j - 1028)) = codeBits t.codes msg ++ rest →
      (∃ b, codeOf t.codes b ≠ rest ∧ rest <+: codeOf t.codes b) →
      Ended .ioError .srcReadFault t ∧ t.errAddr = s.region.srcAddr j ∧ t.outLen = 0 ∧
        t.decoded.toNat = msg.length ∧ t.br.pos.toNat = j ∧ dstPart t msg.length = msg ∧
        MemoryKeptBut (fun a => ∃ p, p < msg.length ∧ a = (s.region.dstAddr p).toNat) s t) ∧
    ∀ (o : Nat) (msg : List Byte), FirstWriteFault s o → msg.length = o + 1 → msg.length ≤ headerTotal s →
      (∀ b, b ∈ msg → codeOf t.codes b ≠ []) → codeBits t.codes msg <+: payloadBits s →
      SrcReadableTo s (1028 + bytesFor (codeBits t.codes msg).length) →
      Ended .ioError .dstWriteFault t ∧ t.errAddr = s.region.dstAddr o ∧ t.outLen = 0 ∧ t.decoded.toNat = o ∧
        dstPart t o = msg.take o ∧
        MemoryKeptBut (fun a => ∃ p, p ≤ o ∧ a = (s.region.dstAddr p).toNat) s t

/-- R227, R229, R230, R264, R267: COMPRESS and DECOMPRESS end with IO_ERROR at the first access they make that
faults, with its address in ERR_ADDR, OUT_LEN 0, and what they wrote before it left in place. -/
def Obligations.CodecStopsAtTheFirstFault : Prop :=
  (∀ s : State, Accepted s → s.region.codecOk = true → compressStops s) ∧
    ∀ s : State, SoundHeader s → decompressStops s
end

