-- ==== Sys2Proof/Laws/State.lean ====
section
/-! SUPPORT. One lemma per field for each named update of the state, true by rfl: no later proof unfolds
one of them. -/

namespace Sys2Proof.Machine

/-! ## tick -/

@[simp] theorem State.tick_cmdWord (s : State) : s.tick.cmdWord = s.cmdWord := rfl
@[simp] theorem State.tick_status (s : State) : s.tick.status = s.status := rfl
@[simp] theorem State.tick_irqEn (s : State) : s.tick.irqEn = s.irqEn := rfl
@[simp] theorem State.tick_int (s : State) : s.tick.int = s.int := rfl
@[simp] theorem State.tick_result (s : State) : s.tick.result = s.result := rfl
@[simp] theorem State.tick_errAddr (s : State) : s.tick.errAddr = s.errAddr := rfl
@[simp] theorem State.tick_region (s : State) : s.tick.region = s.region := rfl
@[simp] theorem State.tick_outLen (s : State) : s.tick.outLen = s.outLen := rfl
@[simp] theorem State.tick_decoded (s : State) : s.tick.decoded = s.decoded := rfl
@[simp] theorem State.tick_ft (s : State) : s.tick.ft = s.ft := rfl
@[simp] theorem State.tick_tree (s : State) : s.tick.tree = s.tree := rfl
@[simp] theorem State.tick_pq (s : State) : s.tick.pq = s.pq := rfl
@[simp] theorem State.tick_codes (s : State) : s.tick.codes = s.codes := rfl
@[simp] theorem State.tick_bw (s : State) : s.tick.bw = s.bw := rfl
@[simp] theorem State.tick_br (s : State) : s.tick.br = s.br := rfl
@[simp] theorem State.tick_mem (s : State) : s.tick.mem = s.mem := rfl
@[simp] theorem State.tick_busFault (s : State) : s.tick.busFault = s.busFault := rfl
@[simp] theorem State.tick_inbox (s : State) : s.tick.inbox = s.inbox := rfl
@[simp] theorem State.tick_resp (s : State) : s.tick.resp = s.resp := rfl
@[simp] theorem State.tick_draws (s : State) : s.tick.draws = s.draws + 1 := rfl

/-! ## accept -/

@[simp] theorem State.accept_cmdWord (w : Word) (s : State) : (s.accept w).cmdWord = w := rfl
@[simp] theorem State.accept_status (w : Word) (s : State) : (s.accept w).status = { busy := true, done := false, code := .ok, detail := .none } := rfl
@[simp] theorem State.accept_irqEn (w : Word) (s : State) : (s.accept w).irqEn = s.irqEn := rfl
@[simp] theorem State.accept_int (w : Word) (s : State) : (s.accept w).int = s.int := rfl
@[simp] theorem State.accept_result (w : Word) (s : State) : (s.accept w).result = 0 := rfl
@[simp] theorem State.accept_errAddr (w : Word) (s : State) : (s.accept w).errAddr = 0 := rfl
@[simp] theorem State.accept_region (w : Word) (s : State) : (s.accept w).region = s.region := rfl
@[simp] theorem State.accept_outLen (w : Word) (s : State) : (s.accept w).outLen = s.outLen := rfl
@[simp] theorem State.accept_decoded (w : Word) (s : State) : (s.accept w).decoded = s.decoded := rfl
@[simp] theorem State.accept_ft (w : Word) (s : State) : (s.accept w).ft = s.ft := rfl
@[simp] theorem State.accept_tree (w : Word) (s : State) : (s.accept w).tree = s.tree := rfl
@[simp] theorem State.accept_pq (w : Word) (s : State) : (s.accept w).pq = s.pq := rfl
@[simp] theorem State.accept_codes (w : Word) (s : State) : (s.accept w).codes = s.codes := rfl
@[simp] theorem State.accept_bw (w : Word) (s : State) : (s.accept w).bw = s.bw := rfl
@[simp] theorem State.accept_br (w : Word) (s : State) : (s.accept w).br = s.br := rfl
@[simp] theorem State.accept_mem (w : Word) (s : State) : (s.accept w).mem = s.mem := rfl
@[simp] theorem State.accept_busFault (w : Word) (s : State) : (s.accept w).busFault = s.busFault := rfl
@[simp] theorem State.accept_inbox (w : Word) (s : State) : (s.accept w).inbox = s.inbox := rfl
@[simp] theorem State.accept_resp (w : Word) (s : State) : (s.accept w).resp = s.resp := rfl
@[simp] theorem State.accept_draws (w : Word) (s : State) : (s.accept w).draws = s.draws := rfl

/-! ## report -/

@[simp] theorem State.report_cmdWord (e : Raise) (s : State) : (s.report e).cmdWord = s.cmdWord := rfl
@[simp] theorem State.report_status (e : Raise) (s : State) : (s.report e).status = { s.status with code := e.code, detail := e.detail } := rfl
@[simp] theorem State.report_irqEn (e : Raise) (s : State) : (s.report e).irqEn = s.irqEn := rfl
@[simp] theorem State.report_int (e : Raise) (s : State) : (s.report e).int = s.int := rfl
@[simp] theorem State.report_result (e : Raise) (s : State) : (s.report e).result = s.result := rfl
@[simp] theorem State.report_errAddr (e : Raise) (s : State) : (s.report e).errAddr = e.addr.getD s.errAddr := rfl
@[simp] theorem State.report_region (e : Raise) (s : State) : (s.report e).region = s.region := rfl
@[simp] theorem State.report_outLen (e : Raise) (s : State) : (s.report e).outLen = s.outLen := rfl
@[simp] theorem State.report_decoded (e : Raise) (s : State) : (s.report e).decoded = s.decoded := rfl
@[simp] theorem State.report_ft (e : Raise) (s : State) : (s.report e).ft = s.ft := rfl
@[simp] theorem State.report_tree (e : Raise) (s : State) : (s.report e).tree = s.tree := rfl
@[simp] theorem State.report_pq (e : Raise) (s : State) : (s.report e).pq = s.pq := rfl
@[simp] theorem State.report_codes (e : Raise) (s : State) : (s.report e).codes = s.codes := rfl
@[simp] theorem State.report_bw (e : Raise) (s : State) : (s.report e).bw = s.bw := rfl
@[simp] theorem State.report_br (e : Raise) (s : State) : (s.report e).br = s.br := rfl
@[simp] theorem State.report_mem (e : Raise) (s : State) : (s.report e).mem = s.mem := rfl
@[simp] theorem State.report_busFault (e : Raise) (s : State) : (s.report e).busFault = s.busFault := rfl
@[simp] theorem State.report_inbox (e : Raise) (s : State) : (s.report e).inbox = s.inbox := rfl
@[simp] theorem State.report_resp (e : Raise) (s : State) : (s.report e).resp = s.resp := rfl
@[simp] theorem State.report_draws (e : Raise) (s : State) : (s.report e).draws = s.draws := rfl

/-! ## complete -/

@[simp] theorem State.complete_cmdWord (s : State) : s.complete.cmdWord = s.cmdWord := rfl
@[simp] theorem State.complete_status (s : State) : s.complete.status = { s.status with busy := false, done := true } := rfl
@[simp] theorem State.complete_irqEn (s : State) : s.complete.irqEn = s.irqEn := rfl
@[simp] theorem State.complete_int (s : State) : s.complete.int = { s.int with donePend := true } := rfl
@[simp] theorem State.complete_result (s : State) : s.complete.result = s.result := rfl
@[simp] theorem State.complete_errAddr (s : State) : s.complete.errAddr = s.errAddr := rfl
@[simp] theorem State.complete_region (s : State) : s.complete.region = s.region := rfl
@[simp] theorem State.complete_outLen (s : State) : s.complete.outLen = s.outLen := rfl
@[simp] theorem State.complete_decoded (s : State) : s.complete.decoded = s.decoded := rfl
@[simp] theorem State.complete_ft (s : State) : s.complete.ft = s.ft := rfl
@[simp] theorem State.complete_tree (s : State) : s.complete.tree = s.tree := rfl
@[simp] theorem State.complete_pq (s : State) : s.complete.pq = s.pq := rfl
@[simp] theorem State.complete_codes (s : State) : s.complete.codes = s.codes := rfl
@[simp] theorem State.complete_bw (s : State) : s.complete.bw = s.bw := rfl
@[simp] theorem State.complete_br (s : State) : s.complete.br = s.br := rfl
@[simp] theorem State.complete_mem (s : State) : s.complete.mem = s.mem := rfl
@[simp] theorem State.complete_busFault (s : State) : s.complete.busFault = s.busFault := rfl
@[simp] theorem State.complete_inbox (s : State) : s.complete.inbox = s.inbox := rfl
@[simp] theorem State.complete_resp (s : State) : s.complete.resp = s.resp := rfl
@[simp] theorem State.complete_draws (s : State) : s.complete.draws = s.draws := rfl

/-! ## dropPending -/

@[simp] theorem State.dropPending_cmdWord (s : State) : s.dropPending.cmdWord = s.cmdWord := rfl
@[simp] theorem State.dropPending_status (s : State) : s.dropPending.status = s.status := rfl
@[simp] theorem State.dropPending_irqEn (s : State) : s.dropPending.irqEn = s.irqEn := rfl
@[simp] theorem State.dropPending_int (s : State) : s.dropPending.int = s.int := rfl
@[simp] theorem State.dropPending_result (s : State) : s.dropPending.result = s.result := rfl
@[simp] theorem State.dropPending_errAddr (s : State) : s.dropPending.errAddr = s.errAddr := rfl
@[simp] theorem State.dropPending_region (s : State) : s.dropPending.region = s.region := rfl
@[simp] theorem State.dropPending_outLen (s : State) : s.dropPending.outLen = s.outLen := rfl
@[simp] theorem State.dropPending_decoded (s : State) : s.dropPending.decoded = s.decoded := rfl
@[simp] theorem State.dropPending_ft (s : State) : s.dropPending.ft = s.ft := rfl
@[simp] theorem State.dropPending_tree (s : State) : s.dropPending.tree = s.tree := rfl
@[simp] theorem State.dropPending_pq (s : State) : s.dropPending.pq = s.pq := rfl
@[simp] theorem State.dropPending_codes (s : State) : s.dropPending.codes = s.codes := rfl
@[simp] theorem State.dropPending_bw (s : State) : s.dropPending.bw = { s.bw with pending := 0, nbits := 0 } := rfl
@[simp] theorem State.dropPending_br (s : State) : s.dropPending.br = s.br := rfl
@[simp] theorem State.dropPending_mem (s : State) : s.dropPending.mem = s.mem := rfl
@[simp] theorem State.dropPending_busFault (s : State) : s.dropPending.busFault = s.busFault := rfl
@[simp] theorem State.dropPending_inbox (s : State) : s.dropPending.inbox = s.inbox := rfl
@[simp] theorem State.dropPending_resp (s : State) : s.dropPending.resp = s.resp := rfl
@[simp] theorem State.dropPending_draws (s : State) : s.dropPending.draws = s.draws := rfl

/-! ## bitTaken -/

@[simp] theorem State.bitTaken_cmdWord (s : State) : s.bitTaken.cmdWord = s.cmdWord := rfl
@[simp] theorem State.bitTaken_status (s : State) : s.bitTaken.status = s.status := rfl
@[simp] theorem State.bitTaken_irqEn (s : State) : s.bitTaken.irqEn = s.irqEn := rfl
@[simp] theorem State.bitTaken_int (s : State) : s.bitTaken.int = s.int := rfl
@[simp] theorem State.bitTaken_result (s : State) : s.bitTaken.result = s.result := rfl
@[simp] theorem State.bitTaken_errAddr (s : State) : s.bitTaken.errAddr = s.errAddr := rfl
@[simp] theorem State.bitTaken_region (s : State) : s.bitTaken.region = s.region := rfl
@[simp] theorem State.bitTaken_outLen (s : State) : s.bitTaken.outLen = s.outLen := rfl
@[simp] theorem State.bitTaken_decoded (s : State) : s.bitTaken.decoded = s.decoded := rfl
@[simp] theorem State.bitTaken_ft (s : State) : s.bitTaken.ft = s.ft := rfl
@[simp] theorem State.bitTaken_tree (s : State) : s.bitTaken.tree = s.tree := rfl
@[simp] theorem State.bitTaken_pq (s : State) : s.bitTaken.pq = s.pq := rfl
@[simp] theorem State.bitTaken_codes (s : State) : s.bitTaken.codes = s.codes := rfl
@[simp] theorem State.bitTaken_bw (s : State) : s.bitTaken.bw = s.bw := rfl
@[simp] theorem State.bitTaken_br (s : State) : s.bitTaken.br = { s.br with cursor := s.br.cursor + 1 } := rfl
@[simp] theorem State.bitTaken_mem (s : State) : s.bitTaken.mem = s.mem := rfl
@[simp] theorem State.bitTaken_busFault (s : State) : s.bitTaken.busFault = s.busFault := rfl
@[simp] theorem State.bitTaken_inbox (s : State) : s.bitTaken.inbox = s.inbox := rfl
@[simp] theorem State.bitTaken_resp (s : State) : s.bitTaken.resp = s.resp := rfl
@[simp] theorem State.bitTaken_draws (s : State) : s.bitTaken.draws = s.draws := rfl

end Sys2Proof.Machine
end

