-- ==== Sys2Proof/Laws/Frames.lean ====
section
/-! SUPPORT. What each piece of a command can write, said once as one equation: the state it ends in is
the state it began in but for the fields named. Every frame fact is read off these. -/

namespace Sys2Proof.Machine

/-- `Q` holds of the state in which a piece of pseudocode ends, by reaching its end or by a raise. -/
def Res.Ends {α : Type} (r : Res α) (Q : State → Prop) : Prop :=
  match r with
  | .ok _ s => Q s
  | .raise _ s => Q s
  | .fault _ => True

theorem Res.ends_bind {α β : Type} {r : Res α} {f : α → State → Res β} {P Q : State → Prop}
    (hr : r.Ends P) (hf : ∀ a s, P s → (f a s).Ends Q) (hPQ : ∀ s, P s → Q s) :
    (r.bind f).Ends Q := by
  cases r with
  | ok a s => exact hf a s hr
  | raise e s => exact hPQ s hr
  | fault w => exact trivial

theorem Res.ends_mono {α : Type} {r : Res α} {P Q : State → Prop} (hr : r.Ends P)
    (h : ∀ s, P s → Q s) : r.Ends Q := by
  cases r with
  | ok a s => exact h s hr
  | raise e s => exact h s hr
  | fault w => exact trivial

theorem Res.bind_eq_ok {α β : Type} {r : Res α} {f : α → State → Res β} {b : β} {t : State} :
    r.bind f = .ok b t ↔ ∃ a s, r = .ok a s ∧ f a s = .ok b t := by
  cases r <;> simp [Res.bind]

theorem Res.bind_eq_raise {α β : Type} {r : Res α} {f : α → State → Res β} {e : Raise} {t : State} :
    r.bind f = .raise e t ↔ r = .raise e t ∨ ∃ a s, r = .ok a s ∧ f a s = .raise e t := by
  cases r <;> simp [Res.bind]

theorem Res.bind_eq_fault {α β : Type} {r : Res α} {f : α → State → Res β} {w : Fault} :
    r.bind f = .fault w ↔ r = .fault w ∨ ∃ a s, r = .ok a s ∧ f a s = .fault w := by
  cases r <;> simp [Res.bind]

theorem Res.bind_assoc {α β γ : Type} (r : Res α) (f : α → State → Res β) (g : β → State → Res γ) :
    (r.bind f).bind g = r.bind fun a s => (f a s).bind g := by
  cases r <;> rfl

/-- What finish answers: the completion of the state the pseudocode ended in. -/
theorem finish_eq_next {r : Res Unit} {t : State} (h : finish r = .next t) :
    (∃ u, r = .ok () u ∧ t = u.complete) ∨ (∃ e u, r = .raise e u ∧ t = (u.report e).complete) := by
  cases r with
  | ok a s => exact .inl ⟨s, rfl, by simpa [finish] using h.symm⟩
  | raise e s => exact .inr ⟨e, s, rfl, by simpa [finish] using h.symm⟩
  | fault w => simp [finish] at h

/-- finish never refuses. -/
theorem finish_ne_refused (r : Res Unit) (w : Refusal) : finish r ≠ .refused w := by
  cases r <;> simp [finish]

theorem finish_eq_fault {r : Res Unit} {w : Fault} : finish r = .fault w ↔ r = .fault w := by
  cases r <;> simp [finish]

/-- What completion and a report leave alone: everything but STATUS, INT and ERR_ADDR. -/
theorem finish_rest {r : Res Unit} {t : State} {Q : State → Prop} (h : finish r = .next t)
    (hr : r.Ends Q) :
    ∃ u, Q u ∧ t = { u with status := t.status, int := { u.int with donePend := true }, errAddr := t.errAddr } ∧
      t.status.busy = false ∧ t.status.done = true := by
  rcases finish_eq_next h with ⟨u, rfl, rfl⟩ | ⟨e, u, rfl, rfl⟩
  · exact ⟨u, hr, rfl, rfl, rfl⟩
  · exact ⟨u, hr, rfl, rfl, rfl⟩

/-! ## Accesses -/

theorem coreRead_ends (a : Word) (s : State) : (coreRead a s).Ends (fun t => t = s) := by
  unfold coreRead
  split <;> rfl

theorem coreWrite_ends (a : Word) (v : Byte) (s : State) :
    (coreWrite a v s).Ends (fun t => t = { s with mem := t.mem, draws := t.draws }) := by
  unfold coreWrite
  split <;> rfl

/-! ## The writer -/

/-- What the bit writer may write. -/
def WriterOnly (s t : State) : Prop := t = { s with bw := t.bw, mem := t.mem, draws := t.draws }

theorem WriterOnly.refl (s : State) : WriterOnly s s := rfl

theorem WriterOnly.trans {s t u : State} (h1 : WriterOnly s t) (h2 : WriterOnly t u) :
    WriterOnly s u := by
  unfold WriterOnly at *
  rw [h2, h1]

theorem emit_ends (v : Byte) (s : State) : (emit v s).Ends (WriterOnly s) := by
  unfold emit
  split
  · exact WriterOnly.refl s
  · refine Res.ends_bind (coreWrite_ends _ v s) (fun _ t ht => ?_) (fun t ht => ?_)
    · change WriterOnly s _
      unfold WriterOnly
      rw [ht]
    · unfold WriterOnly
      rw [ht]

theorem dropPending_only (s : State) : WriterOnly s s.dropPending := rfl

theorem putBit_ends (b : Bool) (s : State) : (putBit b s).Ends (WriterOnly s) := by
  unfold putBit
  split
  · exact Res.ends_bind (emit_ends _ s) (fun _ t ht => ht.trans (dropPending_only t)) (fun _ ht => ht)
  · rfl

theorem putBits_ends (bs : Bits) (s : State) : (putBits bs s).Ends (WriterOnly s) := by
  induction bs generalizing s with
  | nil => exact WriterOnly.refl s
  | cons b bs ih =>
    exact Res.ends_bind (putBit_ends b s)
      (fun _ t ht => Res.ends_mono (ih t) fun _ hu => ht.trans hu) (fun _ ht => ht)

theorem flushBody_ends (s : State) : (flushBody s).Ends (WriterOnly s) := by
  unfold flushBody
  split
  · exact Res.ends_bind (emit_ends _ s) (fun _ t ht => ht.trans (dropPending_only t)) (fun _ ht => ht)
  · exact WriterOnly.refl s

theorem emitAll_ends (vs : List Byte) (s : State) : (emitAll vs s).Ends (WriterOnly s) := by
  induction vs generalizing s with
  | nil => exact WriterOnly.refl s
  | cons v vs ih =>
    exact Res.ends_bind (emit_ends v s)
      (fun _ t ht => Res.ends_mono (ih t) fun _ hu => ht.trans hu) (fun _ ht => ht)

theorem encodeFrom_ends (n j : Nat) (s : State) : (encodeFrom n j s).Ends (WriterOnly s) := by
  induction n generalizing j s with
  | zero => exact WriterOnly.refl s
  | succ n ih =>
    refine Res.ends_bind (coreRead_ends _ s) (fun b t ht => ?_) (fun t ht => ht ▸ WriterOnly.refl s)
    subst ht
    split
    · exact WriterOnly.refl t
    · exact Res.ends_bind (putBits_ends _ t)
        (fun _ u hu => Res.ends_mono (ih (j + 1) u) fun _ hv => hu.trans hv) (fun _ hu => hu)

/-! ## The reader -/

/-- What the bit reader may write. -/
def ReaderOnly (s t : State) : Prop := t = { s with br := t.br }

theorem ReaderOnly.refl (s : State) : ReaderOnly s s := rfl

theorem ReaderOnly.trans {s t u : State} (h1 : ReaderOnly s t) (h2 : ReaderOnly t u) :
    ReaderOnly s u := by
  unfold ReaderOnly at *
  rw [h2, h1]

theorem getBit_ends (s : State) : (getBit s).Ends (ReaderOnly s) := by
  unfold getBit
  split
  · split
    · exact ReaderOnly.refl s
    · refine Res.ends_bind (coreRead_ends _ s) (fun v t ht => ?_) (fun t ht => ht ▸ ReaderOnly.refl s)
      subst ht
      rfl
  · rfl

theorem needBit_ends (s : State) : (needBit s).Ends (ReaderOnly s) := by
  refine Res.ends_bind (getBit_ends s) (fun bit t ht => ?_) (fun _ ht => ht)
  cases bit <;> exact ht

theorem walkFrom_ends (fuel : Nat) (node : Node) (s : State) :
    (walkFrom fuel node s).Ends (ReaderOnly s) := by
  induction fuel generalizing node s with
  | zero => exact trivial
  | succ fuel ih =>
    refine Res.ends_bind (needBit_ends s) (fun b t ht => ?_) (fun _ ht => ht)
    split
    · exact trivial
    · split
      · exact ht
      · exact Res.ends_mono (ih _ t) fun _ hu => ht.trans hu

theorem decodeSymbol_ends (s : State) : (decodeSymbol s).Ends (ReaderOnly s) := by
  unfold decodeSymbol
  split
  · exact trivial
  · split
    · exact Res.ends_bind (needBit_ends s) (fun _ t ht => ht) (fun _ ht => ht)
    · exact walkFrom_ends _ _ s

theorem readSrc_ends (n o : Nat) (s : State) : (readSrc n o s).Ends (fun t => t = s) := by
  induction n generalizing o with
  | zero => rfl
  | succ n ih =>
    refine Res.ends_bind (coreRead_ends _ s) (fun b t ht => ?_) (fun _ ht => ht)
    subst ht
    exact Res.ends_bind (ih (o + 1)) (fun _ u hu => hu) (fun _ hu => hu)

/-! ## The tables -/

theorem scanFrom_ends (n j : Nat) (s : State) :
    (scanFrom n j s).Ends (fun t => t = { s with ft := t.ft }) := by
  induction n generalizing j s with
  | zero => rfl
  | succ n ih =>
    refine Res.ends_bind (coreRead_ends _ s) (fun b t ht => ?_) (fun t ht => ht ▸ rfl)
    subst ht
    exact Res.ends_mono (ih (j + 1) _) fun u hu => by rw [hu]

theorem scanBody_ends (s : State) : (scanBody s).Ends (fun t => t = { s with ft := t.ft }) :=
  Res.ends_mono (scanFrom_ends _ 0 _) fun u hu => by rw [hu]

theorem treeBody_ends (s : State) :
    (treeBody s).Ends (fun t => t = { s with pq := t.pq, tree := t.tree }) := by
  unfold treeBody
  dsimp only
  split
  · split <;> rfl
  · split <;> rfl

theorem codeGenBody_ends (s : State) :
    (codeGenBody s).Ends (fun t => t = { s with codes := t.codes }) := by
  unfold codeGenBody
  split <;> simp [Res.Ends]

theorem treeForContainer_ends (s : State) :
    (treeForContainer s).Ends (fun t => t = { s with pq := t.pq, tree := t.tree }) := by
  have h := treeBody_ends s
  unfold treeForContainer
  revert h
  cases treeBody s with
  | ok a t => exact id
  | raise e t => intro h; dsimp only; split <;> exact h
  | fault w => exact id

/-! ## The codec -/

/-- What the set-up of COMPRESS may write. -/
def CompressSetupOnly (s t : State) : Prop :=
  t = { s with outLen := 0, ft := t.ft, pq := t.pq, tree := t.tree, codes := t.codes }

theorem compressSetup_ends (s : State) : (compressSetup s).Ends (CompressSetupOnly s) := by
  unfold compressSetup
  dsimp only
  split
  · refine Res.ends_bind (scanBody_ends _) (fun _ t ht => ?_) (fun t ht => ?_)
    · refine Res.ends_bind (treeBody_ends t) (fun _ u hu => ?_) (fun u hu => ?_)
      · refine Res.ends_mono (codeGenBody_ends u) fun v hv => ?_
        unfold CompressSetupOnly
        rw [hv, hu, ht]
      · unfold CompressSetupOnly
        rw [hu, ht]
    · unfold CompressSetupOnly
      rw [ht]
  · rfl

/-- What the writing part of COMPRESS may write. -/
def CompressWriteOnly (s t : State) : Prop :=
  t = { s with bw := t.bw, mem := t.mem, draws := t.draws, outLen := t.outLen }

theorem compressWrite_ends (s : State) : (compressWrite s).Ends (CompressWriteOnly s) := by
  have lift : ∀ {t : State}, WriterOnly { s with bw := Writer.empty } t → CompressWriteOnly s t := by
    intro t h
    unfold CompressWriteOnly
    unfold WriterOnly at h
    rw [h]
  refine Res.ends_bind (emitAll_ends _ _) (fun _ t ht => ?_) (fun t ht => lift ht)
  refine Res.ends_bind (encodeFrom_ends _ 0 t) (fun _ u hu => ?_) (fun u hu => lift (ht.trans hu))
  refine Res.ends_bind (flushBody_ends u) (fun _ v hv => ?_) (fun v hv => lift (ht.trans (hu.trans hv)))
  have h := lift (ht.trans (hu.trans hv))
  change CompressWriteOnly s _
  unfold CompressWriteOnly at *
  rw [h]

/-- What COMPRESS may write besides STATUS, INT and ERR_ADDR. -/
def CompressOnly (s t : State) : Prop :=
  t = { s with outLen := t.outLen, ft := t.ft, pq := t.pq, tree := t.tree, codes := t.codes,
               bw := t.bw, mem := t.mem, draws := t.draws }

theorem compress_ends (s : State) :
    ((compressSetup s).bind fun _ s1 => compressWrite s1).Ends (CompressOnly s) := by
  have lift : ∀ t, CompressSetupOnly s t → CompressOnly s t := by
    intro t h
    unfold CompressOnly
    unfold CompressSetupOnly at h
    rw [h]
  refine Res.ends_bind (compressSetup_ends s) (fun _ t ht => ?_) lift
  refine Res.ends_mono (compressWrite_ends t) fun u hu => ?_
  unfold CompressOnly
  unfold CompressSetupOnly at ht
  unfold CompressWriteOnly at hu
  rw [hu, ht]

/-- What the set-up of DECOMPRESS may write. -/
def DecompressSetupOnly (s t : State) : Prop :=
  t = { s with outLen := 0, decoded := 0, ft := t.ft, pq := t.pq, tree := t.tree, codes := t.codes }

theorem decompressSetup_ends (s : State) : (decompressSetup s).Ends (DecompressSetupOnly s) := by
  unfold decompressSetup
  dsimp only
  split
  · split
    · rfl
    · refine Res.ends_bind (readSrc_ends _ 0 _) (fun h t ht => ?_) (fun t ht => by subst ht; rfl)
      subst ht
      refine Res.ends_bind (treeForContainer_ends _) (fun _ u hu => ?_) (fun u hu => ?_)
      · split
        · refine Res.ends_mono (codeGenBody_ends u) fun v hv => ?_
          unfold DecompressSetupOnly
          rw [hv, hu]
        · change DecompressSetupOnly s u
          unfold DecompressSetupOnly
          rw [hu]
      · unfold DecompressSetupOnly
        rw [hu]
  · rfl

/-- What one decoded symbol's store may write. -/
def StoreOnly (s t : State) : Prop := t = { s with decoded := t.decoded, mem := t.mem, draws := t.draws }

theorem storeSymbol_ends (sym : Byte) (s : State) : (storeSymbol sym s).Ends (StoreOnly s) := by
  unfold storeSymbol
  split
  · rfl
  · refine Res.ends_bind (coreWrite_ends _ sym s) (fun _ t ht => ?_) (fun t ht => ?_)
    · change StoreOnly s _
      unfold StoreOnly
      rw [ht]
    · unfold StoreOnly
      rw [ht]

/-- What the decode loop may write. -/
def DecodeOnly (s t : State) : Prop :=
  t = { s with br := t.br, decoded := t.decoded, mem := t.mem, draws := t.draws }

theorem DecodeOnly.trans {s t u : State} (h1 : DecodeOnly s t) (h2 : DecodeOnly t u) :
    DecodeOnly s u := by
  unfold DecodeOnly at *
  rw [h2, h1]

theorem ReaderOnly.decode {s t : State} (h : ReaderOnly s t) : DecodeOnly s t := by
  unfold DecodeOnly
  unfold ReaderOnly at h
  rw [h]

theorem StoreOnly.decode {s t : State} (h : StoreOnly s t) : DecodeOnly s t := by
  unfold DecodeOnly
  unfold StoreOnly at h
  rw [h]

theorem decodeFrom_ends (n : Nat) (s : State) : (decodeFrom n s).Ends (DecodeOnly s) := by
  induction n generalizing s with
  | zero => rfl
  | succ n ih =>
    refine Res.ends_bind (decodeSymbol_ends s) (fun sym t ht => ?_) (fun _ ht => ht.decode)
    refine Res.ends_bind (storeSymbol_ends sym t) (fun _ u hu => ?_) (fun _ hu => ht.decode.trans hu.decode)
    exact Res.ends_mono (ih u) fun _ hv => ht.decode.trans (hu.decode.trans hv)

/-- What DECOMPRESS may write besides STATUS, INT and ERR_ADDR. -/
def DecompressOnly (s t : State) : Prop :=
  t = { s with outLen := t.outLen, decoded := t.decoded, ft := t.ft, pq := t.pq, tree := t.tree,
               codes := t.codes, br := t.br, mem := t.mem, draws := t.draws }

theorem decompressDecode_ends (s : State) :
    (decompressDecode s).Ends fun t =>
      t = { s with outLen := t.outLen, decoded := t.decoded, br := t.br, mem := t.mem, draws := t.draws } := by
  unfold decompressDecode
  split
  · rfl
  · refine Res.ends_bind (decodeFrom_ends _ _) (fun _ t ht => ?_) (fun t ht => ?_)
    · change _ = _
      unfold DecodeOnly at ht
      rw [ht]
    · unfold DecodeOnly at ht
      rw [ht]

theorem decompress_ends (s : State) :
    ((decompressSetup s).bind fun _ s1 => decompressDecode s1).Ends (DecompressOnly s) := by
  have lift : ∀ t, DecompressSetupOnly s t → DecompressOnly s t := by
    intro t h
    unfold DecompressOnly
    unfold DecompressSetupOnly at h
    rw [h]
  refine Res.ends_bind (decompressSetup_ends s) (fun _ t ht => ?_) lift
  refine Res.ends_mono (decompressDecode_ends t) fun u hu => ?_
  unfold DecompressOnly
  unfold DecompressSetupOnly at ht
  rw [hu, ht]

end Sys2Proof.Machine
end

