-- ==== Sys2Proof/Laws/Memory.lean ====
section
/-! SUPPORT. Buffer memory: a read after a write, the canonical form, and that a canonical memory is
determined by what it reads. -/

namespace Sys2Proof.Machine

theorem Mem.read_head (c : Host.Cell) (m : List Host.Cell) : Mem.read (c :: m) c.1 = c.2 := by
  simp [Mem.read]

theorem Mem.read_write_same (m : List Host.Cell) (a : Nat) (v : Byte) (h : Mem.wf m) :
    Mem.read (Mem.write m a v) a = v := by
  obtain ⟨ho, -⟩ := h
  induction m with
  | nil =>
    unfold Mem.write
    split
    · simp_all [Mem.read]
    · simp [Mem.read]
  | cons c rest ih =>
    obtain ⟨k, w⟩ := c
    obtain ⟨hk, hr⟩ := List.pairwise_cons.1 ho
    have hlt : ∀ b, b ≤ k → Mem.read rest b = unlistedByte := by
      intro b hb
      clear ih hr ho
      induction rest with
      | nil => rfl
      | cons d ds ihd =>
        have hd := hk d (by simp)
        simp only [Mem.read]
        rw [if_neg (by simp only at hd ⊢; omega)]
        exact ihd fun e he => hk e (by simp [he])
    unfold Mem.write
    split
    · split
      · rename_i h1 h2
        simp only [Mem.read]
        rw [if_neg (by omega), hlt a (by omega), h2]
      · simp [Mem.read]
    · split
      · subst a
        split
        · rename_i h2
          rw [h2, hlt k (Nat.le_refl k)]
        · simp [Mem.read]
      · simp only [Mem.read]
        rw [if_neg (by omega)]
        exact ih hr

theorem Mem.read_write_other (m : List Host.Cell) (a b : Nat) (v : Byte) (hne : b ≠ a) :
    Mem.read (Mem.write m a v) b = Mem.read m b := by
  induction m with
  | nil =>
    unfold Mem.write
    split
    · rfl
    · simp [Mem.read, hne.symm]
  | cons c rest ih =>
    obtain ⟨k, w⟩ := c
    unfold Mem.write
    split
    · split
      · rfl
      · simp [Mem.read, hne.symm]
    · split
      · subst a
        split
        · simp [Mem.read, hne.symm]
        · simp [Mem.read, hne.symm]
      · simp only [Mem.read, ih]

theorem Mem.mem_write {m : List Host.Cell} {a : Nat} {v : Byte} {c : Host.Cell}
    (h : c ∈ Mem.write m a v) : c ∈ m ∨ (c = (a, v) ∧ v ≠ unlistedByte) := by
  induction m with
  | nil =>
    unfold Mem.write at h
    split at h
    · simp at h
    · exact .inr ⟨by simpa using h, ‹_›⟩
  | cons d rest ih =>
    obtain ⟨k, w⟩ := d
    unfold Mem.write at h
    split at h
    · split at h
      · exact .inl h
      · rcases List.mem_cons.1 h with h | h
        · exact .inr ⟨h, ‹_›⟩
        · exact .inl h
    · split at h
      · split at h
        · exact .inl (List.mem_cons_of_mem _ h)
        · rcases List.mem_cons.1 h with h | h
          · exact .inr ⟨h, ‹_›⟩
          · exact .inl (List.mem_cons_of_mem _ h)
      · rcases List.mem_cons.1 h with h | h
        · exact .inl (h ▸ List.mem_cons_self)
        · rcases ih h with h | h
          · exact .inl (List.mem_cons_of_mem _ h)
          · exact .inr h

/-- A write keeps the canonical form. -/
theorem Mem.write_wf {m : List Host.Cell} {a : Nat} (v : Byte) (ha : a < Config.memSize)
    (h : Mem.wf m) : Mem.wf (Mem.write m a v) := by
  obtain ⟨ho, hc⟩ := h
  refine ⟨?_, ?_⟩
  · clear hc
    induction m with
    | nil => unfold Mem.write; split <;> simp
    | cons d rest ih =>
      obtain ⟨k, w⟩ := d
      obtain ⟨hk, hr⟩ := List.pairwise_cons.1 ho
      unfold Mem.write
      split
      · split
        · exact ho
        · refine List.pairwise_cons.2 ⟨fun c hmem => ?_, ho⟩
          rcases List.mem_cons.1 hmem with rfl | hmem
          · assumption
          · have := hk c hmem
            simp only at this ⊢
            omega
      · split
        · subst a
          split
          · exact hr
          · exact List.pairwise_cons.2 ⟨hk, hr⟩
        · refine List.pairwise_cons.2 ⟨fun c hmem => ?_, ih hr⟩
          rcases Mem.mem_write hmem with hmem | ⟨rfl, -⟩
          · exact hk c hmem
          · simp only
            omega
  · intro c hmem
    rcases Mem.mem_write hmem with hmem | ⟨rfl, hv⟩
    · exact hc c hmem
    · exact ⟨hv, ha⟩

/-- An address below every listed one reads as an unlisted byte. -/
theorem Mem.read_below {m : List Host.Cell} {a : Nat} (h : ∀ c ∈ m, a < c.1) :
    Mem.read m a = unlistedByte := by
  induction m with
  | nil => rfl
  | cons d rest ih =>
    have hd := h d (by simp)
    simp only [Mem.read]
    rw [if_neg (by omega)]
    exact ih fun c hc => h c (by simp [hc])

/-- Equal memories are equal data: a canonical memory is determined by what its addresses read. -/
theorem Mem.wf_ext {m n : List Host.Cell} (hm : Mem.wf m) (hn : Mem.wf n)
    (h : ∀ a, Mem.read m a = Mem.read n a) : m = n := by
  induction m generalizing n with
  | nil =>
    cases n with
    | nil => rfl
    | cons d ds =>
      have h1 := h d.1
      simp only [Mem.read, if_pos] at h1
      exact absurd h1.symm (hn.2 d (by simp)).1
  | cons c cs ih =>
    obtain ⟨hc, hcs⟩ := List.pairwise_cons.1 hm.1
    cases n with
    | nil =>
      have h1 := h c.1
      simp only [Mem.read, if_pos] at h1
      exact absurd h1 (hm.2 c (by simp)).1
    | cons d ds =>
      obtain ⟨hd, hds⟩ := List.pairwise_cons.1 hn.1
      have hkey : c.1 = d.1 := by
        rcases Nat.lt_trichotomy c.1 d.1 with hlt | heq | hgt
        · have h1 := h c.1
          have h2 : Mem.read (d :: ds) c.1 = unlistedByte := by
            refine Mem.read_below fun e he => ?_
            rcases List.mem_cons.1 he with rfl | he
            · exact hlt
            · exact Nat.lt_trans hlt (hd e he)
          exact absurd ((Mem.read_head c cs).symm.trans ((h c.1).trans h2)) (hm.2 c (by simp)).1
        · exact heq
        · have h1 := h d.1
          have h2 : Mem.read (c :: cs) d.1 = unlistedByte := by
            refine Mem.read_below fun e he => ?_
            rcases List.mem_cons.1 he with rfl | he
            · exact hgt
            · exact Nat.lt_trans hgt (hc e he)
          exact absurd ((Mem.read_head d ds).symm.trans ((h d.1).symm.trans h2)) (hn.2 d (by simp)).1
      have hval : c.2 = d.2 := by
        have h1 := h c.1
        simp only [Mem.read, if_pos, hkey.symm] at h1
        exact h1
      have hrest : cs = ds := by
        refine ih ⟨hcs, fun e he => hm.2 e (by simp [he])⟩ ⟨hds, fun e he => hn.2 e (by simp [he])⟩ ?_
        intro a
        rcases Nat.lt_or_ge c.1 a with hlt | hge
        · have h1 := h a
          simp only [Mem.read] at h1
          rwa [if_neg (by omega), if_neg (by omega)] at h1
        · rw [Mem.read_below fun e he => Nat.lt_of_le_of_lt hge (hc e he),
            Mem.read_below fun e he => Nat.lt_of_le_of_lt hge (hkey ▸ hd e he)]
      rw [hrest, Prod.ext hkey hval]

/-- The memory of State.reset is canonical. -/
theorem Mem.wf_reset : Mem.wf State.reset.mem := ⟨List.Pairwise.nil, fun _ h => absurd h List.not_mem_nil⟩

/-- A u32 address is inside the address space. -/
theorem addr_lt_memSize (a : Word) : a.toNat < Config.memSize := a.isLt

end Sys2Proof.Machine
end

