-- ==== Sys2Proof/Laws/Lifecycle.lean ====
section
/-! SUPPORT. How a command ends (spec/60_exceptions.md R266, R271), and the frame of a command put together
from the fields its pieces write. -/

namespace Sys2Proof.Machine

/-! ## finish -/

@[simp] theorem finish_ok (s : State) : finish (.ok () s) = .next s.complete := rfl

@[simp] theorem finish_raise (e : Raise) (s : State) : finish (.raise e s) = .next (s.report e).complete := rfl

/-- STATUS as acceptance leaves it. -/
def Status.running : Status := { busy := true, done := false, code := .ok, detail := .none }

theorem Accepted.status {s : State} (h : Accepted s) : s.status = Status.running := h.1

theorem accepted_accept (w : Word) (s : State) : Accepted (s.accept w) := ⟨rfl, rfl, rfl⟩

theorem accepted_tick {s : State} (h : Accepted s) : Accepted s.tick := h

/-- A command that reaches its end reports OK. -/
theorem ended_complete {s : State} (h : s.status = Status.running) : Ended .ok .none s.complete := by
  constructor
  · rw [State.complete_status, h]; rfl
  · rfl

/-- A raise is what STATUS reports. -/
theorem ended_report (e : Raise) (s : State) : Ended e.code e.detail (s.report e).complete := ⟨rfl, rfl⟩

theorem Ended.code {c : StatusCode} {d : Detail} {t : State} (h : Ended c d t) : t.status.code = c := by rw [h.1]

theorem Ended.detail {c : StatusCode} {d : Detail} {t : State} (h : Ended c d t) : t.status.detail = d := by rw [h.1]

/-! ## Frames -/

/-- The fields that HostSideKept names, which no command writes, taken together. -/
def hostSide (s : State) : Region × Bool × Bool × List (AccessKind × Word) × List HostAction × HostResp :=
  (s.region, s.irqEn, s.int.overrun, s.busFault, s.inbox, s.resp)

/-- The host's side is kept exactly when it is equal as a whole. -/
theorem hostSideKept_iff {s t : State} : HostSideKept s t ↔ hostSide t = hostSide s := by
  simp only [HostSideKept, hostSide, Prod.mk.injEq]

theorem HostSideKept.refl (s : State) : HostSideKept s s := hostSideKept_iff.2 rfl

theorem HostSideKept.trans {s t u : State} (hst : HostSideKept s t) (htu : HostSideKept t u) : HostSideKept s u :=
  hostSideKept_iff.2 (by rw [hostSideKept_iff.1 htu, hostSideKept_iff.1 hst])

theorem keeps_refl (p : Part) (s : State) : keeps p s s := by cases p <;> simp [keeps]

theorem keeps_trans {p : Part} {s t u : State} (h1 : keeps p s t) (h2 : keeps p t u) : keeps p s u := by
  cases p
  case mem => exact fun a => (h2 a).trans (h1 a)
  all_goals exact Eq.trans h2 h1

theorem KeptExcept.refl (ps : List Part) (s : State) : KeptExcept ps s s :=
  ⟨HostSideKept.refl s, fun p _ => keeps_refl p s⟩

theorem KeptExcept.trans {ps : List Part} {s t u : State} (h1 : KeptExcept ps s t) (h2 : KeptExcept ps t u) :
    KeptExcept ps s u := ⟨h1.1.trans h2.1, fun p hp => keeps_trans (h1.2 p hp) (h2.2 p hp)⟩

theorem KeptExcept.mono {ps qs : List Part} {s t : State} (h : KeptExcept ps s t) (hs : ∀ p ∈ ps, p ∈ qs) :
    KeptExcept qs s t := ⟨h.1, fun p hp => h.2 p fun hps => hp (hs p hps)⟩

theorem keptExcept_complete (s : State) : KeptExcept [] s s.complete :=
  ⟨HostSideKept.refl s, fun p _ => by cases p <;> simp [keeps]⟩

theorem KeptExcept.complete {ps : List Part} {s t : State} (h : KeptExcept ps s t) : KeptExcept ps s t.complete :=
  h.trans ((keptExcept_complete t).mono fun _ hp => absurd hp List.not_mem_nil)

/-- A raise without an address keeps ERR_ADDR. -/
theorem keptExcept_report {e : Raise} (h : e.addr = none) (s : State) : KeptExcept [] s (s.report e) :=
  ⟨HostSideKept.refl s, fun p _ => by cases p <;> simp [keeps, State.report, h]⟩

theorem keptExcept_reportIo (e : Raise) (s : State) : KeptExcept [.errAddr] s (s.report e) :=
  ⟨HostSideKept.refl s, fun p hp => by cases p <;> simp_all [keeps, State.report]⟩

theorem KeptExcept.report {ps : List Part} {s t : State} {e : Raise} (h : KeptExcept ps s t)
    (he : e.addr = none ∨ .errAddr ∈ ps) : KeptExcept ps s (t.report e).complete := by
  rcases he with he | he
  · exact (h.trans ((keptExcept_report he t).mono fun _ hp => absurd hp List.not_mem_nil)).complete
  · exact (h.trans ((keptExcept_reportIo e t).mono fun p hp => by simp_all)).complete

theorem MemoryKeptBut.of_eq {P : Nat → Prop} {s t : State} (h : t.mem = s.mem) : MemoryKeptBut P s t :=
  fun a _ => by rw [h]

theorem MemoryKeptBut.trans {P : Nat → Prop} {s t u : State} (h1 : MemoryKeptBut P s t) (h2 : MemoryKeptBut P t u) :
    MemoryKeptBut P s u := fun a ha => (h2 a ha).trans (h1 a ha)

theorem MemoryKeptBut.mono {P Q : Nat → Prop} {s t : State} (h : MemoryKeptBut P s t) (hPQ : ∀ a, P a → Q a) :
    MemoryKeptBut Q s t := fun a ha => h a fun hp => ha (hPQ a hp)

/-- A write of one byte. -/
theorem memoryKept_write (s t : State) (a : Nat) (v : Byte) (h : t.mem = Mem.write s.mem a v) :
    MemoryKeptBut (fun b => b = a) s t := fun b hb => by rw [h, Mem.read_write_other _ _ _ _ hb]

end Sys2Proof.Machine
end

