-- ==== Sys2Proof/Laws/Queue.lean ====
section
/-! SUPPORT. The priority queue: the key order is a strict total order (spec/41_priority_queue.md R120), the
canonical order is kept, insert is multiset union, and extract removes the least entry (R122 to R124). -/

namespace Sys2Proof.Machine

theorem Entry.keyLt_iff (a b : Entry) :
    a.keyLt b = true ↔ a.weight.toNat < b.weight.toNat ∨
      (a.weight.toNat = b.weight.toNat ∧ a.index.toNat < b.index.toNat) := by
  simp [Entry.keyLt, BitVec.toNat_inj]

theorem Entry.keyLt_eq_false_iff (a b : Entry) :
    a.keyLt b = false ↔ b.weight.toNat < a.weight.toNat ∨
      (a.weight.toNat = b.weight.toNat ∧ b.index.toNat ≤ a.index.toNat) := by
  rw [← Bool.not_eq_true, Entry.keyLt_iff]
  omega

theorem Entry.keyLt_irrefl (a : Entry) : a.keyLt a = false := by
  rw [Entry.keyLt_eq_false_iff]; omega

theorem Entry.keyLt_trans {a b c : Entry} (h1 : a.keyLt b = true) (h2 : b.keyLt c = true) :
    a.keyLt c = true := by
  rw [Entry.keyLt_iff] at *; omega

theorem Entry.keyLe_trans {a b c : Entry} (h1 : b.keyLt a = false) (h2 : c.keyLt b = false) :
    c.keyLt a = false := by
  rw [Entry.keyLt_eq_false_iff] at *; omega

/-- Entries neither of which is before the other are equal: the key is the whole entry. -/
theorem Entry.eq_of_not_keyLt {a b : Entry} (h1 : a.keyLt b = false) (h2 : b.keyLt a = false) : a = b := by
  rw [Entry.keyLt_eq_false_iff] at *
  obtain ⟨wa, ia⟩ := a
  obtain ⟨wb, ib⟩ := b
  simp only at h1 h2
  have hw : wa = wb := BitVec.eq_of_toNat_eq (by omega)
  have hi : ia = ib := BitVec.eq_of_toNat_eq (by omega)
  rw [hw, hi]

/-- The canonical order of PQ_ENTRIES. -/
abbrev Ascending (q : List Entry) : Prop := q.Pairwise fun e1 e2 => e2.keyLt e1 = false

theorem pqInsert_perm (e : Entry) (q : List Entry) : (pqInsert e q).Perm (e :: q) := by
  induction q with
  | nil => exact List.Perm.refl _
  | cons x xs ih =>
    simp only [pqInsert]
    split
    · exact (ih.cons x).trans (List.Perm.swap e x xs)
    · exact List.Perm.refl _

theorem pqInsert_length (e : Entry) (q : List Entry) : (pqInsert e q).length = q.length + 1 := by
  simpa using (pqInsert_perm e q).length_eq

theorem mem_pqInsert {e x : Entry} {q : List Entry} : x ∈ pqInsert e q ↔ x = e ∨ x ∈ q := by
  simpa using (pqInsert_perm e q).mem_iff

/-- Insert keeps the canonical order. -/
theorem pqInsert_ascending {e : Entry} {q : List Entry} (h : Ascending q) : Ascending (pqInsert e q) := by
  induction q with
  | nil => simp [pqInsert]
  | cons x xs ih =>
    obtain ⟨hx, hxs⟩ := List.pairwise_cons.1 h
    simp only [pqInsert]
    split
    · rename_i hlt
      refine List.pairwise_cons.2 ⟨fun y hy => ?_, ih hxs⟩
      rcases mem_pqInsert.1 hy with rfl | hy
      · rw [Entry.keyLt_iff] at hlt
        rw [Entry.keyLt_eq_false_iff]
        omega
      · exact hx y hy
    · rename_i hlt
      have hxe : x.keyLt e = false := by simpa using hlt
      refine List.pairwise_cons.2 ⟨fun y hy => ?_, h⟩
      rcases List.mem_cons.1 hy with rfl | hy
      · exact hxe
      · exact Entry.keyLe_trans hxe (hx y hy)

/-- A canonical queue is determined by the multiset it holds. -/
theorem Ascending.eq_of_perm {p q : List Entry} (hp : Ascending p) (hq : Ascending q) (h : p.Perm q) :
    p = q :=
  List.Perm.eq_of_pairwise (fun _ _ _ _ hab hba => Entry.eq_of_not_keyLt hba hab) hp hq h

/-- The least entry is held and nothing held is before it. -/
theorem pqLeast_spec {q : List Entry} {e : Entry} (h : pqLeast q = some e) :
    e ∈ q ∧ ∀ x ∈ q, x.keyLt e = false := by
  induction q generalizing e with
  | nil => simp [pqLeast] at h
  | cons y ys ih =>
    simp only [pqLeast] at h
    split at h
    · rename_i hn
      obtain rfl : y = e := by simpa using h
      have hys : ys = [] := by
        cases ys with
        | nil => rfl
        | cons z zs => simp only [pqLeast] at hn; split at hn <;> (try split at hn) <;> simp at hn
      subst hys
      simp [Entry.keyLt_irrefl]
    · rename_i m hm
      obtain ⟨hmem, hle⟩ := ih hm
      split at h
      · rename_i hlt
        obtain rfl : m = e := by simpa using h
        refine ⟨List.mem_cons_of_mem _ hmem, fun x hx => ?_⟩
        rcases List.mem_cons.1 hx with rfl | hx
        · rw [Entry.keyLt_iff] at hlt
          rw [Entry.keyLt_eq_false_iff]
          omega
        · exact hle x hx
      · rename_i hlt
        obtain rfl : y = e := by simpa using h
        have hmy : m.keyLt y = false := by simpa using hlt
        refine ⟨List.mem_cons_self, fun x hx => ?_⟩
        rcases List.mem_cons.1 hx with rfl | hx
        · exact Entry.keyLt_irrefl _
        · exact Entry.keyLe_trans hmy (hle x hx)

theorem pqLeast_eq_none_iff {q : List Entry} : pqLeast q = none ↔ q = [] := by
  cases q with
  | nil => simp [pqLeast]
  | cons y ys =>
    simp only [pqLeast, reduceCtorEq, iff_false]
    split <;> (try split) <;> simp

/-- What extract answers: the least entry, and the queue without one copy of it. -/
theorem pqExtract_eq_some {q : List Entry} {e : Entry} {r : List Entry} (h : pqExtract q = some (e, r)) :
    r = q.erase e ∧ q.Perm (e :: r) ∧ ∀ x ∈ q, x.keyLt e = false := by
  simp only [pqExtract, Option.map_eq_some_iff, Prod.mk.injEq] at h
  obtain ⟨a, ha, rfl, rfl⟩ := h
  obtain ⟨hmem, hle⟩ := pqLeast_spec ha
  exact ⟨rfl, List.perm_cons_erase hmem, hle⟩

theorem pqExtract_eq_none_iff {q : List Entry} : pqExtract q = none ↔ q = [] := by
  simp [pqExtract, pqLeast_eq_none_iff]

theorem pqExtract_length {q : List Entry} {e : Entry} {r : List Entry} (h : pqExtract q = some (e, r)) :
    q.length = r.length + 1 := by
  simpa using (pqExtract_eq_some h).2.1.length_eq

/-- Extract keeps the canonical order. -/
theorem pqExtract_ascending {q : List Entry} {e : Entry} {r : List Entry} (hq : Ascending q)
    (h : pqExtract q = some (e, r)) : Ascending r := by
  rw [(pqExtract_eq_some h).1]
  exact List.Pairwise.sublist List.erase_sublist hq

end Sys2Proof.Machine
end

