-- ==== Sys2Proof/Laws/Tree.lean ====
section
/-! SUPPORT. What TREE_BUILD builds (spec/42_tree_builder.md R140 to R143): an invariant of the build in
progress, and the tree it leaves. -/

namespace Sys2Proof.Machine

/-! ## The leaves -/

theorem leavesFrom_eq (cs : List Word) (sym : Nat) :
    leavesFrom cs sym = ((cs.zipIdx sym).filter fun p => p.1 != 0).map fun p => leafNode p.1 p.2 := by
  induction cs generalizing sym with
  | nil => rfl
  | cons c cs ih =>
    rw [leavesFrom, ih, List.zipIdx_cons]
    by_cases hc : c = 0
    · rw [if_pos hc, List.filter_cons_of_neg (by simp [hc])]
    · rw [if_neg hc, List.filter_cons_of_pos (by simpa using hc), List.map_cons]

/-- There are as many leaves as nonzero counts. -/
theorem leavesFrom_length (cs : List Word) (sym : Nat) :
    (leavesFrom cs sym).length = (cs.filter fun c => c != 0).length := by
  induction cs generalizing sym with
  | nil => rfl
  | cons c cs ih =>
    rw [leavesFrom]
    by_cases hc : c = 0
    · rw [if_pos hc, List.filter_cons_of_neg (by simp [hc]), ih]
    · rw [if_neg hc, List.filter_cons_of_pos (by simpa using hc), List.length_cons, List.length_cons, ih]

/-- The leaves weigh what the counts sum to. -/
theorem leavesFrom_sum (cs : List Word) (sym : Nat) :
    ((leavesFrom cs sym).map fun n => n.weight.toNat).sum = (cs.map BitVec.toNat).sum := by
  induction cs generalizing sym with
  | nil => rfl
  | cons c cs ih =>
    rw [leavesFrom]
    by_cases hc : c = 0
    · rw [if_pos hc, ih]
      simp [hc]
    · rw [if_neg hc, List.map_cons, List.sum_cons, List.map_cons, List.sum_cons, ih]
      have := c.isLt
      simp only [leafNode, BitVec.toNat_setWidth]
      omega

/-- A leaf is a symbol with its nonzero count. -/
theorem mem_leavesFrom {cs : List Word} {sym : Nat} {n : Node} :
    n ∈ leavesFrom cs sym ↔ ∃ i c, cs[i]? = some c ∧ c ≠ 0 ∧ n = leafNode c (sym + i) := by
  simp only [leavesFrom_eq, List.mem_map, List.mem_filter, Prod.exists, bne_iff_ne, ne_eq]
  constructor
  · rintro ⟨c, j, ⟨hm, hc⟩, rfl⟩
    rw [List.mem_zipIdx_iff_le_and_getElem?_sub] at hm
    exact ⟨j - sym, c, hm.2, hc, by rw [show sym + (j - sym) = j by omega]⟩
  · rintro ⟨i, c, hi, hc, rfl⟩
    refine ⟨c, sym + i, ⟨?_, hc⟩, rfl⟩
    rw [List.mem_zipIdx_iff_le_and_getElem?_sub]
    exact ⟨by omega, by rw [show sym + i - sym = i by omega]; exact hi⟩

/-- The leaves stand in ascending order of their symbols. -/
theorem leavesFrom_pairwise (cs : List Word) (sym : Nat) (h : sym + cs.length ≤ 256) :
    (leavesFrom cs sym).Pairwise fun m n => m.symbol.toNat < n.symbol.toNat := by
  induction cs generalizing sym with
  | nil => exact List.Pairwise.nil
  | cons c cs ih =>
    rw [leavesFrom]
    simp only [List.length_cons] at h
    have ih := ih (sym + 1) (by omega)
    by_cases hc : c = 0
    · rw [if_pos hc]; exact ih
    · rw [if_neg hc]
      refine List.pairwise_cons.2 ⟨fun n hn => ?_, ih⟩
      obtain ⟨i, c', hi, -, rfl⟩ := mem_leavesFrom.1 hn
      have hilt : i < cs.length := by
        by_contra hge
        rw [List.getElem?_eq_none (by omega)] at hi
        cases hi
      simp only [leafNode, BitVec.toNat_ofNat]
      omega

theorem leavesOf_length_le (t : FreqTable) : (leavesOf t).length ≤ 256 := by
  rw [leavesOf, leavesFrom_length]
  exact (List.length_filter_le _ _).trans (by simp)

theorem sum_toNat_lt (l : List Word) : (l.map BitVec.toNat).sum ≤ l.length * (2 ^ 32 - 1) := by
  induction l with
  | nil => simp
  | cons c cs ih =>
    have := c.isLt
    simp only [List.map_cons, List.sum_cons, List.length_cons, Nat.add_mul]
    omega

/-- The weights of a table fit in 40 bits together (R140). -/
theorem FreqTable.sum_lt (t : FreqTable) : t.sum < 2 ^ 40 := by
  have h := sum_toNat_lt t.count.toList
  have hl : t.count.toList.length = 256 := by simp
  rw [hl] at h
  unfold FreqTable.sum
  omega

theorem leavesOf_sum (t : FreqTable) : ((leavesOf t).map fun n => n.weight.toNat).sum = t.sum :=
  leavesFrom_sum _ _

/-- The leaves are the counted symbols, each with its count. -/
theorem mem_leavesOf {t : FreqTable} {n : Node} :
    n ∈ leavesOf t ↔ t.at n.symbol ≠ 0 ∧ n = leafNode (t.at n.symbol) n.symbol.toNat := by
  rw [leavesOf, mem_leavesFrom]
  constructor
  · rintro ⟨i, c, hi, hc, rfl⟩
    have hlt : i < 256 := by
      by_contra hge
      rw [List.getElem?_eq_none (by simp; omega)] at hi
      cases hi
    have hat : t.at (BitVec.ofNat 8 i) = c := by
      have hm : (BitVec.ofNat 8 i).toNat = i := by simp; omega
      simp only [FreqTable.at, hm]
      simpa [hlt] using hi
    have hm : (BitVec.ofNat 8 i).toNat = i := by simp; omega
    simp only [leafNode, Nat.zero_add, hat, hm]
    exact ⟨hc, trivial⟩
  · rintro ⟨h1, h2⟩
    refine ⟨n.symbol.toNat, t.at n.symbol, ?_, h1, by rw [Nat.zero_add]; exact h2⟩
    have := n.symbol.isLt
    simp [FreqTable.at, this]

theorem isLeaf_of_mem_leavesOf {t : FreqTable} {n : Node} (h : n ∈ leavesOf t) :
    n.leaf = true ∧ n.left = nil ∧ n.right = nil := by
  rw [(mem_leavesOf.1 h).2]
  exact ⟨rfl, rfl, rfl⟩

theorem leavesOf_pairwise (t : FreqTable) :
    (leavesOf t).Pairwise fun m n => m.symbol.toNat < n.symbol.toNat :=
  leavesFrom_pairwise _ _ (by simp)

/-! ## The build in progress -/

/-- Node c of a node store has d as a child. -/
def childIn (nodes : Vector Node 511) (c : Nat) (right : Bool) (d : Nat) : Prop :=
  ∃ n, nodes[c]? = some n ∧ n.leaf = false ∧ (if right then n.right else n.left).toNat = d

/-- The node store holds an internal node at c, as a merge writes it (R140). -/
def innerAt (nodes : Vector Node 511) (c : Nat) : Prop :=
  ∃ n m1 m2, nodes[c]? = some n ∧ n.leaf = false ∧ n.symbol = 0 ∧ n.left.toNat < c ∧ n.right.toNat < c ∧
    n.left ≠ n.right ∧ nodes[n.left.toNat]? = some m1 ∧ nodes[n.right.toNat]? = some m2 ∧
    n.weight.toNat = m1.weight.toNat + m2.weight.toNat

/-- A node store as a tree, to speak of its nodes alone. -/
def storeTree (nodes : Vector Node 511) : Tree := { valid := true, root := 0, nodeCount := 0, nodes := nodes }

/-- What holds of a build over `leaves` after each node it adds. -/
structure Growing (leaves : List Node) (b : Builder) : Prop where
  next_ge : leaves.length ≤ b.next
  next_le : b.next ≤ 511
  leaf : ∀ (i : Nat) (l : Node), leaves[i]? = some l → b.nodes[i]? = some l
  inner : ∀ c, leaves.length ≤ c → c < b.next → innerAt b.nodes c
  held : ∀ e ∈ b.pq, e.index.toNat < b.next ∧ ∃ n, b.nodes[e.index.toNat]? = some n ∧ n.weight = e.weight
  nodup : (b.pq.map fun e => e.index.toNat).Nodup
  free : ∀ e ∈ b.pq, ∀ c right, leaves.length ≤ c → c < b.next → ¬ childIn b.nodes c right e.index.toNat
  used : ∀ d, d < b.next → (∀ e ∈ b.pq, e.index.toNat ≠ d) → ∃ c right, leaves.length ≤ c ∧ c < b.next ∧
    childIn b.nodes c right d ∧ ∀ c' right', leaves.length ≤ c' → c' < b.next → childIn b.nodes c' right' d →
      c' = c ∧ right' = right
  size : b.pq.length + b.next = 2 * leaves.length
  total : (b.pq.map fun e => e.weight.toNat).sum = (leaves.map fun n => n.weight.toNat).sum
  last : b.next ≠ 0 → ∃ e ∈ b.pq, e.index.toNat + 1 = b.next
  least : ∀ c, leaves.length ≤ c → c < b.next → mergesLeast (storeTree b.nodes) leaves.length c

theorem getElem?_set_same {nodes : Vector Node 511} {c : Nat} (n : Node) (h : c < 511) :
    (nodes.setIfInBounds c n)[c]? = some n := by
  simp [h]

theorem getElem?_set_other {nodes : Vector Node 511} {c i : Nat} (n : Node) (h : i ≠ c) :
    (nodes.setIfInBounds c n)[i]? = nodes[i]? := by
  simp [Ne.symm h]

theorem childIn_set_other {nodes : Vector Node 511} {c i d : Nat} {right : Bool} (n : Node) (h : i ≠ c) :
    childIn (nodes.setIfInBounds c n) i right d ↔ childIn nodes i right d := by
  simp only [childIn, getElem?_set_other n h]

theorem innerAt_set {nodes : Vector Node 511} {c i : Nat} (n : Node) (h : i < c) (hi : innerAt nodes i) :
    innerAt (nodes.setIfInBounds c n) i := by
  obtain ⟨m, m1, m2, h1, h2, h3, h4, h5, h6, h7, h8, h9⟩ := hi
  exact ⟨m, m1, m2, by rw [getElem?_set_other n (by omega)]; exact h1, h2, h3, h4, h5, h6,
    by rw [getElem?_set_other n (by omega)]; exact h7, by rw [getElem?_set_other n (by omega)]; exact h8, h9⟩

theorem queuedAt_set {nodes : Vector Node 511} {c i k d : Nat} (n : Node) (h : i ≤ c) :
    queuedAt (storeTree (nodes.setIfInBounds c n)) k i d ↔ queuedAt (storeTree nodes) k i d := by
  unfold queuedAt
  refine and_congr_right fun _ => ⟨fun hq c' right h1 h2 h3 => hq c' right h1 h2 ?_, fun hq c' right h1 h2 h3 =>
    hq c' right h1 h2 ?_⟩
  · exact (childIn_set_other n (by omega)).2 h3
  · exact (childIn_set_other n (by omega)).1 h3

theorem nodeBefore_set {nodes : Vector Node 511} {c d e : Nat} (n : Node) (hd : d < c) (he : e < c)
    (h : nodeBefore (storeTree nodes) d e) : nodeBefore (storeTree (nodes.setIfInBounds c n)) d e := by
  obtain ⟨m1, m2, h1, h2, h3⟩ := h
  exact ⟨m1, m2, (getElem?_set_other n (by omega)).trans h1, (getElem?_set_other n (by omega)).trans h2, h3⟩

theorem mergesLeast_set {nodes : Vector Node 511} {c i k : Nat} (n : Node) (h : i < c)
    (hi : mergesLeast (storeTree nodes) k i) : mergesLeast (storeTree (nodes.setIfInBounds c n)) k i := by
  obtain ⟨m, h1, h2, h3, h4, h5⟩ := hi
  have hl := h2.1
  have hr := h3.1
  refine ⟨m, (getElem?_set_other n (by omega)).trans h1, (queuedAt_set n (by omega)).2 h2,
    (queuedAt_set n (by omega)).2 h3, nodeBefore_set n (by omega) (by omega) h4, fun d hd => ?_⟩
  rw [queuedAt_set n (by omega)] at hd
  have hdi := hd.1
  exact (h5 d hd).imp id (Or.imp id fun h => nodeBefore_set n (by omega) (by omega) h)

/-- The queue holds exactly the nodes that no node has as a child. -/
theorem Growing.queued {leaves : List Node} {b : Builder} (h : Growing leaves b) (d : Nat) :
    queuedAt (storeTree b.nodes) leaves.length b.next d ↔ ∃ e ∈ b.pq, e.index.toNat = d := by
  constructor
  · rintro ⟨h1, h2⟩
    by_contra hno
    obtain ⟨c, right, hc1, hc2, hch, -⟩ := h.used d h1 fun e he hed => hno ⟨e, he, hed⟩
    exact h2 c right hc1 hc2 hch
  · rintro ⟨e, he, rfl⟩
    exact ⟨(h.held e he).1, fun c right h1 h2 h3 => h.free e he c right h1 h2 h3⟩

/-- Of two held entries the one that is not after the other is the lesser node. -/
theorem Growing.before {leaves : List Node} {b : Builder} (h : Growing leaves b) {e1 e2 : Entry} (m1 : e1 ∈ b.pq)
    (m2 : e2 ∈ b.pq) (hlt : e2.keyLt e1 = false) (hne : e1.index.toNat ≠ e2.index.toNat) :
    nodeBefore (storeTree b.nodes) e1.index.toNat e2.index.toNat := by
  obtain ⟨-, n1, h1, w1⟩ := h.held e1 m1
  obtain ⟨-, n2, h2, w2⟩ := h.held e2 m2
  refine ⟨n1, n2, h1, h2, ?_⟩
  rw [w1, w2]
  rw [Entry.keyLt_eq_false_iff] at hlt
  rcases hlt with hlt | ⟨hw, hi⟩
  · exact .inl hlt
  · exact .inr ⟨BitVec.eq_of_toNat_eq hw.symm, by omega⟩

theorem index_toNat {c : Nat} (h : c < 511) : (BitVec.ofNat 9 c).toNat = c := by
  simp only [BitVec.toNat_ofNat]; omega

/-- A leaf is seeded. -/
theorem Growing.seed {leaves : List Node} {b : Builder} (h : Growing leaves b) (hn : b.next = leaves.length)
    {l : Node} (hb : leaves.length < 256) : Growing (leaves ++ [l]) (b.add l) := by
  have hlt : b.next < 511 := by omega
  have hidx := index_toNat hlt
  have hnew : ∀ x, x ∈ (b.add l).pq ↔ x = { weight := l.weight, index := BitVec.ofNat 9 b.next } ∨ x ∈ b.pq :=
    fun x => mem_pqInsert
  have hperm := pqInsert_perm { weight := l.weight, index := BitVec.ofNat 9 b.next } b.pq
  have hnext : (b.add l).next = b.next + 1 := rfl
  have hnodes : (b.add l).nodes = b.nodes.setIfInBounds b.next l := rfl
  have hpq : (b.add l).pq = pqInsert { weight := l.weight, index := BitVec.ofNat 9 b.next } b.pq := rfl
  constructor
  · simp [hnext, hn]
  · omega
  · intro i m hi
    rw [hnodes]
    by_cases hc : i = b.next
    · subst hc
      rw [getElem?_set_same _ hlt]
      rw [List.getElem?_append_right (by omega), hn] at hi
      simpa using hi
    · rw [getElem?_set_other _ hc]
      refine h.leaf i m ?_
      rw [List.getElem?_append] at hi
      split at hi
      · exact hi
      · have : i - leaves.length ≠ 0 := by omega
        rw [List.getElem?_eq_none (by simp; omega)] at hi
        cases hi
  · intro c hc1 hc2
    simp only [List.length_append, List.length_singleton] at hc1
    omega
  · intro e he
    rcases (hnew e).1 he with rfl | he
    · exact ⟨by rw [hidx, hnext]; omega, l, by rw [hidx, hnodes, getElem?_set_same _ hlt], rfl⟩
    · obtain ⟨h1, n, h2, h3⟩ := h.held e he
      exact ⟨by omega, n, by rw [hnodes, getElem?_set_other _ (by omega)]; exact h2, h3⟩
  · rw [hpq, ((hperm.map _).nodup_iff), List.map_cons, List.nodup_cons]
    refine ⟨fun hm => ?_, h.nodup⟩
    obtain ⟨e, he, heq⟩ := List.mem_map.1 hm
    have := (h.held e he).1
    rw [hidx] at heq
    omega
  · intro e _ c right hc1 hc2
    simp only [List.length_append, List.length_singleton] at hc1
    omega
  · intro d hd hfree
    exfalso
    by_cases hc : d = b.next
    · exact hfree _ ((hnew _).2 (.inl rfl)) (by rw [hidx, hc])
    · obtain ⟨c, right, hc1, hc2, -⟩ := h.used d (by omega) fun e he => hfree e ((hnew e).2 (.inr he))
      omega
  · have := h.size
    rw [hpq, pqInsert_length, hnext, List.length_append, List.length_singleton]
    omega
  · rw [hpq, ((hperm.map _).sum_eq), List.map_cons, List.sum_cons, h.total]
    simp [Nat.add_comm]
  · exact fun _ => ⟨_, (hnew _).2 (.inl rfl), by rw [hidx, hnext]⟩
  · intro c hc1 hc2
    simp only [List.length_append, List.length_singleton] at hc1
    omega

theorem growing_start (nodes : Vector Node 511) : Growing [] { nodes := nodes, pq := [], next := 0 } := by
  constructor <;> simp

/-- The seeded leaves. -/
theorem seedLeaves_growing (leaves : List Node) (nodes : Vector Node 511) (hk : leaves.length ≤ 256) :
    Growing leaves (seedLeaves leaves nodes) ∧ (seedLeaves leaves nodes).next = leaves.length := by
  have key : ∀ (rest pre : List Node) (b : Builder), Growing pre b → b.next = pre.length →
      pre.length + rest.length ≤ 256 →
      Growing (pre ++ rest) (rest.foldl Builder.add b) ∧ (rest.foldl Builder.add b).next = (pre ++ rest).length := by
    intro rest
    induction rest with
    | nil => intro pre b h hn _; simpa using ⟨h, hn⟩
    | cons l rest ih =>
      intro pre b h hn hle
      simp only [List.length_cons] at hle
      have := ih (pre ++ [l]) (b.add l) (h.seed hn (by omega)) (by simp [Builder.add, hn]) (by simp; omega)
      simpa using this
  simpa [seedLeaves] using key leaves [] _ (growing_start nodes) rfl (by simpa using hk)

/-- A merge takes two held entries and adds the node over them. -/
theorem Growing.merge {leaves : List Node} {b b' : Builder} (h : Growing leaves b)
    (hk : leaves.length ≤ 256) (hS : (leaves.map fun n => n.weight.toNat).sum < 2 ^ 40)
    (hm : b.merge = some b') : Growing leaves b' ∧ b'.pq.length + 1 = b.pq.length := by
  unfold Builder.merge at hm
  split at hm
  · cases hm
  · rename_i e1 q1 hx1
    split at hm
    · cases hm
    · rename_i e2 q2 hx2
      cases hm
      obtain ⟨-, hp1, hmin1⟩ := pqExtract_eq_some hx1
      obtain ⟨-, hp2, hmin2⟩ := pqExtract_eq_some hx2
      have hp : b.pq.Perm (e1 :: e2 :: q2) := hp1.trans (hp2.cons e1)
      have hlen : b.pq.length = q2.length + 2 := by simpa using hp.length_eq
      have hsize := h.size
      have hlt : b.next < 511 := by omega
      have hidx := index_toNat hlt
      have m1 : e1 ∈ b.pq := hp.mem_iff.2 (by simp)
      have m2 : e2 ∈ b.pq := hp.mem_iff.2 (by simp)
      have mq : ∀ e ∈ q2, e ∈ b.pq := fun e he => hp.mem_iff.2 (by simp [he])
      have hnd : ((e1 :: e2 :: q2).map fun e => e.index.toNat).Nodup := (hp.map _).nodup_iff.1 h.nodup
      simp only [List.map_cons, List.nodup_cons, List.mem_cons, List.mem_map, not_or, not_exists, not_and] at hnd
      obtain ⟨⟨hne, hn1⟩, hn2, hn3⟩ := hnd
      obtain ⟨i1, w1, hw1, hw1'⟩ := h.held e1 m1
      obtain ⟨i2, w2, hw2, hw2'⟩ := h.held e2 m2
      have htotal : e1.weight.toNat + (e2.weight.toNat + (q2.map fun e => e.weight.toNat).sum) =
          (leaves.map fun n => n.weight.toNat).sum := by
        rw [← h.total, ((hp.map _).sum_eq)]; simp
      have hsum : (e1.weight + e2.weight).toNat = e1.weight.toNat + e2.weight.toNat := by
        rw [BitVec.toNat_add]; omega
      generalize hN : mergedNode e1 e2 = node
      have hNl : node.left = e1.index := by rw [← hN]; rfl
      have hNr : node.right = e2.index := by rw [← hN]; rfl
      have hNf : node.leaf = false := by rw [← hN]; rfl
      have hNs : node.symbol = 0 := by rw [← hN]; rfl
      have hNw : node.weight = e1.weight + e2.weight := by rw [← hN]; rfl
      have hpq : (Builder.add { b with pq := q2 } node).pq =
        pqInsert { weight := node.weight, index := BitVec.ofNat 9 b.next } q2 := rfl
      have hnew : ∀ x, x ∈ (Builder.add { b with pq := q2 } node).pq ↔
          x = { weight := node.weight, index := BitVec.ofNat 9 b.next } ∨ x ∈ q2 := fun x => mem_pqInsert
      have hperm := pqInsert_perm { weight := node.weight, index := BitVec.ofNat 9 b.next } q2
      have hnext : (Builder.add { b with pq := q2 } node).next = b.next + 1 := rfl
      have hnodes : (Builder.add { b with pq := q2 } node).nodes = b.nodes.setIfInBounds b.next node := rfl
      have hchild : ∀ right d, childIn (b.nodes.setIfInBounds b.next node) b.next right d ↔
          (if right then e2 else e1).index.toNat = d := by
        intro right d
        simp only [childIn, getElem?_set_same node hlt, Option.some.injEq, exists_eq_left', hNf, true_and, hNl, hNr]
        cases right <;> rfl
      have hge := h.next_ge
      refine ⟨?_, by rw [hpq, pqInsert_length]; omega⟩
      constructor
      · omega
      · omega
      · intro i l hi
        have hil : i < leaves.length := by
          by_contra hge
          rw [List.getElem?_eq_none (by omega)] at hi
          cases hi
        rw [hnodes, getElem?_set_other _ (by omega)]
        exact h.leaf i l hi
      · intro c hc1 hc2
        rw [hnodes]
        by_cases hc : c = b.next
        · subst hc
          refine ⟨node, w1, w2, getElem?_set_same _ hlt, hNf, hNs, by rw [hNl]; exact i1, by rw [hNr]; exact i2, ?_,
            by rw [hNl, getElem?_set_other _ (by omega)]; exact hw1,
            by rw [hNr, getElem?_set_other _ (by omega)]; exact hw2, by rw [hNw, hw1', hw2', hsum]⟩
          rw [hNl, hNr]
          exact fun heq => hne (by rw [heq])
        · exact innerAt_set _ (by omega) (h.inner c hc1 (by omega))
      · intro e he
        rcases (hnew e).1 he with rfl | he
        · exact ⟨by rw [hidx, hnext]; omega, node, by rw [hidx, hnodes, getElem?_set_same _ hlt], rfl⟩
        · obtain ⟨h1, n, h2, h3⟩ := h.held e (mq e he)
          exact ⟨by omega, n, by rw [hnodes, getElem?_set_other _ (by omega)]; exact h2, h3⟩
      · rw [hpq, ((hperm.map _).nodup_iff), List.map_cons, List.nodup_cons]
        refine ⟨fun hm => ?_, hn3⟩
        obtain ⟨e, he, heq⟩ := List.mem_map.1 hm
        have := (h.held e (mq e he)).1
        rw [hidx] at heq
        omega
      · intro e he c right hc1 hc2
        rw [hnodes]
        by_cases hc : c = b.next
        · subst hc
          rw [hchild]
          rcases (hnew e).1 he with rfl | he
          · rw [hidx]; split <;> omega
          · cases right
            · exact fun heq => hn1 e he heq.symm
            · exact fun heq => hn2 e he heq.symm
        · rw [childIn_set_other _ hc]
          rcases (hnew e).1 he with rfl | he
          · rw [hidx]
            rintro ⟨n, hn, -, hd⟩
            obtain ⟨m, _, _, hm1, _, _, hm4, hm5, -⟩ := h.inner c hc1 (by omega)
            rw [hm1] at hn
            cases hn
            split at hd <;> omega
          · exact h.free e (mq e he) c right hc1 (by omega)
      · intro d hd hfree
        rw [hnodes]
        have hdn : d ≠ b.next := fun heq => hfree _ ((hnew _).2 (.inl rfl)) (by rw [hidx, heq])
        by_cases hold : ∀ e ∈ b.pq, e.index.toNat ≠ d
        · obtain ⟨c, right, hc1, hc2, hch, huniq⟩ := h.used d (by omega) hold
          refine ⟨c, right, hc1, by omega, (childIn_set_other _ (by omega)).2 hch, fun c' right' hc1' hc2' hch' => ?_⟩
          by_cases hc : c' = b.next
          · subst hc
            rw [hchild] at hch'
            exfalso
            split at hch'
            · exact hold e2 m2 hch'
            · exact hold e1 m1 hch'
          · exact huniq c' right' hc1' (by omega) ((childIn_set_other _ hc).1 hch')
        · simp only [not_forall, ne_eq, not_not] at hold
          obtain ⟨e, he, hed⟩ := hold
          have hcase : ∃ right : Bool, (if right then e2 else e1).index.toNat = d := by
            rcases List.mem_cons.1 (hp.mem_iff.1 he) with rfl | he
            · exact ⟨false, hed⟩
            · rcases List.mem_cons.1 he with rfl | he
              · exact ⟨true, hed⟩
              · exact absurd hed (hfree e ((hnew e).2 (.inr he)))
          obtain ⟨right, hright⟩ := hcase
          refine ⟨b.next, right, hge, by omega, (hchild right d).2 hright, fun c' right' hc1' hc2' hch' => ?_⟩
          by_cases hc : c' = b.next
          · subst hc
            rw [hchild] at hch'
            refine ⟨rfl, ?_⟩
            cases right <;> cases right' <;> simp_all
          · exact absurd ((childIn_set_other _ hc).1 hch') (hed ▸ h.free e he c' right' hc1' (by omega))
      · rw [hpq, pqInsert_length, hnext]
        omega
      · rw [hpq, ((hperm.map _).sum_eq), List.map_cons, List.sum_cons, ← htotal]
        simp only [hNw, hsum]
        omega
      · exact fun _ => ⟨_, (hnew _).2 (.inl rfl), by rw [hidx, hnext]⟩
      · intro c hc1 hc2
        rw [hnodes]
        by_cases hc : c = b.next
        · subst hc
          have hq : ∀ d, queuedAt (storeTree (b.nodes.setIfInBounds b.next node)) leaves.length b.next d ↔
              ∃ e ∈ b.pq, e.index.toNat = d := fun d => (queuedAt_set node (Nat.le_refl _)).trans (h.queued d)
          refine ⟨node, getElem?_set_same node hlt, (hq _).2 ⟨e1, m1, by rw [hNl]⟩, (hq _).2 ⟨e2, m2, by rw [hNr]⟩,
            ?_, fun d hd => ?_⟩
          · rw [hNl, hNr]
            exact nodeBefore_set node i1 i2 (h.before m1 m2 (hmin1 e2 m2) fun he => hne (by rw [he]))
          · obtain ⟨e, he, rfl⟩ := (hq d).1 hd
            rw [hNl, hNr]
            rcases List.mem_cons.1 (hp.mem_iff.1 he) with rfl | he'
            · exact .inl rfl
            · rcases List.mem_cons.1 he' with rfl | he'
              · exact .inr (.inl rfl)
              · refine .inr (.inr (nodeBefore_set node i2 (h.held e he).1 (h.before m2 he (hmin2 e ?_) ?_)))
                · exact hp2.mem_iff.2 (List.mem_cons_of_mem _ he')
                · exact fun heq => hn2 e he' heq.symm
        · exact mergesLeast_set _ (by omega) (h.least c hc1 (by omega))

theorem Builder.merge_eq_none {b : Builder} (h : b.merge = none) : b.pq.length ≤ 1 := by
  unfold Builder.merge at h
  split at h
  · rename_i hx
    simp [pqExtract_eq_none_iff.1 hx]
  · rename_i e1 q1 hx1
    split at h
    · rename_i hx
      rw [pqExtract_length hx1, pqExtract_eq_none_iff.1 hx]
      simp
    · cases h

/-- The merge loop, given as many rounds as entries, leaves at most one. -/
theorem mergeLoop_growing {leaves : List Node} (hk : leaves.length ≤ 256)
    (hS : (leaves.map fun n => n.weight.toNat).sum < 2 ^ 40) (n : Nat) {b : Builder} (h : Growing leaves b)
    (hn : b.pq.length ≤ n + 1) : Growing leaves (mergeLoop n b) ∧ (mergeLoop n b).pq.length ≤ 1 := by
  induction n generalizing b with
  | zero => exact ⟨h, hn⟩
  | succ n ih =>
    unfold mergeLoop
    split
    · rename_i hm
      exact ⟨h, Builder.merge_eq_none hm⟩
    · rename_i b1 hm
      obtain ⟨h1, h2⟩ := h.merge hk hS hm
      exact ih h1 (by omega)

/-- What the whole build over k ≥ 1 leaves ends in: one entry, the last node. -/
theorem buildFrom_growing {leaves : List Node} (nodes : Vector Node 511) (hk1 : leaves ≠ [])
    (hk : leaves.length ≤ 256) (hS : (leaves.map fun n => n.weight.toNat).sum < 2 ^ 40) :
    Growing leaves (buildFrom leaves nodes) ∧ (buildFrom leaves nodes).next = 2 * leaves.length - 1 ∧
      ∃ e, (buildFrom leaves nodes).pq = [e] ∧ e.index.toNat = 2 * leaves.length - 2 := by
  obtain ⟨h1, h2⟩ := seedLeaves_growing leaves nodes hk
  have hsz := h1.size
  obtain ⟨h3, h4⟩ := mergeLoop_growing hk hS leaves.length h1 (by omega)
  have hlen : 1 ≤ leaves.length := List.length_pos_iff.2 hk1
  have hge := h3.next_ge
  have hsize := h3.size
  obtain ⟨e, he, hlast⟩ := h3.last (by omega)
  have hone : (mergeLoop leaves.length (seedLeaves leaves nodes)).pq = [e] := by
    cases hq : (mergeLoop leaves.length (seedLeaves leaves nodes)).pq with
    | nil => rw [hq] at he; cases he
    | cons x xs =>
      rw [hq] at h4 he
      obtain rfl : xs = [] := by cases xs with
        | nil => rfl
        | cons y ys => simp at h4
      rw [List.mem_singleton.1 he]
  have hnext : (mergeLoop leaves.length (seedLeaves leaves nodes)).next = 2 * leaves.length - 1 := by
    rw [hone] at hsize
    simp only [List.length_singleton] at hsize
    omega
  exact ⟨h3, hnext, e, hone, by omega⟩

/-! ## The tree -/

/-- The tree a build over k ≥ 1 leaves ends in, its root's entry given. -/
structure BuiltTree (leaves : List Node) (t : Tree) : Prop where
  valid : t.valid = true
  shape : TreeShape t leaves.length
  leaf : ∀ (i : Nat) (l : Node), leaves[i]? = some l → t.nodes[i]? = some l
  root : ∃ r, t.node t.root = some r ∧ r.weight.toNat = (leaves.map fun n => n.weight.toNat).sum
  least : ∀ c, leaves.length ≤ c → c < 2 * leaves.length - 1 → mergesLeast t leaves.length c

theorem builtTree_of_growing {leaves : List Node} {b : Builder} {e : Entry} (h : Growing leaves b)
    (hk1 : leaves ≠ []) (hk : leaves.length ≤ 256) (hnext : b.next = 2 * leaves.length - 1) (hpq : b.pq = [e])
    (he : e.index.toNat = 2 * leaves.length - 2)
    (hleaf : ∀ l ∈ leaves, l.leaf = true ∧ l.left = nil ∧ l.right = nil)
    (hasc : leaves.Pairwise fun m n => m.symbol.toNat < n.symbol.toNat) : BuiltTree leaves (b.tree e) := by
  have hlen : 1 ≤ leaves.length := List.length_pos_iff.2 hk1
  have hl : ∀ i, i < leaves.length → b.nodes[i]? = leaves[i]? := fun i hi => by
    rw [List.getElem?_eq_getElem hi]
    exact h.leaf i _ (List.getElem?_eq_getElem hi)
  refine ⟨rfl, ?_, h.leaf, ?_, fun c h1 h2 => h.least c h1 (by omega)⟩
  · constructor
    · show (BitVec.ofNat 10 b.next).toNat = _
      simp only [BitVec.toNat_ofNat]
      omega
    · exact he
    · intro i hi
      refine ⟨leaves[i], by show b.nodes[i]? = _; rw [hl i hi, List.getElem?_eq_getElem hi], ?_⟩
      exact hleaf _ (List.getElem_mem hi)
    · intro i j m n hij hj hm hn
      have hm : b.nodes[i]? = some m := hm
      have hn : b.nodes[j]? = some n := hn
      rw [hl i (by omega), List.getElem?_eq_getElem (by omega)] at hm
      rw [hl j hj, List.getElem?_eq_getElem hj] at hn
      cases hm
      cases hn
      exact List.pairwise_iff_getElem.1 hasc i j (by omega) hj hij
    · intro c hc1 hc2
      obtain ⟨n, m1, m2, h1, h2, h3, h4, h5, h6, h7, h8, h9⟩ := h.inner c hc1 (by omega)
      exact ⟨n, m1, m2, h1, h2, h3, h4, h5, h6, h7, h8, h9⟩
    · intro d hd
      obtain ⟨c, right, hc1, hc2, hch, huniq⟩ := h.used d (by omega) fun x hx => by
        rw [hpq, List.mem_singleton] at hx
        rw [hx]
        omega
      exact ⟨c, right, hc1, by omega, hch, fun c' right' h1 h2 => huniq c' right' h1 (by omega)⟩
  · obtain ⟨-, n, hn, hw⟩ := h.held e (by rw [hpq]; simp)
    refine ⟨n, hn, ?_⟩
    rw [hw, ← h.total, hpq]
    simp

/-- TREE_BUILD's body on a table with a nonzero count: a built tree and an empty queue. -/
theorem treeBody_built {s : State} (h : leavesOf s.ft ≠ []) :
    ∃ t, treeBody s = .ok () { s with pq := [], tree := t } ∧ BuiltTree (leavesOf s.ft) t := by
  have hS : ((leavesOf s.ft).map fun n => n.weight.toNat).sum < 2 ^ 40 := by
    rw [leavesOf_sum]; exact s.ft.sum_lt
  obtain ⟨hg, hn, e, hpq, he⟩ := buildFrom_growing s.tree.nodes h (leavesOf_length_le s.ft) hS
  have hx : pqExtract (buildFrom (leavesOf s.ft) s.tree.nodes).pq = some (e, []) := by
    rw [hpq]
    simp [pqExtract, pqLeast]
  refine ⟨_, ?_, builtTree_of_growing hg h (leavesOf_length_le s.ft) hn hpq he
    (fun l hl => isLeaf_of_mem_leavesOf hl) (leavesOf_pairwise s.ft)⟩
  unfold treeBody
  simp only [List.isEmpty_iff, if_neg h, hx]

/-- TREE_BUILD's body on a table with no nonzero count. -/
theorem treeBody_empty {s : State} (h : leavesOf s.ft = []) :
    treeBody s =
      if s.ft.total = 0 then .ok () { s with pq := [], tree := s.tree.cleared }
      else raiseCode .emptyAlphabet { s with pq := [], tree := s.tree.cleared } := by
  unfold treeBody
  simp [h]

theorem BuiltTree.inv {leaves : List Node} {t : Tree} (h : BuiltTree leaves t) (hk1 : leaves ≠ [])
    (hk : leaves.length ≤ 256) : TreeInv t :=
  .inr ⟨h.valid, leaves.length, List.length_pos_iff.2 hk1, hk, h.shape⟩

theorem treeInv_cleared (t : Tree) : TreeInv t.cleared := .inl ⟨rfl, rfl, rfl⟩

/-! ## Determinism -/

/-- Two builds that differ only in nodes not yet written. -/
structure SameBuild (b1 b2 : Builder) : Prop where
  next : b1.next = b2.next
  pq : b1.pq = b2.pq
  nodes : ∀ i, i < b1.next → b1.nodes[i]? = b2.nodes[i]?

theorem SameBuild.add {b1 b2 : Builder} (h : SameBuild b1 b2) (n : Node) : SameBuild (b1.add n) (b2.add n) := by
  refine ⟨by simp [Builder.add, h.next], by simp [Builder.add, h.next, h.pq], fun i hi => ?_⟩
  show (b1.nodes.setIfInBounds b1.next n)[i]? = (b2.nodes.setIfInBounds b2.next n)[i]?
  rw [← h.next]
  by_cases hc : i = b1.next
  · simp [Vector.getElem?_setIfInBounds, hc]
  · rw [getElem?_set_other n hc, getElem?_set_other n hc]
    refine h.nodes i ?_
    have : i < b1.next + 1 := hi
    omega

theorem SameBuild.merge {b1 b2 : Builder} (h : SameBuild b1 b2) :
    (b1.merge = none ∧ b2.merge = none) ∨ ∃ c1 c2, b1.merge = some c1 ∧ b2.merge = some c2 ∧ SameBuild c1 c2 := by
  unfold Builder.merge
  rw [← h.pq]
  split
  · exact .inl ⟨rfl, rfl⟩
  · split
    · exact .inl ⟨rfl, rfl⟩
    · refine .inr ⟨_, _, rfl, rfl, ?_⟩
      apply SameBuild.add
      exact ⟨h.next, rfl, h.nodes⟩

theorem SameBuild.mergeLoop {b1 b2 : Builder} (n : Nat) (h : SameBuild b1 b2) :
    SameBuild (mergeLoop n b1) (mergeLoop n b2) := by
  induction n generalizing b1 b2 with
  | zero => exact h
  | succ n ih =>
    unfold Machine.mergeLoop
    rcases h.merge with ⟨h1, h2⟩ | ⟨c1, c2, h1, h2, h3⟩
    · rw [h1, h2]; exact h
    · rw [h1, h2]; exact ih h3

theorem buildFrom_same (leaves : List Node) (n1 n2 : Vector Node 511) :
    SameBuild (buildFrom leaves n1) (buildFrom leaves n2) := by
  refine SameBuild.mergeLoop _ ?_
  have key : ∀ (l : List Node) (b1 b2 : Builder), SameBuild b1 b2 →
      SameBuild (l.foldl Builder.add b1) (l.foldl Builder.add b2) := by
    intro l
    induction l with
    | nil => exact fun _ _ h => h
    | cons x xs ih => exact fun b1 b2 h => ih _ _ (h.add x)
  exact key leaves _ _ ⟨rfl, rfl, fun i hi => absurd hi (Nat.not_lt_zero i)⟩

end Sys2Proof.Machine
end

