-- ==== Sys2Proof/Laws/Codes.lean ====
section
/-! SUPPORT. What CODE_GEN reads off a tree (spec/43_code_generator.md R160 to R162): paths by node index, their
uniqueness in a tree of R141, and the code table. -/

namespace Sys2Proof.Machine

@[simp] theorem codeOf_noCodes (b : Byte) : codeOf noCodes b = [] := by simp [codeOf, noCodes]

theorem codeOf_set (codes : Vector Bits 256) (c b : Byte) (p : Bits) :
    codeOf (codes.set c.toNat p c.isLt) b = if b = c then p else codeOf codes b := by
  unfold codeOf
  rw [Vector.getElem_set]
  by_cases h : b = c
  · simp [h]
  · rw [if_neg (fun heq => h (BitVec.eq_of_toNat_eq heq.symm)), if_neg h]

/-! ## Paths by index -/

/-- The index reached from a node by a path, LEFT on 0 and RIGHT on 1. -/
def followIx (t : Tree) : NodeIx → Bits → Option NodeIx
  | n, [] => some n
  | n, b :: bs =>
    match t.node n with
    | none => none
    | some node => if node.leaf then none else followIx t (if b then node.right else node.left) bs

theorem follow_eq (t : Tree) (n : NodeIx) (p : Bits) : follow t n p = (followIx t n p).bind t.node := by
  induction p generalizing n with
  | nil => rfl
  | cons b bs ih =>
    rw [follow, followIx]
    cases t.node n with
    | none => rfl
    | some node =>
      simp only
      split
      · rfl
      · exact ih _

theorem followIx_append (t : Tree) (n : NodeIx) (p q : Bits) :
    followIx t n (p ++ q) = (followIx t n p).bind fun m => followIx t m q := by
  induction p generalizing n with
  | nil => rfl
  | cons b bs ih =>
    rw [List.cons_append, followIx, followIx]
    cases t.node n with
    | none => rfl
    | some node =>
      simp only
      split
      · rfl
      · exact ih _

/-- A last step goes from an internal node to its child. -/
theorem followIx_snoc {t : Tree} {n d : NodeIx} {p : Bits} {b : Bool} (h : followIx t n (p ++ [b]) = some d) :
    ∃ c, followIx t n p = some c ∧ hasChild t c.toNat b d.toNat := by
  rw [followIx_append] at h
  cases hc : followIx t n p with
  | none => rw [hc] at h; cases h
  | some c =>
    rw [hc] at h
    simp only [Option.bind_some, followIx] at h
    refine ⟨c, rfl, ?_⟩
    cases hn : t.node c with
    | none => rw [hn] at h; cases h
    | some node =>
      rw [hn] at h
      simp only at h
      split at h
      · cases h
      · rename_i hl
        cases h
        exact ⟨node, hn, by simpa using hl, rfl⟩

/-! ## In a tree of R141 -/

/-- Below NODE_COUNT an index is a leaf or an internal node. -/
theorem TreeShape.node {t : Tree} {k : Nat} (h : TreeShape t k) {n : NodeIx} (hn : n.toNat < 2 * k - 1) :
    (n.toNat < k ∧ ∃ m, t.node n = some m ∧ m.leaf = true) ∨
      (k ≤ n.toNat ∧ ∃ m, t.node n = some m ∧ m.leaf = false ∧ m.left.toNat < n.toNat ∧ m.right.toNat < n.toNat) := by
  by_cases hk : n.toNat < k
  · obtain ⟨m, h1, h2, -⟩ := h.leaves _ hk
    exact .inl ⟨hk, m, h1, h2⟩
  · obtain ⟨m, -, -, h1, h2, -, h3, h4, -⟩ := h.internals n.toNat (by omega) hn
    exact .inr ⟨by omega, m, h1, h2, h3, h4⟩

theorem TreeShape.child_lt {t : Tree} {k c d : Nat} {right : Bool} (h : TreeShape t k) (hc : c < 2 * k - 1)
    (hch : hasChild t c right d) : k ≤ c ∧ d < c := by
  obtain ⟨m, h1, h2, h3⟩ := hch
  by_cases hk : c < k
  · obtain ⟨m', h1', h2', -⟩ := h.leaves c hk
    rw [h1] at h1'
    cases h1'
    rw [h2] at h2'
    cases h2'
  · obtain ⟨m', -, -, h1', -, -, h4, h5, -⟩ := h.internals c (by omega) hc
    rw [h1] at h1'
    cases h1'
    refine ⟨by omega, ?_⟩
    split at h3 <;> omega

/-- A path goes down: it ends at or below its start, and it is no longer than the internal nodes allow. -/
theorem TreeShape.follow_le {t : Tree} {k : Nat} (h : TreeShape t k) {n d : NodeIx} {p : Bits}
    (hn : n.toNat < 2 * k - 1) (hp : followIx t n p = some d) :
    d.toNat ≤ n.toNat ∧ (p ≠ [] → p.length + k ≤ n.toNat + 1 ∧ d.toNat < n.toNat) := by
  induction p generalizing n with
  | nil =>
    cases hp
    exact ⟨Nat.le_refl _, fun h => absurd rfl h⟩
  | cons b bs ih =>
    rw [followIx] at hp
    rcases h.node hn with ⟨-, m, h1, h2⟩ | ⟨hk, m, h1, h2, h3, h4⟩
    · rw [h1] at hp
      simp [h2] at hp
    · rw [h1] at hp
      simp only [h2, Bool.false_eq_true, if_false] at hp
      have hc : (if b then m.right else m.left).toNat < n.toNat := by split <;> omega
      obtain ⟨h5, h6⟩ := ih (by omega) hp
      refine ⟨by omega, fun _ => ⟨?_, by omega⟩⟩
      rw [List.length_cons]
      by_cases hbs : bs = []
      · subst hbs
        simp only [List.length_nil]
        omega
      · have := (h6 hbs).1
        omega

/-- Two paths from one node to another are equal. -/
theorem TreeShape.path_unique {t : Tree} {k : Nat} (h : TreeShape t k) {n d : NodeIx} {p q : Bits}
    (hn : n.toNat < 2 * k - 1) (hp : followIx t n p = some d) (hq : followIx t n q = some d) : p = q := by
  induction p using List.reverseRecOn generalizing q d with
  | nil =>
    cases hp
    by_cases hq0 : q = []
    · exact hq0.symm
    · have := ((h.follow_le hn hq).2 hq0).2
      omega
  | append_singleton p b ih =>
    obtain ⟨c, hc, hch⟩ := followIx_snoc hp
    have hlt := ((h.follow_le hn hp).2 (by simp)).2
    rcases List.eq_nil_or_concat q with rfl | ⟨q, b', rfl⟩
    · cases hq
      omega
    · rw [List.concat_eq_append] at hq ⊢
      obtain ⟨c', hc', hch'⟩ := followIx_snoc hq
      have hcn := (h.follow_le hn hc).1
      have hcn' := (h.follow_le hn hc').1
      have hck := h.child_lt (by omega) hch
      have hck' := h.child_lt (by omega) hch'
      obtain ⟨c0, r0, -, -, -, huniq⟩ := h.parents d.toNat (by omega)
      obtain ⟨e1, e2⟩ := huniq c.toNat b hck.1 (by omega) hch
      obtain ⟨e3, e4⟩ := huniq c'.toNat b' hck'.1 (by omega) hch'
      have hcc : c' = c := BitVec.eq_of_toNat_eq (by omega)
      rw [hcc] at hc'
      rw [ih hc hc', e2, e4]

/-- Every node is reached from the root. -/
theorem TreeShape.reach {t : Tree} {k : Nat} (h : TreeShape t k) (hk : k ≤ 256) :
    ∀ d : NodeIx, d.toNat < 2 * k - 1 → ∃ p, followIx t t.root p = some d := by
  have key : ∀ m : Nat, ∀ d : NodeIx, d.toNat < 2 * k - 1 → 2 * k - 2 - d.toNat = m →
      ∃ p, followIx t t.root p = some d := by
    intro m
    induction m using Nat.strongRecOn with
    | ind m ih =>
      intro d hd hm
      by_cases hroot : d.toNat = 2 * k - 2
      · have hr := h.root
        exact ⟨[], by rw [followIx, BitVec.eq_of_toNat_eq (show t.root.toNat = d.toNat by omega)]⟩
      · obtain ⟨c, right, hc1, hc2, hch, -⟩ := h.parents d.toNat (by omega)
        have hlt := h.child_lt hc2 hch
        have hcn : (BitVec.ofNat 9 c).toNat = c := by simp only [BitVec.toNat_ofNat]; omega
        obtain ⟨p, hp⟩ := ih (2 * k - 2 - c) (by omega) (BitVec.ofNat 9 c) (by omega) (by omega)
        refine ⟨p ++ [right], ?_⟩
        obtain ⟨node, h1, h2, h3⟩ := hch
        have h1 : t.node (BitVec.ofNat 9 c) = some node := by rw [Tree.node, hcn]; exact h1
        rw [followIx_append, hp]
        simp only [Option.bind_some, followIx, h1, h2, Bool.false_eq_true, if_false, Option.some.injEq]
        exact BitVec.eq_of_toNat_eq h3
  exact fun d hd => key _ d hd rfl

/-- A leaf is known by its symbol. -/
theorem TreeShape.leaf_unique {t : Tree} {k : Nat} (h : TreeShape t k) {c d : NodeIx} {m n : Node}
    (hc : c.toNat < 2 * k - 1) (hd : d.toNat < 2 * k - 1) (hm : t.node c = some m) (hn : t.node d = some n)
    (hlm : m.leaf = true) (hln : n.leaf = true) (hs : m.symbol = n.symbol) : c = d := by
  have leaf_lt : ∀ {x : NodeIx} {z : Node}, x.toNat < 2 * k - 1 → t.node x = some z → z.leaf = true →
      x.toNat < k := by
    intro x z hx hz hl
    rcases h.node hx with ⟨hlt, -⟩ | ⟨-, z', hz', hl', -⟩
    · exact hlt
    · rw [hz] at hz'
      cases hz'
      rw [hl] at hl'
      cases hl'
  have h1 := leaf_lt hc hm hlm
  have h2 := leaf_lt hd hn hln
  rcases Nat.lt_trichotomy c.toNat d.toNat with hlt | heq | hlt
  · have := h.symbols _ _ m n hlt h2 hm hn
    rw [hs] at this
    omega
  · exact BitVec.eq_of_toNat_eq heq
  · have := h.symbols _ _ n m hlt h1 hn hm
    rw [hs] at this
    omega

/-- The path p leads from n to the leaf of symbol b. -/
def PathTo (t : Tree) (n : NodeIx) (p : Bits) (b : Byte) : Prop :=
  ∃ d m, followIx t n p = some d ∧ t.node d = some m ∧ m.leaf = true ∧ m.symbol = b

theorem pathTo_iff {t : Tree} {n : NodeIx} {p : Bits} {b : Byte} :
    PathTo t n p b ↔ ∃ m, follow t n p = some m ∧ m.leaf = true ∧ m.symbol = b := by
  rw [follow_eq]
  constructor
  · rintro ⟨d, m, h1, h2, h3⟩
    exact ⟨m, by rw [h1]; exact h2, h3⟩
  · rintro ⟨m, h1, h2⟩
    cases hd : followIx t n p with
    | none => rw [hd] at h1; cases h1
    | some d => rw [hd] at h1; exact ⟨d, m, hd, h1, h2⟩

theorem TreeShape.pathTo_unique {t : Tree} {k : Nat} (h : TreeShape t k) {n : NodeIx} {p q : Bits} {b : Byte}
    (hn : n.toNat < 2 * k - 1) (hp : PathTo t n p b) (hq : PathTo t n q b) : p = q := by
  obtain ⟨d, m, h1, h2, h3, h4⟩ := hp
  obtain ⟨d', m', h1', h2', h3', h4'⟩ := hq
  have := h.leaf_unique (Nat.lt_of_le_of_lt (h.follow_le hn h1).1 hn)
    (Nat.lt_of_le_of_lt (h.follow_le hn h1').1 hn) h2 h2' h3 h3' (by rw [h4, h4'])
  subst this
  exact h.path_unique hn h1 h1'

/-- A path through an internal node. -/
theorem pathTo_cons {t : Tree} {n : NodeIx} {node : Node} {c : Bool} {p : Bits} {b : Byte}
    (hn : t.node n = some node) (hl : node.leaf = false) :
    PathTo t n (c :: p) b ↔ PathTo t (if c then node.right else node.left) p b := by
  simp [PathTo, followIx, hn, hl]

theorem pathTo_nil {t : Tree} {n : NodeIx} {node : Node} {b : Byte} (hn : t.node n = some node)
    (hl : node.leaf = false) : ¬ PathTo t n [] b := by
  rintro ⟨d, m, h1, h2, h3, -⟩
  cases h1
  rw [hn] at h2
  cases h2
  rw [hl] at h3
  cases h3

theorem pathTo_leaf {t : Tree} {n : NodeIx} {node : Node} {p : Bits} {b : Byte} (hn : t.node n = some node)
    (hl : node.leaf = true) : PathTo t n p b ↔ p = [] ∧ node.symbol = b := by
  cases p with
  | nil =>
    constructor
    · rintro ⟨d, m, h1, h2, h3, h4⟩
      cases h1
      rw [hn] at h2
      cases h2
      exact ⟨rfl, h4⟩
    · rintro ⟨-, h⟩
      exact ⟨n, node, rfl, hn, hl, h⟩
  | cons c cs => simp [PathTo, followIx, hn, hl]

/-! ## CODE_GEN -/

/-- What visit does: each symbol with a leaf below n gets the path there after p, and the others are kept. -/
theorem TreeShape.visit_spec {t : Tree} {k : Nat} (h : TreeShape t k) (fuel : Nat) {n : NodeIx} (p : Bits)
    (codes : Vector Bits 256) (hn : n.toNat < 2 * k - 1) (hf : n.toNat < fuel) :
    ∃ codes', visit t fuel n p codes = some codes' ∧ ∀ b,
      (∀ q, PathTo t n q b → codeOf codes' b = p ++ q) ∧
        ((∀ q, ¬ PathTo t n q b) → codeOf codes' b = codeOf codes b) := by
  induction fuel generalizing n p codes with
  | zero => omega
  | succ fuel ih =>
    rcases h.node hn with ⟨-, m, h1, h2⟩ | ⟨hk, m, h1, h2, h3, h4⟩
    · refine ⟨_, by simp only [visit, h1, h2, if_true]; rfl, fun b => ?_⟩
      simp only [pathTo_leaf h1 h2, codeOf_set]
      constructor
      · rintro q ⟨rfl, rfl⟩
        simp
      · intro hno
        rw [if_neg fun heq => hno [] ⟨rfl, heq.symm⟩]
    · obtain ⟨codes1, hv1, hs1⟩ := ih (n := m.left) (p ++ [false]) codes (by omega) (by omega)
      obtain ⟨codes2, hv2, hs2⟩ := ih (n := m.right) (p ++ [true]) codes1 (by omega) (by omega)
      refine ⟨codes2, by simp only [visit, h1, h2, Bool.false_eq_true, if_false, hv1]; exact hv2, fun b => ?_⟩
      have hleft : ∀ q, PathTo t n (false :: q) b ↔ PathTo t m.left q b := fun q => by
        rw [pathTo_cons h1 h2]; rfl
      have hright : ∀ q, PathTo t n (true :: q) b ↔ PathTo t m.right q b := fun q => by
        rw [pathTo_cons h1 h2]; rfl
      constructor
      · intro q hq
        cases q with
        | nil => exact absurd hq (pathTo_nil h1 h2)
        | cons c q =>
          cases c
          · have hno : ∀ r, ¬ PathTo t m.right r b := fun r hr => by
              have := h.pathTo_unique hn hq ((hright r).2 hr)
              cases this
            rw [(hs2 b).2 hno, (hs1 b).1 q ((hleft q).1 hq)]
            simp
          · rw [(hs2 b).1 q ((hright q).1 hq)]
            simp
      · intro hno
        rw [(hs2 b).2 fun r hr => hno _ ((hright r).2 hr), (hs1 b).2 fun r hr => hno _ ((hleft r).2 hr)]

/-- What CODE_GEN's table is, by the root of the tree (R160, R161). -/
structure CodesOf (t : Tree) (codes : Vector Bits 256) : Prop where
  none : t.valid = false → codes = noCodes
  single : t.valid = true → ∀ r, t.node t.root = some r → r.leaf = true →
    ∀ b, codeOf codes b = if b = r.symbol then [false] else []
  paths : t.valid = true → ∀ r, t.node t.root = some r → r.leaf = false →
    ∀ b, (∀ p, PathTo t t.root p b → codeOf codes b = p) ∧ ((∀ p, ¬ PathTo t t.root p b) → codeOf codes b = [])

/-- On the tree of any state that meets the invariant CODE_GEN finds its table. -/
theorem codesOf_spec {t : Tree} (h : TreeInv t) : ∃ codes, codesOf t = some codes ∧ CodesOf t codes := by
  rcases h with ⟨hv, -, -⟩ | ⟨hv, k, hk1, hk, hs⟩
  · refine ⟨noCodes, by simp [codesOf, hv], fun _ => rfl, ?_, ?_⟩ <;> simp [hv]
  · have hroot : t.root.toNat < 2 * k - 1 := by rw [hs.root]; omega
    rcases hs.node hroot with ⟨-, r, h1, h2⟩ | ⟨-, r, h1, h2, -⟩
    · refine ⟨_, by simp only [codesOf, hv, h1, h2, if_true]; rfl, by simp [hv], fun _ r' hr' _ b => ?_,
        fun _ r' hr' hl => ?_⟩
      · rw [h1] at hr'
        cases hr'
        rw [codeOf_set, codeOf_noCodes]
      · rw [h1] at hr'
        cases hr'
        rw [h2] at hl
        cases hl
    · obtain ⟨codes, hc, hspec⟩ := hs.visit_spec (walkFuel + 1) [] noCodes hroot
        (by unfold walkFuel Config.nodeCap; omega)
      refine ⟨codes, by simp only [codesOf, hv, h1, h2, if_true, Bool.false_eq_true, if_false]; exact hc,
        by simp [hv], fun _ r' hr' hl => ?_, fun _ r' _ _ b => ?_⟩
      · rw [h1] at hr'
        cases hr'
        rw [h2] at hl
        cases hl
      · refine ⟨fun p hp => by simpa using (hspec b).1 p hp, fun hno => ?_⟩
        rw [(hspec b).2 hno, codeOf_noCodes]

/-- A code is a way from the root to its symbol's leaf, except that a single leaf has the code 0. -/
theorem CodesOf.path {t : Tree} {codes : Vector Bits 256} (h : CodesOf t codes) (hi : TreeInv t) {b : Byte}
    (hb : codeOf codes b ≠ []) : t.valid = true ∧ ∃ r, t.node t.root = some r ∧
      ((r.leaf = true ∧ b = r.symbol ∧ codeOf codes b = [false]) ∨
        (r.leaf = false ∧ PathTo t t.root (codeOf codes b) b)) := by
  rcases hi with ⟨hv, -, -⟩ | ⟨hv, k, hk1, hk, hs⟩
  · rw [h.none hv, codeOf_noCodes] at hb
    exact absurd rfl hb
  · refine ⟨hv, ?_⟩
    have hroot : t.root.toNat < 2 * k - 1 := by rw [hs.root]; omega
    have hr : ∃ r, t.node t.root = some r := by
      rcases hs.node hroot with ⟨-, r, h1, -⟩ | ⟨-, r, h1, -⟩ <;> exact ⟨r, h1⟩
    obtain ⟨r, h1⟩ := hr
    refine ⟨r, h1, ?_⟩
    cases h2 : r.leaf with
    | true =>
      left
      have := h.single hv r h1 h2 b
      split at this
      · rename_i hbs
        exact ⟨rfl, hbs, this⟩
      · exact absurd this hb
    | false =>
      right
      obtain ⟨hp, hn⟩ := h.paths hv r h1 h2 b
      by_cases hex : ∃ p, PathTo t t.root p b
      · obtain ⟨p, hpb⟩ := hex
        exact ⟨rfl, by rw [hp p hpb]; exact hpb⟩
      · exact absurd (hn fun p hpb => hex ⟨p, hpb⟩) hb

/-- No code is longer than 255 bits (R145). -/
theorem CodesOf.length_le {t : Tree} {codes : Vector Bits 256} (h : CodesOf t codes) (hi : TreeInv t) (b : Byte) :
    (codeOf codes b).length ≤ 255 := by
  by_cases hb : codeOf codes b = []
  · simp [hb]
  · obtain ⟨hv, r, h1, h2⟩ := h.path hi hb
    rcases h2 with ⟨-, -, h3⟩ | ⟨-, d, m, h3, -⟩
    · simp [h3]
    · rcases hi with ⟨hv', -⟩ | ⟨-, k, hk1, hk, hs⟩
      · rw [hv] at hv'; cases hv'
      · have hr := hs.root
        have := ((hs.follow_le (by omega) h3).2 hb).1
        omega

/-- Codes are prefix-free (R162). -/
theorem CodesOf.prefix_free {t : Tree} {codes : Vector Bits 256} (h : CodesOf t codes) (hi : TreeInv t) {b c : Byte}
    (hb : codeOf codes b ≠ []) (hc : codeOf codes c ≠ []) (hp : codeOf codes b <+: codeOf codes c) : b = c := by
  obtain ⟨-, r, h1, h2⟩ := h.path hi hb
  obtain ⟨-, r', h1', h2'⟩ := h.path hi hc
  rw [h1] at h1'
  cases h1'
  rcases h2 with ⟨hl, h3, -⟩ | ⟨hl, d, m, h3, h4, h5, h6⟩
  · rcases h2' with ⟨-, h3', -⟩ | ⟨hl', -⟩
    · rw [h3, h3']
    · rw [hl] at hl'; cases hl'
  · rcases h2' with ⟨hl', -⟩ | ⟨-, d', m', h3', h4', h5', h6'⟩
    · rw [hl] at hl'; cases hl'
    · obtain ⟨q, hq⟩ := hp
      rw [← hq, followIx_append, h3] at h3'
      simp only [Option.bind_some] at h3'
      cases q with
      | nil =>
        cases h3'
        rw [h4] at h4'
        cases h4'
        rw [← h6, ← h6']
      | cons x xs => simp [followIx, h4, h5] at h3'

/-- Every leaf's symbol has a code. -/
theorem CodesOf.ne_nil {t : Tree} {codes : Vector Bits 256} {k : Nat} (h : CodesOf t codes) (hv : t.valid = true)
    (hk1 : 1 ≤ k) (hk : k ≤ 256) (hs : TreeShape t k) {i : Nat} {n : Node} (hi : i < k) (hn : t.nodes[i]? = some n) :
    codeOf codes n.symbol ≠ [] := by
  have hroot : t.root.toNat < 2 * k - 1 := by rw [hs.root]; omega
  have hix : (BitVec.ofNat 9 i).toNat = i := by simp only [BitVec.toNat_ofNat]; omega
  have hn : t.node (BitVec.ofNat 9 i) = some n := by rw [Tree.node, hix]; exact hn
  have hl : n.leaf = true := by
    rcases hs.node (n := BitVec.ofNat 9 i) (by omega) with ⟨-, m, h1, h2⟩ | ⟨hge, -⟩
    · rw [hn] at h1; cases h1; exact h2
    · omega
  obtain ⟨p, hp⟩ := hs.reach hk (BitVec.ofNat 9 i) (by omega)
  have hpath : PathTo t t.root p n.symbol := ⟨_, n, hp, hn, hl, rfl⟩
  rcases hs.node hroot with ⟨-, r, h1, h2⟩ | ⟨-, r, h1, h2, -⟩
  · have := (pathTo_leaf h1 h2).1 hpath
    rw [h.single hv r h1 h2, if_pos this.2.symm]
    simp
  · rw [(h.paths hv r h1 h2 n.symbol).1 p hpath]
    rintro rfl
    exact pathTo_nil h1 h2 hpath

/-- A symbol with a code is a leaf's. -/
theorem CodesOf.leaf {t : Tree} {codes : Vector Bits 256} {k : Nat} (h : CodesOf t codes) (hv : t.valid = true)
    (hk1 : 1 ≤ k) (hk : k ≤ 256) (hs : TreeShape t k) {b : Byte} (hb : codeOf codes b ≠ []) :
    ∃ i n, i < k ∧ t.nodes[i]? = some n ∧ n.symbol = b := by
  have hroot : t.root.toNat < 2 * k - 1 := by rw [hs.root]; omega
  have key : ∀ d m, d.toNat < 2 * k - 1 → t.node d = some m → m.leaf = true → m.symbol = b →
      ∃ i n, i < k ∧ t.nodes[i]? = some n ∧ n.symbol = b := by
    intro d m hd hm hl hsym
    rcases hs.node hd with ⟨hlt, -⟩ | ⟨-, m', hm', hl', -⟩
    · exact ⟨d.toNat, m, hlt, hm, hsym⟩
    · rw [hm] at hm'; cases hm'; rw [hl] at hl'; cases hl'
  obtain ⟨-, r, h1, h2⟩ := h.path (.inr ⟨hv, k, hk1, hk, hs⟩) hb
  rcases h2 with ⟨hl, h3, -⟩ | ⟨-, d, m, h3, h4, h5, h6⟩
  · exact key _ r hroot h1 hl h3.symm
  · exact key d m (Nat.lt_of_le_of_lt (hs.follow_le hroot h3).1 hroot) h4 h5 h6

/-- CODE_GEN's body on the tree of a state that meets the invariant. -/
theorem codeGenBody_spec {s : State} (h : TreeInv s.tree) :
    ∃ codes, codesOf s.tree = some codes ∧ CodesOf s.tree codes ∧
      codeGenBody s = .ok () { s with codes := codes } := by
  obtain ⟨codes, hc, hs⟩ := codesOf_spec h
  exact ⟨codes, hc, hs, by simp [codeGenBody, hc]⟩

end Sys2Proof.Machine
end

