-- ==== Sys2Proof/Laws/Streams.lean ====
section
/-! SUPPORT. The bits of a byte stream (spec/00_scope.md R12, spec/20_memory.md R63): a list of bytes read as
bits, and one byte's bits. -/

namespace Sys2Proof.Machine

@[simp] theorem bitsOf_length (l : List Byte) : (bitsOf l).length = 8 * l.length := by simp [bitsOf]

theorem bitAt_congr {f g : Nat → Byte} {i : Nat} (h : f (i / 8) = g (i / 8)) : bitAt f i = bitAt g i := by
  simp [bitAt, h]

theorem bitAt_add (f : Nat → Byte) (o i : Nat) : bitAt (fun k => f (o + k)) i = bitAt f (8 * o + i) := by
  have h1 : (8 * o + i) / 8 = o + i / 8 := by omega
  have h2 : (8 * o + i) % 8 = i % 8 := by omega
  simp [bitAt, h1, h2]

theorem srcByte_congr {s t : State} (hm : t.mem = s.mem) (hr : t.region = s.region) (j : Nat) :
    srcByte t j = srcByte s j := by rw [srcByte, srcByte, hm, hr]

theorem srcPart_congr {s t : State} (hm : t.mem = s.mem) (hr : t.region = s.region) (n : Nat) :
    srcPart t n = srcPart s n := List.map_congr_left fun j _ => srcByte_congr hm hr j

theorem srcBytes_congr {s t : State} (hm : t.mem = s.mem) (hr : t.region = s.region) : srcBytes t = srcBytes s := by
  rw [srcBytes, srcBytes, hr, srcPart_congr hm hr]

@[simp] theorem srcPart_length (s : State) (n : Nat) : (srcPart s n).length = n := by simp [srcPart]

@[simp] theorem srcBytes_length (s : State) : (srcBytes s).length = s.region.srcLen.toNat := by simp [srcBytes]

@[simp] theorem dstPart_length (s : State) (n : Nat) : (dstPart s n).length = n := by simp [dstPart]

theorem srcPart_succ (s : State) (n : Nat) : srcPart s (n + 1) = srcPart s n ++ [srcByte s n] := by
  simp [srcPart, List.range_succ]

theorem dstPart_succ (s : State) (n : Nat) : dstPart s (n + 1) = dstPart s n ++ [dstByte s n] := by
  simp [dstPart, List.range_succ]

/-- The stream bits of the first n SRC bytes. -/
theorem bitsOf_srcPart (s : State) (n : Nat) : bitsOf (srcPart s n) = (List.range (8 * n)).map (bitAt (srcByte s)) := by
  simp only [bitsOf, srcPart_length]
  refine List.map_congr_left fun i hi => bitAt_congr ?_
  have hi8 : i / 8 < n := by have := List.mem_range.mp hi; omega
  simp [srcPart, hi8]

/-- The stream bits of SRC from byte o on. -/
theorem bitsOf_srcBytes_drop (s : State) (o : Nat) :
    (bitsOf (srcBytes s)).drop (8 * o) =
      (List.range (8 * (s.region.srcLen.toNat - o))).map fun i => bitAt (srcByte s) (8 * o + i) := by
  rw [srcBytes, bitsOf_srcPart, ← List.map_drop, List.range_eq_range', List.drop_range', List.range_eq_range']
  rw [List.range'_eq_map_range, List.range'_eq_map_range]
  simp [Nat.mul_sub]

/-- Bytes with the same stream bits are the same. -/
theorem bitAt_byte_ext {f g : Nat → Byte} {n : Nat} (h : ∀ i, i < 8 * n → bitAt f i = bitAt g i) : ∀ o, o < n → f o = g o := by
  intro o ho
  apply BitVec.eq_of_getLsbD_eq
  intro k hk
  have := h (8 * o + (7 - k)) (by omega)
  simp only [bitAt] at this
  rw [show (8 * o + (7 - k)) / 8 = o by omega, show (7 - (8 * o + (7 - k)) % 8) = k by omega] at this
  exact this

end Sys2Proof.Machine
end

