-- ==== Sys2Proof/Laws/Scan.lean ====
section
/-! SUPPORT. The frequency table of a byte string, and what the scan of SRC answers
(spec/40_freq_table.md R103, R104). -/

namespace Sys2Proof.Machine

/-! ## Tables -/

theorem FreqTable.ext_at {t u : FreqTable} (h : ∀ b, t.at b = u.at b) (ht : t.total = u.total) : t = u := by
  obtain ⟨c, n⟩ := t
  obtain ⟨d, m⟩ := u
  simp only at ht
  subst ht
  congr
  ext i hi : 1
  have hm : (BitVec.ofNat 8 i).toNat = i := by simp; omega
  have := h (BitVec.ofNat 8 i)
  simpa [FreqTable.at, hm] using this

@[simp] theorem FreqTable.clear_at (b : Byte) : FreqTable.clear.at b = 0 := by
  simp [FreqTable.clear, FreqTable.at]

theorem FreqTable.bump_at (t : FreqTable) (b c : Byte) : (t.bump b).at c = if c = b then t.at b + 1 else t.at c := by
  simp only [FreqTable.bump, FreqTable.at, Vector.getElem_set]
  by_cases h : c = b
  · simp [h]
  · rw [if_neg (fun heq => h (BitVec.eq_of_toNat_eq heq.symm)), if_neg h]

/-- The table with a byte string counted on top. -/
def FreqTable.countAll (t : FreqTable) (l : List Byte) : FreqTable := l.foldl FreqTable.bump t

theorem FreqTable.countAll_at (t : FreqTable) (l : List Byte) (b : Byte) :
    (t.countAll l).at b = t.at b + BitVec.ofNat 32 (l.count b) := by
  induction l generalizing t with
  | nil => simp [FreqTable.countAll]
  | cons c cs ih =>
    have := ih (t.bump c)
    simp only [FreqTable.countAll, List.foldl_cons] at this ⊢
    rw [this, FreqTable.bump_at, List.count_cons]
    by_cases h : b = c
    · subst h
      simp only [if_true, beq_self_eq_true, BitVec.ofNat_add]
      exact (BitVec.add_assoc _ _ _).trans (congrArg _ (BitVec.add_comm _ _))
    · rw [if_neg h, if_neg (by simpa using fun heq : c = b => h heq.symm), Nat.add_zero]

theorem FreqTable.countAll_total (t : FreqTable) (l : List Byte) :
    (t.countAll l).total = t.total + BitVec.ofNat 32 l.length := by
  induction l generalizing t with
  | nil => simp [FreqTable.countAll]
  | cons c cs ih =>
    have := ih (t.bump c)
    simp only [FreqTable.countAll, List.foldl_cons] at this ⊢
    rw [this]
    simp only [FreqTable.bump, List.length_cons, BitVec.ofNat_add]
    exact (BitVec.add_assoc _ _ _).trans (congrArg _ (BitVec.add_comm _ _))

/-- The table of a byte string. -/
def tableOfMsg (l : List Byte) : FreqTable := FreqTable.clear.countAll l

theorem tableOfMsg_at {l : List Byte} (h : l.length < 2 ^ 32) (b : Byte) : ((tableOfMsg l).at b).toNat = l.count b := by
  have := List.count_le_length (a := b) (l := l)
  rw [tableOfMsg, FreqTable.countAll_at, FreqTable.clear_at]
  simp
  omega

theorem tableOfMsg_total {l : List Byte} (h : l.length < 2 ^ 32) : (tableOfMsg l).total.toNat = l.length := by
  rw [tableOfMsg, FreqTable.countAll_total]
  simp [FreqTable.clear]
  omega

theorem tableOfMsg_at_ne_zero {l : List Byte} (h : l.length < 2 ^ 32) (b : Byte) :
    (tableOfMsg l).at b ≠ 0 ↔ b ∈ l := by
  have h1 := tableOfMsg_at h b
  rw [← List.count_pos_iff]
  constructor
  · intro hne
    by_contra hz
    exact hne (BitVec.eq_of_toNat_eq (by rw [h1]; simp; omega))
  · intro hpos heq
    rw [heq] at h1
    simp at h1
    omega

theorem FreqTable.sum_bump (t : FreqTable) (b : Byte) (h : (t.at b).toNat + 1 < 2 ^ 32) : (t.bump b).sum = t.sum + 1 := by
  unfold FreqTable.sum FreqTable.bump
  have hb : b.toNat < t.count.toList.length := by simpa using b.isLt
  have hget : t.count.toList[b.toNat] = t.at b := by simp [FreqTable.at]
  have h1 : (t.at b + 1).toNat = (t.at b).toNat + 1 := by rw [BitVec.toNat_add]; simp; omega
  simp only [Vector.toList_set, List.map_set, List.sum_set, List.length_map, if_pos hb, h1]
  have h2 : (t.count.toList.map BitVec.toNat).sum =
      ((t.count.toList.map BitVec.toNat).take b.toNat).sum + (t.at b).toNat +
        ((t.count.toList.map BitVec.toNat).drop (b.toNat + 1)).sum := by
    rw [← hget]
    conv => lhs; rw [← List.take_append_drop b.toNat (t.count.toList.map BitVec.toNat)]
    rw [List.sum_append, List.drop_eq_getElem_cons (by simpa using hb), List.sum_cons]
    simp [Nat.add_assoc]
  rw [h2]
  omega

/-- The counts of a byte string sum to its length (R104). -/
theorem tableOfMsg_sum {l : List Byte} (h : l.length < 2 ^ 32) : (tableOfMsg l).sum = l.length := by
  have key : ∀ (l pre : List Byte), pre.length + l.length < 2 ^ 32 → (tableOfMsg pre).sum = pre.length →
      (tableOfMsg (pre ++ l)).sum = pre.length + l.length := by
    intro l
    induction l with
    | nil => intro pre _ hp; simpa using hp
    | cons c cs ih =>
      intro pre hlen hp
      simp only [List.length_cons] at hlen
      have hbump : tableOfMsg (pre ++ [c]) = (tableOfMsg pre).bump c := by
        simp [tableOfMsg, FreqTable.countAll]
      have h1 := tableOfMsg_at (l := pre) (by omega) c
      have h2 := List.count_le_length (a := c) (l := pre)
      have := ih (pre ++ [c]) (by simp; omega) (by rw [hbump, FreqTable.sum_bump _ _ (by omega), hp]; simp)
      simp only [List.append_assoc, List.singleton_append, List.length_append, List.length_singleton] at this
      rw [this, List.length_cons]
      omega
  have := key l [] (by simpa using h) (by decide +kernel)
  simpa using this

/-! ## The core's reads of SRC -/

theorem coreRead_src (s : State) (j : Nat) :
    coreRead (s.region.srcAddr j) s =
      if srcFaults s j then raiseIo .srcReadFault (s.region.srcAddr j) s else .ok (srcByte s j) s := rfl

/-- SRC bytes j to j + n - 1. -/
def srcSlice (s : State) (j n : Nat) : List Byte := (List.range n).map fun i => srcByte s (j + i)

@[simp] theorem srcSlice_length (s : State) (j n : Nat) : (srcSlice s j n).length = n := by simp [srcSlice]

theorem srcSlice_zero (s : State) (n : Nat) : srcSlice s 0 n = srcPart s n := by simp [srcSlice, srcPart]

theorem srcSlice_succ (s : State) (j n : Nat) : srcSlice s j (n + 1) = srcByte s j :: srcSlice s (j + 1) n := by
  simp only [srcSlice, List.range_succ_eq_map, List.map_cons, List.map_map, Nat.add_zero]
  congr 1
  refine List.map_congr_left fun i _ => ?_
  simp only [Function.comp_apply]
  rw [show j + Nat.succ i = j + 1 + i by omega]

theorem srcSlice_congr {s t : State} (hm : t.mem = s.mem) (hr : t.region = s.region) (j n : Nat) :
    srcSlice t j n = srcSlice s j n := List.map_congr_left fun _ _ => srcByte_congr hm hr _

/-- The scan: all n bytes are counted, or those before the first that faults. -/
theorem scanFrom_spec (n j : Nat) (s : State) :
    ∃ m, m ≤ n ∧ (∀ i, i < m → srcFaults s (j + i) = false) ∧
      (m = n ∧ scanFrom n j s = .ok () { s with ft := s.ft.countAll (srcSlice s j n) } ∨
        m < n ∧ srcFaults s (j + m) = true ∧
          scanFrom n j s = raiseIo .srcReadFault (s.region.srcAddr (j + m))
            { s with ft := s.ft.countAll (srcSlice s j m) }) := by
  induction n generalizing j s with
  | zero => exact ⟨0, Nat.le_refl _, fun i hi => absurd hi (Nat.not_lt_zero i), .inl ⟨rfl, rfl⟩⟩
  | succ n ih =>
    rw [scanFrom, coreRead_src]
    cases hf : srcFaults s j with
    | true => exact ⟨0, Nat.zero_le _, fun i hi => absurd hi (Nat.not_lt_zero i), .inr ⟨by omega, hf, rfl⟩⟩
    | false =>
      obtain ⟨m, hm, hno, hcase⟩ := ih (j + 1) { s with ft := s.ft.bump (srcByte s j) }
      have hall : ∀ i, i < m + 1 → srcFaults s (j + i) = false := by
        intro i hi
        cases i with
        | zero => exact hf
        | succ i =>
          have := hno i (by omega)
          rw [show j + 1 + i = j + (i + 1) by omega] at this
          exact this
      have hslice : ∀ p, (s.ft.bump (srcByte s j)).countAll (srcSlice s (j + 1) p) =
          s.ft.countAll (srcSlice s j (p + 1)) := fun p => by
        rw [srcSlice_succ]
        rfl
      have hsl : ∀ p, srcSlice { s with ft := s.ft.bump (srcByte s j) } (j + 1) p = srcSlice s (j + 1) p :=
        fun p => srcSlice_congr (s := s) rfl rfl _ _
      refine ⟨m + 1, by omega, hall, ?_⟩
      rcases hcase with ⟨rfl, h⟩ | ⟨hlt, hfm, h⟩
      · refine .inl ⟨rfl, ?_⟩
        simp only [Bool.false_eq_true, if_false, Res.bind, h, hsl, hslice]
      · refine .inr ⟨by omega, ?_, ?_⟩
        · rw [show j + (m + 1) = j + 1 + m by omega]
          exact hfm
        · simp only [Bool.false_eq_true, if_false, Res.bind, h, hsl, hslice,
            show j + (m + 1) = j + 1 + m by omega]

/-- FT_SCAN's body: the table of SRC, or of the bytes before the first that faults. -/
theorem scanBody_spec (s : State) :
    ∃ m, m ≤ s.region.srcLen.toNat ∧ (∀ i, i < m → srcFaults s i = false) ∧
      (m = s.region.srcLen.toNat ∧ scanBody s = .ok () { s with ft := tableOfMsg (srcBytes s) } ∨
        m < s.region.srcLen.toNat ∧ srcFaults s m = true ∧
          scanBody s = raiseIo .srcReadFault (s.region.srcAddr m) { s with ft := tableOfMsg (srcPart s m) }) := by
  obtain ⟨m, hm, hno, hcase⟩ := scanFrom_spec s.region.srcLen.toNat 0 { s with ft := FreqTable.clear }
  have hsl : ∀ p, srcSlice { s with ft := FreqTable.clear } 0 p = srcPart s p := fun p => by
    exact (srcSlice_congr (s := s) (t := { s with ft := FreqTable.clear }) rfl rfl 0 p).trans (srcSlice_zero s p)
  refine ⟨m, hm, fun i hi => by have := hno i hi; rw [Nat.zero_add] at this; exact this, ?_⟩
  simp only [Nat.zero_add, hsl] at hcase
  exact hcase

/-- Reading SRC bytes in turn: the bytes, or a raise at the first that faults. -/
theorem readSrc_spec (n o : Nat) (s : State) :
    ∃ m, m ≤ n ∧ (∀ i, i < m → srcFaults s (o + i) = false) ∧
      (m = n ∧ readSrc n o s = .ok (srcSlice s o n) s ∨
        m < n ∧ srcFaults s (o + m) = true ∧
          readSrc n o s = raiseIo .srcReadFault (s.region.srcAddr (o + m)) s) := by
  induction n generalizing o with
  | zero => exact ⟨0, Nat.le_refl _, fun i hi => absurd hi (Nat.not_lt_zero i), .inl ⟨rfl, rfl⟩⟩
  | succ n ih =>
    rw [readSrc, coreRead_src]
    cases hf : srcFaults s o with
    | true => exact ⟨0, Nat.zero_le _, fun i hi => absurd hi (Nat.not_lt_zero i), .inr ⟨by omega, hf, rfl⟩⟩
    | false =>
      obtain ⟨m, hm, hno, hcase⟩ := ih (o + 1)
      have hall : ∀ i, i < m + 1 → srcFaults s (o + i) = false := by
        intro i hi
        cases i with
        | zero => exact hf
        | succ i =>
          have := hno i (by omega)
          rw [show o + 1 + i = o + (i + 1) by omega] at this
          exact this
      refine ⟨m + 1, by omega, hall, ?_⟩
      rcases hcase with ⟨rfl, h⟩ | ⟨hlt, hfm, h⟩
      · refine .inl ⟨rfl, ?_⟩
        simp only [Bool.false_eq_true, if_false, Res.bind, h, srcSlice_succ]
      · refine .inr ⟨by omega, ?_, ?_⟩
        · rw [show o + (m + 1) = o + 1 + m by omega]
          exact hfm
        · simp only [Bool.false_eq_true, if_false, Res.bind, h, raiseIo, show o + (m + 1) = o + 1 + m by omega]

end Sys2Proof.Machine
end

