-- ==== Sys2Proof/Laws/Writer.lean ====
section
/-! SUPPORT. What emit, put_bit and a flush do to the writer, to DST and to the stream of accepted bits
(spec/44_bitstream_writer.md R182, R185). -/

namespace Sys2Proof.Machine

/-! ## Addresses of a region -/

theorem dstAddr_inj {r : Region} {o p : Nat} (ho : o < 2 ^ 32) (hp : p < 2 ^ 32)
    (h : (r.dstAddr o).toNat = (r.dstAddr p).toNat) : o = p := by
  simp only [Region.dstAddr, BitVec.toNat_add, BitVec.toNat_ofNat] at h
  have := r.dstBase.isLt
  omega

theorem srcAddr_toNat {r : Region} {j : Nat} (hv : r.validSrc = true) (hj : j < r.srcLen.toNat) :
    (r.srcAddr j).toNat = r.srcBase.toNat + j := by
  have hv := of_decide_eq_true hv
  unfold Config.memSize at hv
  simp only [Region.srcAddr, BitVec.toNat_add, BitVec.toNat_ofNat]
  omega

theorem dstAddr_toNat {r : Region} {o : Nat} (hv : r.validDst = true) (ho : o < r.dstCap.toNat) :
    (r.dstAddr o).toNat = r.dstBase.toNat + o := by
  have hv := of_decide_eq_true hv
  unfold Config.memSize at hv
  simp only [Region.dstAddr, BitVec.toNat_add, BitVec.toNat_ofNat]
  omega

/-! ## One byte -/

/-- The state in which a write of address `a` has faulted: the byte is any value (R65). -/
def State.faultedAt (s : State) (a : Word) : State :=
  { s with mem := Mem.write s.mem a.toNat (Config.freeByte s.draws), draws := s.draws + 1 }

theorem coreWrite_eq (a : Word) (v : Byte) (s : State) :
    coreWrite a v s =
      if busFaults s .write a then raiseIo .dstWriteFault a (s.faultedAt a)
      else .ok () { s with mem := Mem.write s.mem a.toNat v } := rfl

/-- What emit answers: DST_FULL, DST_WRITE_FAULT, or the byte at DST offset BW_POS and the next BW_POS. -/
theorem emit_eq (v : Byte) (s : State) :
    emit v s =
      if s.region.dstCap.toNat ≤ s.bw.pos.toNat then raiseIo .dstFull (s.region.dstAddr s.bw.pos.toNat) s
      else if dstFaults s s.bw.pos.toNat then
        raiseIo .dstWriteFault (s.region.dstAddr s.bw.pos.toNat) (s.faultedAt (s.region.dstAddr s.bw.pos.toNat))
      else .ok () { s with
        mem := Mem.write s.mem (s.region.dstAddr s.bw.pos.toNat).toNat v
        bw := { s.bw with pos := s.bw.pos + 1 } } := by
  unfold emit
  split
  · rfl
  · rw [coreWrite_eq]
    unfold dstFaults
    split <;> rfl

/-- Memory after a byte at DST offset `o`. -/
theorem dstByte_write {s t : State} {o : Nat} {v : Byte} (hw : Mem.wf s.mem) (hr : t.region = s.region)
    (hm : t.mem = Mem.write s.mem (s.region.dstAddr o).toNat v) (ho : o < 2 ^ 32) :
    dstByte t o = v ∧ ∀ p, p < 2 ^ 32 → p ≠ o → dstByte t p = dstByte s p := by
  constructor
  · rw [dstByte, hr, hm, Mem.read_write_same _ _ _ hw]
  · intro p hp hne
    rw [dstByte, dstByte, hr, hm, Mem.read_write_other]
    exact fun h => hne (dstAddr_inj hp ho h)

/-! ## Bytes in turn -/

/-- No write of the DST bytes from BW_POS of `s` up to BW_POS of `t` faults. -/
def CleanSpan (s t : State) : Prop :=
  ∀ o, s.bw.pos.toNat ≤ o → o < t.bw.pos.toNat → dstFaults s o = false

theorem CleanSpan.of_pos {s t : State} (h : t.bw.pos = s.bw.pos) : CleanSpan s t := by
  intro o h1 h2
  rw [h] at h2
  omega

/-- `t` is `s` with the bytes `vs` written from DST offset BW_POS on. -/
structure BytesWritten (s t : State) (vs : List Byte) : Prop where
  only : WriterOnly s t
  wf : Mem.wf t.mem
  pos : t.bw.pos.toNat = s.bw.pos.toNat + vs.length
  room : vs = [] ∨ t.bw.pos.toNat ≤ s.region.dstCap.toNat
  pending : t.bw.pending = s.bw.pending
  nbits : t.bw.nbits = s.bw.nbits
  bytes : ∀ i, i < vs.length → dstByte t (s.bw.pos.toNat + i) = vs.getD i 0
  kept : MemoryKeptBut (fun a => ∃ o, s.bw.pos.toNat ≤ o ∧ o < t.bw.pos.toNat ∧ o < s.region.dstCap.toNat ∧
    a = (s.region.dstAddr o).toNat) s t
  clean : CleanSpan s t

theorem WriterOnly.region {s t : State} (h : WriterOnly s t) : t.region = s.region := by
  unfold WriterOnly at h; rw [h]

theorem WriterOnly.busFault {s t : State} (h : WriterOnly s t) : t.busFault = s.busFault := by
  unfold WriterOnly at h; rw [h]

theorem WriterOnly.codes {s t : State} (h : WriterOnly s t) : t.codes = s.codes := by
  unfold WriterOnly at h; rw [h]

theorem WriterOnly.status {s t : State} (h : WriterOnly s t) : t.status = s.status := by
  unfold WriterOnly at h; rw [h]

theorem WriterOnly.errAddr {s t : State} (h : WriterOnly s t) : t.errAddr = s.errAddr := by
  unfold WriterOnly at h; rw [h]

theorem WriterOnly.dstFaults {s t : State} (h : WriterOnly s t) (o : Nat) : dstFaults t o = dstFaults s o := by
  simp only [Machine.dstFaults, busFaults, h.region, h.busFault]

theorem WriterOnly.srcFaults {s t : State} (h : WriterOnly s t) (o : Nat) : srcFaults t o = srcFaults s o := by
  simp only [Machine.srcFaults, busFaults, h.region, h.busFault]

theorem WriterOnly.kept {s t : State} (h : WriterOnly s t) : KeptExcept [.bw, .mem] s t := by
  unfold WriterOnly at h
  rw [h]
  exact ⟨HostSideKept.refl s, fun p hp => by cases p <;> simp_all [keeps]⟩

theorem CleanSpan.trans {s t u : State} (h : WriterOnly s t) (h1 : CleanSpan s t) (h2 : CleanSpan t u) :
    CleanSpan s u := by
  intro o ho1 ho2
  by_cases ho : o < t.bw.pos.toNat
  · exact h1 o ho1 ho
  · rw [← h.dstFaults]
    exact h2 o (by omega) ho2

theorem BytesWritten.nil {s : State} (hw : Mem.wf s.mem) : BytesWritten s s [] where
  only := WriterOnly.refl s
  wf := hw
  pos := rfl
  room := .inl rfl
  pending := rfl
  nbits := rfl
  bytes := fun i hi => absurd hi (Nat.not_lt_zero i)
  kept := MemoryKeptBut.of_eq rfl
  clean := CleanSpan.of_pos rfl

/-- A byte of DST outside the range is kept. -/
theorem MemoryKeptBut.dst {s t : State} {lo hi p : Nat} (hr : t.region = s.region)
    (h : MemoryKeptBut (fun a => ∃ o, lo ≤ o ∧ o < hi ∧ o < s.region.dstCap.toNat ∧ a = (s.region.dstAddr o).toNat) s t)
    (hp : p < 2 ^ 32) (hout : p < lo ∨ hi ≤ p) : dstByte t p = dstByte s p := by
  rw [dstByte, dstByte, hr]
  apply h
  rintro ⟨o, h1, h2, h3, h4⟩
  have := s.region.dstCap.isLt
  have := dstAddr_inj hp (by omega) h4
  omega

theorem BytesWritten.one {s : State} {v : Byte} (hw : Mem.wf s.mem)
    (hroom : s.bw.pos.toNat < s.region.dstCap.toNat) (hf : dstFaults s s.bw.pos.toNat = false) :
    BytesWritten s { s with
        mem := Mem.write s.mem (s.region.dstAddr s.bw.pos.toNat).toNat v
        bw := { s.bw with pos := s.bw.pos + 1 } } [v] := by
  have hcap := s.region.dstCap.isLt
  have hpos : (s.bw.pos + 1).toNat = s.bw.pos.toNat + 1 := by simp [BitVec.toNat_add]; omega
  refine ⟨rfl, Mem.write_wf v (addr_lt_memSize _) hw, hpos, .inr ?_, rfl, rfl, fun i hi => ?_, fun a ha => ?_,
    fun o h1 h2 => ?_⟩
  · show (s.bw.pos + 1).toNat ≤ _
    omega
  · obtain rfl : i = 0 := by simpa using hi
    exact Mem.read_write_same s.mem _ v hw
  · refine Mem.read_write_other _ _ _ _ fun h => ha ⟨s.bw.pos.toNat, Nat.le_refl _, ?_, hroom, h⟩
    show _ < (s.bw.pos + 1).toNat
    omega
  · have h2 : o < (s.bw.pos + 1).toNat := h2
    rw [show o = s.bw.pos.toNat by omega]
    exact hf

theorem BytesWritten.append {s t u : State} {vs ws : List Byte} (h1 : BytesWritten s t vs) (h2 : BytesWritten t u ws) :
    BytesWritten s u (vs ++ ws) := by
  have hr := h1.only.region
  have hp1 := h1.pos
  have hp2 := h2.pos
  have hu := u.bw.pos.isLt
  have k2 := h2.kept
  rw [hr] at k2
  refine ⟨h1.only.trans h2.only, h2.wf, ?_, ?_, h2.pending.trans h1.pending, h2.nbits.trans h1.nbits,
    fun i hi => ?_, fun a ha => ?_, h1.clean.trans h1.only h2.clean⟩
  · rw [List.length_append]; omega
  · rcases h2.room with rfl | h
    · rcases h1.room with rfl | h
      · exact .inl rfl
      · right; simp at hp2; omega
    · right; rw [← hr]; exact h
  · rw [List.length_append] at hi
    by_cases hv : i < vs.length
    · rw [MemoryKeptBut.dst h2.only.region h2.kept (by omega) (.inl (by omega)), h1.bytes i hv]
      simp [List.getD_eq_getElem?_getD, List.getElem?_append, hv]
    · have := h2.bytes (i - vs.length) (by omega)
      rw [hp1, show s.bw.pos.toNat + vs.length + (i - vs.length) = s.bw.pos.toNat + i by omega] at this
      rw [this]
      simp [List.getD_eq_getElem?_getD, List.getElem?_append, hv]
  · rw [k2 a, h1.kept a]
    · rintro ⟨o, ho1, ho2, ho3, ho4⟩
      exact ha ⟨o, ho1, by omega, ho3, ho4⟩
    · rintro ⟨o, ho1, ho2, ho3, ho4⟩
      exact ha ⟨o, by omega, ho2, ho3, ho4⟩

/-- How a run of emits or put_bits ends short of its end: DST_FULL, or DST_WRITE_FAULT after the byte at DST
offset BW_POS has become any value. -/
def WriteStops {α : Type} (r : Res α) (t : State) : Prop :=
  (t.region.dstCap.toNat ≤ t.bw.pos.toNat ∧ r = raiseIo .dstFull (t.region.dstAddr t.bw.pos.toNat) t) ∨
    (t.bw.pos.toNat < t.region.dstCap.toNat ∧ dstFaults t t.bw.pos.toNat = true ∧
      r = raiseIo .dstWriteFault (t.region.dstAddr t.bw.pos.toNat) (t.faultedAt (t.region.dstAddr t.bw.pos.toNat)))

theorem WriteStops.bind {α β : Type} {r : Res α} {t : State} (h : WriteStops r t) (f : α → State → Res β) :
    WriteStops (r.bind f) t := by
  rcases h with ⟨h1, rfl⟩ | ⟨h1, h2, rfl⟩
  · exact .inl ⟨h1, rfl⟩
  · exact .inr ⟨h1, h2, rfl⟩

/-- How a command ends whose writing stops: the writer, ERR_ADDR, and what of the rest is kept. -/
theorem finish_writeStops {r : Res Unit} {t : State} (hw : Mem.wf t.mem) (h : WriteStops r t) :
    ∃ u, finish r = .next u ∧ u.errAddr = t.region.dstAddr t.bw.pos.toNat ∧ u.bw = t.bw ∧ HostSideKept t u ∧
      (∀ p, p ≠ .errAddr → p ≠ .mem → keeps p t u) ∧
      (t.region.dstCap.toNat ≤ t.bw.pos.toNat ∧ Ended .ioError .dstFull u ∧ u.mem = t.mem ∨
        t.bw.pos.toNat < t.region.dstCap.toNat ∧ dstFaults t t.bw.pos.toNat = true ∧
          Ended .ioError .dstWriteFault u ∧ Mem.wf u.mem ∧
          MemoryKeptBut (fun a => a = (t.region.dstAddr t.bw.pos.toNat).toNat) t u) := by
  rcases h with ⟨h1, rfl⟩ | ⟨h1, h2, rfl⟩
  · refine ⟨_, rfl, rfl, rfl, HostSideKept.refl _, fun p hp hp2 => ?_, .inl ⟨h1, ⟨rfl, rfl⟩, rfl⟩⟩
    cases p <;> simp_all [keeps, State.report, State.complete]
  · refine ⟨_, rfl, rfl, rfl, HostSideKept.refl _, fun p hp hp2 => ?_,
      .inr ⟨h1, h2, ⟨rfl, rfl⟩, Mem.write_wf _ (addr_lt_memSize _) hw, memoryKept_write _ _ _ _ rfl⟩⟩
    cases p <;> simp_all [keeps, State.report, State.complete, State.faultedAt]

/-- One emit: the byte is written, or it stops with nothing of the writer changed. -/
theorem emit_spec (v : Byte) {s : State} (hw : Mem.wf s.mem) :
    (∃ t, emit v s = .ok () t ∧ BytesWritten s t [v] ∧ s.bw.pos.toNat < s.region.dstCap.toNat ∧
      dstFaults s s.bw.pos.toNat = false) ∨ WriteStops (emit v s) s := by
  rw [emit_eq]
  split
  · rename_i h
    exact .inr (.inl ⟨h, rfl⟩)
  · rename_i h
    split
    · rename_i h2
      exact .inr (.inr ⟨by omega, h2, rfl⟩)
    · rename_i h2
      exact .inl ⟨_, rfl, BytesWritten.one hw (by omega) (by simpa using h2), by omega, by simpa using h2⟩

/-- emit of each byte in turn: all are written, or the first n of them and then it stops. -/
theorem emitAll_spec (vs : List Byte) {s : State} (hw : Mem.wf s.mem) :
    ∃ n t, n ≤ vs.length ∧ BytesWritten s t (vs.take n) ∧
      (n = vs.length ∧ emitAll vs s = .ok () t ∨ n < vs.length ∧ WriteStops (emitAll vs s) t) := by
  induction vs generalizing s with
  | nil => exact ⟨0, s, Nat.le_refl _, BytesWritten.nil hw, .inl ⟨rfl, rfl⟩⟩
  | cons v vs ih =>
    rcases emit_spec v hw with ⟨t, ht, hb, -⟩ | hstop
    · obtain ⟨n, u, hn, hu, hcase⟩ := ih hb.wf
      refine ⟨n + 1, u, by simpa using hn, hb.append hu, ?_⟩
      have hred : emitAll (v :: vs) s = emitAll vs t := by rw [emitAll, ht]; rfl
      rcases hcase with ⟨rfl, h⟩ | ⟨hlt, h⟩
      · exact .inl ⟨by simp, by rw [hred, h]⟩
      · exact .inr ⟨by simpa using hlt, by rw [hred]; exact h⟩
    · exact ⟨0, s, Nat.zero_le _, BytesWritten.nil hw, .inr ⟨by simp, hstop.bind _⟩⟩

/-! ## Bits in turn -/

/-- `t` is `s` with the bits `bs` accepted after those `s` had accepted. -/
structure BitsAccepted (s t : State) (bs : Bits) : Prop where
  only : WriterOnly s t
  wf : Mem.wf t.mem
  inv : WriterInv t.bw
  held : bitsHeld t.bw = bitsHeld s.bw + bs.length
  room : t.bw.pos = s.bw.pos ∨ t.bw.pos.toNat ≤ s.region.dstCap.toNat
  before : ∀ i, i < bitsHeld s.bw → acceptedBit t i = acceptedBit s i
  bits : ∀ i, i < bs.length → acceptedBit t (bitsHeld s.bw + i) = bs.getD i false
  kept : MemoryKeptBut (fun a => ∃ o, s.bw.pos.toNat ≤ o ∧ o < t.bw.pos.toNat ∧ o < s.region.dstCap.toNat ∧
    a = (s.region.dstAddr o).toNat) s t
  clean : CleanSpan s t

theorem BitsAccepted.nil {s : State} (hw : Mem.wf s.mem) (hi : WriterInv s.bw) : BitsAccepted s s [] where
  only := WriterOnly.refl s
  wf := hw
  inv := hi
  held := rfl
  room := .inl rfl
  before := fun _ _ => rfl
  bits := fun i hi => absurd hi (Nat.not_lt_zero i)
  kept := MemoryKeptBut.of_eq rfl
  clean := CleanSpan.of_pos rfl

theorem BitsAccepted.pos_le {s t : State} {bs : Bits} (h : BitsAccepted s t bs) (hi : WriterInv s.bw) :
    s.bw.pos.toNat ≤ t.bw.pos.toNat := by
  have h1 := h.held
  have h2 := h.inv.1
  have h3 := hi.1
  unfold bitsHeld at h1
  omega

theorem BitsAccepted.append {s t u : State} {bs cs : Bits} (hs : WriterInv s.bw) (h1 : BitsAccepted s t bs)
    (h2 : BitsAccepted t u cs) : BitsAccepted s u (bs ++ cs) := by
  have hr := h1.only.region
  have hh1 := h1.held
  have hh2 := h2.held
  have hp1 := h1.pos_le hs
  have hp2 := h2.pos_le h1.inv
  have k2 := h2.kept
  rw [hr] at k2
  refine ⟨h1.only.trans h2.only, h2.wf, h2.inv, ?_, ?_, fun i hi => ?_, fun i hi => ?_, fun a ha => ?_,
    h1.clean.trans h1.only h2.clean⟩
  · rw [List.length_append]; omega
  · rcases h2.room with h | h
    · rw [h]; exact h1.room
    · right; rw [← hr]; exact h
  · rw [h2.before i (by omega), h1.before i hi]
  · rw [List.length_append] at hi
    by_cases hv : i < bs.length
    · rw [h2.before _ (by omega), h1.bits i hv]
      simp [List.getD_eq_getElem?_getD, List.getElem?_append, hv]
    · have := h2.bits (i - bs.length) (by omega)
      rw [hh1, show bitsHeld s.bw + bs.length + (i - bs.length) = bitsHeld s.bw + i by omega] at this
      rw [this]
      simp [List.getD_eq_getElem?_getD, List.getElem?_append, hv]
  · rw [k2 a, h1.kept a]
    · rintro ⟨o, ho1, ho2, ho3, ho4⟩
      exact ha ⟨o, ho1, by omega, ho3, ho4⟩
    · rintro ⟨o, ho1, ho2, ho3, ho4⟩
      exact ha ⟨o, by omega, ho2, ho3, ho4⟩

/-- The accumulated bits and one more, bit by bit. -/
theorem shifted_getLsbD {w : Writer} (hi : WriterInv w) (b : Bool) (k : Nat) :
    (w.shifted b).getLsbD k = if k = 0 then b else w.pending.getLsbD (k - 1) && decide (k < 8) := by
  have h1 := hi.1
  have h2 := hi.2
  have : 2 ^ w.nbits.toNat ≤ 2 ^ 7 := Nat.pow_le_pow_right (by omega) h1
  simp only [Writer.shifted, BitVec.getLsbD_ofNat]
  cases k with
  | zero =>
    cases b <;> simp [Nat.testBit_zero]
  | succ k =>
    have hb : b.toNat < 2 := by cases b <;> simp
    rw [Nat.testBit_succ, show (w.pending.toNat * 2 + b.toNat) / 2 = w.pending.toNat by omega]
    simp [BitVec.getLsbD, Bool.and_comm]

theorem shifted_toNat {w : Writer} (hi : WriterInv w) (b : Bool) :
    (w.shifted b).toNat = 2 * w.pending.toNat + b.toNat := by
  have h2 := hi.2
  have : 2 ^ w.nbits.toNat ≤ 2 ^ 7 := Nat.pow_le_pow_right (by omega) hi.1
  have hb : b.toNat < 2 := by cases b <;> simp
  simp only [Writer.shifted, BitVec.toNat_ofNat]
  omega

/-- A bit that does not complete a byte. -/
theorem putBit_of_lt {s : State} (b : Bool) (h : s.bw.nbits.toNat < 7) :
    putBit b s = .ok () { s with bw := { s.bw with pending := s.bw.shifted b, nbits := s.bw.nbits + 1 } } := by
  rw [putBit, if_neg (by omega)]

/-- The bit that completes a byte. -/
theorem putBit_of_eq {s : State} (b : Bool) (h : s.bw.nbits.toNat = 7) :
    putBit b s = (emit (s.bw.shifted b) s).bind fun _ s1 => .ok () s1.dropPending := by
  rw [putBit, if_pos (by omega)]

theorem acceptedBit_pending {s : State} {i : Nat} (h : ¬ i < 8 * s.bw.pos.toNat) :
    acceptedBit s i = s.bw.pending.getLsbD (s.bw.nbits.toNat - 1 - i % 8) := by
  rw [acceptedBit, if_neg h]

theorem acceptedBit_byte {s : State} {i : Nat} (h : i < 8 * s.bw.pos.toNat) :
    acceptedBit s i = bitAt (dstByte s) i := by
  rw [acceptedBit, if_pos h]

/-- One put_bit: the bit is accepted, or, when it would complete a byte, it stops with nothing of the writer
changed. -/
theorem putBit_spec (b : Bool) {s : State} (hw : Mem.wf s.mem) (hi : WriterInv s.bw) :
    (∃ t, putBit b s = .ok () t ∧ BitsAccepted s t [b]) ∨
      (s.bw.nbits.toNat = 7 ∧ WriteStops (putBit b s) s) := by
  have h1 := hi.1
  by_cases h7 : s.bw.nbits.toNat = 7
  · rw [putBit_of_eq b h7]
    rcases emit_spec (s.bw.shifted b) hw with ⟨t, ht, hb, hroom, -⟩ | hstop
    · left
      rw [ht]
      refine ⟨t.dropPending, rfl, ?_⟩
      have hpos := hb.pos
      have hlt := t.bw.pos.isLt
      simp only [List.length_singleton] at hpos
      have hheld : bitsHeld s.bw = 8 * s.bw.pos.toNat + 7 := by unfold bitsHeld; omega
      have hbyte : dstByte t.dropPending s.bw.pos.toNat = s.bw.shifted b := by
        show dstByte t _ = _
        simpa using hb.bytes 0 (by simp)
      have hbyte' : ∀ p, p < s.bw.pos.toNat → dstByte t.dropPending p = dstByte s p := fun p hp =>
        MemoryKeptBut.dst (t := t) hb.only.region hb.kept (by omega) (.inl hp)
      have hbits : ∀ i, 8 * s.bw.pos.toNat ≤ i → i < 8 * s.bw.pos.toNat + 8 →
          acceptedBit t.dropPending i = (s.bw.shifted b).getLsbD (7 - i % 8) := by
        intro i hi1 hi2
        rw [acceptedBit_byte (by simp only [State.dropPending_bw]; omega), bitAt,
          show i / 8 = s.bw.pos.toNat by omega, hbyte]
      refine ⟨hb.only.trans (dropPending_only t), hb.wf, ⟨by simp, by simp⟩, ?_, ?_, fun i hi' => ?_, fun i hi' => ?_,
        hb.kept, hb.clean⟩
      · show 8 * t.bw.pos.toNat + 0 = _
        rw [hheld]
        simp only [List.length_singleton]
        omega
      · right
        rcases hb.room with h | h
        · simp at h
        · exact h
      · by_cases hold : i < 8 * s.bw.pos.toNat
        · rw [acceptedBit_byte (by simp only [State.dropPending_bw]; omega), acceptedBit_byte hold]
          exact bitAt_congr (hbyte' _ (by omega))
        · rw [hbits i (by omega) (by omega), acceptedBit_pending hold, shifted_getLsbD hi, if_neg (by omega),
            decide_eq_true (by omega), Bool.and_true]
          congr 1
          omega
      · obtain rfl : i = 0 := by simpa using hi'
        rw [hbits _ (by omega) (by omega), shifted_getLsbD hi, if_pos (by omega)]
        rfl
    · exact .inr ⟨h7, hstop.bind _⟩
  · left
    rw [putBit_of_lt b (by omega)]
    have hn : (s.bw.nbits + 1).toNat = s.bw.nbits.toNat + 1 := by simp [BitVec.toNat_add]; omega
    have h2 := hi.2
    have hb2 : b.toNat < 2 := by cases b <;> simp
    refine ⟨_, rfl, rfl, hw, ⟨?_, ?_⟩, ?_, .inl rfl, fun i hi' => ?_, fun i hi' => ?_, MemoryKeptBut.of_eq rfl,
      CleanSpan.of_pos rfl⟩
    · show (s.bw.nbits + 1).toNat ≤ 7
      omega
    · show (s.bw.shifted b).toNat < 2 ^ (s.bw.nbits + 1).toNat
      rw [shifted_toNat hi, hn, Nat.pow_succ]
      omega
    · show 8 * s.bw.pos.toNat + (s.bw.nbits + 1).toNat = bitsHeld s.bw + 1
      unfold bitsHeld
      omega
    · show (if i < 8 * s.bw.pos.toNat then bitAt (dstByte s) i
        else (s.bw.shifted b).getLsbD ((s.bw.nbits + 1).toNat - 1 - i % 8)) = acceptedBit s i
      unfold bitsHeld at hi'
      split
      · rename_i hold
        rw [acceptedBit_byte hold]
      · rename_i hold
        rw [acceptedBit_pending hold, shifted_getLsbD hi, hn, if_neg (by omega), decide_eq_true (by omega),
          Bool.and_true]
        congr 1
        omega
    · obtain rfl : i = 0 := by simpa using hi'
      show (if bitsHeld s.bw + 0 < 8 * s.bw.pos.toNat then bitAt (dstByte s) (bitsHeld s.bw + 0)
        else (s.bw.shifted b).getLsbD ((s.bw.nbits + 1).toNat - 1 - (bitsHeld s.bw + 0) % 8)) = b
      unfold bitsHeld
      rw [if_neg (by omega), shifted_getLsbD hi, hn, if_pos (by omega)]

/-- put_bit of each bit in turn: all are accepted, or the first n of them, and then it stops on the bit that
would complete a byte. -/
theorem putBits_spec (bs : Bits) {s : State} (hw : Mem.wf s.mem) (hi : WriterInv s.bw) :
    ∃ n t, n ≤ bs.length ∧ BitsAccepted s t (bs.take n) ∧
      (n = bs.length ∧ putBits bs s = .ok () t ∨
        n < bs.length ∧ t.bw.nbits.toNat = 7 ∧ WriteStops (putBits bs s) t) := by
  induction bs generalizing s with
  | nil => exact ⟨0, s, Nat.le_refl _, BitsAccepted.nil hw hi, .inl ⟨rfl, rfl⟩⟩
  | cons b bs ih =>
    rcases putBit_spec b hw hi with ⟨t, ht, hb⟩ | ⟨h7, hstop⟩
    · obtain ⟨n, u, hn, hu, hcase⟩ := ih hb.wf hb.inv
      refine ⟨n + 1, u, by simpa using hn, hb.append hi hu, ?_⟩
      have hred : putBits (b :: bs) s = putBits bs t := by rw [putBits, ht]; rfl
      rcases hcase with ⟨rfl, h⟩ | ⟨hlt, h7, h⟩
      · exact .inl ⟨by simp, by rw [hred, h]⟩
      · exact .inr ⟨by simpa using hlt, h7, by rw [hred]; exact h⟩
    · exact ⟨0, s, Nat.zero_le _, BitsAccepted.nil hw hi, .inr ⟨by simp, h7, hstop.bind _⟩⟩

/-! ## The flush -/

theorem padded_getLsbD {w : Writer} (hi : WriterInv w) (hn : 0 < w.nbits.toNat) {k : Nat} (hk : k < 8) :
    w.padded.getLsbD (7 - k) = (decide (k < w.nbits.toNat) && w.pending.getLsbD (w.nbits.toNat - 1 - k)) := by
  have h1 := hi.1
  simp only [Writer.padded, BitVec.getLsbD_ofNat, decide_eq_true (show 7 - k < 8 by omega), Bool.true_and]
  rw [Nat.testBit_mul_two_pow]
  by_cases h : k < w.nbits.toNat
  · rw [decide_eq_true (show 8 - w.nbits.toNat ≤ 7 - k by omega), decide_eq_true h, Bool.true_and, Bool.true_and,
      BitVec.getLsbD]
    congr 1
    omega
  · rw [decide_eq_false (show ¬ 8 - w.nbits.toNat ≤ 7 - k by omega), decide_eq_false h, Bool.false_and, Bool.false_and]

/-- The flush of a writer that holds bits: the padded byte is written, or it stops. -/
theorem flushBody_spec {s : State} (hw : Mem.wf s.mem) :
    (s.bw.nbits.toNat = 0 ∧ flushBody s = .ok () s) ∨
    (0 < s.bw.nbits.toNat ∧ ((∃ t, flushBody s = .ok () t.dropPending ∧ BytesWritten s t [s.bw.padded] ∧
        s.bw.pos.toNat < s.region.dstCap.toNat ∧ dstFaults s s.bw.pos.toNat = false) ∨
      WriteStops (flushBody s) s)) := by
  unfold flushBody
  split
  · rename_i h
    refine .inr ⟨h, ?_⟩
    rcases emit_spec s.bw.padded hw with ⟨t, ht, hb⟩ | hstop
    · exact .inl ⟨t, by rw [ht]; rfl, hb⟩
    · exact .inr (hstop.bind _)
  · rename_i h
    exact .inl ⟨by omega, rfl⟩

end Sys2Proof.Machine
end

