-- ==== Sys2Proof/Laws/Reader.lean ====
section
/-! SUPPORT. The bitstream reader as a position in the SRC bit stream, and what the tree walk over it answers
(spec/45_bitstream_reader.md R202, R204; spec/46_orchestrator.md R230). -/

namespace Sys2Proof.Machine

/-! ## The reader's place -/

/-- SRC can be read as far as byte m, where it ends or the next read faults. -/
structure ReadsTo (s : State) (m : Nat) : Prop where
  le : m ≤ s.region.srcLen.toNat
  clean : SrcReadableTo s m
  stop : m < s.region.srcLen.toNat → srcFaults s m = true

theorem SrcReadable.readsTo {s : State} (h : SrcReadable s) : ReadsTo s s.region.srcLen.toNat :=
  ⟨Nat.le_refl _, h, fun hlt => absurd hlt (Nat.lt_irrefl _)⟩

/-- Where SRC can be read to, in any state. -/
theorem exists_readsTo (s : State) : ∃ m, ReadsTo s m := by
  have key : ∀ n, n ≤ s.region.srcLen.toNat → SrcReadableTo s n ∨ ∃ m, ReadsTo s m := by
    intro n
    induction n with
    | zero => exact fun _ => .inl fun j hj => absurd hj (Nat.not_lt_zero j)
    | succ n ih =>
      intro hn
      rcases ih (by omega) with h | h
      · cases hf : srcFaults s n with
        | true => exact .inr ⟨n, by omega, h, fun _ => hf⟩
        | false =>
          left
          intro j hj
          by_cases hjn : j = n
          · rw [hjn, hf]
          · exact h j (by omega)
      · exact .inr h
  rcases key _ (Nat.le_refl _) with h | h
  · exact ⟨_, SrcReadable.readsTo h⟩
  · exact h

theorem ReadsTo.congr {s t : State} {m : Nat} (h : ReadsTo s m) (hr : t.region = s.region)
    (hf : ∀ j, srcFaults t j = srcFaults s j) : ReadsTo t m :=
  ⟨by rw [hr]; exact h.le, fun j hj => by rw [hf]; exact h.clean j hj, fun hlt => by rw [hf]; exact h.stop (hr ▸ hlt)⟩

/-- What a bit that is needed past the end of what can be read raises: TRUNCATED at the end of SRC, else the read
fault of byte m (R230). -/
def readStop (s : State) (m : Nat) : Raise :=
  if m < s.region.srcLen.toNat then
    { code := .ioError, detail := .srcReadFault, addr := some (s.region.srcAddr m) }
  else { code := .corruptContainer, detail := .truncated, addr := none }

/-- The reader has taken i bits of the SRC stream, within its first m bytes, and BR_CUR is the byte it is in. -/
structure ReaderAt (s : State) (m i : Nat) : Prop where
  cursor : s.br.cursor.toNat ≤ 8
  place : 8 * s.br.pos.toNat + s.br.cursor.toNat = i + 8
  inside : s.br.pos.toNat ≤ m
  cur : s.br.cursor.toNat < 8 → s.br.cur = srcByte s (s.br.pos.toNat - 1)

theorem ReaderAt.le {s : State} {m i : Nat} (h : ReaderAt s m i) : i ≤ 8 * m := by
  have h1 := h.cursor
  have h2 := h.place
  have h3 := h.inside
  omega

theorem ReaderAt.pos_of_end {s : State} {m i : Nat} (h : ReaderAt s m i) (hi : 8 * m ≤ i) : s.br.pos.toNat = m := by
  have h1 := h.cursor
  have h2 := h.place
  have h3 := h.inside
  omega

theorem readerAt_emptyAt {s : State} {p : Word} {m : Nat} (hb : s.br = Reader.emptyAt p) (hp : p.toNat ≤ m) :
    ReaderAt s m (8 * p.toNat) := by
  refine ⟨?_, ?_, ?_, ?_⟩ <;> rw [hb] <;> simp [Reader.emptyAt, hp]

theorem ReaderAt.congr {s t : State} {m i : Nat} (h : ReaderAt s m i) (hb : t.br = s.br)
    (hs : ∀ j, j < m → srcByte t j = srcByte s j) : ReaderAt t m i := by
  refine ⟨?_, ?_, ?_, ?_⟩
  · rw [hb]; exact h.cursor
  · rw [hb]; exact h.place
  · rw [hb]; exact h.inside
  · intro hc
    rw [hb] at hc ⊢
    have h1 := h.place
    have h2 := h.inside
    rw [h.cur hc, hs]
    omega

theorem ReaderOnly.region {s t : State} (h : ReaderOnly s t) : t.region = s.region := by
  unfold ReaderOnly at h; rw [h]

theorem ReaderOnly.mem {s t : State} (h : ReaderOnly s t) : t.mem = s.mem := by
  unfold ReaderOnly at h; rw [h]

theorem ReaderOnly.tree {s t : State} (h : ReaderOnly s t) : t.tree = s.tree := by
  unfold ReaderOnly at h; rw [h]

theorem ReaderOnly.busFault {s t : State} (h : ReaderOnly s t) : t.busFault = s.busFault := by
  unfold ReaderOnly at h; rw [h]

theorem ReaderOnly.srcFaults {s t : State} (h : ReaderOnly s t) (j : Nat) : srcFaults t j = srcFaults s j := by
  simp only [Machine.srcFaults, busFaults, h.region, h.busFault]

theorem ReaderOnly.srcByte {s t : State} (h : ReaderOnly s t) : srcByte t = srcByte s :=
  funext fun _ => srcByte_congr h.mem h.region _

theorem ReaderOnly.readsTo {s t : State} {m : Nat} (h : ReaderOnly s t) (hr : ReadsTo s m) : ReadsTo t m :=
  hr.congr h.region h.srcFaults

theorem ReaderOnly.readStop {s t : State} (h : ReaderOnly s t) (m : Nat) : readStop t m = readStop s m := by
  rw [Machine.readStop, Machine.readStop, h.region]

/-- Taking the next bit of a byte that is buffered. -/
theorem ReaderAt.take {s : State} {m i : Nat} (h : ReaderAt s m i) (hc : s.br.cursor.toNat < 8) :
    s.br.nextBit = bitAt (srcByte s) i ∧ ReaderAt s.bitTaken m (i + 1) := by
  have h1 := h.place
  have hn : (s.br.cursor + 1).toNat = s.br.cursor.toNat + 1 := by simp [BitVec.toNat_add]; omega
  refine ⟨?_, ?_, ?_, h.inside, fun _ => h.cur hc⟩
  · rw [Reader.nextBit, h.cur hc, bitAt, show s.br.pos.toNat - 1 = i / 8 by omega,
      show s.br.cursor.toNat = i % 8 by omega]
  · show (s.br.cursor + 1).toNat ≤ 8
    omega
  · show 8 * s.br.pos.toNat + (s.br.cursor + 1).toNat = i + 1 + 8
    omega

/-- get_bit at bit i: the bit, EOD at the end of SRC, or the read fault of the next byte. -/
theorem getBit_spec {s : State} {m i : Nat} (h : ReaderAt s m i) (hr : ReadsTo s m) :
    (i < 8 * m ∧ ∃ t, getBit s = .ok (some (bitAt (srcByte s) i)) t ∧ ReaderOnly s t ∧ ReaderAt t m (i + 1)) ∨
    (i = 8 * m ∧ m = s.region.srcLen.toNat ∧ getBit s = .ok none s) ∨
    (i = 8 * m ∧ m < s.region.srcLen.toNat ∧ getBit s = raiseIo .srcReadFault (s.region.srcAddr m) s) := by
  have h1 := h.cursor
  have h2 := h.place
  have h3 := h.inside
  have h4 := hr.le
  unfold getBit
  by_cases hc : s.br.cursor = 8
  · rw [if_pos hc]
    have h2 : s.br.pos.toNat * 8 = i := by rw [hc] at h2; simp at h2; omega
    by_cases hp : s.region.srcLen.toNat ≤ s.br.pos.toNat
    · rw [if_pos hp]
      exact .inr (.inl ⟨by omega, by omega, rfl⟩)
    · rw [if_neg hp, coreRead_src]
      by_cases hm : s.br.pos.toNat = m
      · rw [hm, hr.stop (by omega)]
        exact .inr (.inr ⟨by omega, by omega, rfl⟩)
      · rw [hr.clean _ (by omega)]
        have hn : (s.br.pos + 1).toNat = s.br.pos.toNat + 1 := by
          have := s.region.srcLen.isLt
          simp [BitVec.toNat_add]
          omega
        have hat : ReaderAt { s with br := { cur := srcByte s s.br.pos.toNat, cursor := 0, pos := s.br.pos + 1 } } m i := by
          refine ⟨by simp, ?_, ?_, fun _ => ?_⟩
          · show 8 * (s.br.pos + 1).toNat + 0 = i + 8
            omega
          · show (s.br.pos + 1).toNat ≤ m
            omega
          · show _ = srcByte s ((s.br.pos + 1).toNat - 1)
            rw [hn]
            rfl
        obtain ⟨hb, ha⟩ := hat.take (by simp)
        refine .inl ⟨by omega,
          State.bitTaken { s with br := { cur := srcByte s s.br.pos.toNat, cursor := 0, pos := s.br.pos + 1 } }, ?_, rfl, ha⟩
        simp only [Bool.false_eq_true, if_false, Res.bind, hb]
        rfl
  · rw [if_neg hc]
    have hlt : s.br.cursor.toNat < 8 := by
      have : s.br.cursor.toNat ≠ 8 := fun he => hc (BitVec.eq_of_toNat_eq (by simpa using he))
      omega
    obtain ⟨hb, ha⟩ := h.take hlt
    exact .inl ⟨by omega, s.bitTaken, by rw [hb], rfl, ha⟩

/-- A bit the walk needs: the bit, or the stop at the end of what can be read. -/
theorem needBit_spec {s : State} {m i : Nat} (h : ReaderAt s m i) (hr : ReadsTo s m) :
    (i < 8 * m ∧ ∃ t, needBit s = .ok (bitAt (srcByte s) i) t ∧ ReaderOnly s t ∧ ReaderAt t m (i + 1)) ∨
    (i = 8 * m ∧ needBit s = .raise (readStop s m) s) := by
  unfold needBit
  rcases getBit_spec h hr with ⟨hi, t, ht, ho, ha⟩ | ⟨hi, hm, ht⟩ | ⟨hi, hm, ht⟩
  · exact .inl ⟨hi, t, by rw [ht]; rfl, ho, ha⟩
  · exact .inr ⟨hi, by rw [ht, readStop, if_neg (by omega)]; rfl⟩
  · exact .inr ⟨hi, by rw [ht, readStop, if_pos hm]; rfl⟩

/-! ## The walk -/

/-- The stream of the first m SRC bytes has the bits p from bit i on. -/
def StreamHas (s : State) (m i : Nat) (p : Bits) : Prop :=
  i + p.length ≤ 8 * m ∧ ∀ k, k < p.length → bitAt (srcByte s) (i + k) = p.getD k false

theorem StreamHas.cons {s : State} {m i : Nat} {b : Bool} {p : Bits} :
    StreamHas s m i (b :: p) ↔ i < 8 * m ∧ bitAt (srcByte s) i = b ∧ StreamHas s m (i + 1) p := by
  constructor
  · rintro ⟨h1, h2⟩
    simp only [List.length_cons] at h1 h2
    refine ⟨by omega, h2 0 (by omega), by omega, fun k hk => ?_⟩
    have := h2 (k + 1) (by omega)
    rw [show i + (k + 1) = i + 1 + k by omega] at this
    simpa using this
  · rintro ⟨h1, h2, h3, h4⟩
    refine ⟨by simp only [List.length_cons]; omega, fun k hk => ?_⟩
    cases k with
    | zero => exact h2
    | succ k =>
      have := h4 k (by simpa using hk)
      rw [show i + (k + 1) = i + 1 + k by omega]
      simpa using this

theorem streamHas_nil {s : State} {m i : Nat} (h : ReaderAt s m i) : StreamHas s m i [] :=
  ⟨by simpa using h.le, fun k hk => absurd hk (Nat.not_lt_zero k)⟩

theorem StreamHas.congr {s t : State} {m i : Nat} {p : Bits} (h : StreamHas s m i p)
    (hs : ∀ j, j < m → srcByte t j = srcByte s j) : StreamHas t m i p := by
  refine ⟨h.1, fun k hk => ?_⟩
  have h1 := h.1
  rw [← h.2 k hk]
  exact bitAt_congr (hs _ (by omega))

theorem StreamHas.append {s : State} {m i : Nat} {p q : Bits} :
    StreamHas s m i (p ++ q) ↔ StreamHas s m i p ∧ StreamHas s m (i + p.length) q := by
  induction p generalizing i with
  | nil =>
    simp only [List.nil_append, List.length_nil, Nat.add_zero]
    exact ⟨fun h => ⟨⟨by have := h.1; simp; omega, fun k hk => absurd hk (Nat.not_lt_zero k)⟩, h⟩, fun h => h.2⟩
  | cons b p ih =>
    rw [List.cons_append, StreamHas.cons, StreamHas.cons, ih, List.length_cons,
      show i + 1 + p.length = i + (p.length + 1) by omega]
    constructor
    · rintro ⟨h1, h2, h3, h4⟩
      exact ⟨⟨h1, h2, h3⟩, h4⟩
    · rintro ⟨⟨h1, h2, h3⟩, h4⟩
      exact ⟨h1, h2, h3, h4⟩

theorem walkFrom_succ (fuel : Nat) (node : Node) (s : State) :
    walkFrom (fuel + 1) node s = (needBit s).bind fun b s1 =>
      match s1.tree.node (if b then node.right else node.left) with
      | none => .fault .treeWalk
      | some child => if child.leaf then .ok child.symbol s1 else walkFrom fuel child s1 := rfl

/-- One step of the walk, once its bit is read. -/
theorem walkFrom_step {fuel : Nat} {node child : Node} {s t : State} {b : Bool} (ht : needBit s = .ok b t)
    (hn : t.tree.node (if b then node.right else node.left) = some child) :
    walkFrom (fuel + 1) node s = if child.leaf then .ok child.symbol t else walkFrom fuel child t := by
  rw [walkFrom_succ, ht]
  simp only [Res.bind, hn]

/-- The walk along a path that the stream spells out reaches the path's leaf. -/
theorem walkFrom_path {fuel m i : Nat} {nix : NodeIx} {node : Node} {s : State} {p : Bits} {b : Byte}
    (hat : ReaderAt s m i) (hr : ReadsTo s m) (hn : s.tree.node nix = some node) (hl : node.leaf = false)
    (hp : PathTo s.tree nix p b) (hs : StreamHas s m i p) (hf : p.length ≤ fuel) :
    ∃ t, walkFrom fuel node s = .ok b t ∧ ReaderOnly s t ∧ ReaderAt t m (i + p.length) := by
  induction p generalizing fuel i nix node s with
  | nil => exact absurd hp (pathTo_nil hn hl)
  | cons c p ih =>
    rw [StreamHas.cons] at hs
    obtain ⟨hi, hb, hs⟩ := hs
    rw [pathTo_cons hn hl] at hp
    obtain ⟨fuel, rfl⟩ : ∃ f, fuel = f + 1 := ⟨fuel - 1, by simp only [List.length_cons] at hf; omega⟩
    rcases needBit_spec hat hr with ⟨-, t, ht, ho, ha⟩ | ⟨he, -⟩
    · rw [hb] at ht
      have hp' : PathTo t.tree (if c then node.right else node.left) p b := by rw [ho.tree]; exact hp
      obtain ⟨child, hch⟩ : ∃ child, t.tree.node (if c then node.right else node.left) = some child := by
        obtain ⟨d, m, h1, h2, -⟩ := hp'
        cases p with
        | nil => cases h1; exact ⟨m, h2⟩
        | cons e p =>
          rw [followIx] at h1
          cases hx : t.tree.node (if c then node.right else node.left) with
          | none => rw [hx] at h1; cases h1
          | some x => exact ⟨x, rfl⟩
      rw [walkFrom_step ht hch]
      cases hcl : child.leaf with
      | true =>
        obtain ⟨rfl, rfl⟩ := (pathTo_leaf hch hcl).1 hp'
        exact ⟨t, by simp, ho, by simpa using ha⟩
      | false =>
        have hs' : StreamHas t m (i + 1) p := hs.congr fun j _ => by rw [ho.srcByte]
        obtain ⟨u, hu, ho', ha'⟩ := ih ha (ho.readsTo hr) hch hcl hp' hs' (by simpa using hf)
        refine ⟨u, by simpa using hu, ho.trans ho', ?_⟩
        rw [List.length_cons, show i + (p.length + 1) = i + 1 + p.length by omega]
        exact ha'
    · omega

/-- The walk along a path of which what can be read spells out only a part stops there. -/
theorem walkFrom_stop {fuel m i : Nat} {nix : NodeIx} {node : Node} {s : State} {p q : Bits} {b : Byte}
    (hat : ReaderAt s m i) (hr : ReadsTo s m) (hn : s.tree.node nix = some node) (hl : node.leaf = false)
    (hp : PathTo s.tree nix (p ++ q) b) (hq : q ≠ []) (hs : StreamHas s m i p)
    (hend : i + p.length = 8 * m) (hf : p.length < fuel) :
    ∃ t, walkFrom fuel node s = .raise (readStop s m) t ∧ ReaderOnly s t ∧ t.br.pos.toNat = m := by
  induction p generalizing fuel i nix node s with
  | nil =>
    obtain ⟨fuel, rfl⟩ : ∃ f, fuel = f + 1 := ⟨fuel - 1, by omega⟩
    simp only [List.length_nil, Nat.add_zero] at hend
    rcases needBit_spec hat hr with ⟨hi, -⟩ | ⟨-, ht⟩
    · omega
    · exact ⟨s, by rw [walkFrom_succ, ht]; rfl, ReaderOnly.refl s, hat.pos_of_end (by omega)⟩
  | cons c p ih =>
    rw [StreamHas.cons] at hs
    obtain ⟨hi, hb, hs⟩ := hs
    rw [List.cons_append, pathTo_cons hn hl] at hp
    obtain ⟨fuel, rfl⟩ : ∃ f, fuel = f + 1 := ⟨fuel - 1, by simp only [List.length_cons] at hf; omega⟩
    simp only [List.length_cons] at hend hf
    rcases needBit_spec hat hr with ⟨-, t, ht, ho, ha⟩ | ⟨he, -⟩
    · rw [hb] at ht
      have hp' : PathTo t.tree (if c then node.right else node.left) (p ++ q) b := by rw [ho.tree]; exact hp
      obtain ⟨child, hch, hcl⟩ : ∃ child, t.tree.node (if c then node.right else node.left) = some child ∧
          child.leaf = false := by
        obtain ⟨d, m, h1, h2, -⟩ := hp'
        cases hpq : p ++ q with
        | nil => exact absurd (List.append_eq_nil_iff.1 hpq).2 hq
        | cons e r =>
          rw [hpq, followIx] at h1
          cases hx : t.tree.node (if c then node.right else node.left) with
          | none => rw [hx] at h1; cases h1
          | some x =>
            rw [hx] at h1
            cases hxl : x.leaf with
            | true => simp [hxl] at h1
            | false => exact ⟨x, rfl, hxl⟩
      rw [walkFrom_step ht hch, hcl]
      have hs' : StreamHas t m (i + 1) p := hs.congr fun j _ => by rw [ho.srcByte]
      obtain ⟨u, hu, ho', hpos⟩ := ih (fuel := fuel) ha (ho.readsTo hr) hch hcl hp' hs' (by omega) (by omega)
      exact ⟨u, by simpa [ho.readStop] using hu, ho.trans ho', hpos⟩
    · omega

/-- The walk from an internal node of a tree never leaves the node store and never runs out of fuel. -/
theorem walkFrom_no_fault {k fuel : Nat} {nix : NodeIx} {node : Node} {s : State} (ht : TreeShape s.tree k)
    (hlt : nix.toNat < 2 * k - 1) (hn : s.tree.node nix = some node) (hl : node.leaf = false)
    (hf : nix.toNat ≤ fuel) (w : Fault) : walkFrom fuel node s ≠ .fault w := by
  induction fuel generalizing nix node s with
  | zero =>
    rcases ht.node hlt with ⟨-, m, h1, h2⟩ | ⟨-, m, h1, -, h3, -⟩
    · rw [hn] at h1; cases h1; rw [hl] at h2; cases h2
    · omega
  | succ fuel ih =>
    rcases ht.node hlt with ⟨-, m, h1, h2⟩ | ⟨-, m, h1, -, h3, h4⟩
    · rw [hn] at h1; cases h1; rw [hl] at h2; cases h2
    rw [hn] at h1
    cases h1
    intro heq
    rw [walkFrom_succ, Res.bind_eq_fault] at heq
    rcases heq with heq | ⟨b, t, hb, heq⟩
    · unfold needBit at heq
      rw [Res.bind_eq_fault] at heq
      rcases heq with heq | ⟨ob, t, -, heq⟩
      · unfold getBit coreRead at heq
        split at heq
        · split at heq
          · cases heq
          · split at heq <;> cases heq
        · cases heq
      · cases ob <;> cases heq
    · have ho : ReaderOnly s t := by
        have := needBit_ends s
        rw [hb] at this
        exact this
      have hclt : (if b then node.right else node.left).toNat < nix.toNat := by cases b <;> simpa
      obtain ⟨child, hch⟩ : ∃ c, t.tree.node (if b then node.right else node.left) = some c := by
        rw [ho.tree]
        rcases ht.node (n := if b then node.right else node.left) (by omega) with ⟨-, m, h, -⟩ | ⟨-, m, h, -⟩
        · exact ⟨m, h⟩
        · exact ⟨m, h⟩
      rw [hch] at heq
      simp only at heq
      cases hcl : child.leaf with
      | true => rw [hcl] at heq; cases heq
      | false =>
        rw [hcl] at heq
        exact ih (s := t) (by rw [ho.tree]; exact ht) (by omega) hch hcl (by omega) (by simpa using heq)

/-! ## decode_symbol -/

/-- decode_symbol where the stream spells out the code of b: it answers b. -/
theorem decodeSymbol_code {s : State} {codes : Vector Bits 256} {m i : Nat} {b : Byte} (hc : CodesOf s.tree codes)
    (hi : TreeInv s.tree) (hat : ReaderAt s m i) (hr : ReadsTo s m) (hb : codeOf codes b ≠ [])
    (hs : StreamHas s m i (codeOf codes b)) :
    ∃ t, decodeSymbol s = .ok b t ∧ ReaderOnly s t ∧ ReaderAt t m (i + (codeOf codes b).length) := by
  have hlen := hc.length_le hi b
  obtain ⟨-, r, h1, ⟨h2, h3, h4⟩ | ⟨h2, h3⟩⟩ := hc.path hi hb
  · rw [h4, StreamHas.cons] at hs
    unfold decodeSymbol
    rcases needBit_spec hat hr with ⟨-, t, ht, ho, ha⟩ | ⟨he, -⟩
    · exact ⟨t, by simp [h1, h2, ht, Res.bind, h3], ho, by rw [h4]; exact ha⟩
    · omega
  · unfold decodeSymbol
    obtain ⟨t, ht, h⟩ := walkFrom_path (fuel := walkFuel) hat hr h1 h2 h3 hs (by show _ ≤ 511; omega)
    exact ⟨t, by simp [h1, h2, ht], h⟩

/-- decode_symbol on a tree that is one leaf: one bit, of either value (R230). -/
theorem decodeSymbol_single {s : State} {m i : Nat} {r : Node} (h1 : s.tree.node s.tree.root = some r)
    (h2 : r.leaf = true) (hat : ReaderAt s m i) (hr : ReadsTo s m) (hi : i < 8 * m) :
    ∃ t, decodeSymbol s = .ok r.symbol t ∧ ReaderOnly s t ∧ ReaderAt t m (i + 1) := by
  unfold decodeSymbol
  rcases needBit_spec hat hr with ⟨-, t, ht, ho, ha⟩ | ⟨he, -⟩
  · exact ⟨t, by simp [h1, h2, ht, Res.bind], ho, ha⟩
  · omega

/-- decode_symbol where what can be read ends inside a code stops there. -/
theorem decodeSymbol_stop {s : State} {codes : Vector Bits 256} {m i : Nat} {b : Byte} {p : Bits}
    (hc : CodesOf s.tree codes) (hi : TreeInv s.tree) (hat : ReaderAt s m i) (hr : ReadsTo s m)
    (hp : p <+: codeOf codes b) (hne : codeOf codes b ≠ p) (hs : StreamHas s m i p)
    (hend : i + p.length = 8 * m) :
    ∃ t, decodeSymbol s = .raise (readStop s m) t ∧ ReaderOnly s t ∧ t.br.pos.toNat = m := by
  have hlen := hc.length_le hi b
  obtain ⟨q, hq⟩ := hp
  have hq0 : q ≠ [] := fun h => hne (by rw [← hq, h, List.append_nil])
  have hb : codeOf codes b ≠ [] := by rw [← hq]; simp [hq0]
  obtain ⟨-, r, h1, ⟨h2, h3, h4⟩ | ⟨h2, h3⟩⟩ := hc.path hi hb
  · have hp0 : p = [] := by
      have := congrArg List.length hq
      rw [h4, List.length_append, List.length_singleton] at this
      have := List.length_pos_iff.2 hq0
      exact List.eq_nil_of_length_eq_zero (by omega)
    subst hp0
    simp only [List.length_nil, Nat.add_zero] at hend
    unfold decodeSymbol
    rcases needBit_spec hat hr with ⟨he, -⟩ | ⟨-, ht⟩
    · omega
    · exact ⟨s, by simp [h1, h2, ht, Res.bind], ReaderOnly.refl s, hat.pos_of_end (by omega)⟩
  · rw [← hq] at h3 hlen
    rw [List.length_append] at hlen
    unfold decodeSymbol
    obtain ⟨t, ht, h⟩ := walkFrom_stop (fuel := walkFuel) hat hr h1 h2 h3 hq0 hs hend (by show _ < 511; omega)
    exact ⟨t, by simp [h1, h2, ht], h⟩

/-- decode_symbol on a built tree never stops the model. -/
theorem decodeSymbol_no_fault {s : State} (hi : TreeInv s.tree) (hv : s.tree.valid = true) (w : Fault) :
    decodeSymbol s ≠ .fault w := by
  rcases hi with ⟨h, -⟩ | ⟨-, k, hk1, hk, hs⟩
  · rw [hv] at h; cases h
  have hroot : s.tree.root.toNat < 2 * k - 1 := by rw [hs.root]; omega
  unfold decodeSymbol
  rcases hs.node hroot with ⟨-, r, h1, h2⟩ | ⟨-, r, h1, h2, -⟩
  · simp only [h1, h2, if_true]
    intro heq
    rw [Res.bind_eq_fault] at heq
    rcases heq with heq | ⟨_, _, -, heq⟩
    · unfold needBit at heq
      rw [Res.bind_eq_fault] at heq
      rcases heq with heq | ⟨ob, t, -, heq⟩
      · unfold getBit coreRead at heq
        split at heq
        · split at heq
          · cases heq
          · split at heq <;> cases heq
        · cases heq
      · cases ob <;> cases heq
    · cases heq
  · simp only [h1, h2]
    exact walkFrom_no_fault hs hroot h1 h2 (by have := s.tree.root.isLt; show _ ≤ 511; omega) w

end Sys2Proof.Machine
end

