-- ==== Sys2Proof/Laws/Codec.lean ====
section
/-! SUPPORT. The pieces of COMPRESS and DECOMPRESS (spec/46_orchestrator.md R220 to R230): the regions do not
overlap, the header and its words, the bit stream written whole, and a message decoded symbol by symbol. -/

namespace Sys2Proof.Machine

/-! ## The regions -/

theorem Region.codecOk_iff {r : Region} :
    r.codecOk = true ↔ r.validSrc = true ∧ r.validDst = true ∧ r.disjoint = true := by
  simp [Region.codecOk, Bool.and_assoc]

/-- Writes of DST leave SRC alone (R226). -/
theorem srcByte_of_kept {s t : State} (hok : s.region.codecOk = true) (hr : t.region = s.region)
    (hk : MemoryKeptBut (fun a => ∃ o, o < s.region.dstCap.toNat ∧ a = (s.region.dstAddr o).toNat) s t) {j : Nat}
    (hj : j < s.region.srcLen.toNat) : srcByte t j = srcByte s j := by
  obtain ⟨h1, h2, h3⟩ := Region.codecOk_iff.1 hok
  rw [srcByte, srcByte, hr]
  apply hk
  rintro ⟨o, ho, heq⟩
  rw [srcAddr_toNat h1 hj, dstAddr_toNat h2 ho] at heq
  simp only [Region.disjoint, Bool.or_eq_true, beq_iff_eq, decide_eq_true_eq] at h3
  rcases h3 with ((h3 | h3) | h3) | h3
  · rw [h3] at hj; simp at hj
  · rw [h3] at ho; simp at ho
  · omega
  · omega

/-! ## The header -/

theorem wordsOf_le32Bytes (w : Word) (l : List Byte) : wordsOf (le32Bytes w ++ l) = w :: wordsOf l := by
  have h : le32 (w.extractLsb' 0 8) (w.extractLsb' 8 8) (w.extractLsb' 16 8) (w.extractLsb' 24 8) = w := by
    apply BitVec.eq_of_getLsbD_eq
    intro i hi
    simp only [le32, BitVec.getLsbD_append, BitVec.getLsbD_extractLsb']
    by_cases h1 : i < 8
    · simp [h1]
    · by_cases h2 : i - 8 < 8
      · simp [h1, h2, show 8 + (i - 8) = i by omega]
      · by_cases h3 : i - 8 - 8 < 8
        · simp [h1, h2, h3, show 16 + (i - 8 - 8) = i by omega]
        · simp [h1, h2, h3, show 24 + (i - 8 - 8 - 8) = i by omega, show i - 8 - 8 - 8 < 8 by omega]
  simp [le32Bytes, wordsOf, h]

theorem wordsOf_flatMap (ws : List Word) : wordsOf (ws.flatMap le32Bytes) = ws := by
  induction ws with
  | nil => rfl
  | cons w ws ih => rw [List.flatMap_cons, wordsOf_le32Bytes, ih]

@[simp] theorem headerBytes_length (t : FreqTable) : (headerBytes t).length = 1028 := by
  have : ∀ ws : List Word, (ws.flatMap le32Bytes).length = 4 * ws.length := by
    intro ws
    induction ws with
    | nil => rfl
    | cons w ws ih =>
      rw [List.flatMap_cons, List.length_append, ih]
      simp [le32Bytes]
      omega
  simp [headerBytes, this, le32Bytes]

/-- The table read back from the header written for it. -/
theorem tableOf_headerBytes (t : FreqTable) : tableOf (headerBytes t) = t := by
  have hw : wordsOf (headerBytes t) = t.total :: t.count.toList := by
    rw [headerBytes, wordsOf_le32Bytes, wordsOf_flatMap]
  refine FreqTable.ext_at (fun b => ?_) ?_
  · have hb := b.isLt
    simp [FreqTable.at, tableOf, hw, hb]
  · simp [tableOf, hw]

theorem wordsOf_getD (l : List Byte) (i : Nat) (h : 4 * i + 3 < l.length) :
    (wordsOf l).getD i 0 = le32 (l.getD (4 * i) 0) (l.getD (4 * i + 1) 0) (l.getD (4 * i + 2) 0) (l.getD (4 * i + 3) 0) := by
  induction i generalizing l with
  | zero =>
    match l, h with
    | b0 :: b1 :: b2 :: b3 :: rest, _ => rfl
  | succ i ih =>
    match l, h with
    | b0 :: b1 :: b2 :: b3 :: rest, h =>
      simp only [List.length_cons] at h
      have := ih rest (by omega)
      simp only [wordsOf, show 4 * (i + 1) = 4 * i + 4 by omega]
      simpa using this

theorem le32_toNat (b0 b1 b2 b3 : Byte) :
    (le32 b0 b1 b2 b3).toNat = b0.toNat + 256 * b1.toNat + 65536 * b2.toNat + 16777216 * b3.toNat := by
  have h0 := b0.isLt
  have h1 := b1.isLt
  have h2 := b2.isLt
  simp only [le32, BitVec.toNat_append]
  rw [← Nat.shiftLeft_add_eq_or_of_lt h0, ← Nat.shiftLeft_add_eq_or_of_lt h1, ← Nat.shiftLeft_add_eq_or_of_lt h2]
  simp only [Nat.shiftLeft_eq]
  omega

/-! ## A bit stream written whole -/

/-- `t` is `s` with the bits `bs` written from DST offset BW_POS on and flushed, from a writer with no bit
pending. -/
structure Streamed (s t : State) (bs : Bits) : Prop where
  only : WriterOnly s t
  wf : Mem.wf t.mem
  pos : t.bw.pos.toNat = s.bw.pos.toNat + bytesFor bs.length
  nbits : t.bw.nbits = 0
  room : bs = [] ∨ t.bw.pos.toNat ≤ s.region.dstCap.toNat
  bits : ∀ i, i < 8 * bytesFor bs.length → bitAt (dstByte t) (8 * s.bw.pos.toNat + i) = bs.getD i false
  kept : MemoryKeptBut (fun a => ∃ o, s.bw.pos.toNat ≤ o ∧ o < t.bw.pos.toNat ∧ o < s.region.dstCap.toNat ∧
    a = (s.region.dstAddr o).toNat) s t
  clean : CleanSpan s t

/-- The bits accepted up to BW_POS stand in DST. -/
theorem BitsAccepted.stream {s t : State} {bs : Bits} {n : Nat} (h : BitsAccepted s t (bs.take n)) (hn0 : s.bw.nbits = 0)
    (hn : n ≤ bs.length) {i : Nat} (hi : 8 * s.bw.pos.toNat + i < 8 * t.bw.pos.toNat) :
    bitAt (dstByte t) (8 * s.bw.pos.toNat + i) = bs.getD i false := by
  have hheld := h.held
  have h0 : bitsHeld s.bw = 8 * s.bw.pos.toNat := by rw [bitsHeld, hn0]; rfl
  have hb := h.bits
  rw [h0] at hheld hb
  rw [List.length_take] at hheld hb
  unfold bitsHeld at hheld
  have hlt : i < n := by omega
  rw [← acceptedBit_byte hi, hb i (by omega)]
  simp [List.getD_eq_getElem?_getD, hlt]

/-- Writing a bit stream and flushing it: all of it, or it stops on a byte of it, the bytes before written. -/
theorem putBits_flush_spec (bs : Bits) {s : State} (hw : Mem.wf s.mem) (hp0 : s.bw.pending = 0)
    (hn0 : s.bw.nbits = 0) :
    (∃ t, ((putBits bs s).bind fun _ s1 => flushBody s1) = .ok () t ∧ Streamed s t bs) ∨
      ∃ t, WriteStops ((putBits bs s).bind fun _ s1 => flushBody s1) t ∧ WriterOnly s t ∧ Mem.wf t.mem ∧
        t.bw.pos.toNat < s.bw.pos.toNat + bytesFor bs.length ∧
        (t.bw.pos = s.bw.pos ∨ t.bw.pos.toNat ≤ s.region.dstCap.toNat) ∧ s.bw.pos.toNat ≤ t.bw.pos.toNat ∧
        MemoryKeptBut (fun a => ∃ o, s.bw.pos.toNat ≤ o ∧ o < t.bw.pos.toNat ∧ o < s.region.dstCap.toNat ∧
          a = (s.region.dstAddr o).toNat) s t ∧ CleanSpan s t ∧
        ∀ i, 8 * s.bw.pos.toNat + i < 8 * t.bw.pos.toNat →
          bitAt (dstByte t) (8 * s.bw.pos.toNat + i) = bs.getD i false := by
  have hi : WriterInv s.bw := by rw [WriterInv, hp0, hn0]; exact ⟨by decide, by decide⟩
  have hs0 : bitsHeld s.bw = 8 * s.bw.pos.toNat := by rw [bitsHeld, hn0]; rfl
  obtain ⟨n, t, hn, hb, hcase⟩ := putBits_spec bs hw hi
  have hheld := hb.held
  have hle := hb.pos_le hi
  have h7 := hb.inv.1
  have hstr := fun i (hi : 8 * s.bw.pos.toNat + i < 8 * t.bw.pos.toNat) => hb.stream hn0 hn hi
  rw [hs0, List.length_take] at hheld
  unfold bitsHeld at hheld
  rcases hcase with ⟨rfl, hput⟩ | ⟨hlt, hn7, hstop⟩
  · rw [hput]
    simp only [Res.bind]
    rw [List.take_length] at hb
    have hbits := hb.bits
    rw [hs0] at hbits
    rcases flushBody_spec hb.wf with ⟨hz, hf⟩ | ⟨hz, ⟨v, hf, hbw, hroom, -⟩ | hstop⟩
    · have hm : t.bw.pos.toNat = s.bw.pos.toNat + bytesFor bs.length := by unfold bytesFor; omega
      refine .inl ⟨t, hf, hb.only, hb.wf, hm, BitVec.eq_of_toNat_eq (by simpa using hz), ?_, fun i hi' => ?_, hb.kept, hb.clean⟩
      · rcases hb.room with h | h
        · left
          refine List.eq_nil_of_length_eq_zero ?_
          rw [h] at hheld
          omega
        · exact .inr h
      · unfold bytesFor at hi'
        rw [← hbits i (by omega), acceptedBit_byte (by omega)]
    · have hpos := hbw.pos
      simp only [List.length_singleton] at hpos
      have hm : v.bw.pos.toNat = s.bw.pos.toNat + bytesFor bs.length := by unfold bytesFor; omega
      have hbyte : dstByte v t.bw.pos.toNat = t.bw.padded := by simpa using hbw.bytes 0 (by simp)
      have hvlt := v.bw.pos.isLt
      have hold : ∀ p, p < t.bw.pos.toNat → dstByte v p = dstByte t p := fun p hp =>
        MemoryKeptBut.dst hbw.only.region hbw.kept (by omega) (.inl hp)
      have hr := hb.only.region
      refine .inl ⟨v.dropPending, hf, hb.only.trans (hbw.only.trans (dropPending_only v)), hbw.wf, hm, rfl, ?_,
        fun i hi' => ?_, ?_, hb.clean.trans hb.only hbw.clean⟩
      · right
        rw [← hr]
        show v.bw.pos.toNat ≤ _
        omega
      · show bitAt (dstByte v) _ = _
        unfold bytesFor at hi'
        by_cases h1 : 8 * s.bw.pos.toNat + i < 8 * t.bw.pos.toNat
        · rw [bitAt_congr (hold _ (by omega)), ← acceptedBit_byte h1, ← hbits i (by omega)]
        · rw [bitAt, show (8 * s.bw.pos.toNat + i) / 8 = t.bw.pos.toNat by omega, hbyte,
            padded_getLsbD hb.inv hz (by omega)]
          by_cases h2 : i < bs.length
          · rw [← hbits i h2, acceptedBit_pending h1, decide_eq_true (by omega), Bool.true_and]
          · rw [decide_eq_false (by omega), Bool.false_and]
            simp [List.getD_eq_getElem?_getD, List.getElem?_eq_none (Nat.le_of_not_lt h2)]
      · show MemoryKeptBut _ s v
        refine (hb.kept.mono ?_).trans (u := v) ((hr ▸ hbw.kept).mono ?_)
        · rintro a ⟨o, h1, h2, h3, h4⟩
          exact ⟨o, h1, by show o < v.bw.pos.toNat; omega, h3, h4⟩
        · rintro a ⟨o, h1, h2, h3, h4⟩
          exact ⟨o, by omega, h2, h3, h4⟩
    · refine .inr ⟨t, hstop, hb.only, hb.wf, ?_, hb.room, hle, hb.kept, hb.clean, hstr⟩
      unfold bytesFor
      omega
  · refine .inr ⟨t, hstop.bind _, hb.only, hb.wf, ?_, hb.room, hle, hb.kept, hb.clean, hstr⟩
    unfold bytesFor
    omega

/-! ## The encoding loop -/

theorem putBits_append (p q : Bits) (s : State) :
    putBits (p ++ q) s = (putBits p s).bind fun _ s1 => putBits q s1 := by
  induction p generalizing s with
  | nil => rfl
  | cons b p ih =>
    simp only [List.cons_append, putBits, Res.bind_assoc]
    congr
    funext _ t
    exact ih t

theorem BitsAccepted.srcByte {s t : State} {bs : Bits} (h : BitsAccepted s t bs) (hok : s.region.codecOk = true)
    {j : Nat} (hj : j < s.region.srcLen.toNat) : srcByte t j = srcByte s j := by
  refine srcByte_of_kept hok h.only.region (h.kept.mono ?_) hj
  rintro a ⟨o, -, -, h3, h4⟩
  exact ⟨o, h3, h4⟩

theorem srcSlice_congr_bytes {s t : State} {j n : Nat} (h : ∀ i, i < n → srcByte t (j + i) = srcByte s (j + i)) :
    srcSlice t j n = srcSlice s j n :=
  List.map_congr_left fun i hi => h i (List.mem_range.1 hi)

/-- Step 4 of COMPRESS writes the codes of the SRC bytes, one after the other (R222). -/
theorem encodeFrom_eq (n j : Nat) {s : State} (hok : s.region.codecOk = true) (hr : SrcReadable s)
    (hw : Mem.wf s.mem) (hi : WriterInv s.bw) (hj : j + n ≤ s.region.srcLen.toNat)
    (hc : ∀ b ∈ srcSlice s j n, codeOf s.codes b ≠ []) :
    encodeFrom n j s = putBits (codeBits s.codes (srcSlice s j n)) s := by
  induction n generalizing j s with
  | zero => simp [encodeFrom, srcSlice, codeBits, putBits]
  | succ n ih =>
    rw [srcSlice_succ] at hc ⊢
    rw [codeBits, List.flatMap_cons, putBits_append, encodeFrom, coreRead_src, hr j (by omega)]
    have hne := hc _ (List.mem_cons_self ..)
    simp only [Bool.false_eq_true, if_false, Res.bind, List.isEmpty_iff, hne]
    obtain ⟨m, t, hm, hb, hcase⟩ := putBits_spec (codeOf s.codes (srcByte s j)) hw hi
    rcases hcase with ⟨rfl, hput⟩ | ⟨-, -, hstop⟩
    · simp only [hput]
      have hro := hb.only.region
      have hsl : srcSlice t (j + 1) n = srcSlice s (j + 1) n :=
        srcSlice_congr_bytes fun i hi' => hb.srcByte hok (by omega)
      rw [ih (j + 1) (s := t) (by rw [hro]; exact hok) (fun k hk => by rw [hb.only.srcFaults]; exact hr k (hro ▸ hk))
        hb.wf hb.inv (by rw [hro]; omega) (fun b hb' => ?_), hb.only.codes, hsl]
      · rfl
      · rw [hb.only.codes]
        rw [hsl] at hb'
        exact hc b (List.mem_cons_of_mem _ hb')
    · rcases hstop with ⟨-, h⟩ | ⟨-, -, h⟩ <;> rw [h] <;> rfl

/-! ## The decoding loop -/

/-- `t` is `s` with the symbols `msg` decoded and stored from DST offset DECODED on. -/
structure Decoded (s t : State) (msg : List Byte) : Prop where
  only : DecodeOnly s t
  wf : Mem.wf t.mem
  decoded : t.decoded.toNat = s.decoded.toNat + msg.length
  bytes : ∀ i, i < msg.length → dstByte t (s.decoded.toNat + i) = msg.getD i 0
  kept : MemoryKeptBut (fun a => ∃ o, s.decoded.toNat ≤ o ∧ o < t.decoded.toNat ∧ o < s.region.dstCap.toNat ∧
    a = (s.region.dstAddr o).toNat) s t

theorem DecodeOnly.region {s t : State} (h : DecodeOnly s t) : t.region = s.region := by
  unfold DecodeOnly at h; rw [h]

theorem DecodeOnly.tree {s t : State} (h : DecodeOnly s t) : t.tree = s.tree := by
  unfold DecodeOnly at h; rw [h]

theorem DecodeOnly.busFault {s t : State} (h : DecodeOnly s t) : t.busFault = s.busFault := by
  unfold DecodeOnly at h; rw [h]

theorem DecodeOnly.srcFaults {s t : State} (h : DecodeOnly s t) (j : Nat) : srcFaults t j = srcFaults s j := by
  simp only [Machine.srcFaults, busFaults, h.region, h.busFault]

theorem DecodeOnly.dstFaults {s t : State} (h : DecodeOnly s t) (o : Nat) : dstFaults t o = dstFaults s o := by
  simp only [Machine.dstFaults, busFaults, h.region, h.busFault]

theorem DecodeOnly.readsTo {s t : State} {m : Nat} (h : DecodeOnly s t) (hr : ReadsTo s m) : ReadsTo t m :=
  hr.congr h.region h.srcFaults

theorem DecodeOnly.readStop {s t : State} (h : DecodeOnly s t) (m : Nat) : readStop t m = readStop s m := by
  rw [Machine.readStop, Machine.readStop, h.region]

theorem DecodeOnly.writable {s t : State} {n : Nat} (h : DecodeOnly s t) (hr : DstWritableTo s n) : DstWritableTo t n :=
  fun o ho => by rw [h.dstFaults, hr o ho]

theorem Decoded.nil {s : State} (hw : Mem.wf s.mem) : Decoded s s [] where
  only := rfl
  wf := hw
  decoded := rfl
  bytes := fun i hi => absurd hi (Nat.not_lt_zero i)
  kept := MemoryKeptBut.of_eq rfl

theorem Decoded.srcByte {s t : State} {msg : List Byte} (h : Decoded s t msg) (hok : s.region.codecOk = true)
    {j : Nat} (hj : j < s.region.srcLen.toNat) : srcByte t j = srcByte s j := by
  refine srcByte_of_kept hok h.only.region (h.kept.mono ?_) hj
  rintro a ⟨o, -, -, h3, h4⟩
  exact ⟨o, h3, h4⟩

/-- One decoded symbol is stored where there is room. -/
theorem storeSymbol_ok (b : Byte) {s : State} (hw : Mem.wf s.mem) (hroom : s.decoded.toNat < s.region.dstCap.toNat)
    (hf : dstFaults s s.decoded.toNat = false) : ∃ t, storeSymbol b s = .ok () t ∧ StoreOnly s t ∧ Decoded s t [b] := by
  have hf : busFaults s .write (s.region.dstAddr s.decoded.toNat) = false := hf
  have hcap := s.region.dstCap.isLt
  have hn : (s.decoded + 1).toNat = s.decoded.toNat + 1 := by simp [BitVec.toNat_add]; omega
  refine ⟨{ s with mem := Mem.write s.mem (s.region.dstAddr s.decoded.toNat).toNat b, decoded := s.decoded + 1 },
    ?_, rfl, rfl, Mem.write_wf _ (addr_lt_memSize _) hw, hn, fun i hi => ?_, fun a ha => ?_⟩
  · rw [storeSymbol, if_neg (by omega), coreWrite_eq, hf]
    rfl
  · obtain rfl : i = 0 := by simpa using hi
    exact Mem.read_write_same s.mem _ b hw
  · refine Mem.read_write_other _ _ _ _ fun h => ha ⟨s.decoded.toNat, Nat.le_refl _, ?_, hroom, h⟩
    show _ < (s.decoded + 1).toNat
    omega

theorem Decoded.append {s t u : State} {m n : List Byte} (h1 : Decoded s t m) (h2 : Decoded t u n) :
    Decoded s u (m ++ n) := by
  have hr := h1.only.region
  have hd1 := h1.decoded
  have hd2 := h2.decoded
  have hu := u.decoded.isLt
  have k2 := h2.kept
  rw [hr] at k2
  refine ⟨h1.only.trans h2.only, h2.wf, by rw [List.length_append]; omega, fun i hi => ?_, fun a ha => ?_⟩
  · rw [List.length_append] at hi
    by_cases hv : i < m.length
    · rw [MemoryKeptBut.dst h2.only.region h2.kept (by omega) (.inl (by omega)), h1.bytes i hv]
      simp [List.getD_eq_getElem?_getD, List.getElem?_append, hv]
    · have := h2.bytes (i - m.length) (by omega)
      rw [hd1, show s.decoded.toNat + m.length + (i - m.length) = s.decoded.toNat + i by omega] at this
      rw [this]
      simp [List.getD_eq_getElem?_getD, List.getElem?_append, hv]
  · rw [k2 a, h1.kept a]
    · rintro ⟨o, ho1, ho2, ho3, ho4⟩
      exact ha ⟨o, ho1, by omega, ho3, ho4⟩
    · rintro ⟨o, ho1, ho2, ho3, ho4⟩
      exact ha ⟨o, by omega, ho2, ho3, ho4⟩

/-- The decoding loop over symbols that decode_symbol answers one after the other, `place k` being the stream
position before the k-th. -/
theorem decodeFrom_places (msg : List Byte) (n : Nat) (place : Nat → Nat) {s : State} {m : Nat}
    (hok : s.region.codecOk = true) (hr : ReadsTo s m) (hd : DstWritableTo s (s.decoded.toNat + msg.length))
    (hw : Mem.wf s.mem) (hat : ReaderAt s m (place 0))
    (hroom : s.decoded.toNat + msg.length ≤ s.region.dstCap.toNat)
    (hstep : ∀ k, k < msg.length → ∀ t, t.tree = s.tree → t.region = s.region → ReadsTo t m →
      (∀ j, j < m → srcByte t j = srcByte s j) → ReaderAt t m (place k) →
      ∃ u, decodeSymbol t = .ok (msg.getD k 0) u ∧ ReaderOnly t u ∧ ReaderAt u m (place (k + 1))) :
    ∃ t, decodeFrom (msg.length + n) s = decodeFrom n t ∧ Decoded s t msg ∧ ReaderAt t m (place msg.length) := by
  induction msg generalizing s place with
  | nil => exact ⟨s, by simp, Decoded.nil hw, hat⟩
  | cons b msg ih =>
    simp only [List.length_cons] at hroom hstep hd
    obtain ⟨u, hu, ho, ha⟩ := hstep 0 (by omega) s rfl rfl hr (fun _ _ => rfl) hat
    have hur := ho.region
    have hub := ho.busFault
    have hud : u.decoded = s.decoded := by unfold ReaderOnly at ho; rw [ho]
    obtain ⟨v, hv, hso, hdec⟩ := storeSymbol_ok b (s := u) (by rw [ho.mem]; exact hw) (by rw [hud, hur]; omega)
      (by rw [ho.decode.dstFaults, hud]; exact hd _ (by omega))
    have hdec : Decoded s v [b] := by
      refine ⟨ho.decode.trans hdec.only, hdec.wf, by rw [hdec.decoded, hud], ?_, ?_⟩
      · have := hdec.bytes
        rwa [hud] at this
      · have := hdec.kept
        rw [hud, hur] at this
        intro a ha
        rw [this a ha, ho.mem]
    have hvd := hdec.decoded
    have hle := hr.le
    have hsrc : ∀ j, j < m → srcByte v j = srcByte s j := fun j hj => hdec.srcByte hok (by omega)
    have hva : ReaderAt v m (place 1) := by
      refine ha.congr (by unfold StoreOnly at hso; rw [hso]) fun j hj => ?_
      rw [hsrc j hj, ho.srcByte]
    simp only [List.length_singleton] at hvd
    have hdv : DstWritableTo v (v.decoded.toNat + msg.length) := fun o ho =>
      hdec.only.writable hd o (by omega)
    obtain ⟨w, hw', hdw, haw⟩ := ih (s := v) (fun k => place (k + 1)) (by rw [hdec.only.region]; exact hok)
      (hdec.only.readsTo hr) hdv hdec.wf hva (by rw [hdec.only.region]; omega)
      (fun k hk t ht1 ht2 ht3 ht4 ht5 => by
        have := hstep (k + 1) (by omega) t (by rw [ht1, hdec.only.tree]) (by rw [ht2, hdec.only.region]) ht3
          (fun j hj => by rw [ht4 j hj, hsrc j hj]) ht5
        simpa using this)
    refine ⟨w, ?_, hdec.append hdw, haw⟩
    rw [← hw', List.length_cons, show msg.length + 1 + n = msg.length + n + 1 by omega, decodeFrom, hu]
    show (storeSymbol b u).bind _ = _
    rw [hv]
    rfl

theorem codeBits_take_succ (codes : Vector Bits 256) (msg : List Byte) {k : Nat} (hk : k < msg.length) :
    codeBits codes (msg.take (k + 1)) = codeBits codes (msg.take k) ++ codeOf codes (msg.getD k 0) := by
  rw [List.take_succ_eq_append_getElem hk, codeBits, List.flatMap_append]
  simp [codeBits, List.getD_eq_getElem?_getD, hk]

/-- The decoding loop over a stream that begins with the codes of a message (R230). -/
theorem decodeFrom_message (msg : List Byte) (n : Nat) {s : State} {codes : Vector Bits 256} {m i : Nat}
    (hc : CodesOf s.tree codes) (hi : TreeInv s.tree) (hok : s.region.codecOk = true) (hr : ReadsTo s m)
    (hd : DstWritableTo s (s.decoded.toNat + msg.length)) (hw : Mem.wf s.mem) (hat : ReaderAt s m i)
    (hroom : s.decoded.toNat + msg.length ≤ s.region.dstCap.toNat) (hne : ∀ b ∈ msg, codeOf codes b ≠ [])
    (hs : StreamHas s m i (codeBits codes msg)) :
    ∃ t, decodeFrom (msg.length + n) s = decodeFrom n t ∧ Decoded s t msg ∧
      ReaderAt t m (i + (codeBits codes msg).length) := by
  have hplace := decodeFrom_places msg n (fun k => i + (codeBits codes (msg.take k)).length) hok hr hd hw
    (by simpa [codeBits] using hat) hroom (fun k hk t ht1 ht2 ht3 ht4 ht5 => by
      have hmem : msg.getD k 0 ∈ msg := by simp [List.getD_eq_getElem?_getD, hk]
      have hst : StreamHas s m (i + (codeBits codes (msg.take k)).length) (codeOf codes (msg.getD k 0)) := by
        have hsplit : codeBits codes msg = codeBits codes (msg.take (k + 1)) ++ codeBits codes (msg.drop (k + 1)) := by
          rw [codeBits, codeBits, codeBits, ← List.flatMap_append, List.take_append_drop]
        rw [hsplit, codeBits_take_succ codes msg hk, List.append_assoc, StreamHas.append, StreamHas.append] at hs
        exact hs.2.1
      have hst : StreamHas t m (i + (codeBits codes (msg.take k)).length) (codeOf codes (msg.getD k 0)) :=
        hst.congr ht4
      obtain ⟨u, h1, h2, h3⟩ := decodeSymbol_code (ht1 ▸ hc) (ht1 ▸ hi) ht5 ht3 (hne _ hmem) hst
      refine ⟨u, h1, h2, ?_⟩
      rw [codeBits_take_succ codes msg hk, List.length_append, ← Nat.add_assoc]
      exact h3)
  simpa using hplace

/-- A symbol whose byte cannot be written ends the loop, that byte being any value. -/
theorem decodeFrom_writeFault {s t : State} {b : Byte} {n : Nat} (h : decodeSymbol s = .ok b t)
    (hroom : t.decoded.toNat < t.region.dstCap.toNat) (hf : dstFaults t t.decoded.toNat = true) :
    decodeFrom (n + 1) s = raiseIo .dstWriteFault (t.region.dstAddr t.decoded.toNat)
      (t.faultedAt (t.region.dstAddr t.decoded.toNat)) := by
  have hf : busFaults t .write (t.region.dstAddr t.decoded.toNat) = true := hf
  rw [decodeFrom, h]
  simp only [Res.bind, storeSymbol, if_neg (Nat.not_le.2 hroom), coreWrite_eq, if_pos hf, raiseIo]

/-- One decode_symbol that stops ends the loop. -/
theorem decodeFrom_stop {s t : State} {e : Raise} {n : Nat} (h : decodeSymbol s = .raise e t) :
    decodeFrom (n + 1) s = .raise e t := by rw [decodeFrom, h]; rfl

/-- With DST full the loop ends on the next symbol. -/
theorem decodeFrom_full {s t : State} {b : Byte} {n : Nat} (h : decodeSymbol s = .ok b t)
    (hfull : t.region.dstCap.toNat ≤ t.decoded.toNat) :
    decodeFrom (n + 1) s = raiseIo .dstFull (t.region.dstAddr t.decoded.toNat) t := by
  rw [decodeFrom, h]
  simp only [Res.bind, storeSymbol, if_pos hfull, raiseIo]

/-- A strict leading part of a message's code bits ends inside one code. -/
theorem codeBits_split (codes : Vector Bits 256) : ∀ (msg : List Byte) (p : Bits), p <+: codeBits codes msg → p.length < (codeBits codes msg).length →
    ∃ m b r, m ++ [b] <+: msg ∧ p = codeBits codes m ++ r ∧ r <+: codeOf codes b ∧ codeOf codes b ≠ r := by
  intro msg
  induction msg with
  | nil => intro p _ h; simp [codeBits] at h
  | cons b msg ih =>
    intro p hp hl
    have hcb : codeBits codes (b :: msg) = codeOf codes b ++ codeBits codes msg := by simp [codeBits]
    rw [hcb] at hp hl
    by_cases hlt : p.length < (codeOf codes b).length
    · refine ⟨[], b, p, by simp, by simp [codeBits], ?_, fun he => by rw [he] at hlt; omega⟩
      exact List.prefix_of_prefix_length_le hp (List.prefix_append _ _) (by omega)
    · have hpre : codeOf codes b <+: p := List.prefix_of_prefix_length_le (List.prefix_append _ _) hp (by omega)
      obtain ⟨q, rfl⟩ := hpre
      rw [List.prefix_append_right_inj] at hp
      obtain ⟨m, c, r, h1, h2, h3, h4⟩ := ih q hp (by simpa using hl)
      refine ⟨b :: m, c, r, by simpa using h1, ?_, h3, h4⟩
      rw [h2]; simp [codeBits]

end Sys2Proof.Machine
end

