-- ==== Sys2Proof/Laws/Commands.lean ====
section
/-! SUPPORT. Every command is `finish` of one piece, and what that piece leaves alone (spec/10_state.md R28, R29,
R31 to R38). -/

namespace Sys2Proof.Machine

/-- What a command runs before its completion: the piece its meaning hands to `finish`. -/
def commandBody (i : Instr) (s : State) : Res Unit :=
  match i with
  | .nop => .ok () s
  | .ftClear => .ok () { s with ft := FreqTable.clear }
  | .ftCount b => if s.ft.full b then raiseCode .countOverflow s else .ok () { s with ft := s.ft.bump b }
  | .ftScan => if s.region.validSrc then scanBody s else raiseCode .badRegion s
  | .pqClear => .ok () { s with pq := [] }
  | .pqInsert n =>
    if s.tree.nodeCount.toNat ≤ n.toNat then raiseCode .badArgument s
    else if Config.pqCap ≤ s.pq.length then raiseCode .queueFull s
    else
      match s.tree.node n with
      | some node => .ok () { s with pq := pqInsert { weight := node.weight, index := n } s.pq }
      | none => raiseCode .badArgument s
  | .pqExtract =>
    match pqExtract s.pq with
    | some (e, rest) => .ok () { s with pq := rest, result := e.index.setWidth 32 }
    | none => raiseCode .queueEmpty s
  | .treeBuild => treeBody s
  | .codeGen => codeGenBody s
  | .bwReset => .ok () { s with bw := Writer.empty }
  | .bwPut b => if s.region.validDst then putBit b s else raiseCode .badRegion s
  | .bwPutCode sym =>
    if s.region.validDst then
      if (codeOf s.codes sym).isEmpty then raiseCode .noCode s else putBits (codeOf s.codes sym) s
    else raiseCode .badRegion s
  | .bwFlush => if s.region.validDst then flushBody s else raiseCode .badRegion s
  | .brReset => .ok () { s with br := Reader.emptyAt 0 }
  | .brGet =>
    if s.region.validSrc then
      (getBit s).bind fun bit s1 =>
        match bit with
        | none => raiseCode .endOfData s1
        | some b => .ok () { s1 with result := bitWord b }
    else raiseCode .badRegion s
  | .compress => (compressSetup s).bind fun _ s1 => compressWrite s1
  | .decompress => (decompressSetup s).bind fun _ s1 => decompressDecode s1

theorem exec_eq_finish (i : Instr) (s : State) : exec i s = finish (commandBody i s) := by cases i <;> rfl

/-- `t` is `s` but for these parts and the count of free values; STATUS, INT, ERR_ADDR and the latched word are as they
were. -/
structure BodyKept (ps : List Part) (s t : State) : Prop where
  host : HostSideKept s t
  parts : ∀ p, p ∉ ps → keeps p s t
  status : t.status = s.status
  int : t.int = s.int
  errAddr : t.errAddr = s.errAddr
  cmdWord : t.cmdWord = s.cmdWord

theorem BodyKept.kept {ps : List Part} {s t : State} (h : BodyKept ps s t) : KeptExcept ps s t := ⟨h.host, h.parts⟩

theorem BodyKept.refl (ps : List Part) (s : State) : BodyKept ps s s :=
  ⟨HostSideKept.refl s, fun p _ => keeps_refl p s, rfl, rfl, rfl, rfl⟩

theorem BodyKept.trans {ps : List Part} {s t u : State} (h1 : BodyKept ps s t) (h2 : BodyKept ps t u) :
    BodyKept ps s u :=
  ⟨h1.host.trans h2.host, fun p hp => keeps_trans (h1.parts p hp) (h2.parts p hp), h2.status.trans h1.status,
    h2.int.trans h1.int, h2.errAddr.trans h1.errAddr, h2.cmdWord.trans h1.cmdWord⟩

theorem BodyKept.mono {ps qs : List Part} {s t : State} (h : BodyKept ps s t) (hs : ∀ p ∈ ps, p ∈ qs) :
    BodyKept qs s t :=
  ⟨h.host, fun p hp => h.parts p fun hps => hp (hs p hps), h.status, h.int, h.errAddr, h.cmdWord⟩

/-- A state updated in fields of the listed parts only. -/
theorem BodyKept.of_fields {s : State} {ps : List Part} (ft : FreqTable) (tree : Tree) (pq : List Entry)
    (codes : Vector Bits 256) (bw : Writer) (br : Reader) (result outLen decoded : Word) (mem : List Host.Cell)
    (draws : Nat) (h1 : .ft ∈ ps ∨ ft = s.ft) (h2 : .tree ∈ ps ∨ tree = s.tree) (h3 : .pq ∈ ps ∨ pq = s.pq)
    (h4 : .codes ∈ ps ∨ codes = s.codes) (h5 : .bw ∈ ps ∨ bw = s.bw) (h6 : .br ∈ ps ∨ br = s.br)
    (h7 : .result ∈ ps ∨ result = s.result) (h8 : .outLen ∈ ps ∨ outLen = s.outLen)
    (h9 : .decoded ∈ ps ∨ decoded = s.decoded) (h10 : .mem ∈ ps ∨ mem = s.mem) :
    BodyKept ps s { s with
      ft := ft, tree := tree, pq := pq, codes := codes, bw := bw, br := br, result := result, outLen := outLen,
      decoded := decoded, mem := mem, draws := draws } where
  host := HostSideKept.refl s
  parts := fun p hp => by
    cases p with
    | ft => exact h1.resolve_left hp
    | tree => exact h2.resolve_left hp
    | pq => exact h3.resolve_left hp
    | codes => exact h4.resolve_left hp
    | bw => exact h5.resolve_left hp
    | br => exact h6.resolve_left hp
    | result => exact h7.resolve_left hp
    | outLen => exact h8.resolve_left hp
    | decoded => exact h9.resolve_left hp
    | mem => intro a; rw [← h10.resolve_left hp]
    | errAddr => rfl
  status := rfl
  int := rfl
  errAddr := rfl
  cmdWord := rfl

/-- The parts a command's piece may write. -/
def bodyParts : Instr → List Part
  | .nop => []
  | .ftClear | .ftCount _ | .ftScan => [.ft]
  | .pqClear | .pqInsert _ => [.pq]
  | .pqExtract => [.pq, .result]
  | .treeBuild => [.pq, .tree]
  | .codeGen => [.codes]
  | .bwReset => [.bw]
  | .bwPut _ | .bwPutCode _ | .bwFlush => [.bw, .mem]
  | .brReset => [.br]
  | .brGet => [.br, .result]
  | .compress => [.outLen, .ft, .tree, .pq, .codes, .bw, .mem]
  | .decompress => [.outLen, .decoded, .ft, .tree, .pq, .codes, .br, .mem]

theorem WriterOnly.bodyKept {s t : State} (h : WriterOnly s t) : BodyKept [.bw, .mem] s t := by
  unfold WriterOnly at h
  generalize t.bw = bw, t.mem = mem, t.draws = draws at h
  subst h
  exact BodyKept.of_fields _ _ _ _ _ _ _ _ _ _ _ (.inr rfl) (.inr rfl) (.inr rfl) (.inr rfl) (.inl (by simp))
    (.inr rfl) (.inr rfl) (.inr rfl) (.inr rfl) (.inl (by simp))

theorem ReaderOnly.bodyKept {s t : State} (h : ReaderOnly s t) : BodyKept [.br] s t := by
  unfold ReaderOnly at h
  generalize t.br = br at h
  subst h
  exact BodyKept.of_fields _ _ _ _ _ _ _ _ _ _ _ (.inr rfl) (.inr rfl) (.inr rfl) (.inr rfl) (.inr rfl)
    (.inl (by simp)) (.inr rfl) (.inr rfl) (.inr rfl) (.inr rfl)

theorem CompressOnly.bodyKept {s t : State} (h : CompressOnly s t) : BodyKept (bodyParts .compress) s t := by
  unfold CompressOnly at h
  generalize t.outLen = a, t.ft = b, t.pq = c, t.tree = d, t.codes = e, t.bw = f, t.mem = g, t.draws = k at h
  subst h
  exact BodyKept.of_fields _ _ _ _ _ _ _ _ _ _ _ (.inl (by simp [bodyParts])) (.inl (by simp [bodyParts]))
    (.inl (by simp [bodyParts])) (.inl (by simp [bodyParts])) (.inl (by simp [bodyParts])) (.inr rfl) (.inr rfl)
    (.inl (by simp [bodyParts])) (.inr rfl) (.inl (by simp [bodyParts]))

theorem DecompressSetupOnly.bodyKept {s t : State} (h : DecompressSetupOnly s t) :
    BodyKept (bodyParts .decompress) s t := by
  unfold DecompressSetupOnly at h
  generalize t.ft = b, t.pq = c, t.tree = d, t.codes = e at h
  subst h
  exact BodyKept.of_fields _ _ _ _ _ _ _ _ _ _ _ (.inl (by simp [bodyParts])) (.inl (by simp [bodyParts]))
    (.inl (by simp [bodyParts])) (.inl (by simp [bodyParts])) (.inr rfl) (.inr rfl) (.inr rfl)
    (.inl (by simp [bodyParts])) (.inl (by simp [bodyParts])) (.inr rfl)

/-- Every command's piece writes its own parts only, however it ends. -/
theorem commandBody_ends (i : Instr) (s : State) : (commandBody i s).Ends (BodyKept (bodyParts i) s) := by
  have ft : ∀ x : FreqTable, BodyKept [.ft] s { s with ft := x } := fun x =>
    BodyKept.of_fields _ _ _ _ _ _ _ _ _ _ _ (.inl (by simp)) (.inr rfl) (.inr rfl) (.inr rfl) (.inr rfl)
      (.inr rfl) (.inr rfl) (.inr rfl) (.inr rfl) (.inr rfl)
  have pq : ∀ x : List Entry, BodyKept [.pq] s { s with pq := x } := fun x =>
    BodyKept.of_fields _ _ _ _ _ _ _ _ _ _ _ (.inr rfl) (.inr rfl) (.inl (by simp)) (.inr rfl) (.inr rfl)
      (.inr rfl) (.inr rfl) (.inr rfl) (.inr rfl) (.inr rfl)
  cases i with
  | nop => exact BodyKept.refl _ s
  | ftClear => exact ft _
  | ftCount b =>
    simp only [commandBody]
    split
    · exact BodyKept.refl _ s
    · exact ft _
  | ftScan =>
    simp only [commandBody]
    split
    · exact Res.ends_mono (scanBody_ends s) fun t h => by rw [h]; exact ft _
    · exact BodyKept.refl _ s
  | pqClear => exact pq _
  | pqInsert n =>
    simp only [commandBody]
    split
    · exact BodyKept.refl _ s
    · split
      · exact BodyKept.refl _ s
      · split
        · exact pq _
        · exact BodyKept.refl _ s
  | pqExtract =>
    simp only [commandBody]
    split
    · exact BodyKept.of_fields _ _ _ _ _ _ _ _ _ _ _ (.inr rfl) (.inr rfl) (.inl (by simp [bodyParts])) (.inr rfl)
        (.inr rfl) (.inr rfl) (.inl (by simp [bodyParts])) (.inr rfl) (.inr rfl) (.inr rfl)
    · exact BodyKept.refl _ s
  | treeBuild =>
    exact Res.ends_mono (treeBody_ends s) fun t h => by
      rw [h]
      exact BodyKept.of_fields _ _ _ _ _ _ _ _ _ _ _ (.inr rfl) (.inl (by simp [bodyParts]))
        (.inl (by simp [bodyParts])) (.inr rfl) (.inr rfl) (.inr rfl) (.inr rfl) (.inr rfl) (.inr rfl) (.inr rfl)
  | codeGen =>
    exact Res.ends_mono (codeGenBody_ends s) fun t h => by
      rw [h]
      exact BodyKept.of_fields _ _ _ _ _ _ _ _ _ _ _ (.inr rfl) (.inr rfl) (.inr rfl) (.inl (by simp [bodyParts]))
        (.inr rfl) (.inr rfl) (.inr rfl) (.inr rfl) (.inr rfl) (.inr rfl)
  | bwReset =>
    exact BodyKept.of_fields _ _ _ _ _ _ _ _ _ _ _ (.inr rfl) (.inr rfl) (.inr rfl) (.inr rfl)
      (.inl (by simp [bodyParts])) (.inr rfl) (.inr rfl) (.inr rfl) (.inr rfl) (.inr rfl)
  | bwPut b =>
    simp only [commandBody]
    split
    · exact Res.ends_mono (putBit_ends b s) fun t h => h.bodyKept
    · exact BodyKept.refl _ s
  | bwPutCode sym =>
    simp only [commandBody]
    split
    · split
      · exact BodyKept.refl _ s
      · exact Res.ends_mono (putBits_ends _ s) fun t h => h.bodyKept
    · exact BodyKept.refl _ s
  | bwFlush =>
    simp only [commandBody]
    split
    · exact Res.ends_mono (flushBody_ends s) fun t h => h.bodyKept
    · exact BodyKept.refl _ s
  | brReset =>
    exact BodyKept.of_fields _ _ _ _ _ _ _ _ _ _ _ (.inr rfl) (.inr rfl) (.inr rfl) (.inr rfl) (.inr rfl)
      (.inl (by simp [bodyParts])) (.inr rfl) (.inr rfl) (.inr rfl) (.inr rfl)
  | brGet =>
    simp only [commandBody]
    split
    · refine Res.ends_bind (P := BodyKept (bodyParts .brGet) s)
        (Res.ends_mono (getBit_ends s) fun t h => h.bodyKept.mono (by simp [bodyParts])) (fun ob t ht => ?_) fun _ h => h
      cases ob with
      | none => exact ht
      | some b =>
        exact ht.trans (BodyKept.of_fields _ _ _ _ _ _ _ _ _ _ _ (.inr rfl) (.inr rfl) (.inr rfl) (.inr rfl)
          (.inr rfl) (.inr rfl) (.inl (by simp [bodyParts])) (.inr rfl) (.inr rfl) (.inr rfl))
    · exact BodyKept.refl _ s
  | compress => exact Res.ends_mono (compress_ends s) fun t h => CompressOnly.bodyKept h
  | decompress =>
    refine Res.ends_bind (P := BodyKept (bodyParts .decompress) s)
      (Res.ends_mono (decompressSetup_ends s) fun t h => DecompressSetupOnly.bodyKept h)
      (fun _ t ht => Res.ends_mono (decompressDecode_ends t) fun u h => ht.trans ?_) fun _ h => h
    rw [h]
    exact BodyKept.of_fields _ _ _ _ _ _ _ _ _ _ _ (.inr rfl) (.inr rfl) (.inr rfl) (.inr rfl) (.inr rfl)
      (.inl (by simp [bodyParts])) (.inr rfl) (.inl (by simp [bodyParts])) (.inl (by simp [bodyParts]))
      (.inl (by simp [bodyParts]))

end Sys2Proof.Machine
end

