-- ==== Sys2Proof/Laws/Setup.lean ====
section
/-! SUPPORT. The parts of COMPRESS and DECOMPRESS before and around their streams (spec/46_orchestrator.md R220,
R227 to R229): table, tree and codes from a byte string or a header, and the container written whole. -/

namespace Sys2Proof.Machine

/-! ## Tree and codes of a table -/

theorem leavesOf_eq_nil_iff {t : FreqTable} : leavesOf t = [] ↔ ∀ b, t.at b = 0 := by
  constructor
  · intro h b
    by_contra hne
    have : leafNode (t.at b) b.toNat ∈ leavesOf t := mem_leavesOf.2 (by simp [leafNode]; exact hne)
    rw [h] at this
    cases this
  · intro h
    by_contra hne
    obtain ⟨n, hn⟩ := List.exists_mem_of_ne_nil _ hne
    exact (mem_leavesOf.1 hn).1 (h _)

/-- TREE_BUILD of a table that has counts, or whose total is 0, and the codes of its tree. -/
theorem treeBody_codes {s : State} (h : leavesOf s.ft ≠ [] ∨ s.ft.total = 0) :
    ∃ tree codes, treeBody s = .ok () { s with pq := [], tree := tree } ∧ TreeInv tree ∧
      codesOf tree = some codes ∧ CodesOf tree codes ∧ (∀ b, codeOf codes b ≠ [] ↔ s.ft.at b ≠ 0) ∧
      (leavesOf s.ft ≠ [] → BuiltTree (leavesOf s.ft) tree) := by
  by_cases hl : leavesOf s.ft = []
  · have hi := treeInv_cleared s.tree
    obtain ⟨codes, hc, hs⟩ := codesOf_spec hi
    refine ⟨s.tree.cleared, codes, ?_, hi, hc, hs, fun b => ?_, fun hne => absurd hl hne⟩
    · rw [treeBody_empty hl, if_pos (h.resolve_left fun hne => hne hl)]
    · rw [hs.none rfl, leavesOf_eq_nil_iff.1 hl b]
      simp
  · obtain ⟨tree, hb, hbt⟩ := treeBody_built hl
    have hk := leavesOf_length_le s.ft
    have hi := hbt.inv hl hk
    have hk1 : 1 ≤ (leavesOf s.ft).length := List.length_pos_iff.2 hl
    obtain ⟨codes, hc, hs⟩ := codesOf_spec hi
    refine ⟨tree, codes, hb, hi, hc, hs, fun b => ⟨fun hne => ?_, fun hne => ?_⟩, fun _ => hbt⟩
    · obtain ⟨i, n, hi', hn, hsym⟩ := hs.leaf hbt.valid hk1 hk hbt.shape hne
      have := hbt.leaf i _ (List.getElem?_eq_getElem hi')
      rw [hn] at this
      cases this
      have := mem_leavesOf.1 (List.getElem_mem hi')
      rw [← hsym]
      exact this.1
    · have : leafNode (s.ft.at b) b.toNat ∈ leavesOf s.ft := mem_leavesOf.2 (by simp [leafNode]; exact hne)
      obtain ⟨i, hi', he⟩ := List.getElem_of_mem this
      have := hs.ne_nil hbt.valid hk1 hk hbt.shape hi' (hbt.leaf i _ (List.getElem?_eq_getElem hi'))
      rw [he] at this
      simpa [leafNode] using this

/-- What TREE_BUILD's body leaves is the tree of the table. -/
theorem treeOf_of_body {s : State} {tree : Tree} (hA : Accepted s)
    (h : treeBody s = .ok () { s with pq := [], tree := tree }) : TreeOf s.ft tree := by
  refine ⟨s, State.complete { s with pq := [], tree := tree }, hA, rfl, ?_, rfl, rfl, rfl, fun _ _ => rfl⟩
  show finish (treeBody s) = _
  rw [h]
  rfl

/-- TREE_BUILDs of equal tables leave the same tree (R143). -/
theorem treeBody_same {s1 s2 t1 t2 : State} (hft : s1.ft = s2.ft) (h1 : treeBody s1 = .ok () t1)
    (h2 : treeBody s2 = .ok () t2) : SameTree t1.tree t2.tree := by
  by_cases h : leavesOf s1.ft = []
  · rw [treeBody_empty h] at h1
    rw [treeBody_empty (hft ▸ h), ← hft] at h2
    split at h1
    · rename_i h0
      rw [if_pos h0] at h2
      cases h1
      cases h2
      exact ⟨rfl, rfl, rfl, fun i hi => absurd hi (Nat.not_lt_zero i)⟩
    · cases h1
  · have hS : ((leavesOf s1.ft).map fun n => n.weight.toNat).sum < 2 ^ 40 := by
      rw [leavesOf_sum]; exact s1.ft.sum_lt
    obtain ⟨-, -, e1, hp1, -⟩ := buildFrom_growing s1.tree.nodes h (leavesOf_length_le s1.ft) hS
    have hsame := buildFrom_same (leavesOf s1.ft) s1.tree.nodes s2.tree.nodes
    have hx : ∀ e, pqExtract [e] = some (e, []) := fun e => by simp [pqExtract, pqLeast]
    unfold treeBody at h1 h2
    rw [← hft] at h2
    simp only [List.isEmpty_iff, if_neg h, ← hsame.pq, hp1, hx] at h1 h2
    cases h1
    cases h2
    refine ⟨rfl, rfl, ?_, fun i hi => hsame.nodes i ?_⟩
    · show BitVec.ofNat 10 _ = BitVec.ofNat 10 _
      rw [hsame.next]
    · have hi : i < (BitVec.ofNat 10 (buildFrom (leavesOf s1.ft) s1.tree.nodes).next).toNat := hi
      simp at hi
      omega

theorem SameTree.symm {t u : Tree} (h : SameTree t u) : SameTree u t :=
  ⟨h.valid.symm, h.root.symm, h.nodeCount.symm, fun i hi => (h.nodes i (h.nodeCount ▸ hi)).symm⟩

theorem SameTree.followIx {t u : Tree} {k : Nat} (h : SameTree t u) (hs : TreeShape t k) {n : NodeIx} (p : Bits)
    (hn : n.toNat < 2 * k - 1) : Machine.followIx u n p = Machine.followIx t n p := by
  induction p generalizing n with
  | nil => rfl
  | cons b p ih =>
    have hnode : u.node n = t.node n := (h.nodes _ (by rw [hs.count]; exact hn)).symm
    rw [Machine.followIx, Machine.followIx, hnode]
    rcases hs.node hn with ⟨-, m, h1, h2⟩ | ⟨-, m, h1, h2, h3, h4⟩
    · simp [h1, h2]
    · simp only [h1, h2]
      exact ih (by cases b <;> simp <;> omega)

theorem SameTree.pathTo {t u : Tree} {k : Nat} (h : SameTree t u) (hs : TreeShape t k) {n : NodeIx} {p : Bits}
    {b : Byte} (hn : n.toNat < 2 * k - 1) (hp : PathTo t n p b) : PathTo u n p b := by
  obtain ⟨d, m, h1, h2, h3⟩ := hp
  have hd := (hs.follow_le hn h1).1
  have hnode : u.node d = t.node d := (h.nodes _ (by rw [hs.count]; omega)).symm
  exact ⟨d, m, by rw [h.followIx hs p hn, h1], by rw [hnode, h2], h3⟩

/-- The same tree has one code table. -/
theorem SameTree.codes {t u : Tree} {c d : Vector Bits 256} (h : SameTree t u) (ht : TreeInv t) (hu : TreeInv u)
    (hc : CodesOf t c) (hd : CodesOf u d) : c = d := by
  have ext : (∀ b, codeOf c b = codeOf d b) → c = d := by
    intro he
    ext i hi : 1
    have hm : (BitVec.ofNat 8 i).toNat = i := by simp; omega
    have := he (BitVec.ofNat 8 i)
    simpa [codeOf, hm] using this
  rcases ht with ⟨hv, -, -⟩ | ⟨hv, k, hk1, hk, hs⟩
  · rw [hc.none hv, hd.none (h.valid ▸ hv)]
  · have hvu : u.valid = true := h.valid ▸ hv
    rcases hu with ⟨hf, -, -⟩ | ⟨-, k', hk1', hk', hs'⟩
    · rw [hvu] at hf; cases hf
    have hroot : t.root.toNat < 2 * k - 1 := by rw [hs.root]; omega
    have hrootu : u.root.toNat < 2 * k' - 1 := by rw [hs'.root]; omega
    have hnode : u.node u.root = t.node t.root := by
      rw [← h.root]
      exact (h.nodes _ (by rw [hs.count]; exact hroot)).symm
    apply ext
    intro b
    rcases hs.node hroot with ⟨-, r, h1, h2⟩ | ⟨-, r, h1, h2, -⟩
    · rw [hc.single hv r h1 h2, hd.single hvu r (hnode.trans h1) h2]
    · obtain ⟨a1, a2⟩ := hc.paths hv r h1 h2 b
      obtain ⟨b1, b2⟩ := hd.paths hvu r (hnode.trans h1) h2 b
      by_cases hex : ∃ p, PathTo t t.root p b
      · obtain ⟨p, hp⟩ := hex
        have hpu := h.pathTo hs hroot hp
        rw [h.root] at hpu
        rw [a1 p hp, b1 p hpu]
      · rw [a2 fun p hp => hex ⟨p, hp⟩, b2 fun p hp => hex ⟨p, ?_⟩]
        have := h.symm.pathTo hs' hrootu hp
        rwa [← h.root] at this

/-- Equal tables have one code table, whatever else the states hold (R143, R228). -/
theorem codes_of_table {s1 s2 t1 t2 : State} {c1 c2 : Vector Bits 256} (hft : s1.ft = s2.ft)
    (h1 : treeBody s1 = .ok () t1) (h2 : treeBody s2 = .ok () t2) (i1 : TreeInv t1.tree) (i2 : TreeInv t2.tree)
    (hc1 : CodesOf t1.tree c1) (hc2 : CodesOf t2.tree c2) : c1 = c2 :=
  (treeBody_same hft h1 h2).codes i1 i2 hc1 hc2

/-! ## COMPRESS before its stream -/

theorem tableOfMsg_leaves {l : List Byte} (h : l.length < 2 ^ 32) :
    leavesOf (tableOfMsg l) ≠ [] ∨ (tableOfMsg l).total = 0 := by
  cases l with
  | nil => exact .inr rfl
  | cons b l =>
    left
    intro he
    exact (tableOfMsg_at_ne_zero h b).2 (List.mem_cons_self ..) (leavesOf_eq_nil_iff.1 he b)

theorem compressSetup_bad {s : State} (h : s.region.codecOk = false) :
    compressSetup s = raiseCode .badRegion { s with outLen := 0 } := by simp [compressSetup, h]

/-- Steps 1 and 2 of COMPRESS over valid regions: the table, tree and codes of the SRC bytes, or a read fault. -/
theorem compressSetup_spec {s : State} (hok : s.region.codecOk = true) :
    (SrcReadable s ∧ ∃ tree codes,
      compressSetup s = .ok () { s with
        outLen := 0, ft := tableOfMsg (srcBytes s), pq := [], tree := tree, codes := codes } ∧
      treeBody { s with outLen := 0, ft := tableOfMsg (srcBytes s) } =
        .ok () { s with outLen := 0, ft := tableOfMsg (srcBytes s), pq := [], tree := tree } ∧
      TreeInv tree ∧ codesOf tree = some codes ∧ CodesOf tree codes ∧
      ∀ b, codeOf codes b ≠ [] ↔ b ∈ srcBytes s) ∨
    ∃ j, j < s.region.srcLen.toNat ∧ srcFaults s j = true ∧ (∀ k, k < j → srcFaults s k = false) ∧
      compressSetup s = raiseIo .srcReadFault (s.region.srcAddr j)
        { s with outLen := 0, ft := tableOfMsg (srcPart s j) } := by
  have hlen : (srcBytes s).length < 2 ^ 32 := by rw [srcBytes_length]; exact s.region.srcLen.isLt
  have hsb : ∀ p, srcPart { s with outLen := 0 } p = srcPart s p := fun p =>
    srcPart_congr (s := s) (t := { s with outLen := 0 }) rfl rfl p
  obtain ⟨m, hm, hno, ⟨rfl, hscan⟩ | ⟨hlt, hf, hscan⟩⟩ := scanBody_spec { s with outLen := 0 }
  · left
    refine ⟨hno, ?_⟩
    have hscan : scanBody { s with outLen := 0 } = .ok () { s with outLen := 0, ft := tableOfMsg (srcBytes s) } := by
      rw [hscan]
      show Res.ok () { s with outLen := 0, ft := tableOfMsg (srcPart { s with outLen := 0 } _) } = _
      rw [hsb]
      rfl
    obtain ⟨tree, codes, h1, h2, h3, h4, h5, -⟩ :=
      treeBody_codes (s := { s with outLen := 0, ft := tableOfMsg (srcBytes s) }) (tableOfMsg_leaves hlen)
    refine ⟨tree, codes, ?_, h1, h2, h3, h4, fun b => (h5 b).trans (tableOfMsg_at_ne_zero hlen b)⟩
    simp only [compressSetup, hok, if_true, hscan, Res.bind, h1]
    simp only [codeGenBody, h3]
  · right
    refine ⟨m, hlt, hf, hno, ?_⟩
    have hscan : scanBody { s with outLen := 0 } = raiseIo .srcReadFault (s.region.srcAddr m)
        { s with outLen := 0, ft := tableOfMsg (srcPart s m) } := by
      rw [hscan, ← hsb m]
    simp only [compressSetup, hok, if_true, hscan, Res.bind, raiseIo]

/-! ## COMPRESS's stream -/

/-- `t` is `s` with the container of its table and its SRC bytes' codes in DST. -/
structure ContainerWritten (s t : State) (codes : Vector Bits 256) : Prop where
  only : CompressWriteOnly s t
  wf : Mem.wf t.mem
  outLen : t.outLen = t.bw.pos
  pos : t.bw.pos.toNat = 1028 + bytesFor (codeBits codes (srcBytes s)).length
  nbits : t.bw.nbits = 0
  room : t.bw.pos.toNat ≤ s.region.dstCap.toNat
  header : dstPart t 1028 = headerBytes s.ft
  bits : ∀ i, i < 8 * bytesFor (codeBits codes (srcBytes s)).length →
    bitAt (fun o => dstByte t (1028 + o)) i = (codeBits codes (srcBytes s)).getD i false
  kept : MemoryKeptBut (fun a => ∃ o, o < t.bw.pos.toNat ∧ o < s.region.dstCap.toNat ∧
    a = (s.region.dstAddr o).toNat) s t
  clean : ∀ o, o < t.bw.pos.toNat → dstFaults s o = false

/-- `t` is `s` with the container of its table and its SRC bytes' codes in DST as far as BW_POS. -/
structure ContainerUpTo (s t : State) (codes : Vector Bits 256) : Prop where
  only : CompressWriteOnly s t
  wf : Mem.wf t.mem
  outLen : t.outLen = s.outLen
  room : t.bw.pos.toNat ≤ s.region.dstCap.toNat
  header : ∀ o, o < 1028 → o < t.bw.pos.toNat → dstByte t o = (headerBytes s.ft).getD o 0
  bits : ∀ i, 8 * 1028 + i < 8 * t.bw.pos.toNat →
    bitAt (dstByte t) (8 * 1028 + i) = (codeBits codes (srcBytes s)).getD i false
  kept : MemoryKeptBut (fun a => ∃ o, o < t.bw.pos.toNat ∧ o < s.region.dstCap.toNat ∧
    a = (s.region.dstAddr o).toNat) s t
  clean : ∀ o, o < t.bw.pos.toNat → dstFaults s o = false

/-- A little-endian word's bytes (R12). -/
theorem le32Bytes_getD (v : Word) {k : Nat} (hk : k < 4) :
    ((le32Bytes v).getD k 0).toNat = v.toNat / 256 ^ k % 256 := by
  have h : k = 0 ∨ k = 1 ∨ k = 2 ∨ k = 3 := by omega
  rcases h with rfl | rfl | rfl | rfl <;> simp [le32Bytes, BitVec.extractLsb'_toNat, Nat.shiftRight_eq_div_pow]

theorem flatMap_le32Bytes_getD (ws : List Word) (i : Nat) {k : Nat} (hk : k < 4) (hi : i < ws.length) :
    (ws.flatMap le32Bytes).getD (4 * i + k) 0 = (le32Bytes (ws[i])).getD k 0 := by
  induction ws generalizing i with
  | nil => exact absurd hi (Nat.not_lt_zero i)
  | cons w ws ih =>
    have hl : (le32Bytes w).length = 4 := rfl
    rw [List.flatMap_cons]
    cases i with
    | zero => simp [List.getD_eq_getElem?_getD, List.getElem?_append, hl, hk]
    | succ i =>
      have := ih i (by simpa using hi)
      rw [List.getD_eq_getElem?_getD] at this ⊢
      rw [List.getElem?_append_right (by rw [hl]; omega), hl, show 4 * (i + 1) + k - 4 = 4 * i + k by omega, this]
      rfl

/-- The header's bytes (R220). -/
theorem headerBytes_total (t : FreqTable) {k : Nat} (hk : k < 4) :
    ((headerBytes t).getD k 0).toNat = t.total.toNat / 256 ^ k % 256 := by
  rw [← le32Bytes_getD _ hk, headerBytes, List.getD_eq_getElem?_getD, List.getElem?_append_left hk,
    List.getD_eq_getElem?_getD]

theorem headerBytes_count (t : FreqTable) (b : Byte) {k : Nat} (hk : k < 4) :
    ((headerBytes t).getD (4 + 4 * b.toNat + k) 0).toNat = (t.at b).toNat / 256 ^ k % 256 := by
  have hb : b.toNat < t.count.toList.length := by simpa using b.isLt
  have hl : (le32Bytes t.total).length = 4 := rfl
  have := flatMap_le32Bytes_getD t.count.toList b.toNat hk hb
  have hget : t.count.toList[b.toNat] = t.at b := by simp [FreqTable.at]
  rw [hget] at this
  rw [← le32Bytes_getD _ hk, ← this, headerBytes, List.getD_eq_getElem?_getD, List.getElem?_append_right (by rw [hl]; omega),
    hl, show 4 + 4 * b.toNat + k - 4 = 4 * b.toNat + k by omega, List.getD_eq_getElem?_getD]

/-- The bytes of the header and of the stream, put together. -/
theorem containerPrefix_of {t : State} {bits : Bits} {n : Nat}
    (h1 : ∀ o, o < 1028 → o < n → dstByte t o = (headerBytes t.ft).getD o 0)
    (h2 : ∀ i, 8 * 1028 + i < 8 * n → bitAt (dstByte t) (8 * 1028 + i) = bits.getD i false) :
    ContainerPrefix t bits n where
  total := fun k hk hn => by rw [h1 k (by omega) hn, headerBytes_total _ hk]
  counts := fun b k hk hn => by rw [h1 _ (by have := b.isLt; omega) hn, headerBytes_count _ _ hk]
  stream := fun i hi => by rw [← h2 i (by omega)]; exact bitAt_add (dstByte t) 1028 i

theorem ContainerPrefix.congr {t u : State} {bits : Bits} {n : Nat} (h : ContainerPrefix t bits n) (hft : u.ft = t.ft)
    (hb : ∀ o, o < n → dstByte u o = dstByte t o) : ContainerPrefix u bits n where
  total := fun k hk hn => by rw [hb k hn, hft]; exact h.total k hk hn
  counts := fun b k hk hn => by rw [hb _ hn, hft]; exact h.counts b k hk hn
  stream := fun i hi => by rw [bitAt_congr (g := fun o => dstByte t (1028 + o)) (hb _ hi)]; exact h.stream i hi

theorem ContainerPrefix.mono {t : State} {bits : Bits} {m n : Nat} (h : ContainerPrefix t bits n) (hmn : m ≤ n) :
    ContainerPrefix t bits m where
  total := fun k hk hn => h.total k hk (by omega)
  counts := fun b k hk hn => h.counts b k hk (by omega)
  stream := fun i hi => h.stream i (by omega)

theorem ContainerUpTo.containerPrefix {s t : State} {codes : Vector Bits 256} (h : ContainerUpTo s t codes) :
    ContainerPrefix t (codeBits codes (srcBytes s)) t.bw.pos.toNat := by
  have hft : t.ft = s.ft := by
    have := h.only
    unfold CompressWriteOnly at this
    rw [this]
  exact containerPrefix_of (by rw [hft]; exact h.header) h.bits

theorem ContainerWritten.containerPrefix {s t : State} {codes : Vector Bits 256} (h : ContainerWritten s t codes) :
    ContainerPrefix t (codeBits codes (srcBytes s)) t.bw.pos.toNat := by
  have hft : t.ft = s.ft := by
    have := h.only
    unfold CompressWriteOnly at this
    rw [this]
  have hp := h.pos
  refine containerPrefix_of (fun o ho _ => ?_) fun i hi => ?_
  · rw [hft, ← h.header]
    simp [dstPart, ho]
  · rw [← h.bits i (by omega)]
    exact (bitAt_add (dstByte t) 1028 i).symm

theorem WriterOnly.compress {s t : State} (h : WriterOnly { s with bw := Writer.empty } t) :
    CompressWriteOnly s t := by
  unfold WriterOnly at h
  unfold CompressWriteOnly
  rw [h]

theorem BytesWritten.srcByte {s t : State} {vs : List Byte} (h : BytesWritten s t vs) (hok : s.region.codecOk = true)
    {j : Nat} (hj : j < s.region.srcLen.toNat) : srcByte t j = srcByte s j := by
  refine srcByte_of_kept hok h.only.region (h.kept.mono ?_) hj
  rintro a ⟨o, -, -, h3, h4⟩
  exact ⟨o, h3, h4⟩

/-- Steps 3 to 5 of COMPRESS: the container whole, or a stop on a byte of it. -/
theorem compressWrite_spec {s : State} (hok : s.region.codecOk = true) (hr : SrcReadable s) (hw : Mem.wf s.mem)
    (hc : ∀ b ∈ srcBytes s, codeOf s.codes b ≠ []) :
    (∃ t, compressWrite s = .ok () t ∧ ContainerWritten s t s.codes) ∨
      ∃ t, WriteStops (compressWrite s) t ∧ ContainerUpTo s t s.codes ∧
        t.bw.pos.toNat < 1028 + bytesFor (codeBits s.codes (srcBytes s)).length := by
  obtain ⟨n, u, hn, hb, hcase⟩ := emitAll_spec (headerBytes s.ft) (s := { s with bw := Writer.empty }) hw
  have hpos : u.bw.pos.toNat = n := by
    have := hb.pos
    rw [List.length_take] at this
    have h0 : (Writer.empty.pos).toNat = 0 := rfl
    simp only [h0] at this
    omega
  rw [headerBytes_length] at hn hcase
  have hucap : u.bw.pos.toNat ≤ s.region.dstCap.toNat := by
    rcases hb.room with h | h
    · have := congrArg List.length h
      rw [List.length_take, headerBytes_length, List.length_nil] at this
      omega
    · exact h
  have hkept : MemoryKeptBut (fun a => ∃ o, o < u.bw.pos.toNat ∧ o < s.region.dstCap.toNat ∧
      a = (s.region.dstAddr o).toNat) s u := by
    refine MemoryKeptBut.mono (s := s) hb.kept ?_
    rintro a ⟨o, -, h2, h3, h4⟩
    exact ⟨o, h2, h3, h4⟩
  have hclean : ∀ o, o < u.bw.pos.toNat → dstFaults s o = false := fun o ho => hb.clean o (Nat.zero_le _) ho
  have hbytes : ∀ o, o < u.bw.pos.toNat → dstByte u o = (headerBytes s.ft).getD o 0 := fun o ho => by
    have hlt : o < n := by omega
    have := hb.bytes o (by rw [List.length_take, headerBytes_length]; omega)
    have h0 : (Writer.empty.pos).toNat = 0 := rfl
    simp only [h0, Nat.zero_add] at this
    rw [this]
    simp [List.getD_eq_getElem?_getD, hlt]
  unfold compressWrite
  rcases hcase with ⟨rfl, hemit⟩ | ⟨hlt, hstop⟩
  · have hro : u.region = s.region := hb.only.region
    have hcodes : u.codes = s.codes := hb.only.codes
    have hnb : u.bw.nbits = 0 := hb.nbits
    have hsl : srcSlice u 0 s.region.srcLen.toNat = srcBytes s := by
      rw [srcSlice_zero]
      exact List.map_congr_left fun j hj => hb.srcByte hok (List.mem_range.1 hj)
    have henc : encodeFrom u.region.srcLen.toNat 0 u = putBits (codeBits s.codes (srcBytes s)) u := by
      rw [hro, encodeFrom_eq _ _ (by rw [hro]; exact hok)
        (fun k hk => by rw [hb.only.srcFaults]; exact hr k (hro ▸ hk)) hb.wf
        (by rw [WriterInv, hb.pending, hnb]; exact ⟨by decide, Nat.one_pos⟩) (by rw [hro]; omega)
        (by rw [hsl, hcodes]; exact hc), hsl, hcodes]
    rw [hemit]
    show (∃ t, (encodeFrom _ 0 u).bind _ = _ ∧ _) ∨ ∃ t, WriteStops ((encodeFrom _ 0 u).bind _) t ∧ _
    rw [henc, ← Res.bind_assoc]
    rcases putBits_flush_spec (codeBits s.codes (srcBytes s)) hb.wf hb.pending hnb with
      ⟨v, hv, hst⟩ | ⟨v, hv, ho, hwf, hlt, hroom, hge, hkv, hcl, hbits⟩
    · left
      rw [hv]
      have hpv := hst.pos
      have hvlt := v.bw.pos.isLt
      have hkv := hst.kept
      rw [hro] at hkv
      have hold : ∀ p, p < 1028 → dstByte v p = dstByte u p := fun p hp =>
        MemoryKeptBut.dst hst.only.region hst.kept (by omega) (.inl (by omega))
      have hcw : CompressWriteOnly s v := WriterOnly.compress (hb.only.trans hst.only)
      refine ⟨{ v with outLen := v.bw.pos }, rfl, ?_, hst.wf, rfl, by show v.bw.pos.toNat = _; omega, hst.nbits, ?_, ?_,
        fun i hi => ?_, ?_, fun o ho => ?_⟩
      · unfold CompressWriteOnly at hcw ⊢
        rw [hcw]
      · show v.bw.pos.toNat ≤ _
        rcases hst.room with h | h
        · rw [h] at hpv
          simp [bytesFor] at hpv
          omega
        · rw [← hro]; exact h
      · apply List.ext_getElem (by simp)
        intro p h1 h2
        have hp : p < 1028 := by simpa using h1
        simp only [dstPart, List.getElem_map, List.getElem_range]
        show dstByte v p = _
        rw [hold p hp, hbytes p (by omega), List.getD_eq_getElem?_getD, List.getElem?_eq_getElem h2]
        rfl
      · have := hst.bits i hi
        rw [hpos] at this
        rw [← this]
        exact bitAt_add (dstByte v) 1028 i
      · show MemoryKeptBut _ s v
        refine (hkept.mono ?_).trans (hkv.mono ?_)
        · rintro a ⟨o, h2, h3, h4⟩
          exact ⟨o, by show o < v.bw.pos.toNat; omega, h3, h4⟩
        · rintro a ⟨o, -, h2, h3, h4⟩
          exact ⟨o, h2, h3, h4⟩
      · have ho : o < v.bw.pos.toNat := ho
        by_cases hlt : o < u.bw.pos.toNat
        · exact hclean o hlt
        · exact (hb.only.dstFaults o).symm.trans (hst.clean o (by omega) ho)
    · right
      rw [hro] at hkv hroom
      have hcw : CompressWriteOnly s v := WriterOnly.compress (hb.only.trans ho)
      have hcap : v.bw.pos.toNat ≤ s.region.dstCap.toNat := by
        rcases hroom with h | h
        · rw [h]; exact hucap
        · exact h
      have hvlt := v.bw.pos.isLt
      refine ⟨v, hv.bind _, ⟨hcw, hwf, (congrArg State.outLen (hb.only.trans ho) : _), hcap, fun o ho1 ho2 => ?_,
        fun i hi => ?_, (hkept.mono ?_).trans (hkv.mono ?_), fun o ho2 => ?_⟩, by omega⟩
      · rw [MemoryKeptBut.dst (by rw [ho.region]) (hro.symm ▸ hkv) (by omega) (.inl (by omega)), hbytes o (by omega)]
      · rw [hpos] at hbits
        exact hbits i hi
      · rintro a ⟨o, h2, h3, h4⟩
        exact ⟨o, by omega, h3, h4⟩
      · rintro a ⟨o, -, h2, h3, h4⟩
        exact ⟨o, h2, h3, h4⟩
      · by_cases hlt : o < u.bw.pos.toNat
        · exact hclean o hlt
        · exact (hb.only.dstFaults o).symm.trans (hcl o (by omega) ho2)
  · right
    exact ⟨u, hstop.bind _, ⟨WriterOnly.compress hb.only, hb.wf, (congrArg State.outLen hb.only : _), hucap,
      fun o _ ho2 => hbytes o ho2, fun i hi => by omega, hkept, hclean⟩, by omega⟩

/-! ## DECOMPRESS before its stream -/

theorem decompressSetup_bad {s : State} (h : s.region.codecOk = false) :
    decompressSetup s = raiseCode .badRegion { s with outLen := 0, decoded := 0 } := by simp [decompressSetup, h]

theorem decompressSetup_short {s : State} (h : s.region.codecOk = true) (hs : s.region.srcLen.toNat < 1028) :
    decompressSetup s = raiseCorrupt .headerShort { s with outLen := 0, decoded := 0 } := by
  have hs : s.region.srcLen.toNat < Config.hdrLen := hs
  simp [decompressSetup, h, hs]

/-- With T = 0 there is nothing to decode. -/
theorem decompressDecode_zero {s : State} (h : s.ft.total = 0) :
    decompressDecode s = .ok () { s with outLen := 0 } := if_pos h

/-- Else the loop runs T times from the reader at the first payload byte. -/
theorem decompressDecode_run {s : State} (h : s.ft.total ≠ 0) :
    decompressDecode s =
      (decodeFrom s.ft.total.toNat { s with br := Reader.emptyAt (BitVec.ofNat 32 Config.hdrLen) }).bind
        fun _ s1 => .ok () { s1 with outLen := s1.decoded } := if_neg h

/-- The table that the header in SRC holds. -/
@[irreducible] def srcTable (s : State) : FreqTable := tableOf (srcPart s 1028)

/-- DECOMPRESS once OUT_LEN and DECODED are 0 and the header is in the table registers. -/
def headerRead (s : State) : State := { s with outLen := 0, decoded := 0, ft := srcTable s }

@[simp] theorem headerRead_ft (s : State) : (headerRead s).ft = srcTable s := rfl
@[simp] theorem headerRead_tree (s : State) : (headerRead s).tree = s.tree := rfl
@[simp] theorem headerRead_region (s : State) : (headerRead s).region = s.region := rfl
@[simp] theorem headerRead_mem (s : State) : (headerRead s).mem = s.mem := rfl
@[simp] theorem headerRead_status (s : State) : (headerRead s).status = s.status := rfl

/-- The header's bytes, or a fault of the first that cannot be read. -/
theorem readHeader_spec (s : State) :
    (∀ i, i < 1028 → srcFaults s i = false) ∧
        readSrc Config.hdrLen 0 { s with outLen := 0, decoded := 0 } =
          .ok (srcPart s 1028) { s with outLen := 0, decoded := 0 } ∨
      ∃ o, o < 1028 ∧ srcFaults s o = true ∧ (∀ k, k < o → srcFaults s k = false) ∧
        readSrc Config.hdrLen 0 { s with outLen := 0, decoded := 0 } =
          raiseIo .srcReadFault (s.region.srcAddr o) { s with outLen := 0, decoded := 0 } := by
  have hsl : ∀ n, srcSlice { s with outLen := 0, decoded := 0 } 0 n = srcPart s n := fun n =>
    (srcSlice_congr (s := s) (t := { s with outLen := 0, decoded := 0 }) rfl rfl 0 n).trans (srcSlice_zero s n)
  obtain ⟨m, hm, hno, hcase⟩ := readSrc_spec Config.hdrLen 0 { s with outLen := 0, decoded := 0 }
  simp only [Nat.zero_add, hsl] at hno hcase
  rcases hcase with ⟨rfl, h⟩ | ⟨hlt, hf, h⟩
  · exact .inl ⟨hno, h⟩
  · exact .inr ⟨m, hlt, hf, hno, h⟩

/-- The tree step of DECOMPRESS, its sum check and the codes, for the table registers' contents. -/
theorem containerTree_spec (u : State) :
    (leavesOf u.ft = [] ∧ u.ft.total ≠ 0 ∧
      ((treeForContainer u).bind fun _ s2 =>
        if s2.ft.sum = s2.ft.total.toNat then codeGenBody s2 else raiseCorrupt .freqSumMismatch s2) =
        raiseCorrupt .emptyAlphabet { u with pq := [], tree := u.tree.cleared }) ∨
    ((leavesOf u.ft ≠ [] ∨ u.ft.total = 0) ∧ ∃ tree codes,
      treeBody u = .ok () { u with pq := [], tree := tree } ∧ TreeInv tree ∧
      codesOf tree = some codes ∧ CodesOf tree codes ∧ (∀ b, codeOf codes b ≠ [] ↔ u.ft.at b ≠ 0) ∧
      (leavesOf u.ft ≠ [] → BuiltTree (leavesOf u.ft) tree) ∧
      ((treeForContainer u).bind fun _ s2 =>
        if s2.ft.sum = s2.ft.total.toNat then codeGenBody s2 else raiseCorrupt .freqSumMismatch s2) =
        if u.ft.sum = u.ft.total.toNat then .ok () { u with pq := [], tree := tree, codes := codes }
        else raiseCorrupt .freqSumMismatch { u with pq := [], tree := tree }) := by
  by_cases hcase : leavesOf u.ft ≠ [] ∨ u.ft.total = 0
  · right
    obtain ⟨tree, codes, h1, h2, h3, h4, h5, h6⟩ := treeBody_codes hcase
    refine ⟨hcase, tree, codes, h1, h2, h3, h4, h5, h6, ?_⟩
    rw [treeForContainer, h1]
    simp only [Res.bind, codeGenBody, h3]
  · left
    simp only [not_or, not_not] at hcase
    refine ⟨hcase.1, hcase.2, ?_⟩
    rw [treeForContainer, treeBody_empty hcase.1, if_neg hcase.2]
    rfl

/-- The rest of the setup once the header is read. -/
theorem decompressSetup_read {s : State} (h : s.region.codecOk = true) (hs : 1028 ≤ s.region.srcLen.toNat)
    (hr : ∀ i, i < 1028 → srcFaults s i = false) :
    decompressSetup s = (treeForContainer (headerRead s)).bind fun _ s2 =>
      if s2.ft.sum = s2.ft.total.toNat then codeGenBody s2 else raiseCorrupt .freqSumMismatch s2 := by
  have hs : ¬ s.region.srcLen.toNat < Config.hdrLen := Nat.not_lt.2 hs
  have hread : readSrc Config.hdrLen 0 { s with outLen := 0, decoded := 0 } =
      .ok (srcPart s 1028) { s with outLen := 0, decoded := 0 } := by
    rcases readHeader_spec s with ⟨-, h⟩ | ⟨o, ho, hf, -⟩
    · exact h
    · rw [hr o ho] at hf; cases hf
  simp only [decompressSetup, h, if_true, hs, if_false, hread, headerRead, srcTable]
  generalize srcPart s 1028 = hdr
  rfl

/-- The setup when a header byte cannot be read. -/
theorem decompressSetup_fault {s : State} (h : s.region.codecOk = true) (hs : 1028 ≤ s.region.srcLen.toNat) {o : Nat}
    (ho : o < 1028) (hf : srcFaults s o = true) (hno : ∀ k, k < o → srcFaults s k = false) :
    decompressSetup s = raiseIo .srcReadFault (s.region.srcAddr o) { s with outLen := 0, decoded := 0 } := by
  have hs : ¬ s.region.srcLen.toNat < Config.hdrLen := Nat.not_lt.2 hs
  have hread : readSrc Config.hdrLen 0 { s with outLen := 0, decoded := 0 } =
      raiseIo .srcReadFault (s.region.srcAddr o) { s with outLen := 0, decoded := 0 } := by
    rcases readHeader_spec s with ⟨hall, -⟩ | ⟨p, hp, hfp, hnop, hread⟩
    · rw [hall o ho] at hf; cases hf
    · rcases Nat.lt_trichotomy o p with hlt | rfl | hlt
      · rw [hnop o hlt] at hf; cases hf
      · exact hread
      · rw [hno p hlt] at hfp; cases hfp
  simp only [decompressSetup, h, if_true, hs, if_false, hread, Res.bind, raiseIo]

end Sys2Proof.Machine
end

