-- ==== Sys2Proof/Laws/Invariants.lean ====
section
/-! SUPPORT. What the pieces of the commands keep of the machine's invariant (spec/10_state.md R46), and that none
of them but a walk of a tree that is none can stop the model. -/

namespace Sys2Proof.Machine

/-! ## The tree, the queue and the codes -/

theorem treeBody_inv (s : State) : (treeBody s).Ends (fun t => TreeInv t.tree ∧ t.pq = []) := by
  by_cases h : leavesOf s.ft = []
  · rw [treeBody_empty h]
    split <;> exact ⟨treeInv_cleared _, rfl⟩
  · obtain ⟨tr, hb, hbt⟩ := treeBody_built h
    rw [hb]; exact ⟨hbt.inv h (leavesOf_length_le _), rfl⟩

/-- The tree, the queue and the codes are as the invariant says. -/
def TablesInv (s : State) : Prop := TreeInv s.tree ∧ QueueInv s ∧ CodesInv s.codes

theorem queueInv_nil {s : State} (h : s.pq = []) : QueueInv s := by
  refine ⟨by rw [h]; simp, by rw [h]; exact List.Pairwise.nil, fun e he => by rw [h] at he; cases he⟩

theorem codeGenBody_inv {s : State} (h : TreeInv s.tree) : (codeGenBody s).Ends (fun t => CodesInv t.codes ∧ t.tree = s.tree ∧ t.pq = s.pq) := by
  obtain ⟨codes, -, hs, hb⟩ := codeGenBody_spec h
  rw [hb]; exact ⟨fun b => hs.length_le h b, rfl, rfl⟩

theorem queueInv_congr {s t : State} (h : QueueInv s) (h1 : t.pq = s.pq) (h2 : t.tree = s.tree) : QueueInv t := by
  unfold QueueInv at *; rw [h1, h2]; exact h

theorem compressSetup_inv {s : State} (h : TablesInv s) : (compressSetup s).Ends TablesInv := by
  unfold compressSetup; dsimp only; split
  · refine Res.ends_bind (P := TablesInv) (Res.ends_mono (scanBody_ends _) fun t ht => ?_) (fun _ t ht => ?_) (fun _ h => h)
    · refine ⟨by rw [ht]; exact h.1, queueInv_congr h.2.1 (by rw [ht]) (by rw [ht]), by rw [ht]; exact h.2.2⟩
    · have h2 := treeBody_ends t
      have h1 := treeBody_inv t
      cases hb : treeBody t with
      | fault w => exact trivial
      | raise e u =>
        rw [hb] at h1 h2
        exact ⟨h1.1, queueInv_nil h1.2, by have h2 : u = _ := h2; rw [h2]; exact ht.2.2⟩
      | ok a u =>
        rw [hb] at h1 h2
        have h3 := codeGenBody_inv h1.1
        exact Res.ends_mono h3 fun v hv => ⟨by rw [hv.2.1]; exact h1.1, queueInv_nil (by rw [hv.2.2]; exact h1.2), hv.1⟩
  · exact ⟨h.1, queueInv_congr h.2.1 rfl rfl, h.2.2⟩

theorem treeForContainer_inv (s : State) : (treeForContainer s).Ends (fun t => TreeInv t.tree ∧ t.pq = []) := by
  have h := treeBody_inv s
  unfold treeForContainer
  cases hb : treeBody s with
  | ok a t => rw [hb] at h; exact h
  | fault w => exact trivial
  | raise e t =>
    rw [hb] at h; dsimp only; split <;> exact h

theorem decompressSetup_inv {s : State} (h : TablesInv s) : (decompressSetup s).Ends TablesInv := by
  unfold decompressSetup; dsimp only; split
  · split
    · exact ⟨h.1, queueInv_congr h.2.1 rfl rfl, h.2.2⟩
    · refine Res.ends_bind (P := TablesInv) (Res.ends_mono (readSrc_ends _ _ _) fun t ht => ?_) (fun hd t ht => ?_) (fun _ h => h)
      · rw [ht]; exact ⟨h.1, queueInv_congr h.2.1 rfl rfl, h.2.2⟩
      · have h1 := treeForContainer_inv { t with ft := tableOf hd }
        have h2 := treeForContainer_ends { t with ft := tableOf hd }
        cases hb : treeForContainer { t with ft := tableOf hd } with
        | fault w => exact trivial
        | raise e u =>
          rw [hb] at h1 h2
          exact ⟨h1.1, queueInv_nil h1.2, by have h2 : u = _ := h2; rw [h2]; exact ht.2.2⟩
        | ok a u =>
          rw [hb] at h1 h2
          show Res.Ends (if _ then _ else _) _
          split
          · exact Res.ends_mono (codeGenBody_inv h1.1) fun v hv => ⟨by rw [hv.2.1]; exact h1.1, queueInv_nil (by rw [hv.2.2]; exact h1.2), hv.1⟩
          · exact ⟨h1.1, queueInv_nil h1.2, by have h2 : u = _ := h2; rw [h2]; exact ht.2.2⟩
  · exact ⟨h.1, queueInv_congr h.2.1 rfl rfl, h.2.2⟩

/-! ## The writer and the reader -/

/-- What emit leaves of the writer. -/

theorem emit_writer (v : Byte) (s : State) :
    match emit v s with
    | .ok _ t => t.bw.pending = s.bw.pending ∧ t.bw.nbits = s.bw.nbits
    | .raise _ t => t.bw = s.bw
    | .fault _ => True := by
  rw [emit_eq]
  by_cases h1 : s.region.dstCap.toNat ≤ s.bw.pos.toNat
  · rw [if_pos h1]; rfl
  · rw [if_neg h1]
    by_cases h2 : dstFaults s s.bw.pos.toNat = true
    · rw [if_pos h2]; rfl
    · rw [if_neg h2]; exact ⟨rfl, rfl⟩

theorem emit_writerInv (v : Byte) (s : State) (h : WriterInv s.bw) : (emit v s).Ends (fun t => WriterInv t.bw) := by
  have := emit_writer v s
  cases he : emit v s with
  | ok a t => rw [he] at this; show WriterInv _; rw [WriterInv, this.1, this.2]; exact h
  | raise e t => rw [he] at this; show WriterInv _; rw [this]; exact h
  | fault w => exact trivial

theorem putBit_writerInv (b : Bool) (s : State) (h : WriterInv s.bw) : (putBit b s).Ends (fun t => WriterInv t.bw) := by
  by_cases h7 : s.bw.nbits.toNat = 7
  · rw [putBit_of_eq b h7]
    exact Res.ends_bind (emit_writerInv _ s h) (fun _ t _ => ⟨by simp, by simp⟩) (fun _ h => h)
  · have h1 := h.1
    have h2 := h.2
    rw [putBit_of_lt b (by omega)]
    have hn : (s.bw.nbits + 1).toNat = s.bw.nbits.toNat + 1 := by simp [BitVec.toNat_add]; omega
    have hb2 : b.toNat < 2 := by cases b <;> simp
    constructor
    · show (s.bw.nbits + 1).toNat ≤ 7; omega
    · show (s.bw.shifted b).toNat < 2 ^ (s.bw.nbits + 1).toNat
      rw [shifted_toNat h, hn, Nat.pow_succ]; omega

theorem putBits_writerInv (bs : Bits) (s : State) (h : WriterInv s.bw) : (putBits bs s).Ends (fun t => WriterInv t.bw) := by
  induction bs generalizing s with
  | nil => exact h
  | cons b bs ih => exact Res.ends_bind (putBit_writerInv b s h) (fun _ t ht => ih t ht) (fun _ h => h)

theorem flushBody_writerInv (s : State) (h : WriterInv s.bw) : (flushBody s).Ends (fun t => WriterInv t.bw) := by
  unfold flushBody; split
  · exact Res.ends_bind (emit_writerInv _ s h) (fun _ t _ => ⟨by simp, by simp⟩) (fun _ h => h)
  · exact h

theorem emitAll_writerInv (vs : List Byte) (s : State) (h : WriterInv s.bw) : (emitAll vs s).Ends (fun t => WriterInv t.bw) := by
  induction vs generalizing s with
  | nil => exact h
  | cons b bs ih => exact Res.ends_bind (emit_writerInv b s h) (fun _ t ht => ih t ht) (fun _ h => h)

theorem encodeFrom_writerInv (n j : Nat) (s : State) (h : WriterInv s.bw) : (encodeFrom n j s).Ends (fun t => WriterInv t.bw) := by
  induction n generalizing j s with
  | zero => exact h
  | succ n ih =>
    refine Res.ends_bind (P := fun t => WriterInv t.bw) (Res.ends_mono (coreRead_ends _ _) fun t ht => by rw [ht]; exact h) (fun b t ht => ?_) (fun _ h => h)
    split
    · exact ht
    · exact Res.ends_bind (putBits_writerInv _ t ht) (fun _ u hu => ih _ u hu) (fun _ h => h)

theorem compressWrite_writerInv (s : State) : (compressWrite s).Ends (fun t => WriterInv t.bw) := by
  unfold compressWrite
  refine Res.ends_bind (emitAll_writerInv _ _ ⟨by simp [Writer.empty], by simp [Writer.empty]⟩) (fun _ t ht => ?_) (fun _ h => h)
  refine Res.ends_bind (encodeFrom_writerInv _ _ t ht) (fun _ u hu => ?_) (fun _ h => h)
  exact Res.ends_bind (flushBody_writerInv u hu) (fun _ v hv => hv) (fun _ h => h)

theorem getBit_readerInv (s : State) (h : ReaderInv s.br) : (getBit s).Ends (fun t => ReaderInv t.br) := by
  unfold getBit
  split
  · split
    · exact h
    · refine Res.ends_bind (P := fun t => ReaderInv t.br) (Res.ends_mono (coreRead_ends _ _) fun t ht => by rw [ht]; exact h) (fun b t ht => ?_) (fun _ h => h)
      show (0 + 1 : BitVec 4).toNat ≤ 8
      decide
  · rename_i hc
    have h : s.br.cursor.toNat ≤ 8 := h
    have : s.br.cursor.toNat ≠ 8 := fun he => hc (BitVec.eq_of_toNat_eq (by simpa using he))
    show (s.br.cursor + 1).toNat ≤ 8
    simp [BitVec.toNat_add]; omega

theorem needBit_readerInv (s : State) (h : ReaderInv s.br) : (needBit s).Ends (fun t => ReaderInv t.br) :=
  Res.ends_bind (getBit_readerInv s h) (fun ob t ht => by cases ob <;> exact ht) (fun _ h => h)

theorem walkFrom_readerInv (fuel : Nat) (node : Node) (s : State) (h : ReaderInv s.br) : (walkFrom fuel node s).Ends (fun t => ReaderInv t.br) := by
  induction fuel generalizing node s with
  | zero => exact trivial
  | succ fuel ih =>
    refine Res.ends_bind (needBit_readerInv s h) (fun b t ht => ?_) (fun _ h => h)
    split
    · exact trivial
    · split
      · exact ht
      · exact ih _ t ht

theorem decodeSymbol_readerInv (s : State) (h : ReaderInv s.br) : (decodeSymbol s).Ends (fun t => ReaderInv t.br) := by
  unfold decodeSymbol
  split
  · exact trivial
  · split
    · exact Res.ends_bind (needBit_readerInv s h) (fun b t ht => ht) (fun _ h => h)
    · exact walkFrom_readerInv _ _ s h

theorem decodeFrom_readerInv (n : Nat) (s : State) (h : ReaderInv s.br) : (decodeFrom n s).Ends (fun t => ReaderInv t.br) := by
  induction n generalizing s with
  | zero => exact h
  | succ n ih =>
    refine Res.ends_bind (decodeSymbol_readerInv s h) (fun b t ht => ?_) (fun _ h => h)
    refine Res.ends_bind (P := fun t => ReaderInv t.br) (Res.ends_mono (storeSymbol_ends b t) fun u hu => by unfold StoreOnly at hu; rw [hu]; exact ht) (fun _ u hu => ih u hu) (fun _ h => h)

/-! ## Nothing but the walk can stop the model -/

theorem getBit_no_fault (s : State) (w : Fault) : getBit s ≠ .fault w := by
  intro h
  unfold getBit coreRead at h
  split at h
  · split at h
    · cases h
    · split at h <;> cases h
  · cases h

theorem decodeFrom_no_fault : ∀ n (u : State), TreeInv u.tree → u.tree.valid = true → ∀ w, decodeFrom n u ≠ .fault w := by
    intro n
    induction n with
    | zero => intro u _ _ w h; cases h
    | succ n ih =>
      intro u hiu hvu w hw
      rw [decodeFrom, Res.bind_eq_fault] at hw
      rcases hw with hw | ⟨b, v, hb, hw⟩
      · exact decodeSymbol_no_fault hiu hvu w hw
      · have hv := decodeSymbol_ends u
        rw [hb] at hv
        have hv : ReaderOnly u v := hv
        rw [Res.bind_eq_fault] at hw
        rcases hw with hw | ⟨_, x, hx, hw⟩
        · unfold storeSymbol coreWrite at hw
          split at hw
          · cases hw
          · split at hw <;> cases hw
        · have hx' := storeSymbol_ends b v
          rw [hx] at hx'
          have hx' : StoreOnly v x := hx'
          have htr : x.tree = u.tree := by
            unfold StoreOnly at hx'; rw [hx']; exact hv.tree
          exact ih x (htr ▸ hiu) (htr ▸ hvu) w hw

theorem emit_no_fault (v : Byte) (s : State) (w : Fault) : emit v s ≠ .fault w := by
  rw [emit_eq]; split
  · intro h; cases h
  · split <;> (intro h; cases h)

theorem putBit_no_fault (b : Bool) (s : State) (w : Fault) : putBit b s ≠ .fault w := by
  intro h; unfold putBit at h; split at h
  · rw [Res.bind_eq_fault] at h
    rcases h with h | ⟨_, _, _, h⟩
    · exact emit_no_fault _ _ _ h
    · cases h
  · cases h

theorem putBits_no_fault (bs : Bits) (s : State) (w : Fault) : putBits bs s ≠ .fault w := by
  induction bs generalizing s with
  | nil => intro h; cases h
  | cons b bs ih =>
    intro h; rw [putBits, Res.bind_eq_fault] at h
    rcases h with h | ⟨_, _, _, h⟩
    · exact putBit_no_fault _ _ _ h
    · exact ih _ h

theorem flushBody_no_fault (s : State) (w : Fault) : flushBody s ≠ .fault w := by
  intro h; unfold flushBody at h; split at h
  · rw [Res.bind_eq_fault] at h
    rcases h with h | ⟨_, _, _, h⟩
    · exact emit_no_fault _ _ _ h
    · cases h
  · cases h

theorem emitAll_no_fault (bs : List Byte) (s : State) (w : Fault) : emitAll bs s ≠ .fault w := by
  induction bs generalizing s with
  | nil => intro h; cases h
  | cons b bs ih =>
    intro h; rw [emitAll, Res.bind_eq_fault] at h
    rcases h with h | ⟨_, _, _, h⟩
    · exact emit_no_fault _ _ _ h
    · exact ih _ h

theorem coreRead_no_fault (a : Word) (s : State) (w : Fault) : coreRead a s ≠ .fault w := by
  unfold coreRead; split <;> (intro h; cases h)

theorem encodeFrom_no_fault (n j : Nat) (s : State) (w : Fault) : encodeFrom n j s ≠ .fault w := by
  induction n generalizing j s with
  | zero => intro h; cases h
  | succ n ih =>
    intro h; rw [encodeFrom, Res.bind_eq_fault] at h
    rcases h with h | ⟨_, _, _, h⟩
    · exact coreRead_no_fault _ _ _ h
    · split at h
      · cases h
      · rw [Res.bind_eq_fault] at h
        rcases h with h | ⟨_, _, _, h⟩
        · exact putBits_no_fault _ _ _ h
        · exact ih _ _ h

theorem compressWrite_no_fault (s : State) (w : Fault) : compressWrite s ≠ .fault w := by
  intro h; unfold compressWrite at h
  rw [Res.bind_eq_fault] at h
  rcases h with h | ⟨_, _, _, h⟩
  · exact emitAll_no_fault _ _ _ h
  · rw [Res.bind_eq_fault] at h
    rcases h with h | ⟨_, _, _, h⟩
    · exact encodeFrom_no_fault _ _ _ _ h
    · rw [Res.bind_eq_fault] at h
      rcases h with h | ⟨_, _, _, h⟩
      · exact flushBody_no_fault _ _ h
      · cases h

theorem scanFrom_no_fault (n j : Nat) (s : State) (w : Fault) : scanFrom n j s ≠ .fault w := by
  induction n generalizing j s with
  | zero => intro h; cases h
  | succ n ih =>
    intro h; rw [scanFrom, Res.bind_eq_fault] at h
    rcases h with h | ⟨_, _, _, h⟩
    · exact coreRead_no_fault _ _ _ h
    · exact ih _ _ h

theorem treeBody_no_fault (s : State) (w : Fault) : treeBody s ≠ .fault w := by
  intro h
  by_cases hl : leavesOf s.ft = []
  · rw [treeBody_empty hl] at h; split at h <;> cases h
  · obtain ⟨tr, hb, -⟩ := treeBody_built hl; rw [hb] at h; cases h

end Sys2Proof.Machine
end

