-- ==== Sys2Proof/Laws/PerInstr.lean ====
section
/-! SUPPORT. Facts stated per instruction. The family EncodedFields: the assembled word of a command holds
its OPC, its operand in IMM, and RSV 0 (spec/30_encoding.md R80, R83, R88). -/

namespace Sys2Proof

theorem opcOf_assembled (opc : BitVec 8) (imm : BitVec 16) :
    opcOf (opc.setWidth 32 ||| (imm.setWidth 32 <<< 8)) = opc := by
  unfold opcOf
  ext k hk
  simp [BitVec.getElem_extractLsb', hk, show k < 32 by omega]

theorem immOf_assembled (opc : BitVec 8) (imm : BitVec 16) :
    immOf (opc.setWidth 32 ||| (imm.setWidth 32 <<< 8)) = imm := by
  unfold immOf
  ext k hk
  have h32 : 8 + k < 32 := by omega
  simp [BitVec.getElem_extractLsb', h32, BitVec.getLsbD_eq_getElem hk]

theorem rsvOf_assembled (opc : BitVec 8) (imm : BitVec 16) :
    rsvOf (opc.setWidth 32 ||| (imm.setWidth 32 <<< 8)) = 0#8 := by
  unfold rsvOf
  ext k hk
  have h32 : 24 + k < 32 := by omega
  have ho : opc.getLsbD (24 + k) = false := BitVec.getLsbD_of_ge _ _ (by omega)
  have hi : imm.getLsbD (24 + k - 8) = false := BitVec.getLsbD_of_ge _ _ (by omega)
  simp [BitVec.getElem_extractLsb', h32, ho, hi]

namespace Laws.EncodedFields

/-- The three fields of a command's assembled word. -/
def Statement (i : Instr) : Prop :=
  opcOf (encode i) = opcode i ∧ immOf (encode i) = immediate i ∧ rsvOf (encode i) = 0#8

theorem assembled (i : Instr) : Statement i :=
  ⟨opcOf_assembled _ _, immOf_assembled _ _, rsvOf_assembled _ _⟩

theorem nop : Statement .nop := assembled _
theorem ftClear : Statement .ftClear := assembled _
theorem ftCount (b : Byte) : Statement (.ftCount b) := assembled _
theorem ftScan : Statement .ftScan := assembled _
theorem pqClear : Statement .pqClear := assembled _
theorem pqInsert (n : NodeIx) : Statement (.pqInsert n) := assembled _
theorem pqExtract : Statement .pqExtract := assembled _
theorem treeBuild : Statement .treeBuild := assembled _
theorem codeGen : Statement .codeGen := assembled _
theorem bwReset : Statement .bwReset := assembled _
theorem bwPut (b : Bool) : Statement (.bwPut b) := assembled _
theorem bwPutCode (sym : Byte) : Statement (.bwPutCode sym) := assembled _
theorem bwFlush : Statement .bwFlush := assembled _
theorem brReset : Statement .brReset := assembled _
theorem brGet : Statement .brGet := assembled _
theorem compress : Statement .compress := assembled _
theorem decompress : Statement .decompress := assembled _

end Laws.EncodedFields

end Sys2Proof
end

