-- ==== Sys2Proof/Laws/Raises.lean ====
section
/-! SUPPORT. What the pieces of the commands can raise (spec/60_exceptions.md R261 to R264): an IO_ERROR names a
SRC byte whose read faults, or the DST offset the command has reached, which faults or is at or past DST_CAP. -/

namespace Sys2Proof.Machine

/-- Every raise of `r`, with the state it leaves, is one of these. -/
def Res.Raises {α : Type} (r : Res α) (Q : Raise → State → Prop) : Prop := ∀ e t, r = .raise e t → Q e t

theorem Res.raises_mono {α : Type} {r : Res α} {P Q : Raise → State → Prop} (h : r.Raises P)
    (hPQ : ∀ e t, P e t → Q e t) : r.Raises Q := fun e t he => hPQ e t (h e t he)

theorem Res.raises_ok {α : Type} (a : α) (s : State) (Q : Raise → State → Prop) : (Res.ok a s).Raises Q := by
  intro e t h; cases h

theorem Res.raises_fault {α : Type} (w : Fault) (Q : Raise → State → Prop) : (Res.fault w : Res α).Raises Q := by
  intro e t h; cases h

theorem Res.raises_raise {α : Type} {e : Raise} {s : State} {Q : Raise → State → Prop} (h : Q e s) :
    (Res.raise e s : Res α).Raises Q := by
  intro e' t he; cases he; exact h

theorem Res.raises_bind {α β : Type} {r : Res α} {f : α → State → Res β} {P : State → Prop} {Q : Raise → State → Prop}
    (hr : r.Raises Q) (hends : r.Ends P) (hf : ∀ a t, P t → (f a t).Raises Q) : (r.bind f).Raises Q := by
  cases r with
  | ok a s => exact hf a s hends
  | raise e s => exact Res.raises_raise (hr e s rfl)
  | fault w => exact Res.raises_fault w Q

/-- A read fault of a SRC byte (R264). -/
def srcStop (s : State) (e : Raise) (_ : State) : Prop :=
  ∃ j, j < s.region.srcLen.toNat ∧ srcFaults s j = true ∧
    e = { code := .ioError, detail := .srcReadFault, addr := some (s.region.srcAddr j) }

/-- BW_POS. -/
def bwPos (s : State) : Nat := s.bw.pos.toNat

/-- DECODED. -/
def decPos (s : State) : Nat := s.decoded.toNat

/-- A write fault of the DST byte at the offset `pos` names, or DST full there (R264). -/
def dstStop (pos : State → Nat) (s : State) (e : Raise) (t : State) : Prop :=
  (pos t < s.region.dstCap.toNat ∧ dstFaults s (pos t) = true ∧
      e = { code := .ioError, detail := .dstWriteFault, addr := some (s.region.dstAddr (pos t)) }) ∨
    (s.region.dstCap.toNat ≤ pos t ∧
      e = { code := .ioError, detail := .dstFull, addr := some (s.region.dstAddr (pos t)) })

theorem srcStop_congr {s t : State} (hr : t.region = s.region) (hb : t.busFault = s.busFault) :
    srcStop t = srcStop s := by
  funext e _
  simp only [srcStop, srcFaults, busFaults, hr, hb]

theorem dstStop_congr {s t : State} (pos : State → Nat) (hr : t.region = s.region) (hb : t.busFault = s.busFault) :
    dstStop pos t = dstStop pos s := by
  funext e u
  simp only [dstStop, dstFaults, busFaults, hr, hb]

/-- The regions and the platform's faults are as they were. -/
def SamePlatform (s t : State) : Prop := t.region = s.region ∧ t.busFault = s.busFault

theorem SamePlatform.src {s t : State} (h : SamePlatform s t) : srcStop t = srcStop s := srcStop_congr h.1 h.2
theorem SamePlatform.dst {s t : State} (pos : State → Nat) (h : SamePlatform s t) : dstStop pos t = dstStop pos s :=
  dstStop_congr pos h.1 h.2

theorem WriterOnly.platform {s t : State} (h : WriterOnly s t) : SamePlatform s t := by
  unfold WriterOnly at h; rw [h]; exact ⟨rfl, rfl⟩
theorem ReaderOnly.platform {s t : State} (h : ReaderOnly s t) : SamePlatform s t := by
  unfold ReaderOnly at h; rw [h]; exact ⟨rfl, rfl⟩
theorem StoreOnly.platform {s t : State} (h : StoreOnly s t) : SamePlatform s t := by
  unfold StoreOnly at h; rw [h]; exact ⟨rfl, rfl⟩
theorem CompressSetupOnly.platform {s t : State} (h : CompressSetupOnly s t) : SamePlatform s t := by
  unfold CompressSetupOnly at h; rw [h]; exact ⟨rfl, rfl⟩
theorem DecompressSetupOnly.platform {s t : State} (h : DecompressSetupOnly s t) : SamePlatform s t := by
  unfold DecompressSetupOnly at h; rw [h]; exact ⟨rfl, rfl⟩

/-! ## Reading -/

theorem coreRead_raises {s : State} {j : Nat} (h : j < s.region.srcLen.toNat) :
    (coreRead (s.region.srcAddr j) s).Raises (srcStop s) := by
  unfold coreRead
  split
  · rename_i hf
    exact Res.raises_raise ⟨j, h, hf, rfl⟩
  · exact Res.raises_ok _ _ _

theorem readSrc_raises {n o : Nat} {s : State} (h : o + n ≤ s.region.srcLen.toNat) :
    (readSrc n o s).Raises (srcStop s) := by
  induction n generalizing o with
  | zero => exact Res.raises_ok _ _ _
  | succ n ih =>
    refine Res.raises_bind (coreRead_raises (by omega)) (coreRead_ends _ _) fun b t ht => ?_
    subst ht
    exact Res.raises_bind (ih (by omega)) (readSrc_ends _ _ _) fun bs u hu => Res.raises_ok _ _ _

theorem scanFrom_raises {n j : Nat} {s : State} (h : j + n ≤ s.region.srcLen.toNat) :
    (scanFrom n j s).Raises (srcStop s) := by
  induction n generalizing j s with
  | zero => exact Res.raises_ok _ _ _
  | succ n ih =>
    refine Res.raises_bind (coreRead_raises (by omega)) (coreRead_ends _ _) fun b t ht => ?_
    subst ht
    exact ih (s := { t with ft := t.ft.bump b }) (by show _ ≤ t.region.srcLen.toNat; omega)

theorem scanBody_raises (s : State) : (scanBody s).Raises (srcStop s) :=
  scanFrom_raises (s := { s with ft := FreqTable.clear }) (by simp)

theorem getBit_raises (s : State) : (getBit s).Raises (srcStop s) := by
  unfold getBit
  split
  · split
    · exact Res.raises_ok _ _ _
    · rename_i h
      exact Res.raises_bind (coreRead_raises (by omega)) (coreRead_ends _ _) fun b t ht => Res.raises_ok _ _ _
  · exact Res.raises_ok _ _ _

/-- TRUNCATED (R230). -/
def truncatedStop (e : Raise) (_ : State) : Prop := e = { code := .corruptContainer, detail := .truncated, addr := none }

theorem needBit_raises (s : State) : (needBit s).Raises fun e t => srcStop s e t ∨ truncatedStop e t := by
  refine Res.raises_bind (Res.raises_mono (getBit_raises s) fun _ _ h => .inl h) (getBit_ends s) fun ob t _ => ?_
  cases ob with
  | none => exact Res.raises_raise (.inr rfl)
  | some b => exact Res.raises_ok _ _ _

theorem walkFrom_raises (fuel : Nat) (node : Node) (s : State) :
    (walkFrom fuel node s).Raises fun e t => srcStop s e t ∨ truncatedStop e t := by
  induction fuel generalizing node s with
  | zero => exact Res.raises_fault _ _
  | succ fuel ih =>
    refine Res.raises_bind (needBit_raises s) (needBit_ends s) fun b t ht => ?_
    split
    · exact Res.raises_fault _ _
    · split
      · exact Res.raises_ok _ _ _
      · rw [← ht.platform.src]
        exact ih _ t

theorem decodeSymbol_raises (s : State) : (decodeSymbol s).Raises fun e t => srcStop s e t ∨ truncatedStop e t := by
  unfold decodeSymbol
  split
  · exact Res.raises_fault _ _
  · split
    · exact Res.raises_bind (needBit_raises s) (needBit_ends s) fun b t ht => Res.raises_ok _ _ _
    · exact walkFrom_raises _ _ _

/-! ## Writing -/

/-- A byte's write at the offset `pos` names, which a faulting write does not move. -/
theorem coreWrite_raises (pos : State → Nat) {s : State} (v : Byte) (h : pos s < s.region.dstCap.toNat)
    (hp : ∀ m d, pos { s with mem := m, draws := d } = pos s) :
    (coreWrite (s.region.dstAddr (pos s)) v s).Raises (dstStop pos s) := by
  unfold coreWrite
  split
  · rename_i hf
    refine Res.raises_raise (.inl ?_)
    rw [hp]
    exact ⟨h, hf, rfl⟩
  · exact Res.raises_ok _ _ _

theorem emit_raises (v : Byte) (s : State) : (emit v s).Raises (dstStop bwPos s) := by
  unfold emit
  split
  · rename_i h
    exact Res.raises_raise (.inr ⟨h, rfl⟩)
  · rename_i h
    exact Res.raises_bind (coreWrite_raises bwPos v (Nat.lt_of_not_le h) fun _ _ => rfl) (coreWrite_ends _ _ _)
      fun _ t _ => Res.raises_ok _ _ _

theorem putBit_raises (b : Bool) (s : State) : (putBit b s).Raises (dstStop bwPos s) := by
  unfold putBit
  split
  · exact Res.raises_bind (emit_raises _ s) (emit_ends _ s) fun _ t _ => Res.raises_ok _ _ _
  · exact Res.raises_ok _ _ _

theorem putBits_raises (bs : Bits) (s : State) : (putBits bs s).Raises (dstStop bwPos s) := by
  induction bs generalizing s with
  | nil => exact Res.raises_ok _ _ _
  | cons b bs ih =>
    refine Res.raises_bind (putBit_raises b s) (putBit_ends b s) fun _ t ht => ?_
    rw [← ht.platform.dst bwPos]
    exact ih t

theorem flushBody_raises (s : State) : (flushBody s).Raises (dstStop bwPos s) := by
  unfold flushBody
  split
  · exact Res.raises_bind (emit_raises _ s) (emit_ends _ s) fun _ t _ => Res.raises_ok _ _ _
  · exact Res.raises_ok _ _ _

theorem emitAll_raises (vs : List Byte) (s : State) : (emitAll vs s).Raises (dstStop bwPos s) := by
  induction vs generalizing s with
  | nil => exact Res.raises_ok _ _ _
  | cons v vs ih =>
    refine Res.raises_bind (emit_raises v s) (emit_ends v s) fun _ t ht => ?_
    rw [← ht.platform.dst bwPos]
    exact ih t

/-- NO_CODE (R184, R227). -/
def noCodeStop (e : Raise) (_ : State) : Prop := e = { code := .noCode, detail := .none, addr := none }

theorem encodeFrom_raises {n j : Nat} {s : State} (h : j + n ≤ s.region.srcLen.toNat) :
    (encodeFrom n j s).Raises fun e t => srcStop s e t ∨ dstStop bwPos s e t ∨ noCodeStop e t := by
  induction n generalizing j s with
  | zero => exact Res.raises_ok _ _ _
  | succ n ih =>
    refine Res.raises_bind (Res.raises_mono (coreRead_raises (by omega)) fun _ _ he => .inl he) (coreRead_ends _ _)
      fun b t ht => ?_
    subst ht
    split
    · exact Res.raises_raise (.inr (.inr rfl))
    · refine Res.raises_bind (Res.raises_mono (putBits_raises _ _) fun _ _ he => .inr (.inl he)) (putBits_ends _ _)
        fun _ u hu => ?_
      rw [← hu.platform.src, ← hu.platform.dst bwPos]
      exact ih (by rw [hu.platform.1]; omega)

theorem storeSymbol_raises (b : Byte) (s : State) : (storeSymbol b s).Raises (dstStop decPos s) := by
  unfold storeSymbol
  split
  · rename_i h
    exact Res.raises_raise (.inr ⟨h, rfl⟩)
  · rename_i h
    exact Res.raises_bind (coreWrite_raises decPos b (Nat.lt_of_not_le h) fun _ _ => rfl) (coreWrite_ends _ _ _)
      fun _ t _ => Res.raises_ok _ _ _

theorem decodeFrom_raises (n : Nat) (s : State) :
    (decodeFrom n s).Raises fun e t => srcStop s e t ∨ dstStop decPos s e t ∨ truncatedStop e t := by
  induction n generalizing s with
  | zero => exact Res.raises_ok _ _ _
  | succ n ih =>
    refine Res.raises_bind (Res.raises_mono (decodeSymbol_raises s) fun _ _ he => he.imp id .inr)
      (decodeSymbol_ends s) fun b t ht => ?_
    refine Res.raises_bind (Res.raises_mono (storeSymbol_raises b t) fun _ _ he => .inr (.inl ?_))
      (storeSymbol_ends b t) fun _ u hu => ?_
    · rw [← ht.platform.dst decPos]
      exact he
    · rw [← ht.platform.src, ← ht.platform.dst decPos, ← hu.platform.src, ← hu.platform.dst decPos]
      exact ih u

/-! ## Setup -/

/-- A raise without an address. -/
def codeStop (code : StatusCode) (detail : Detail) (e : Raise) (_ : State) : Prop :=
  e = { code := code, detail := detail, addr := none }

theorem treeBody_raises (s : State) : (treeBody s).Raises (codeStop .emptyAlphabet .none) := by
  unfold treeBody
  dsimp only
  split
  · split
    · exact Res.raises_ok _ _ _
    · exact Res.raises_raise rfl
  · split <;> exact Res.raises_ok _ _ _

theorem codeGenBody_raises (s : State) (Q : Raise → State → Prop) : (codeGenBody s).Raises Q := by
  unfold codeGenBody
  split
  · exact Res.raises_ok _ _ _
  · exact Res.raises_fault _ _

theorem treeForContainer_raises (s : State) :
    (treeForContainer s).Raises (codeStop .corruptContainer .emptyAlphabet) := by
  unfold treeForContainer
  have h := treeBody_raises s
  cases hb : treeBody s with
  | ok a t => exact Res.raises_ok _ _ _
  | fault w => exact Res.raises_fault _ _
  | raise e t =>
    have he : codeStop .emptyAlphabet .none e t := h e t hb
    unfold codeStop at he
    subst he
    exact Res.raises_raise rfl

/-- Over valid regions the setup of COMPRESS raises nothing but a read fault: no table of counted bytes is an
empty alphabet with a total. -/
theorem compressSetup_raises {s : State} (h : s.region.codecOk = true) :
    (compressSetup s).Raises (srcStop s) := by
  intro e t he
  obtain ⟨-, tree, codes, hs, -⟩ | ⟨j, hj, hf, -, hs⟩ := compressSetup_spec h
  · rw [he] at hs; cases hs
  · rw [he] at hs; cases hs; exact ⟨j, hj, hf, rfl⟩

theorem compressWrite_raises (s : State) :
    (compressWrite s).Raises fun e t => srcStop s e t ∨ dstStop bwPos s e t ∨ noCodeStop e t := by
  unfold compressWrite
  refine Res.raises_bind (Res.raises_mono (emitAll_raises _ { s with bw := Writer.empty }) fun _ _ he => .inr (.inl he))
    (emitAll_ends _ _) fun _ t ht => ?_
  have hp : SamePlatform s t := ht.platform
  rw [← hp.src, ← hp.dst bwPos]
  refine Res.raises_bind (encodeFrom_raises (by simp)) (encodeFrom_ends _ _ _) fun _ u hu => ?_
  rw [← hu.platform.src, ← hu.platform.dst bwPos]
  exact Res.raises_bind (Res.raises_mono (flushBody_raises u) fun _ _ he => .inr (.inl he)) (flushBody_ends u)
    fun _ v _ => Res.raises_ok _ _ _

theorem decompressSetup_raises {s : State} (h : s.region.codecOk = true) :
    (decompressSetup s).Raises fun e t => srcStop s e t ∨ codeStop .corruptContainer .headerShort e t ∨
      codeStop .corruptContainer .emptyAlphabet e t ∨ codeStop .corruptContainer .freqSumMismatch e t := by
  unfold decompressSetup
  simp only [h, if_true]
  split
  · exact Res.raises_raise (.inr (.inl rfl))
  · rename_i hlen
    refine Res.raises_bind (Res.raises_mono (readSrc_raises (s := { s with outLen := 0, decoded := 0 })
      (by show 0 + Config.hdrLen ≤ s.region.srcLen.toNat; omega)) fun _ _ he => .inl he) (readSrc_ends _ _ _) fun b t ht => ?_
    refine Res.raises_bind (Res.raises_mono (treeForContainer_raises _) fun _ _ he => .inr (.inr (.inl he)))
      (treeForContainer_ends _) fun _ u hu => ?_
    split
    · exact codeGenBody_raises u _
    · exact Res.raises_raise (.inr (.inr (.inr rfl)))

theorem decompressDecode_raises (s : State) :
    (decompressDecode s).Raises fun e t => srcStop s e t ∨ dstStop decPos s e t ∨ truncatedStop e t := by
  unfold decompressDecode
  split
  · exact Res.raises_ok _ _ _
  · exact Res.raises_bind (decodeFrom_raises _ { s with br := Reader.emptyAt (BitVec.ofNat 32 Config.hdrLen) })
      (decodeFrom_ends _ _) fun _ t _ => Res.raises_ok _ _ _

end Sys2Proof.Machine
end

