-- ==== Sys2Proof/Laws/Traces.lean ====
section
/-! SUPPORT. Which bytes of buffer memory the writing pieces touch, from any state (spec/20_memory.md R60, R65;
spec/60_exceptions.md R268): those of DST from the offset they start at, one after the other, and one more
whose write faulted. -/

namespace Sys2Proof.Machine

/-- The addresses of the DST offsets from lo to hi - 1. -/
def spanAddrs (r : Region) (lo hi a : Nat) : Prop := ∃ o, lo ≤ o ∧ o < hi ∧ o < r.dstCap.toNat ∧ a = (r.dstAddr o).toNat

/-- `t` comes after `s`, the DST offset `pos` having moved up over the bytes written. -/
structure Trace (pos : State → Nat) (s t : State) : Prop where
  region : t.region = s.region
  wf : Mem.wf s.mem → Mem.wf t.mem
  le : pos s ≤ pos t
  room : pos t = pos s ∨ pos t ≤ s.region.dstCap.toNat
  kept : MemoryKeptBut (spanAddrs s.region (pos s) (pos t)) s t

/-- How a writing piece ends: at the offset it reached, or with one more byte whose write faulted. -/
def Traced {α : Type} (pos : State → Nat) (s : State) (r : Res α) : Prop :=
  match r with
  | .ok _ t => Trace pos s t
  | .raise e t => Trace pos s t ∨ (e.detail = .dstWriteFault ∧ ∃ m, Trace pos s m ∧ pos m < m.region.dstCap.toNat ∧
      pos t = pos m ∧ t = m.faultedAt (m.region.dstAddr (pos m)))
  | .fault _ => True

theorem Trace.same {pos : State → Nat} {s t : State} (hr : t.region = s.region) (hm : t.mem = s.mem)
    (hp : pos t = pos s) : Trace pos s t where
  region := hr
  wf := fun h => by rw [hm]; exact h
  le := Nat.le_of_eq hp.symm
  room := .inl hp
  kept := MemoryKeptBut.of_eq hm

theorem Trace.refl (pos : State → Nat) (s : State) : Trace pos s s := Trace.same rfl rfl rfl

theorem Trace.trans {pos : State → Nat} {s t u : State} (h1 : Trace pos s t) (h2 : Trace pos t u) : Trace pos s u where
  region := h2.region.trans h1.region
  wf := fun h => h2.wf (h1.wf h)
  le := Nat.le_trans h1.le h2.le
  room := by
    have r1 := h1.room
    have r2 := h2.room
    rw [h1.region] at r2
    omega
  kept := by
    have k2 := h2.kept
    rw [h1.region] at k2
    have l1 := h1.le
    have l2 := h2.le
    refine (h1.kept.mono ?_).trans (k2.mono ?_)
    · rintro a ⟨o, a1, a2, a3⟩
      exact ⟨o, a1, by omega, a3⟩
    · rintro a ⟨o, a1, a2, a3⟩
      exact ⟨o, by omega, a2, a3⟩

theorem Traced.after {α : Type} {pos : State → Nat} {s t : State} {r : Res α} (h1 : Trace pos s t)
    (h2 : Traced pos t r) : Traced pos s r := by
  cases r with
  | ok a u => exact h1.trans h2
  | fault w => exact trivial
  | raise e u =>
    rcases h2 with h2 | ⟨he, m, h2, h3⟩
    · exact .inl (h1.trans h2)
    · exact .inr ⟨he, m, h1.trans h2, h3⟩

theorem Traced.bind {α β : Type} {pos : State → Nat} {s : State} {r : Res α} {f : α → State → Res β}
    (hr : Traced pos s r) (hf : ∀ a t, Trace pos s t → Traced pos t (f a t)) : Traced pos s (r.bind f) := by
  cases r with
  | ok a t => exact Traced.after hr (hf a t hr)
  | raise e t => exact hr
  | fault w => exact trivial

/-- A piece that touches neither memory nor the offset. -/
theorem Traced.of_ends {α : Type} {pos : State → Nat} {s : State} {r : Res α} {P : State → Prop} (h : r.Ends P)
    (hP : ∀ t, P t → t.region = s.region ∧ t.mem = s.mem ∧ pos t = pos s) : Traced pos s r := by
  cases r with
  | ok a t => obtain ⟨h1, h2, h3⟩ := hP t h; exact Trace.same h1 h2 h3
  | raise e t => obtain ⟨h1, h2, h3⟩ := hP t h; exact .inl (Trace.same h1 h2 h3)
  | fault w => exact trivial

/-! ## The writer's offset -/

theorem coreRead_traced (pos : State → Nat) (a : Word) (s : State) : Traced pos s (coreRead a s) :=
  Traced.of_ends (coreRead_ends a s) fun t ht => by subst ht; exact ⟨rfl, rfl, rfl⟩

theorem emit_traced (v : Byte) (s : State) : Traced bwPos s (emit v s) := by
  rw [emit_eq]
  split
  · exact .inl (Trace.refl _ _)
  · rename_i hroom
    split
    · exact .inr ⟨rfl, s, Trace.refl _ _, by show s.bw.pos.toNat < _; omega, rfl, rfl⟩
    · have hcap := s.region.dstCap.isLt
      have hn : (s.bw.pos + 1).toNat = s.bw.pos.toNat + 1 := by simp [BitVec.toNat_add]; omega
      refine ⟨rfl, fun h => Mem.write_wf _ (addr_lt_memSize _) h, ?_, ?_, fun a ha => ?_⟩
      · show s.bw.pos.toNat ≤ (s.bw.pos + 1).toNat
        omega
      · right
        show (s.bw.pos + 1).toNat ≤ _
        omega
      · refine Mem.read_write_other _ _ _ _ fun h => ha ⟨s.bw.pos.toNat, Nat.le_refl _, ?_, by omega, h⟩
        show _ < (s.bw.pos + 1).toNat
        omega

theorem putBit_traced (b : Bool) (s : State) : Traced bwPos s (putBit b s) := by
  unfold putBit
  split
  · exact (emit_traced _ s).bind fun _ t _ => Trace.same rfl rfl rfl
  · exact Trace.same rfl rfl rfl

theorem putBits_traced (bs : Bits) (s : State) : Traced bwPos s (putBits bs s) := by
  induction bs generalizing s with
  | nil => exact Trace.refl _ _
  | cons b bs ih => exact (putBit_traced b s).bind fun _ t _ => ih t

theorem flushBody_traced (s : State) : Traced bwPos s (flushBody s) := by
  unfold flushBody
  split
  · exact (emit_traced _ s).bind fun _ t _ => Trace.same rfl rfl rfl
  · exact Trace.refl _ _

theorem emitAll_traced (vs : List Byte) (s : State) : Traced bwPos s (emitAll vs s) := by
  induction vs generalizing s with
  | nil => exact Trace.refl _ _
  | cons v vs ih => exact (emit_traced v s).bind fun _ t _ => ih t

theorem encodeFrom_traced (n j : Nat) (s : State) : Traced bwPos s (encodeFrom n j s) := by
  induction n generalizing j s with
  | zero => exact Trace.refl _ _
  | succ n ih =>
    refine (coreRead_traced _ _ s).bind fun b t _ => ?_
    split
    · exact .inl (Trace.refl _ _)
    · exact (putBits_traced _ t).bind fun _ u _ => ih _ u

/-- COMPRESS's stream starts at DST offset 0. -/
theorem compressWrite_traced (s : State) : Traced bwPos { s with bw := Writer.empty } (compressWrite s) := by
  unfold compressWrite
  refine (emitAll_traced _ _).bind fun _ t _ => ?_
  refine (encodeFrom_traced _ _ t).bind fun _ u _ => ?_
  exact (flushBody_traced u).bind fun _ v _ => Trace.same rfl rfl rfl

/-! ## DECOMPRESS's offset -/

theorem storeSymbol_traced (b : Byte) (s : State) : Traced decPos s (storeSymbol b s) := by
  unfold storeSymbol
  split
  · exact .inl (Trace.refl _ _)
  · rename_i hroom
    rw [coreWrite_eq]
    split
    · exact .inr ⟨rfl, s, Trace.refl _ _, by show s.decoded.toNat < _; omega, rfl, rfl⟩
    · have hcap := s.region.dstCap.isLt
      have hn : (s.decoded + 1).toNat = s.decoded.toNat + 1 := by simp [BitVec.toNat_add]; omega
      refine ⟨rfl, fun h => Mem.write_wf _ (addr_lt_memSize _) h, ?_, ?_, fun a ha => ?_⟩
      · show s.decoded.toNat ≤ (s.decoded + 1).toNat
        omega
      · right
        show (s.decoded + 1).toNat ≤ _
        omega
      · refine Mem.read_write_other _ _ _ _ fun h => ha ⟨s.decoded.toNat, Nat.le_refl _, ?_, by omega, h⟩
        show _ < (s.decoded + 1).toNat
        omega

theorem decodeSymbol_traced (s : State) : Traced decPos s (decodeSymbol s) :=
  Traced.of_ends (decodeSymbol_ends s) fun t ht => by
    unfold ReaderOnly at ht
    rw [ht]
    exact ⟨rfl, rfl, rfl⟩

theorem decodeFrom_traced (n : Nat) (s : State) : Traced decPos s (decodeFrom n s) := by
  induction n generalizing s with
  | zero => exact Trace.refl _ _
  | succ n ih =>
    refine (decodeSymbol_traced s).bind fun b t _ => ?_
    exact (storeSymbol_traced b t).bind fun _ u _ => ih u

theorem decompressDecode_traced (s : State) : Traced decPos s (decompressDecode s) := by
  unfold decompressDecode
  split
  · exact Trace.same rfl rfl rfl
  · exact Traced.after (Trace.same (t := { s with br := Reader.emptyAt (BitVec.ofNat 32 Config.hdrLen) }) rfl rfl rfl)
      ((decodeFrom_traced _ _).bind fun _ t _ => Trace.same rfl rfl rfl)

/-- Every command's memory stays canonical, however its piece ends. -/
theorem Traced.wf {α : Type} {pos : State → Nat} {s : State} {r : Res α} (h : Traced pos s r) (hw : Mem.wf s.mem) :
    r.Ends fun t => Mem.wf t.mem := by
  cases r with
  | ok a t => exact Trace.wf h hw
  | fault w => exact trivial
  | raise e t =>
    rcases h with h | ⟨-, m, h, -, -, rfl⟩
    · exact h.wf hw
    · exact Mem.write_wf _ (addr_lt_memSize _) (h.wf hw)

/-- What an aborted command's copied bytes touch (R293). -/
theorem copyDst_kept (r : Region) (new : List Host.Cell) (n o : Nat) (m : List Host.Cell) (P : Nat → Prop) (hP : ∀ k, o ≤ k → k < o + n → P (r.dstAddr k).toNat) :
    (∀ a, ¬ P a → Mem.read (copyDst r new n o m) a = Mem.read m a) ∧ (Mem.wf m → Mem.wf (copyDst r new n o m)) := by
  induction n generalizing o m with
  | zero => exact ⟨fun _ _ => rfl, fun h => h⟩
  | succ n ih =>
    obtain ⟨h1, h2⟩ := ih (o+1) (Mem.write m (r.dstAddr o).toNat (Mem.read new (r.dstAddr o).toNat)) (fun k a b => hP k (by omega) (by omega))
    refine ⟨fun a ha => ?_, fun hw => h2 (Mem.write_wf _ (addr_lt_memSize _) hw)⟩
    rw [copyDst, h1 a ha, Mem.read_write_other]
    intro he
    exact ha (he ▸ hP o (Nat.le_refl _) (by omega))

end Sys2Proof.Machine
end

