-- ==== Sys2Proof/Laws/Window.lean ====
section
/-! SUPPORT. Host reads of the window (spec/10_state.md R23, R40, R42), one lemma for each part of it. -/

namespace Sys2Proof.Machine

/-- While idle the view is what the register map gives. -/
theorem regView_idle {s : State} (h : s.status.busy = false) (off : Nat) : regView s off = idleView s off := by
  simp [regView, h]

/-- A register whose bits the spec defines reads as those bits. -/
theorem readWord_of {s : State} {off : Nat} {w : Word} (h : regView s off = .of w) : readWord s off = w := by
  simp [readWord, RegView.word, h, RegView.of]

/-- The four registers that read true at any time. -/
theorem readWord_busy {s : State} {off : Nat} (h : readableBusy off = true) (hoff : off < 0x400) :
    readWord s off = controlWord s off := by
  apply readWord_of
  simp [regView, h, idleView, hoff]

/-- The control block while idle. -/
theorem readWord_control {s : State} {off : Nat} (h : s.status.busy = false) (hoff : off < 0x400) :
    readWord s off = controlWord s off := by
  apply readWord_of
  rw [regView_idle h, idleView, if_pos hoff]

/-- COUNT[b] while idle. -/
theorem readWord_count {s : State} {off : Nat} (h : s.status.busy = false) (h1 : 0x400 ≤ off) (h2 : off < 0x800) :
    readWord s off = s.ft.at (BitVec.ofNat 8 ((off - 0x400) / 4)) := by
  apply readWord_of
  rw [regView_idle h, idleView, if_neg (by omega), if_pos h2]

/-- The reserved words below and above the node store. -/
theorem readWord_reserved {s : State} {off : Nat} (h : s.status.busy = false)
    (h1 : (0x800 ≤ off ∧ off < 0x2000) ∨ (0x3FF0 ≤ off ∧ off < 0x4000)) : readWord s off = 0 := by
  apply readWord_of
  rw [regView_idle h, idleView]
  rcases h1 with ⟨h1, h2⟩ | ⟨h1, h2⟩
  · rw [if_neg (by omega), if_neg (by omega), if_pos h2]
  · rw [if_neg (by omega), if_neg (by omega), if_neg (by omega), if_neg (by omega), if_pos h2]

/-- The node store: the node's word, or a free word under the mask of its fields. -/
theorem regView_node {s : State} {off : Nat} (h : s.status.busy = false) (h1 : 0x2000 ≤ off) (h2 : off < 0x3FF0) :
    regView s off = nodeView s.tree ((off - 0x2000) / 16) ((off - 0x2000) % 16 / 4) := by
  rw [regView_idle h, idleView, if_neg (by omega), if_neg (by omega), if_neg (by omega), if_pos h2]

/-- The code table while idle. -/
theorem readWord_code {s : State} {off : Nat} (h : s.status.busy = false) (h1 : 0x4000 ≤ off) :
    readWord s off =
      codeView (codeOf s.codes (BitVec.ofNat 8 ((off - 0x4000) / 64))) ((off - 0x4000) % 64 / 4) := by
  apply readWord_of
  rw [regView_idle h, idleView, if_neg (by omega), if_neg (by omega), if_neg (by omega), if_neg (by omega),
    if_neg (by omega)]

/-- Bit i of a word built by appending bits at the low end. -/
theorem getLsbD_foldl_bits (f : Nat → Bool) (n : Nat) (hn : n ≤ 32) (i : Nat) :
    ((List.range n).foldl (fun (w : Word) k => (w <<< 1) ||| bitWord (f k)) 0).getLsbD i =
      (decide (i < n) && f (n - 1 - i)) := by
  induction n generalizing i with
  | zero => simp
  | succ n ih =>
    rw [List.range_succ, List.foldl_append]
    simp only [List.foldl_cons, List.foldl_nil, BitVec.getLsbD_or, BitVec.getLsbD_shiftLeft, ih (by omega)]
    have hb : ∀ b : Bool, (bitWord b).getLsbD i = (decide (i = 0) && b) := by
      intro b
      cases b
      · simp [bitWord]
      · cases i <;> simp [bitWord, BitVec.getLsbD_one]
    rw [hb]
    cases i with
    | zero => simp
    | succ i =>
      by_cases h : i < n
      · have : i + 1 < 32 := by omega
        simp [h, this]
        congr 1
        omega
      · simp [h]

/-- Bit 31 - k of CODE_WORD[j] is code bit 32·j + k, or 0 past the code's end (R36). -/
theorem codeWord_getLsbD (c : Bits) (j : Nat) {k : Nat} (hk : k < 32) :
    (codeWord c j).getLsbD (31 - k) = c.getD (32 * j + k) false := by
  rw [codeWord, getLsbD_foldl_bits (fun k => c.getD (32 * j + k) false) 32 (by omega),
    decide_eq_true (by omega), Bool.true_and]
  congr 1
  omega

end Sys2Proof.Machine
end

