-- ==== Sys2Proof/Tests/Slice0.lean ====
section
/-! SUPPORT. The model's own tests: the word checks, the decoder on words written out from
spec/30_encoding.md R80 to R88, and steps whose results are the vectors of spec/95_test_vectors.md
(named at each). -/

namespace Sys2Proof.Tests

set_option Elab.async false

open Sys2Proof Sys2Proof.Machine

/-! ## WellFormed: an ill-formed word for each check of R84 -/

theorem test_wellFormed_accepts_max_node : WellFormed 0x0001FF21#32 = true := by decide
theorem test_wellFormed_refuses_rsv : reservedZero 0x80000070#32 = false ∧ WellFormed 0x80000070#32 = false := by
  decide
theorem test_wellFormed_refuses_opcode : opcodeListed 0x00000013#32 = false ∧ WellFormed 0x00000013#32 = false := by
  decide
theorem test_wellFormed_refuses_operand : operandFits 0x00020021#32 = false ∧ WellFormed 0x00020021#32 = false := by
  decide

/-! ## Decode: one word per command, its bits OPC in [7:0], operand from bit 8 on (R80 to R82, R88) -/

theorem test_decode_nop : decode 0b00000000000000000000000000000000#32 = .command .nop := by decide
theorem test_decode_ftClear : decode 0b00000000000000000000000000010000#32 = .command .ftClear := by decide
theorem test_decode_ftCount : decode 0b00000000000000000110000100010001#32 = .command (.ftCount 0x61#8) := by decide
theorem test_decode_ftScan : decode 0b00000000000000000000000000010010#32 = .command .ftScan := by decide
theorem test_decode_pqClear : decode 0b00000000000000000000000000100000#32 = .command .pqClear := by decide
theorem test_decode_pqInsert : decode 0b00000000000000010010110000100001#32 = .command (.pqInsert 300#9) := by decide
theorem test_decode_pqExtract : decode 0b00000000000000000000000000100010#32 = .command .pqExtract := by decide
theorem test_decode_treeBuild : decode 0b00000000000000000000000000110000#32 = .command .treeBuild := by decide
theorem test_decode_codeGen : decode 0b00000000000000000000000001000000#32 = .command .codeGen := by decide
theorem test_decode_bwReset : decode 0b00000000000000000000000001010000#32 = .command .bwReset := by decide
theorem test_decode_bwPut : decode 0b00000000000000000000000101010001#32 = .command (.bwPut true) := by decide
theorem test_decode_bwPutCode : decode 0b00000000000000000110001001010010#32 = .command (.bwPutCode 0x62#8) := by decide
theorem test_decode_bwFlush : decode 0b00000000000000000000000001010011#32 = .command .bwFlush := by decide
theorem test_decode_brReset : decode 0b00000000000000000000000001100000#32 = .command .brReset := by decide
theorem test_decode_brGet : decode 0b00000000000000000000000001100001#32 = .command .brGet := by decide
theorem test_decode_compress : decode 0b00000000000000000000000001110000#32 = .command .compress := by decide
theorem test_decode_decompress : decode 0b00000000000000000000000001110001#32 = .command .decompress := by decide
theorem test_decode_refuses_high_operand_bit : decode 0x00000251#32 = .illegal .operandBits := by decide

/-! ## The states the tests run from -/

/-- What a next state shows. -/
def after (o : Host.Outcome State Fault Refusal) (f : State → Bool) : Bool :=
  match o with
  | .next t => f t
  | .fault _ => false
  | .refused _ => false

theorem of_after {o : Host.Outcome State Fault Refusal} {f : State → Bool} (h : after o f = true) :
    ∃ t, o = .next t ∧ f t = true := by
  cases o with
  | next t => exact ⟨t, rfl, h⟩
  | fault _ => simp [after] at h
  | refused _ => simp [after] at h

/-- A state whose accepted word is the command's. -/
def ready (i : Instr) (s : State) : State := s.accept (encode i)

/-- STATUS as the host reads it. -/
def status (t : State) : Word := readWord t 0x08

/-- The regions. -/
def withRegions (srcBase srcLen dstBase dstCap : Word) (s : State) : State :=
  { s with region := { srcBase := srcBase, srcLen := srcLen, dstBase := dstBase, dstCap := dstCap } }

/-- The table of a byte string. -/
def tableOfBytes (l : List Byte) : FreqTable := l.foldl FreqTable.bump FreqTable.clear

/-- A tree of the one leaf 'A' (V-TR-6). -/
def oneLeaf : Tree :=
  { valid := true, root := 0, nodeCount := 1, nodes := (Vector.replicate 511 Node.blank).set 0 (leafNode 3 0x41) }

/-- The tree of "ab" (V-TR-3). -/
def twoLeaves : Tree :=
  { valid := true, root := 2, nodeCount := 3
    nodes := (((Vector.replicate 511 Node.blank).set 0 (leafNode 1 0x61)).set 1 (leafNode 1 0x62)).set 2
      { weight := 2, leaf := false, symbol := 0, left := 0, right := 1 } }

/-- "aaabbc" in SRC (V-SRC-1), an empty DST after it. -/
def text : State :=
  { withRegions 0x10000 6 0x20000 0x10000 State.reset with
    mem := [(0x10000, 0x61), (0x10001, 0x61), (0x10002, 0x61), (0x10003, 0x62), (0x10004, 0x62), (0x10005, 0x63)] }

/-- The container of "aaabbc" (V-CX-1) in SRC, less what `len` leaves out. -/
def container (len cap : Word) : State :=
  { withRegions 0x20000 len 0x30000 cap State.reset with
    mem := [(0x20000, 0x06), (0x20188, 0x03), (0x2018C, 0x02), (0x20190, 0x01), (0x20404, 0x1F)] }

/-- The codes a = 0, b = 11, c = 10 (V-CG-1). -/
def abcCodes : Vector Bits 256 :=
  ((noCodes.set 0x61 [false]).set 0x62 [true, true]).set 0x63 [true, false]

/-- A writer with seven bits 1100101 pending (V-BW-2). -/
def sevenBits (s : State) : State := { s with bw := { pending := 0x65, nbits := 7, pos := 0 } }

/-! ## One step of each command -/

/-- V-LC-1. -/
theorem test_nop : after (exec .nop (ready .nop State.reset))
    (fun t => status t == 2 && readWord t 0x10 == 1) = true := by decide +kernel

/-- V-FT-10. -/
theorem test_ftClear : after (exec .ftClear (ready .ftClear { State.reset with ft := tableOfBytes [0x61] }))
    (fun t => status t == 2 && readWord t 0x584 == 0 && readWord t 0x38 == 0) = true := by decide +kernel

/-- V-FT-1. -/
theorem test_ftCount : after (exec (.ftCount 0x61) (ready (.ftCount 0x61) { State.reset with ft := tableOfBytes [0x61] }))
    (fun t => status t == 2 && readWord t 0x584 == 2 && readWord t 0x38 == 2) = true := by decide +kernel

/-- V-FT-4. -/
theorem test_ftCount_overflow :
    after (exec (.ftCount 0) (ready (.ftCount 0) { State.reset with ft := { FreqTable.clear with total := 0xFFFFFFFF } }))
      (fun t => status t == 0x1302 && readWord t 0x400 == 0 && readWord t 0x38 == 0xFFFFFFFF) = true := by
  decide +kernel

/-- V-FT-5. -/
theorem test_ftScan : after (exec .ftScan (ready .ftScan text))
    (fun t => status t == 2 && readWord t 0x584 == 3 && readWord t 0x588 == 2 && readWord t 0x58C == 1 &&
      readWord t 0x38 == 6) = true := by decide +kernel

/-- V-FT-7. -/
theorem test_ftScan_fault :
    after (exec .ftScan (ready .ftScan { text with busFault := [(.read, 0x10003)] }))
      (fun t => status t == 0x10102 && readWord t 0x18 == 0x10003 && readWord t 0x584 == 3 &&
        readWord t 0x38 == 3) = true := by decide +kernel

/-- R121's example. -/
theorem test_pqClear :
    after (exec .pqClear (ready .pqClear { State.reset with pq := [{ weight := 1, index := 2 }] }))
      (fun t => status t == 2 && readWord t 0x44 == 0) = true := by decide +kernel

/-- V-PQ-2: the tie goes to the lower index, whatever was inserted first. -/
theorem test_pqInsert :
    after (exec (.pqInsert 0) (ready (.pqInsert 0) { State.reset with tree := twoLeaves, pq := [{ weight := 1, index := 1 }] }))
      (fun t => status t == 2 && readWord t 0x44 == 2 &&
        t.pq == [{ weight := 1, index := 0 }, { weight := 1, index := 1 }]) = true := by decide +kernel

/-- V-PQ-4: NIL names no node. -/
theorem test_pqInsert_nil :
    after (exec (.pqInsert 0x1FF) (ready (.pqInsert 0x1FF) { State.reset with tree := twoLeaves }))
      (fun t => status t == 0x1102 && readWord t 0x44 == 0) = true := by decide +kernel

/-- V-PQ-1: weight before index. -/
theorem test_pqExtract :
    after (exec .pqExtract (ready .pqExtract { State.reset with pq := [{ weight := 1, index := 3 }, { weight := 2, index := 1 }] }))
      (fun t => status t == 2 && readWord t 0x14 == 3 && readWord t 0x44 == 1) = true := by decide +kernel

/-- V-TR-1. -/
theorem test_treeBuild :
    after (exec .treeBuild (ready .treeBuild { State.reset with ft := tableOfBytes [0x61, 0x61, 0x61, 0x62, 0x62, 0x63] }))
      (fun t => status t == 2 && readWord t 0x3C == 0x80000004 && readWord t 0x40 == 5 &&
        readWord t 0x200C == 0x80000061 && readWord t 0x2038 == 0x00010002 && readWord t 0x2048 == 0x00030000 &&
        readWord t 0x2040 == 6) = true := by decide +kernel

/-- V-TR-8. -/
theorem test_treeBuild_empty :
    after (exec .treeBuild (ready .treeBuild { State.reset with ft := { FreqTable.clear with total := 5 } }))
      (fun t => status t == 0x302 && readWord t 0x3C == 0 && readWord t 0x40 == 0) = true := by decide +kernel

/-- V-CG-3, the tree of V-TR-3: a = 0, b = 1. -/
theorem test_codeGen : after (exec .codeGen (ready .codeGen { State.reset with tree := twoLeaves }))
    (fun t => status t == 2 && readWord t 0x5840 == 1 && readWord t 0x5844 == 0 && readWord t 0x5880 == 1 &&
      readWord t 0x5884 == 0x80000000 && readWord t 0x58C0 == 0) = true := by decide +kernel

/-- V-CG-4: a single leaf has the code 0. -/
theorem test_codeGen_single : after (exec .codeGen (ready .codeGen { State.reset with tree := oneLeaf }))
    (fun t => status t == 2 && readWord t 0x5040 == 1 && readWord t 0x5044 == 0) = true := by decide +kernel

/-- V-BW-11. -/
theorem test_bwReset :
    after (exec .bwReset (ready .bwReset { State.reset with bw := { pending := 5, nbits := 3, pos := 7 } }))
      (fun t => status t == 2 && readWord t 0x48 == 0 && readWord t 0x4C == 0) = true := by decide +kernel

/-- V-BW-2: the eighth bit writes 0xCA. -/
theorem test_bwPut_eighth : after (exec (.bwPut false) (ready (.bwPut false) (sevenBits text)))
    (fun t => status t == 2 && readWord t 0x48 == 0 && readWord t 0x4C == 1 && Mem.read t.mem 0x20000 == 0xCA) =
      true := by decide +kernel

/-- V-BW-3: with DST_CAP 0 the eighth bit is not accepted. -/
theorem test_bwPut_full :
    after (exec (.bwPut true) (ready (.bwPut true)
        { withRegions 0 0 0x20000 0 State.reset with bw := { pending := 0x7F, nbits := 7, pos := 0 } }))
      (fun t => status t == 0x30102 && readWord t 0x18 == 0x20000 && readWord t 0x48 == 0x77F &&
        readWord t 0x4C == 0) = true := by decide +kernel

/-- V-BW-7, by hand with the code of b, 11: six ones pending and two more fill the byte 0xFF. -/
theorem test_bwPutCode :
    after (exec (.bwPutCode 0x62) (ready (.bwPutCode 0x62)
        { text with codes := abcCodes, bw := { pending := 0x3F, nbits := 6, pos := 0 } }))
      (fun t => status t == 2 && readWord t 0x48 == 0 && readWord t 0x4C == 1 && Mem.read t.mem 0x20000 == 0xFF) =
        true := by decide +kernel

/-- V-BW-10. -/
theorem test_bwPutCode_noCode : after (exec (.bwPutCode 0) (ready (.bwPutCode 0) State.reset))
    (fun t => status t == 0x1402 && readWord t 0x48 == 0) = true := by decide +kernel

/-- V-BW-1: the bits 101 are written as 0xA0. -/
theorem test_bwFlush :
    after (exec .bwFlush (ready .bwFlush { text with bw := { pending := 5, nbits := 3, pos := 0 } }))
      (fun t => status t == 2 && readWord t 0x48 == 0 && readWord t 0x4C == 1 && Mem.read t.mem 0x20000 == 0xA0) =
        true := by decide +kernel

/-- R201's example. -/
theorem test_brReset :
    after (exec .brReset (ready .brReset { State.reset with br := { cur := 0xA5, cursor := 3, pos := 4 } }))
      (fun t => status t == 2 && readWord t 0x50 == 0x800 && readWord t 0x54 == 0) = true := by decide +kernel

/-- V-BR-1, the fourth get of A5: 0. -/
theorem test_brGet :
    after (exec .brGet (ready .brGet { text with br := { cur := 0xA5, cursor := 3, pos := 1 } }))
      (fun t => status t == 2 && readWord t 0x14 == 0 && readWord t 0x50 == 0x4A5 && readWord t 0x54 == 1) = true := by
  decide +kernel

/-- V-BR-2. -/
theorem test_brGet_end : after (exec .brGet (ready .brGet State.reset))
    (fun t => status t == 0x602 && readWord t 0x14 == 0 && readWord t 0x50 == 0x800) = true := by decide +kernel

/-- V-CX-1: the container of "aaabbc". -/
theorem test_compress : after (exec .compress (ready .compress text))
    (fun t => status t == 2 && readWord t 0x30 == 1030 && readWord t 0x3C == 0x80000004 &&
      t.mem == text.mem ++ (container 1030 6).mem) = true := by decide +kernel

/-- V-CX-11: overlapping regions. -/
theorem test_compress_overlap :
    after (exec .compress (ready .compress (withRegions 0x10000 6 0x10004 0x10 State.reset)))
      (fun t => status t == 0x1202 && readWord t 0x30 == 0) = true := by decide +kernel

/-- V-DX-1: and back. -/
theorem test_decompress : after (exec .decompress (ready .decompress (container 1030 6)))
    (fun t => status t == 2 && readWord t 0x30 == 6 && readWord t 0x54 == 1030 && readWord t 0x50 == 0x100 &&
      (List.range 6).map (fun o => Mem.read t.mem (0x30000 + o)) == [0x61, 0x61, 0x61, 0x62, 0x62, 0x63]) = true := by
  decide +kernel

/-- V-SRC-4: the container without its last byte. -/
theorem test_decompress_truncated : after (exec .decompress (ready .decompress (container 1029 6)))
    (fun t => status t == 0x40202 && readWord t 0x30 == 0 && readWord t 0x34 == 5 && readWord t 0x54 == 1029) =
      true := by decide +kernel

/-! ## The whole machine -/

/-- R84: an illegal word's step. -/
theorem test_illegal_word : after (step (State.reset.accept 0x80000070)) (fun t => status t == 0x1002) = true := by
  decide +kernel

/-- R272: CMD while busy. -/
theorem test_overrun : after (hostAct (.writeReg 0x0004 4 0x10) (ready .nop State.reset))
    (fun t => t.int.overrun && t.cmdWord == 0) = true := by decide +kernel

/-- R66: a 16-bit access. -/
theorem test_narrow_access : after (hostAct (.writeReg 0x000C 2 1) State.reset)
    (fun t => t.resp == .busError && t.irqEn == false) = true := by decide +kernel

/-! ## Witnesses: for each obligation with hypotheses, states and operands that meet them together -/

theorem accepted_ready (i : Instr) (s : State) : Accepted (ready i s) := ⟨rfl, rfl, rfl⟩

theorem exists_next {i : Instr} {s : State} (h : after (exec i s) (fun _ => true) = true) :
    ∃ t, exec i s = .next t := (of_after h).imp fun _ h => h.1

theorem test_witness_EncodeOfDecode : decode 0x0001FF21#32 = .command (.pqInsert 0x1FF) := by decide

theorem test_witness_LegalWordsByMaskAndMatch :
    (selectsRow 0x00000151#32 = true ∧ selectsRow 0x00000251#32 = false) := by decide

theorem test_witness_StepRunsDecodedInstruction :
    (coreMoves (ready .brGet State.reset) = true ∧ decode (ready .brGet State.reset).cmdWord = .command .brGet) ∧
      decodeTableWord 32 0xFF11 = some (.ftCount 0xFF) := by decide +kernel

theorem test_witness_IllegalWordOnlyCompletes :
    coreMoves (State.reset.accept 0x00000100) = true ∧ Accepted (State.reset.accept 0x00000100) ∧
      decode (State.reset.accept 0x00000100).cmdWord = .illegal .operandBits :=
  ⟨by decide +kernel, ⟨rfl, rfl, rfl⟩, by decide +kernel⟩

theorem test_witness_CmdWriteWhileBusySetsOverrun : (ready .nop State.reset).status.busy = true := rfl

theorem test_witness_HostRunsACommand :
    State.reset.status.busy = false ∧
      ({ State.reset with inbox := [.writeReg 0x0004#15 4 0x22, .wait] } : State).inbox =
        .writeReg 0x0004#15 4 0x22 :: .wait :: [] ∧ decode 0x22 = .command .pqExtract := ⟨rfl, rfl, by decide⟩

theorem test_witness_CompletionWritesBusyDonePend : ∃ t, exec .brGet (ready .brGet text) = .next t :=
  exists_next (by decide +kernel)

theorem test_witness_PossibleStatusCodes :
    (Accepted (ready .pqExtract State.reset) ∧ ∃ t, exec .pqExtract (ready .pqExtract State.reset) = .next t) ∧
      Accepted (State.reset.accept 0x13) ∧ ∃ t, execIllegal (State.reset.accept 0x13) = .next t :=
  ⟨⟨accepted_ready _ _, exists_next (by decide +kernel)⟩, ⟨rfl, rfl, rfl⟩, ⟨_, rfl⟩⟩

theorem exists_detail {i : Instr} {s : State} {d : Detail}
    (h : after (exec i s) (fun t => t.status.code == .ioError && t.status.detail == d) = true) :
    ∃ t, exec i s = .next t ∧ t.status.code = .ioError ∧ t.status.detail = d :=
  (of_after h).imp fun _ h => ⟨h.1, by simpa using h.2⟩

/-- A command that ends well, a BR_GET that faults, a BW_PUT of the eighth bit that faults, one with no room, and a
COMPRESS and a DECOMPRESS whose output is one byte longer than DST. -/
theorem test_witness_ErrAddrNamesTheAccess :
    (∃ t, exec .brGet (ready .brGet State.reset) = .next t ∧ t.status.code ≠ .ioError) ∧
    (∃ t, exec .brGet (ready .brGet { text with busFault := [(.read, 0x10000)] }) = .next t ∧
      t.status.code = .ioError ∧ t.status.detail = .srcReadFault) ∧
    (∃ t, exec (.bwPut true) (ready (.bwPut true) (sevenBits { text with busFault := [(.write, 0x20000)] })) =
      .next t ∧ t.status.code = .ioError ∧ t.status.detail = .dstWriteFault) ∧
    (∃ t, exec (.bwPut true) (ready (.bwPut true) (sevenBits State.reset)) = .next t ∧
      t.status.code = .ioError ∧ t.status.detail = .dstFull) ∧
    (∃ t, exec .compress (ready .compress (withRegions 0x10000 6 0x20000 1029 text)) = .next t ∧
      t.status.code = .ioError ∧ t.status.detail = .dstFull) ∧
    ∃ t, exec .decompress (ready .decompress (container 1030 5)) = .next t ∧
      t.status.code = .ioError ∧ t.status.detail = .dstFull :=
  ⟨(of_after (f := fun t => t.status.code != .ioError) (by decide +kernel)).imp fun t h => ⟨h.1, by simpa using h.2⟩,
    exists_detail (by decide +kernel), exists_detail (by decide +kernel), exists_detail (by decide +kernel),
    exists_detail (by decide +kernel), exists_detail (by decide +kernel)⟩

theorem test_witness_OnlyTheNamedWritersWrite : ∃ t, exec .ftScan (ready .ftScan text) = .next t :=
  exists_next (by decide +kernel)

theorem test_witness_MemoryWrittenOnlyInDst :
    ∃ t, exec .bwFlush (ready .bwFlush (sevenBits text)) = .next t := exists_next (by decide +kernel)

/-- A region past the top for each command shape, an overlap, the highest valid regions and their bytes. -/
theorem test_witness_BadRegionBeforeAnyOtherEffect :
    (Accepted (ready .ftScan (withRegions 0xFFFFFFFF 2 0 0 State.reset)) ∧
      ¬ regionOk .ftScan (withRegions 0xFFFFFFFF 2 0 0 State.reset).region) ∧
    ¬ regionOk .bwFlush (withRegions 0 0 0xFFFFFFF0 0x20 State.reset).region ∧
    ¬ regionOk .compress (withRegions 0x10000 6 0x10004 0x10 State.reset).region ∧
    ¬ regionOk .decompress (withRegions 0xFFFFFFFF 2 0 0 State.reset).region ∧
    regionOk .compress (withRegions 0xFFFFFFFF 1 0 0 State.reset).region ∧
    (∃ t, exec .compress (ready .compress (withRegions 0xFFFFFFFF 1 0 0 State.reset)) = .next t) ∧
    (srcInSpace (withRegions 0xFFFFFFFF 1 0 0 State.reset).region ∧
      0 < (withRegions 0xFFFFFFFF 1 0 0 State.reset).region.srcLen.toNat) ∧
    dstInSpace (withRegions 0 0 0xFFFFFFFF 1 State.reset).region ∧
      0 < (withRegions 0 0 0xFFFFFFFF 1 State.reset).region.dstCap.toNat := by
  refine ⟨⟨accepted_ready _ _, ?_⟩, ?_, ?_, ?_, ?_, exists_next (by decide +kernel), ?_, ?_⟩ <;>
    simp [regionOk, srcInSpace, dstInSpace, regionsApart, withRegions]

/-- The first and last plain registers, CMD, CTRL, INT, and one that a busy block ignores. -/
theorem test_witness_HostWritesIdleAndBusy :
    (∀ off : BitVec 15, off ∈ [0x0C#15, 0x10#15, 0x20#15, 0x38#15, 0x400#15, 0x7FC#15, 0x04#15] → off.toNat % 4 = 0) ∧
      State.reset.status.busy = false ∧ plainRegister 0x20 ∧ plainRegister 0x2C ∧ plainRegister 0x38 ∧
      plainRegister 0x400 ∧ plainRegister 0x7FC ∧ (ready .nop State.reset).status.busy = true ∧
      ¬ plainRegister 0x3C ∧ ¬ plainRegister 0x3FC ∧ ¬ plainRegister 0x800 ∧ 0x7FC#15 ≠ 0x400#15 := by
  refine ⟨by simp, rfl, ?_, ?_, ?_, ?_, ?_, rfl, ?_, ?_, ?_, by decide⟩ <;> simp [plainRegister]

theorem test_witness_ReservedReadsZeroAndIgnoresWrites :
    State.reset.status.busy = false ∧
    (∀ off ∈ [0x1C, 0x58, 0x3FC, 0x800, 0x1FFC, 0x3FF0, 0x3FFC, 0x4024, 0x7FFC], off % 4 = 0 ∧ reservedOffset off) ∧
    (∀ off ∈ [0x00, 0x08, 0x14, 0x18, 0x30, 0x34, 0x3C, 0x54, 0x2000, 0x3FEC, 0x4000, 0x7FE0],
      off % 4 = 0 ∧ readOnlyOffset off) ∧
    ∀ off ∈ [0x04, 0x0C, 0x10, 0x20, 0x2C, 0x38, 0x400, 0x7FC], ¬ reservedOffset off ∧ ¬ readOnlyOffset off := by
  refine ⟨rfl, ?_, ?_, ?_⟩ <;> simp [reservedOffset, readOnlyOffset]

/-- The last offset, an idle state whose queue is full, and a command. -/
theorem test_witness_RegistersReadTheState :
    (0x7FFC#15).toNat % 4 = 0 ∧ State.reset.status.busy = false ∧
    ({ State.reset with pq := List.replicate 511 { weight := 0, index := 0 } } : State).pq.length ≤ 511 ∧
    Accepted (ready .nop State.reset) ∧ ∃ t, exec .nop (ready .nop State.reset) = .next t :=
  ⟨by decide, rfl, Nat.le_of_eq List.length_replicate, accepted_ready _ _, ⟨_, rfl⟩⟩

theorem test_witness_MisalignedAccessHasNoEffect :
    ((2 : Nat) ≠ 4 ∨ (0x08#15).toNat % 4 ≠ 0) ∧ ((4 : Nat) ≠ 4 ∨ (0x0A#15).toNat % 4 ≠ 0) := by decide

theorem test_witness_WindowShowsNodesAndCodes :
    ({ State.reset with codes := abcCodes } : State).status.busy = false ∧
    (codeOf abcCodes 0x62).length ≤ 255 ∧ (codeOf abcCodes 0xFF).length ≤ 255 ∧
    ∀ i, i < 3 → i < twoLeaves.nodeCount.toNat ∧ (twoLeaves.nodes[i]?).isSome = true := by decide +kernel

/-- The ends of both regions while busy, the addresses beside them, and an idle block. -/
theorem test_witness_HostMemoryMovesAndDuty :
    ((ready .nop text).status.busy = true ∧ text.status.busy = false ∧ Mem.wf text.mem) ∧
    (dstHolds (ready .nop text).region 0x20000 ∧ dstHolds (ready .nop text).region 0x2FFFF) ∧
    (srcHolds (ready .nop text).region 0x10000 ∧ srcHolds (ready .nop text).region 0x10005) ∧
    (¬ dstHolds (ready .nop text).region 0x30000 ∧ ¬ srcHolds (ready .nop text).region 0x30000) ∧
    (¬ dstHolds (ready .nop text).region 0x10006 ∧ ¬ srcHolds (ready .nop text).region 0x10006) ∧
    ((.read : AccessKind) ≠ .write ∨ (0x10006 : Word) ≠ 0x10006) := by
  refine ⟨⟨rfl, rfl, by decide +kernel⟩, ?_, ?_, ?_, ?_, by decide⟩ <;>
    simp [dstHolds, srcHolds, ready, State.accept, text, withRegions]

theorem test_witness_IrqFollowsCompletion :
    (∃ t, exec .pqExtract (ready .pqExtract State.reset) = .next t) ∧ (1#32).getLsbD 0 = true ∧
      ∃ t, hostAct (.writeReg 0x0010#15 4 1) State.reset = .next t :=
  ⟨exists_next (by decide +kernel), by decide, ⟨_, rfl⟩⟩

theorem test_witness_ResetRegisterValues :
    ∀ off ∈ [0x04#15, 0x4C#15, 0x54#15, 0x1FFC#15, 0x3FF0#15, 0x7FFC#15], off.toNat % 4 = 0 ∧ off.toNat ≠ 0x00 ∧
      off.toNat ≠ 0x50 ∧ (off.toNat < 0x2000 ∨ 0x3FF0 ≤ off.toNat) := by simp

/-- An idle state and a busy one. -/
theorem test_witness_ResetEventRestoresTheBlock :
    text.status.busy = false ∧ (ready .compress text).status.busy = true := ⟨rfl, rfl⟩

theorem test_witness_NopOnlyCompletes : Accepted (ready .nop text) := accepted_ready _ _
theorem test_witness_FtClearZeroesTheTable : Accepted (ready .ftClear text) := accepted_ready _ _

/-- Both full counters, and a table that is not. -/
theorem test_witness_FtCountAddsOne :
    Accepted (ready (.ftCount 0xFF) State.reset) ∧
    ((ready (.ftCount 0xFF) State.reset).ft.at 0xFF).toNat ≠ 2 ^ 32 - 1 ∧
    (State.reset.ft.total).toNat ≠ 2 ^ 32 - 1 ∧
    (({ FreqTable.clear with total := 0xFFFFFFFF } : FreqTable).total).toNat = 2 ^ 32 - 1 ∧
    (FreqTable.at { FreqTable.clear with count := Vector.replicate 256 0xFFFFFFFF } 0xFF).toNat = 2 ^ 32 - 1 :=
  ⟨accepted_ready _ _, by decide +kernel⟩

/-- A region past the top, one that reads without fault, one whose last byte is the first to fault. -/
theorem test_witness_FtScanCountsTheSource :
    Accepted (ready .ftScan text) ∧
    (ready .ftScan (withRegions 0xFFFFFFFF 2 0 0 State.reset)).region.validSrc = false ∧
    ((ready .ftScan text).region.validSrc = true ∧ SrcReadable (ready .ftScan text)) ∧
    (5 < (ready .ftScan text).region.srcLen.toNat ∧
      srcFaults (ready .ftScan { text with busFault := [(.read, 0x10005)] }) 5 = true ∧
      ∀ k, k < 5 → srcFaults (ready .ftScan { text with busFault := [(.read, 0x10005)] }) k = false) :=
  ⟨accepted_ready _ _, by decide +kernel, ⟨by decide +kernel, fun _ _ => rfl⟩, by decide +kernel⟩

theorem test_witness_PqClearEmptiesTheQueue :
    Accepted (ready .pqClear { State.reset with pq := [{ weight := 1, index := 2 }] }) := accepted_ready _ _

/-- No such node, a full queue, and room. -/
theorem test_witness_PqInsertAddsTheEntry :
    (Accepted (ready (.pqInsert 2) { State.reset with tree := twoLeaves }) ∧
      (ready (.pqInsert 2) { State.reset with tree := twoLeaves }).tree.nodeCount.toNat ≤ 511) ∧
    twoLeaves.nodeCount.toNat ≤ (3#9).toNat ∧ ¬ twoLeaves.nodeCount.toNat ≤ (2#9).toNat ∧
    511 ≤ (List.replicate 511 ({ weight := 1, index := 0 } : Entry)).length :=
  ⟨⟨accepted_ready _ _, by decide +kernel⟩, by decide +kernel⟩

theorem test_witness_PqExtractReturnsTheLeast :
    Accepted (ready .pqExtract State.reset) ∧ (ready .pqExtract State.reset).pq = [] ∧
      (ready .pqExtract { State.reset with pq := [{ weight := 1, index := 2 }] }).pq ≠ [] :=
  ⟨accepted_ready _ _, rfl, by decide +kernel⟩

theorem test_witness_QueueForgetsInsertionOrder :
    ([{ weight := 1, index := 4 }, { weight := 1, index := 1 }] : List Entry).Perm
      [{ weight := 1, index := 1 }, { weight := 1, index := 4 }] := List.Perm.swap _ _ _

/-- No counted symbol, with and without a total, and one. -/
theorem test_witness_TreeBuildCompletes :
    Accepted (ready .treeBuild State.reset) ∧ symbolsUsed State.reset.ft = 0 ∧ State.reset.ft.total = 0 ∧
      symbolsUsed { FreqTable.clear with total := 5 } = 0 ∧ symbolsUsed (tableOfBytes [0x61]) ≠ 0 :=
  ⟨accepted_ready _ _, by decide +kernel⟩

theorem test_witness_TreeBuildShape :
    Accepted (ready .treeBuild { State.reset with ft := tableOfBytes [0x61, 0x62] }) ∧
      (∃ t, exec .treeBuild (ready .treeBuild { State.reset with ft := tableOfBytes [0x61, 0x62] }) = .next t) ∧
      symbolsUsed (tableOfBytes [0x61, 0x62]) ≠ 0 :=
  ⟨accepted_ready _ _, exists_next (by decide +kernel), by decide +kernel⟩

/-- A machine that holds the tree of "ab" and has an entry queued. -/
def afterTwoLeaves : State := { State.reset with tree := twoLeaves, pq := [{ weight := 1, index := 0 }] }

/-- Equal tables, and different queues and node stores before. -/
theorem test_witness_TreeBuildIsDeterministic :
    (∃ t, exec .treeBuild { State.reset with ft := tableOfBytes [0x61] } = .next t) ∧
      (∃ t, exec .treeBuild { afterTwoLeaves with ft := tableOfBytes [0x61] } = .next t) ∧
      State.reset.pq ≠ afterTwoLeaves.pq ∧ State.reset.tree ≠ afterTwoLeaves.tree :=
  ⟨exists_next (by decide +kernel), exists_next (by decide +kernel), by decide +kernel, by decide +kernel⟩

theorem test_treeInv_none : TreeInv State.reset.tree := .inl ⟨rfl, rfl, rfl⟩

theorem test_treeInv_oneLeaf : TreeInv oneLeaf := by
  refine .inr ⟨rfl, 1, by decide, by decide, ?_⟩
  constructor
  · decide
  · decide
  · intro i hi
    obtain rfl : i = 0 := by omega
    exact ⟨leafNode 3 0x41, rfl, rfl, rfl, rfl⟩
  · intro i j m n hi hj; omega
  · intro c hc hc2; omega
  · intro d hd; omega

theorem twoLeaves_child {c d : Nat} {right : Bool} (h : hasChild twoLeaves c right d) (hc : 2 ≤ c) (hc3 : c < 3) :
    c = 2 ∧ d = right.toNat := by
  obtain rfl : c = 2 := by omega
  obtain ⟨n, hn, -, hd⟩ := h
  obtain rfl : n = { weight := 2, leaf := false, symbol := 0, left := 0, right := 1 } :=
    (Option.some.inj hn).symm
  cases right <;> exact ⟨rfl, hd.symm⟩

theorem test_treeInv_twoLeaves : TreeInv twoLeaves := by
  refine .inr ⟨rfl, 2, by decide, by decide, ?_⟩
  constructor
  · decide
  · decide
  · intro i hi
    obtain rfl | rfl : i = 0 ∨ i = 1 := by omega
    · exact ⟨leafNode 1 0x61, rfl, rfl, rfl, rfl⟩
    · exact ⟨leafNode 1 0x62, rfl, rfl, rfl, rfl⟩
  · intro i j m n hi hj hm hn
    obtain ⟨rfl, rfl⟩ : i = 0 ∧ j = 1 := by omega
    obtain rfl : m = leafNode 1 0x61 := (Option.some.inj hm).symm
    obtain rfl : n = leafNode 1 0x62 := (Option.some.inj hn).symm
    decide
  · intro c hc hc2
    obtain rfl : c = 2 := by omega
    exact ⟨_, leafNode 1 0x61, leafNode 1 0x62, rfl, rfl, rfl, by decide, by decide, by decide, rfl, rfl, rfl⟩
  · intro d hd
    refine ⟨2, d == 1, by omega, by omega, ⟨_, rfl, rfl, ?_⟩, fun c r hc hc2 h => ?_⟩
    · obtain rfl | rfl : d = 0 ∨ d = 1 := by omega
      · rfl
      · rfl
    · obtain ⟨rfl, h2⟩ := twoLeaves_child h hc (by omega)
      refine ⟨rfl, ?_⟩
      cases r <;> simp_all

/-- No tree, a single leaf, and an internal root. -/
theorem test_witness_CodeGenReadsOffThePaths :
    Accepted (ready .codeGen State.reset) ∧ (TreeInv State.reset.tree ∧ State.reset.tree.valid = false) ∧
    (TreeInv oneLeaf ∧ oneLeaf.valid = true ∧ ∃ r, oneLeaf.node oneLeaf.root = some r ∧ r.leaf = true) ∧
    (TreeInv twoLeaves ∧ twoLeaves.valid = true ∧
      ∃ r, twoLeaves.node twoLeaves.root = some r ∧ r.leaf = false ∧ ([true] : Bits) ≠ []) :=
  ⟨accepted_ready _ _, ⟨test_treeInv_none, rfl⟩, ⟨test_treeInv_oneLeaf, rfl, ⟨_, rfl, rfl⟩⟩,
    ⟨test_treeInv_twoLeaves, rfl, ⟨_, rfl, rfl, by decide⟩⟩⟩

theorem test_witness_CodesExactlyForCountedSymbols :
    ∃ t u, exec .treeBuild { State.reset with ft := tableOfBytes [0x61, 0x62] } = .next t ∧
      exec .codeGen (t.accept 0x40) = .next u := by
  obtain ⟨t, h, h2⟩ := of_after (o := exec .treeBuild { State.reset with ft := tableOfBytes [0x61, 0x62] })
    (f := fun t => after (exec .codeGen (t.accept 0x40)) fun _ => true) (by decide +kernel)
  exact ⟨t, (exists_next h2).choose, h, (exists_next h2).choose_spec⟩

theorem test_witness_CodesArePrefixFree :
    TreeInv twoLeaves ∧ ∃ t, exec .codeGen { State.reset with tree := twoLeaves } = .next t ∧
      codeOf t.codes 0x61 ≠ [] ∧ codeOf t.codes 0x62 ≠ [] ∧ codeOf t.codes 0x61 <+: codeOf t.codes 0x61 :=
  ⟨test_treeInv_twoLeaves, (of_after (o := exec .codeGen { State.reset with tree := twoLeaves })
    (f := fun t => codeOf t.codes 0x61 != [] && codeOf t.codes 0x62 != []) (by decide +kernel)).imp
      fun t h => by simpa [-List.isEmpty_iff] using h⟩

theorem test_witness_BwResetEmptiesTheWriter : Accepted (ready .bwReset (sevenBits text)) := accepted_ready _ _

/-- The bad region, and the eighth and another bit, over no room, a fault and a plain byte. -/
theorem test_witness_BwPutAppendsOneBit :
    (Accepted (ready (.bwPut true) (sevenBits text)) ∧ WriterInv (ready (.bwPut true) (sevenBits text)).bw ∧
      Mem.wf (ready (.bwPut true) (sevenBits text)).mem) ∧
    (withRegions 0 0 0xFFFFFFF0 0x20 State.reset).region.validDst = false ∧
    (sevenBits text).region.validDst = true ∧ (sevenBits text).bw.nbits.toNat = 7 ∧ text.bw.nbits.toNat ≠ 7 ∧
    (State.reset.region.dstCap.toNat ≤ (sevenBits State.reset).bw.pos.toNat) ∧
    dstFaults { text with busFault := [(.write, 0x20000)] } 0 = true ∧ dstFaults text 0 = false :=
  ⟨⟨accepted_ready _ _, ⟨by decide, by decide⟩, by decide +kernel⟩, by decide +kernel⟩

/-- As for BW_PUT, with and without a bit pending. -/
theorem test_witness_BwFlushPadsTheLastByte :
    (Accepted (ready .bwFlush (sevenBits text)) ∧ WriterInv (ready .bwFlush (sevenBits text)).bw ∧
      Mem.wf (ready .bwFlush (sevenBits text)).mem) ∧
    (withRegions 0 0 0xFFFFFFF0 0x20 State.reset).region.validDst = false ∧
    text.bw.nbits = 0 ∧ (sevenBits text).bw.nbits ≠ 0 :=
  ⟨⟨accepted_ready _ _, ⟨by decide, by decide⟩, by decide +kernel⟩, by decide +kernel⟩

/-- The bad region, no code, a code that fits, no room and a fault. -/
theorem test_witness_BwPutCodeAppendsTheCode :
    (Accepted (ready (.bwPutCode 0x62) (sevenBits { text with codes := abcCodes })) ∧
      WriterInv (ready (.bwPutCode 0x62) (sevenBits { text with codes := abcCodes })).bw ∧
      Mem.wf (ready (.bwPutCode 0x62) (sevenBits { text with codes := abcCodes })).mem) ∧
    (text.region.validDst = true ∧ codeOf abcCodes 0x62 ≠ [] ∧
      DstWritable (ready (.bwPutCode 0x62) (sevenBits { text with codes := abcCodes })) ∧
      (bitsHeld (sevenBits text).bw + (codeOf abcCodes 0x62).length) / 8 ≤ text.region.dstCap.toNat) ∧
    (withRegions 0 0 0xFFFFFFF0 0x20 State.reset).region.validDst = false ∧ codeOf abcCodes 0x7A = [] ∧
    State.reset.region.dstCap.toNat ≤ (sevenBits State.reset).bw.pos.toNat ∧
    dstFaults { text with busFault := [(.write, 0x20000)] } 0 = true :=
  ⟨⟨accepted_ready _ _, ⟨by decide, by decide⟩, by decide +kernel⟩,
    ⟨by decide +kernel, by decide +kernel, fun _ _ => rfl, by decide +kernel⟩, by decide +kernel⟩

/-- How a piece of pseudocode that reaches its end does. -/
def okState {α : Type} (r : Res α) : Option State :=
  match r with
  | .ok _ s => some s
  | .raise _ _ => none
  | .fault _ => none

theorem ok_of_isSome {r : Res Unit} (h : (okState r).isSome = true) : ∃ s, r = .ok () s := by
  cases r with
  | ok a s => exact ⟨s, rfl⟩
  | raise e s => simp [okState] at h
  | fault w => simp [okState] at h

/-- Nine bits, so one whole byte and one padded. -/
theorem test_witness_WriterPacksBitsMsbFirst :
    text.bw = Writer.empty ∧ text.region.validDst = true ∧ Mem.wf text.mem ∧
      ∃ t u, putBits (List.replicate 9 true) text = .ok () t ∧ flushBody t = .ok () u := by
  refine ⟨rfl, by decide +kernel, by decide +kernel, ?_⟩
  obtain ⟨u, hu⟩ := ok_of_isSome (r := (putBits (List.replicate 9 true) text).bind fun _ t => flushBody t)
    (by decide +kernel)
  obtain ⟨_, t, ht, hu⟩ := Res.bind_eq_ok.mp hu
  exact ⟨t, u, ht, hu⟩

theorem test_witness_BrResetEmptiesTheReader : Accepted (ready .brReset text) := accepted_ready _ _

/-- The bad region, a buffered bit, the end of SRC, a fault, and a fresh byte. -/
theorem test_witness_BrGetReturnsTheNextBit :
    (Accepted (ready .brGet text) ∧ ReaderInv (ready .brGet text).br) ∧
    (withRegions 0xFFFFFFFF 2 0 0 State.reset).region.validSrc = false ∧ text.region.validSrc = true ∧
    ({ cur := 0xA5, cursor := 7, pos := 1 } : Reader).cursor.toNat < 8 ∧ ¬ text.br.cursor.toNat < 8 ∧
    State.reset.region.srcLen.toNat ≤ State.reset.br.pos.toNat ∧
    ¬ text.region.srcLen.toNat ≤ text.br.pos.toNat ∧
    srcFaults { text with busFault := [(.read, 0x10000)] } 0 = true ∧ srcFaults text 0 = false :=
  ⟨⟨accepted_ready _ _, Nat.le_refl 8⟩, by decide +kernel⟩

/-- Bits inside SRC and one past it. -/
theorem test_witness_ReaderYieldsTheStream :
    text.br = Reader.emptyAt 0 ∧ SrcReadable text ∧ 47 < 8 * text.region.srcLen.toNat ∧
      ¬ 48 < 8 * text.region.srcLen.toNat := ⟨rfl, fun _ _ => rfl, by decide, by decide⟩

/-- What COMPRESS leaves of "aaabbc" (V-CX-1). -/
theorem compress_text :
    ∃ t, exec .compress (ready .compress text) = .next t ∧ t.status.code = .ok ∧ t.outLen = 1030 ∧
      t.region.dstBase = 0x20000 ∧ t.busFault = [] ∧ Mem.wf t.mem := by
  obtain ⟨t, ht, h⟩ := of_after (o := exec .compress (ready .compress text)) (f := fun t =>
    t.status.code == .ok && (t.outLen == 1030 && (t.region.dstBase == 0x20000 && (t.busFault == [] &&
      t.mem == text.mem ++ (container 1030 6).mem)))) (by decide +kernel)
  simp only [Bool.and_eq_true, beq_iff_eq] at h
  exact ⟨t, ht, h.1, h.2.1, h.2.2.1, h.2.2.2.1, h.2.2.2.2 ▸ by decide +kernel⟩

/-- Room for the container of six bytes, which is 1030 long (V-CX-1), and DST_CAP 1029, one short. -/
theorem test_witness_CompressWritesTheContainer :
    ∀ cap ∈ [(0x10000 : Word), 1029],
      Accepted (ready .compress (withRegions 0x10000 6 0x20000 cap text)) ∧
      (ready .compress (withRegions 0x10000 6 0x20000 cap text)).region.codecOk = true ∧
      SrcReadable (ready .compress (withRegions 0x10000 6 0x20000 cap text)) ∧
      DstWritable (ready .compress (withRegions 0x10000 6 0x20000 cap text)) ∧
      Mem.wf (ready .compress (withRegions 0x10000 6 0x20000 cap text)).mem := by
  intro cap hcap
  refine ⟨accepted_ready _ _, ?_, fun _ _ => rfl, fun _ _ => rfl, ?_⟩
  · obtain rfl | rfl : cap = 0x10000 ∨ cap = 1029 := by simpa using hcap
    · decide +kernel
    · decide +kernel
  · show Mem.wf text.mem
    decide +kernel

/-- A machine that holds the same text and counted a z before. -/
def textAgain : State := { text with ft := { FreqTable.clear with total := 1 } }

/-- Equal texts, and different tables before. -/
theorem test_witness_CompressIsDeterministic :
    ∃ t1 t2 : State, (Accepted (ready .compress text) ∧ Accepted (ready .compress textAgain) ∧
        text.ft.total ≠ textAgain.ft.total) ∧
      Mem.wf (ready .compress text).mem ∧ Mem.wf (ready .compress textAgain).mem ∧
      srcBytes (ready .compress text) = srcBytes (ready .compress textAgain) ∧
      exec .compress (ready .compress text) = .next t1 ∧ exec .compress (ready .compress textAgain) = .next t2 ∧
      t1.status.code = .ok ∧ t2.status.code = .ok := by
  obtain ⟨t1, h1, hc, -⟩ := compress_text
  obtain ⟨t2, h2, h2'⟩ := of_after (o := exec .compress (ready .compress textAgain))
    (f := fun t => t.status.code == .ok) (by decide +kernel)
  exact ⟨t1, t2, ⟨accepted_ready _ _, accepted_ready _ _, by decide⟩, by decide +kernel, by decide +kernel,
    srcBytes_congr rfl rfl, h1, h2, hc, by simpa using h2'⟩

theorem test_witness_FailureCommitsNoContainer :
    (Accepted (ready .compress (withRegions 0x10000 6 0x10004 0x10 State.reset)) ∧
      ∃ t, exec .compress (ready .compress (withRegions 0x10000 6 0x10004 0x10 State.reset)) = .next t ∧
        t.status.code ≠ .ok) ∧
    Accepted (ready .decompress (container 1027 6)) ∧
      ∃ t, exec .decompress (ready .decompress (container 1027 6)) = .next t ∧ t.status.code ≠ .ok :=
  ⟨⟨accepted_ready _ _, (of_after (f := fun t => t.status.code != .ok) (by decide +kernel)).imp
      fun t h => ⟨h.1, by simpa using h.2⟩⟩,
    accepted_ready _ _, (of_after (f := fun t => t.status.code != .ok) (by decide +kernel)).imp
      fun t h => ⟨h.1, by simpa using h.2⟩⟩

/-- A 1028-byte header in SRC of which only the bytes listed are not 0. -/
def header (mem : List Host.Cell) : State := { withRegions 0x20000 1028 0x30000 6 State.reset with mem := mem }

/-- One state per clause: 1027 bytes; the last header byte faults; T = 1 and no count; T = 7 over the counts of
"aaabbc"; nothing at all. -/
theorem test_witness_DecompressChecksTheHeader :
    (Accepted (ready .decompress (container 1027 6)) ∧ (container 1027 6).region.codecOk = true ∧
      (container 1027 6).region.srcLen.toNat < 1028) ∧
    (1027 < 1028 ∧ srcFaults { container 1028 6 with busFault := [(.read, 0x20403)] } 1027 = true ∧
      ∀ k, k < 1027 → srcFaults { container 1028 6 with busFault := [(.read, 0x20403)] } k = false) ∧
    (headerSum (header [(0x20000, 1)]) = 0 ∧ headerTotal (header [(0x20000, 1)]) ≠ 0) ∧
    (headerSum (header [(0x20000, 7), (0x20188, 3), (0x2018C, 2), (0x20190, 1)]) ≠ 0 ∧
      headerSum (header [(0x20000, 7), (0x20188, 3), (0x2018C, 2), (0x20190, 1)]) ≠
        headerTotal (header [(0x20000, 7), (0x20188, 3), (0x2018C, 2), (0x20190, 1)])) ∧
    (headerSum (header []) = 0 ∧ headerTotal (header []) = 0) ∧
    (∀ o, o < 1028 → srcFaults (header []) o = false) ∧ 1028 ≤ (header []).region.srcLen.toNat ∧
    (header []).region.codecOk = true := by
  refine ⟨⟨accepted_ready _ _, by decide +kernel⟩, by decide +kernel, by decide +kernel, by decide +kernel,
    by decide +kernel, fun _ _ => rfl, by decide +kernel⟩

/-- The container of "aaabbc" on a platform with these faults. -/
def faulty (len cap : Word) (faults : List (AccessKind × Word)) : State := { container len cap with busFault := faults }

theorem sound_container {len cap : Word} {faults : List (AccessKind × Word)}
    (h : (container len cap).region.codecOk = true ∧ 1028 ≤ len.toNat)
    (hr : SrcReadableTo (ready .decompress (faulty len cap faults)) 1028) :
    SoundHeader (ready .decompress (faulty len cap faults)) := by
  refine ⟨accepted_ready _ _, h.1, ?_, h.2, hr, ?_, ?_⟩
  · show Mem.wf (container 0 0).mem
    decide +kernel
  · show headerSum (container 0 0) = headerTotal (container 0 0)
    decide +kernel
  · show headerTotal (container 0 0) ≠ 0
    decide +kernel

theorem decodable_container {len cap : Word}
    (h : (container len cap).region.codecOk = true ∧ 1028 ≤ len.toNat) :
    DecodableHeader (ready .decompress (container len cap)) :=
  ⟨sound_container (faults := []) h fun _ _ => rfl, fun _ _ => rfl, fun _ _ => rfl⟩

theorem payloadBits_eq (s : State) : payloadBits s =
    (List.range (8 * (s.region.srcLen.toNat - 1028))).map fun i => bitAt (srcByte s) (8 * 1028 + i) :=
  bitsOf_srcBytes_drop s 1028

def aaabbc : List Byte := [0x61#8, 0x61#8, 0x61#8, 0x62#8, 0x62#8, 0x63#8]
def aaabb : List Byte := [0x61#8, 0x61#8, 0x61#8, 0x62#8, 0x62#8]

theorem payload_of_container (len cap : Word) : payloadBits (ready .decompress (container len cap)) =
    (List.range (8 * (len.toNat - 1028))).map fun i =>
      bitAt (fun j => Mem.read (container 0 0).mem (0x20000 + BitVec.ofNat 32 j : Word).toNat) (8 * 1028 + i) :=
  payloadBits_eq _

/-- The codes of the header's table, as DECOMPRESS leaves them. -/
theorem container_codes (len cap : Word) (h : (len, cap) ∈ [((1030 : Word), (5 : Word)), (1030, 6), (1029, 6)]) :
    after (exec .decompress (ready .decompress (container len cap))) (fun t =>
      codeOf t.codes 0x61#8 == [false] && (codeOf t.codes 0x62#8 == [true, true] && codeOf t.codes 0x63#8 == [true, false])) =
      true := by
  simp only [List.mem_cons, Prod.mk.injEq, List.not_mem_nil, or_false] at h
  obtain ⟨rfl, rfl⟩ | ⟨rfl, rfl⟩ | ⟨rfl, rfl⟩ := h <;> decide +kernel

theorem faulty_codes (faults : List (AccessKind × Word)) (h : faults ∈ [[(.read, 0x20405)], [(.write, 0x30005)]]) :
    after (exec .decompress (ready .decompress (faulty 1030 6 faults))) (fun t =>
      codeOf t.codes 0x61#8 == [false] && (codeOf t.codes 0x62#8 == [true, true] && codeOf t.codes 0x63#8 == [true, false])) =
      true := by
  simp only [List.mem_cons, List.not_mem_nil, or_false] at h
  obtain rfl | rfl := h <;> decide +kernel

/-- With room for the six bytes, and with room for five. -/
theorem test_witness_DecompressDecodesTheMessage :
    ∀ cap ∈ [(5 : Word), 6], DecodableHeader (ready .decompress (container 1030 cap)) ∧
      ∃ t, exec .decompress (ready .decompress (container 1030 cap)) = .next t ∧
        aaabbc.length =
          headerTotal (ready .decompress (container 1030 cap)) ∧
        (∀ b, b ∈ aaabbc → codeOf t.codes b ≠ []) ∧
        codeBits t.codes aaabbc <+:
          payloadBits (ready .decompress (container 1030 cap)) := by
  intro cap hcap
  obtain ⟨t, ht, h⟩ := of_after (container_codes 1030 cap (by simpa using hcap))
  simp only [Bool.and_eq_true, beq_iff_eq] at h
  have hr : (container 1030 cap).region.codecOk = true ∧ 1028 ≤ (1030 : Word).toNat := by
    clear ht h
    obtain rfl | rfl : cap = 5 ∨ cap = 6 := by simpa using hcap
    · decide +kernel
    · decide +kernel
  refine ⟨decodable_container hr, t, ht, ?_, ?_, ?_⟩
  · show 6 = headerTotal (container 0 0)
    decide +kernel
  · simp [aaabbc, h]
  · simp only [codeBits, aaabbc, List.flatMap_cons, List.flatMap_nil, h]
    rw [payload_of_container]
    decide +kernel

/-- The last byte of the container gone, five symbols decode and one bit of the next code is left (V-SRC-4). -/
theorem test_witness_DecompressDetectsTruncation :
    DecodableHeader (ready .decompress (container 1029 6)) ∧
      headerTotal (ready .decompress (container 1029 6)) ≤ (container 1029 6).region.dstCap.toNat ∧
      ∃ t, exec .decompress (ready .decompress (container 1029 6)) = .next t ∧
        aaabb.length < headerTotal (ready .decompress (container 1029 6)) ∧
        (∀ b, b ∈ aaabb → codeOf t.codes b ≠ []) ∧
        payloadBits (ready .decompress (container 1029 6)) = codeBits t.codes aaabb ++ [true] ∧
        ∃ b, codeOf t.codes b ≠ [true] ∧ [true] <+: codeOf t.codes b := by
  obtain ⟨t, ht, h⟩ := of_after (container_codes 1029 6 (by simp))
  simp only [Bool.and_eq_true, beq_iff_eq] at h
  have hT : headerTotal (ready .decompress (container 1029 6)) = 6 := by
    show headerTotal (container 0 0) = 6
    decide +kernel
  refine ⟨decodable_container (by decide +kernel), ?_, t, ht, ?_, ?_, ?_, 0x63#8, ?_⟩
  · rw [hT]; decide
  · rw [hT]; decide
  · simp [aaabb, h]
  · simp only [codeBits, aaabb, List.flatMap_cons, List.flatMap_nil, h]
    rw [payload_of_container]
    decide +kernel
  · simp [h]

/-- "aaa" in a container whose bits are not all 0 (V-DX-14). -/
def single : State :=
  { withRegions 0x20000 1029 0x30000 3 State.reset with mem := [(0x20000, 3), (0x20108, 3), (0x20404, 0xE0)] }

theorem test_witness_SingleSymbolTakesEitherBit :
    DecodableHeader (ready .decompress single) ∧
      headerCount (ready .decompress single) (0x41#8).toNat = headerTotal (ready .decompress single) ∧
      headerTotal (ready .decompress single) ≤ (payloadBits (ready .decompress single)).length ∧
      headerTotal (ready .decompress single) ≤ (ready .decompress single).region.dstCap.toNat := by
  have hT : headerTotal (ready .decompress single) = 3 := by decide +kernel
  refine ⟨⟨⟨accepted_ready _ _, by decide +kernel, by decide +kernel, by decide +kernel, fun _ _ => rfl,
    by decide +kernel, by rw [hT]; decide⟩, fun _ _ => rfl, fun _ _ => rfl⟩, by decide +kernel, ?_, ?_⟩
  · rw [hT, payloadBits_eq]; simp [ready, State.accept, single, withRegions]
  · rw [hT]; decide

/-- The state that decompresses the first `len` bytes of what COMPRESS left in DST at 0x20000 of `t`. -/
def decompressOf (len : Word) (t : State) : State := ready .decompress (withRegions 0x20000 len 0x30000 6 t)

theorem readyToDecompress {t : State} {len : Word} {n : Nat} (hb : t.busFault = []) (hw : Mem.wf t.mem)
    (hbase : t.region.dstBase = 0x20000) (hlen : len.toNat ≤ 0x10000) (hn : n ≤ 6) :
    ReadyToDecompress t (decompressOf len t) len.toNat n := by
  refine ⟨accepted_ready _ _, ?_, fun j _ => ?_, fun o _ => ?_, hw, rfl, hn, fun o _ => ?_⟩
  · simp only [decompressOf, ready, withRegions, State.accept, Region.codecOk, Region.validSrc, Region.validDst,
      Region.disjoint, Config.memSize]
    simp
    omega
  · show List.contains t.busFault _ = false
    simp [hb]
  · show List.contains t.busFault _ = false
    simp [hb]
  · show Mem.read t.mem (0x20000 + BitVec.ofNat 32 o : Word).toNat = dstByte t o
    rw [dstByte, Region.dstAddr, hbase]

/-- The empty input, whose container is a header of zeros. -/
def emptyText : State := withRegions 0x10000 0 0x20000 0x10000 State.reset

theorem compress_empty :
    ∃ t, exec .compress (ready .compress emptyText) = .next t ∧ t.status.code = .ok ∧ t.outLen = 1028 ∧
      t.region.dstBase = 0x20000 ∧ t.busFault = [] ∧ Mem.wf t.mem := by
  obtain ⟨t, ht, h⟩ := of_after (o := exec .compress (ready .compress emptyText)) (f := fun t =>
    t.status.code == .ok && (t.outLen == 1028 && (t.region.dstBase == 0x20000 && (t.busFault == [] &&
      t.mem == [])))) (by decide +kernel)
  simp only [Bool.and_eq_true, beq_iff_eq] at h
  exact ⟨t, ht, h.1, h.2.1, h.2.2.1, h.2.2.2.1, h.2.2.2.2 ▸ Mem.wf_reset⟩

theorem test_witness_DecompressInvertsCompress :
    ∃ t u, Accepted (ready .compress text) ∧ Mem.wf (ready .compress text).mem ∧
      exec .compress (ready .compress text) = .next t ∧ t.status.code = .ok ∧
      ReadyToDecompress t u t.outLen.toNat text.region.srcLen.toNat := by
  obtain ⟨t, ht, hc, ho, hb, hf, hw⟩ := compress_text
  exact ⟨t, decompressOf t.outLen t, accepted_ready _ _, by decide +kernel, ht, hc,
    readyToDecompress hf hw hb (by rw [ho]; decide) (by decide)⟩

/-- A text of six bytes, and none. -/
theorem test_witness_MissingFinalByteIsDetected :
    (∃ t u, exec .compress (ready .compress text) = .next t ∧ t.status.code = .ok ∧
      ReadyToDecompress t u (t.outLen.toNat - 1) text.region.srcLen.toNat) ∧
    (emptyText.region.srcLen = 0 ∧ Mem.wf emptyText.mem) ∧
    ∃ t u, exec .compress (ready .compress emptyText) = .next t ∧ t.status.code = .ok ∧
      ReadyToDecompress t u (t.outLen.toNat - 1) emptyText.region.srcLen.toNat := by
  obtain ⟨t, ht, hc, ho, hb, hf, hw⟩ := compress_text
  obtain ⟨t', ht', hc', ho', hb', hf', hw'⟩ := compress_empty
  refine ⟨⟨t, decompressOf 1029 t, ht, hc, ?_⟩, ⟨rfl, by decide +kernel⟩, t', decompressOf 1027 t', ht', hc', ?_⟩
  · rw [ho]; exact readyToDecompress hf hw hb (by decide) (by decide)
  · rw [ho']; exact readyToDecompress hf' hw' hb' (by decide) (by decide)

/-- An idle block with nothing pending makes a step, and so does a busy one. -/
theorem test_witness_StepKeepsMemoryCanonical :
    (Mem.wf State.reset.mem ∧ ∃ t, step State.reset = .next t) ∧
      Mem.wf (ready .bwFlush (sevenBits text)).mem ∧ ∃ t, step (ready .bwFlush (sevenBits text)) = .next t :=
  ⟨⟨Mem.wf_reset, ⟨_, rfl⟩⟩, by decide +kernel, (of_after (f := fun _ => true) (by decide +kernel)).imp fun _ h => h.1⟩

/-- "ab" compressed: a machine with a tree and codes, idle, that meets the invariant. -/
def withTree : State := { text with tree := twoLeaves, pq := [{ weight := 1, index := 1 }] }

theorem withTree_inv : Inv withTree where
  memory := by decide +kernel
  tree := test_treeInv_twoLeaves
  queue := ⟨by decide, by decide, fun e he => by
    obtain rfl : e = { weight := 1, index := 1 } := by simpa [withTree] using he
    exact ⟨by decide, _, rfl, rfl⟩⟩
  writer := ⟨by decide, by decide⟩
  reader := by show (8 : Nat) ≤ 8; omega
  codes := fun b => by simp [withTree, text, withRegions, State.reset, codeOf]
  running := fun h => absurd h (by decide)

theorem test_witness_StepKeepsTheInvariant : Inv withTree ∧ ∃ t, step withTree = .next t := ⟨withTree_inv, ⟨_, rfl⟩⟩

theorem test_witness_NoStepFromTheInvariantStops : Inv withTree := withTree_inv

/-- COMPRESS of a text whose fourth byte cannot be read, and over a DST whose byte 1029, the container's last, cannot
be written. -/
theorem test_witness_CodecStopsAtTheFirstFault_compress :
    (Accepted (ready .compress { text with busFault := [(.read, 0x10003)] }) ∧ text.region.codecOk = true ∧
      FirstReadFault (ready .compress { text with busFault := [(.read, 0x10003)] }) 3) ∧
    (SrcReadable (ready .compress { text with busFault := [(.write, 0x20405)] }) ∧
      Mem.wf (ready .compress { text with busFault := [(.write, 0x20405)] }).mem) ∧
    ∃ t, exec .compress (ready .compress { text with busFault := [(.write, 0x20405)] }) = .next t ∧
      FirstWriteFault (ready .compress { text with busFault := [(.write, 0x20405)] }) 1029 ∧
      1029 < containerLength t.codes (srcBytes (ready .compress { text with busFault := [(.write, 0x20405)] })) := by
  refine ⟨⟨accepted_ready _ _, by decide +kernel, by decide, by decide +kernel, by unfold SrcReadableTo; decide +kernel⟩,
    ⟨by unfold SrcReadable SrcReadableTo; decide +kernel, by decide +kernel⟩, ?_⟩
  obtain ⟨t, ht, h⟩ := of_after (o := exec .compress (ready .compress { text with busFault := [(.write, 0x20405)] }))
    (f := fun t => decide (1029 < containerLength t.codes [0x61, 0x61, 0x61, 0x62, 0x62, 0x63])) (by decide +kernel)
  refine ⟨t, ht, ⟨by decide, by decide +kernel, by unfold DstWritableTo; decide +kernel⟩, ?_⟩
  have hs : srcBytes (ready .compress { text with busFault := [(.write, 0x20405)] }) =
      [0x61, 0x61, 0x61, 0x62, 0x62, 0x63] := by decide +kernel
  rw [hs]
  exact of_decide_eq_true h

/-- DECOMPRESS of the container of "aaabbc" whose last byte cannot be read: five symbols decode before it. -/
theorem test_witness_CodecStopsAtTheFirstFault_read :
    SoundHeader (ready .decompress (faulty 1030 6 [(.read, 0x20405)])) ∧
      FirstReadFault (ready .decompress (faulty 1030 6 [(.read, 0x20405)])) 1029 ∧
      DstWritableTo (ready .decompress (faulty 1030 6 [(.read, 0x20405)])) 5 ∧
      ∃ t, exec .decompress (ready .decompress (faulty 1030 6 [(.read, 0x20405)])) = .next t ∧
        aaabb.length < headerTotal (ready .decompress (faulty 1030 6 [(.read, 0x20405)])) ∧
        (∀ b, b ∈ aaabb → codeOf t.codes b ≠ []) ∧
        (payloadBits (ready .decompress (faulty 1030 6 [(.read, 0x20405)]))).take (8 * (1029 - 1028)) =
          codeBits t.codes aaabb ++ [true] ∧
        ∃ b, codeOf t.codes b ≠ [true] ∧ [true] <+: codeOf t.codes b := by
  obtain ⟨t, ht, h⟩ := of_after (faulty_codes _ (List.mem_cons_self ..))
  simp only [Bool.and_eq_true, beq_iff_eq] at h
  refine ⟨sound_container (by decide +kernel) (by unfold SrcReadableTo; decide +kernel),
    ⟨by decide, by decide +kernel, by unfold SrcReadableTo; decide +kernel⟩, fun _ _ => rfl, t, ht, ?_, ?_, ?_, 0x63#8, ?_⟩
  · show 5 < headerTotal (container 0 0)
    decide +kernel
  · simp [aaabb, h]
  · simp only [codeBits, aaabb, List.flatMap_cons, List.flatMap_nil, h]
    rw [payloadBits_eq]
    decide +kernel
  · simp [h]

/-- DECOMPRESS of the same container into a DST whose byte 5, the last, cannot be written. -/
theorem test_witness_CodecStopsAtTheFirstFault_write :
    SoundHeader (ready .decompress (faulty 1030 6 [(.write, 0x30005)])) ∧
      FirstWriteFault (ready .decompress (faulty 1030 6 [(.write, 0x30005)])) 5 ∧
      ∃ t, exec .decompress (ready .decompress (faulty 1030 6 [(.write, 0x30005)])) = .next t ∧
        aaabbc.length = 5 + 1 ∧ aaabbc.length ≤ headerTotal (ready .decompress (faulty 1030 6 [(.write, 0x30005)])) ∧
        (∀ b, b ∈ aaabbc → codeOf t.codes b ≠ []) ∧
        codeBits t.codes aaabbc <+: payloadBits (ready .decompress (faulty 1030 6 [(.write, 0x30005)])) ∧
        SrcReadableTo (ready .decompress (faulty 1030 6 [(.write, 0x30005)]))
          (1028 + bytesFor (codeBits t.codes aaabbc).length) := by
  obtain ⟨t, ht, h⟩ := of_after (faulty_codes _ (List.mem_cons_of_mem _ (List.mem_cons_self ..)))
  simp only [Bool.and_eq_true, beq_iff_eq] at h
  have hc : codeBits t.codes aaabbc = [false, false, false, true, true, true, true, true, false] := by
    simp [codeBits, aaabbc, h]
  refine ⟨sound_container (by decide +kernel) (by unfold SrcReadableTo; decide +kernel),
    ⟨by decide, by decide +kernel, by unfold DstWritableTo; decide +kernel⟩, t, ht, rfl, ?_, ?_, ?_, ?_⟩
  · show 6 ≤ headerTotal (container 0 0)
    decide +kernel
  · simp [aaabbc, h]
  · rw [hc, payloadBits_eq]
    decide +kernel
  · rw [hc]
    unfold SrcReadableTo
    decide +kernel

/-- The states of the three witnesses above. -/
theorem test_witness_CodecStopsAtTheFirstFault :
    (Accepted (ready .compress { text with busFault := [(.read, 0x10003)] }) ∧ text.region.codecOk = true) ∧
      SoundHeader (ready .decompress (faulty 1030 6 [(.read, 0x20405)])) ∧
      SoundHeader (ready .decompress (faulty 1030 6 [(.write, 0x30005)])) :=
  ⟨⟨test_witness_CodecStopsAtTheFirstFault_compress.1.1, test_witness_CodecStopsAtTheFirstFault_compress.1.2.1⟩, test_witness_CodecStopsAtTheFirstFault_read.1,
    test_witness_CodecStopsAtTheFirstFault_write.1⟩

end Sys2Proof.Tests
end

section
/-! The core's step and the host's accesses of buffer memory (spec/00_scope.md R7, R8; spec/20_memory.md R77;
spec/70_reset_and_hazards.md R304): one rule for each, and the obligations about them. -/

namespace Sys2Proof.Machine

/-! ## The step of the core -/

/-- When the core moves, the step is the core's, with the draw that let it move counted. -/
theorem step_of_coreMoves {s : State} (h : coreMoves s = true) : step s = coreStep s.tick := if_pos h

/-- The core runs the command that the latched word decodes to. -/
theorem coreStep_of_command {s : State} {i : Instr} (h : decode s.cmdWord = .command i) :
    coreStep s = exec i s := by
  rw [coreStep, h]

/-- A placed word is accepted and the host has nothing left to do, so the core moves next. -/
@[simp] theorem coreMoves_withFetchWord (s : State) (nbits w : Nat) :
    coreMoves (s.withFetchWord nbits w) = true := rfl

@[simp] theorem State.withFetchWord_cmdWord (s : State) (nbits w : Nat) :
    (s.withFetchWord nbits w).cmdWord = BitVec.ofNat 32 (w % 2 ^ nbits) := rfl

/-- A table word names a command exactly when its 32-bit command word decodes to it. -/
theorem decodeTableWord_eq_some_iff {nbits w : Nat} {i : Instr} :
    decodeTableWord nbits w = some i ↔ decode (BitVec.ofNat 32 (w % 2 ^ nbits)) = .command i := by
  unfold decodeTableWord
  cases decode (BitVec.ofNat 32 (w % 2 ^ nbits)) <;> simp

/-- R7, in one equation: a moving core runs the command of its latched word. -/
theorem step_of_decode {s : State} {i : Instr} (hm : coreMoves s = true) (hd : decode s.cmdWord = .command i) :
    step s = exec i s.tick := by
  rw [step_of_coreMoves hm, coreStep_of_command (by rwa [State.tick_cmdWord])]

/-- Settles O5: the core's step at a latched word, and the same step at the word withFetchWord latches. -/
theorem stepRunsDecodedInstruction : Obligations.StepRunsDecodedInstruction := by
  refine ⟨fun _ _ => step_of_decode, fun s nbits w _ h => ?_⟩
  refine step_of_decode (coreMoves_withFetchWord s nbits w) ?_
  rwa [State.withFetchWord_cmdWord, ← decodeTableWord_eq_some_iff]

/-! ## The host duty of R77 -/

theorem Region.inSrc_iff (r : Region) (a : Word) : r.inSrc a = true ↔ srcHolds r a := by
  simp [Region.inSrc, srcHolds]

theorem Region.inDst_iff (r : Region) (a : Word) : r.inDst a = true ↔ dstHolds r a := by
  simp [Region.inDst, dstHolds]

/-- What the duty forbids: while busy, an address in DST, and for a touching access one in SRC too. -/
theorem dutyForbids_iff (s : State) (touchesSrc : Bool) (a : Word) :
    dutyForbids s touchesSrc a = true ↔
      s.status.busy = true ∧ (dstHolds s.region a ∨ touchesSrc = true ∧ srcHolds s.region a) := by
  simp [dutyForbids, Region.inSrc_iff, Region.inDst_iff]

/-- A read of buffer memory is free of the duty while idle, and outside DST. -/
theorem not_dutyForbids_read {s : State} {a : Word} (h : s.status.busy = false ∨ ¬ dstHolds s.region a) :
    ¬ dutyForbids s false a = true := by
  rw [dutyForbids_iff]
  rintro ⟨hb, hd | ⟨hf, -⟩⟩
  · rcases h with hi | hn
    · simp [hi] at hb
    · exact hn hd
  · cases hf

/-- A write of buffer memory or a change of BUS_FAULT is free of the duty while idle, and outside both regions. -/
theorem not_dutyForbids_change {s : State} {a : Word}
    (h : s.status.busy = false ∨ (¬ dstHolds s.region a ∧ ¬ srcHolds s.region a)) :
    ¬ dutyForbids s true a = true := by
  rw [dutyForbids_iff]
  rintro ⟨hb, ha⟩
  rcases h with hi | ⟨hd, hs⟩
  · simp [hi] at hb
  · exact ha.elim hd fun hsrc => hs hsrc.2

/-! ## The host's moves on memory and BUS_FAULT -/

theorem hostAct_readMem (s : State) (a : Word) :
    hostAct (.readMem a) s =
      if dutyForbids s false a then .refused .hostDuty
      else .next { s with resp := .byte (Mem.read s.mem a.toNat) } := rfl

theorem hostAct_writeMem (s : State) (a : Word) (v : Byte) :
    hostAct (.writeMem a v) s =
      if dutyForbids s true a then .refused .hostDuty
      else .next { s with mem := Mem.write s.mem a.toNat v, resp := .none } := rfl

theorem hostAct_setBusFault (s : State) (kind : AccessKind) (a : Word) (on : Bool) :
    hostAct (.setBusFault kind a on) s =
      if dutyForbids s true a then .refused .hostDuty
      else .next { s with busFault := changeFault s.busFault kind a on, resp := .none } := rfl

/-- After a change of one pair, BUS_FAULT holds of it as asked for and of every other pair as before. -/
theorem contains_changeFault (faults : List (AccessKind × Word)) (kind : AccessKind) (a : Word) (on : Bool)
    (p : AccessKind × Word) :
    (changeFault faults kind a on).contains p = if p = (kind, a) then on else faults.contains p := by
  cases on with
  | true =>
    by_cases hc : faults.contains (kind, a) = true
    · rw [changeFault, if_pos rfl, if_pos hc]
      split
      next he => rwa [he]
      next => rfl
    · rw [changeFault, if_pos rfl, if_neg hc]
      by_cases he : p = (kind, a) <;> simp [he]
  | false => by_cases he : p = (kind, a) <;> simp [changeFault, he]

/-- A write that the duty does not forbid sets its byte and no other. -/
theorem hostAct_writeMem_made {s : State} {a : Word} (v : Byte) (h : ¬ dutyForbids s true a = true)
    (hw : Mem.wf s.mem) :
    ∃ t, hostAct (.writeMem a v) s = .next t ∧ t = { s with mem := t.mem, resp := .none } ∧
      Mem.read t.mem a.toNat = v ∧ MemoryKeptBut (fun b => b = a.toNat) s t :=
  ⟨_, (hostAct_writeMem s a v).trans (if_neg h), rfl, Mem.read_write_same _ _ _ hw, memoryKept_write _ _ _ _ rfl⟩

/-- A change of BUS_FAULT that the duty does not forbid sets its pair and no other. -/
theorem hostAct_setBusFault_made {s : State} (kind : AccessKind) {a : Word} (on : Bool)
    (h : ¬ dutyForbids s true a = true) :
    ∃ t, hostAct (.setBusFault kind a on) s = .next t ∧ t = { s with busFault := t.busFault, resp := .none } ∧
      busFaults t kind a = on ∧ ∀ k b, k ≠ kind ∨ b ≠ a → busFaults t k b = busFaults s k b := by
  refine ⟨_, (hostAct_setBusFault s kind a on).trans (if_neg h), rfl, ?_, fun k b hne => ?_⟩
  · exact (contains_changeFault ..).trans (if_pos rfl)
  · refine (contains_changeFault ..).trans (if_neg fun he => ?_)
    obtain ⟨hk, hb⟩ := Prod.mk.inj he
    exact hne.elim (· hk) (· hb)

/-- Settles O21: each move is the branch of hostAct that the duty, read as R77's two regions, selects. -/
theorem hostMemoryMovesAndDuty : Obligations.HostMemoryMovesAndDuty := by
  intro s a v kind on
  refine ⟨fun hb hd => ?_, fun hb hs => ?_, fun h => ?_, fun h hw => ?_, fun h => ?_⟩
  · have hf : ∀ touchesSrc, dutyForbids s touchesSrc a = true := fun touchesSrc =>
      (dutyForbids_iff s touchesSrc a).2 ⟨hb, .inl hd⟩
    exact ⟨(hostAct_readMem ..).trans (if_pos (hf false)), (hostAct_writeMem ..).trans (if_pos (hf true)),
      (hostAct_setBusFault ..).trans (if_pos (hf true))⟩
  · have hf : dutyForbids s true a = true := (dutyForbids_iff s true a).2 ⟨hb, .inr ⟨rfl, hs⟩⟩
    exact ⟨(hostAct_writeMem ..).trans (if_pos hf), (hostAct_setBusFault ..).trans (if_pos hf)⟩
  · exact (hostAct_readMem s a).trans (if_neg (not_dutyForbids_read h))
  · exact hostAct_writeMem_made v (not_dutyForbids_change h) hw
  · exact hostAct_setBusFault_made kind on (not_dutyForbids_change h)

end Sys2Proof.Machine
end

section
/-! How a command that completes ends: its frame (spec/10_state.md R28, R29, R31 to R38) and what completion sets
(spec/60_exceptions.md R271). -/

namespace Sys2Proof.Machine

/-! ## The end of a command -/

theorem Res.ends_and {α : Type} {r : Res α} {P Q : State → Prop} (hP : r.Ends P) (hQ : r.Ends Q) :
    r.Ends fun t => P t ∧ Q t := by
  cases r with
  | ok a t => exact ⟨hP, hQ⟩
  | raise e t => exact ⟨hP, hQ⟩
  | fault w => exact trivial

/-- A command's piece may write what the command may write, ERR_ADDR aside. -/
theorem bodyParts_subset_writtenParts (i : Instr) : ∀ p ∈ bodyParts i, p ∈ writtenParts i := by
  cases i <;> simp [bodyParts, writtenParts]

/-- A command whose piece gives a raise an address is one that R29 names as a writer of ERR_ADDR. -/
theorem commandBody_raises_addr (i : Instr) (s : State) :
    (commandBody i s).Raises fun e _ => e.addr = none ∨ .errAddr ∈ writtenParts i := by
  cases i with
  | ftCount b =>
    simp only [commandBody]
    split
    · exact Res.raises_raise (.inl rfl)
    · exact Res.raises_ok _ _ _
  | pqInsert n =>
    simp only [commandBody]
    split
    · exact Res.raises_raise (.inl rfl)
    · split
      · exact Res.raises_raise (.inl rfl)
      · split
        · exact Res.raises_ok _ _ _
        · exact Res.raises_raise (.inl rfl)
  | pqExtract =>
    simp only [commandBody]
    split
    · exact Res.raises_ok _ _ _
    · exact Res.raises_raise (.inl rfl)
  | treeBuild => exact Res.raises_mono (treeBody_raises s) fun e _ he => .inl (by rw [he])
  | codeGen => exact codeGenBody_raises s _
  | nop | ftClear | pqClear | bwReset | brReset => exact Res.raises_ok _ _ _
  | ftScan | bwPut | bwPutCode | bwFlush | brGet | compress | decompress =>
    exact fun _ _ _ => .inr (by simp [writtenParts])

/-- The frame of a command that completes. -/
theorem exec_kept {i : Instr} {s t : State} (h : exec i s = .next t) : KeptExcept (writtenParts i) s t := by
  rw [exec_eq_finish] at h
  have hb := commandBody_ends i s
  have hr := commandBody_raises_addr i s
  rcases finish_eq_next h with ⟨u, hu, rfl⟩ | ⟨e, u, hu, rfl⟩
  · rw [hu] at hb
    exact (hb.kept.mono (bodyParts_subset_writtenParts i)).complete
  · rw [hu] at hb
    exact (hb.kept.mono (bodyParts_subset_writtenParts i)).report (hr e u hu)

/-- A command that completes leaves what its piece left, but for STATUS, INT.DONE_PEND and ERR_ADDR. -/
theorem exec_rest {i : Instr} {s t : State} {Q : State → Prop} (h : exec i s = .next t)
    (hQ : (commandBody i s).Ends Q) :
    ∃ u, Q u ∧ t = { u with status := t.status, int := { u.int with donePend := true }, errAddr := t.errAddr } ∧
      t.status.busy = false ∧ t.status.done = true :=
  finish_rest (by rwa [exec_eq_finish] at h) hQ

/-- Completion (R271): BUSY 0, DONE 1, DONE_PEND 1. -/
theorem exec_completes {i : Instr} {s t : State} (h : exec i s = .next t) :
    t.status.busy = false ∧ t.status.done = true ∧ t.int.donePend = true := by
  obtain ⟨u, -, ht, hb, hd⟩ := exec_rest h (commandBody_ends i s)
  exact ⟨hb, hd, by rw [ht]⟩

theorem exec_cmdWord {i : Instr} {s t : State} (h : exec i s = .next t) : t.cmdWord = s.cmdWord := by
  obtain ⟨u, hu, ht, -⟩ := exec_rest h (commandBody_ends i s)
  rw [ht]
  exact hu.cmdWord

/-- Settles O12: the piece of each command writes its own parts, and a raise adds ERR_ADDR only where R29 has it. -/
theorem onlyTheNamedWritersWrite : Obligations.OnlyTheNamedWritersWrite :=
  fun _ _ _ h => ⟨exec_kept h, exec_cmdWord h⟩

end Sys2Proof.Machine
end

section
/-! The invariant of the machine (spec/10_state.md R46): what of it the commands keep, part by part, and that every
step keeps it, of the core or of the host. -/

namespace Sys2Proof.Machine

/-! ## The invariant through a command, part by part -/

/-- What a command's piece does not write it keeps, whatever is said of it. -/
theorem commandBody_keeps {i : Instr} {p : Part} (s : State) (hp : p ∉ bodyParts i) :
    (commandBody i s).Ends (keeps p s) :=
  Res.ends_mono (commandBody_ends i s) fun _ ht => ht.parts p hp

/-- Buffer memory stays canonical: what a command writes, it writes byte by byte. -/
theorem commandBody_wf (i : Instr) {s : State} (h : Mem.wf s.mem) : (commandBody i s).Ends fun t => Mem.wf t.mem := by
  cases i with
  | nop | ftClear | pqClear | bwReset | brReset => exact h
  | ftCount b =>
    simp only [commandBody]
    split <;> exact h
  | ftScan =>
    simp only [commandBody]
    split
    · exact Res.ends_mono (scanBody_ends s) fun t ht => by rw [ht]; exact h
    · exact h
  | pqInsert n =>
    simp only [commandBody]
    split
    · exact h
    · split
      · exact h
      · split <;> exact h
  | pqExtract =>
    simp only [commandBody]
    split <;> exact h
  | treeBuild => exact Res.ends_mono (treeBody_ends s) fun t ht => by rw [ht]; exact h
  | codeGen => exact Res.ends_mono (codeGenBody_ends s) fun t ht => by rw [ht]; exact h
  | bwPut b =>
    simp only [commandBody]
    split
    · exact (putBit_traced b s).wf h
    · exact h
  | bwPutCode sym =>
    simp only [commandBody]
    split
    · split
      · exact h
      · exact (putBits_traced _ s).wf h
    · exact h
  | bwFlush =>
    simp only [commandBody]
    split
    · exact (flushBody_traced s).wf h
    · exact h
  | brGet =>
    simp only [commandBody]
    split
    · refine Res.ends_bind (P := fun t => Mem.wf t.mem)
        (Res.ends_mono (getBit_ends s) fun t ht => by rw [ht.mem]; exact h) (fun bit t ht => ?_) fun _ ht => ht
      cases bit <;> exact ht
    · exact h
  | compress =>
    refine Res.ends_bind (P := fun t => Mem.wf t.mem)
      (Res.ends_mono (compressSetup_ends s) fun t ht => by rw [ht]; exact h)
      (fun _ t ht => (compressWrite_traced t).wf ht) fun _ ht => ht
  | decompress =>
    refine Res.ends_bind (P := fun t => Mem.wf t.mem)
      (Res.ends_mono (decompressSetup_ends s) fun t ht => by rw [ht]; exact h)
      (fun _ t ht => (decompressDecode_traced t).wf ht) fun _ ht => ht

/-- An entry of a node of the tree, put into a queue with room. -/
theorem queueInv_insert {s : State} {n : NodeIx} {node : Node} (h : QueueInv s) (hn : n.toNat < s.tree.nodeCount.toNat)
    (hlen : s.pq.length < Config.pqCap) (hnode : s.tree.node n = some node) :
    QueueInv { s with pq := pqInsert { weight := node.weight, index := n } s.pq } := by
  obtain ⟨-, hasc, hnodes⟩ := h
  refine ⟨?_, pqInsert_ascending hasc, fun e he => ?_⟩
  · rw [pqInsert_length]
    exact hlen
  · rcases mem_pqInsert.1 he with rfl | he
    · exact ⟨hn, node, hnode, rfl⟩
    · exact hnodes e he

/-- The queue without its least entry. -/
theorem queueInv_extract {s t : State} {e : Entry} (h : QueueInv s) (hx : pqExtract s.pq = some (e, t.pq))
    (ht : t.tree = s.tree) : QueueInv t := by
  obtain ⟨hlen, hasc, hnodes⟩ := h
  refine ⟨?_, pqExtract_ascending hasc hx, fun x hxm => ?_⟩
  · have := pqExtract_length hx
    omega
  · rw [ht]
    exact hnodes x ((pqExtract_eq_some hx).2.1.mem_iff.2 (List.mem_cons_of_mem e hxm))

theorem tablesInv_congr {s t : State} (h : TablesInv s) (h1 : t.tree = s.tree) (h2 : t.pq = s.pq)
    (h3 : t.codes = s.codes) : TablesInv t := by
  obtain ⟨ht, hq, hc⟩ := h
  exact ⟨h1 ▸ ht, queueInv_congr hq h2 h1, h3 ▸ hc⟩

/-- The tree, the queue and the codes: TREE_BUILD makes a tree of R141, PQ_INSERT queues its nodes, CODE_GEN takes
its paths. -/
theorem commandBody_tablesInv (i : Instr) {s : State} (h : TablesInv s) : (commandBody i s).Ends TablesInv := by
  have frame : .tree ∉ bodyParts i → .pq ∉ bodyParts i → .codes ∉ bodyParts i →
      (commandBody i s).Ends TablesInv := fun h1 h2 h3 =>
    Res.ends_mono (commandBody_ends i s) fun t ht =>
      tablesInv_congr h (ht.parts _ h1) (ht.parts _ h2) (ht.parts _ h3)
  obtain ⟨htree, hqueue, hcodes⟩ := h
  cases i with
  | pqClear => exact ⟨htree, queueInv_nil rfl, hcodes⟩
  | pqInsert n =>
    simp only [commandBody]
    split
    · exact ⟨htree, hqueue, hcodes⟩
    · split
      · exact ⟨htree, hqueue, hcodes⟩
      · split
        · rename_i hn hlen _ node hnode
          exact ⟨htree, queueInv_insert hqueue (Nat.lt_of_not_le hn) (Nat.lt_of_not_le hlen) hnode, hcodes⟩
        · exact ⟨htree, hqueue, hcodes⟩
  | pqExtract =>
    simp only [commandBody]
    split
    next e rest hx => exact ⟨htree, queueInv_extract hqueue hx rfl, hcodes⟩
    next => exact ⟨htree, hqueue, hcodes⟩
  | treeBuild =>
    refine Res.ends_mono (Res.ends_and (treeBody_inv s) (treeBody_ends s)) fun t ht => ?_
    obtain ⟨⟨ht1, ht2⟩, ht3⟩ := ht
    exact ⟨ht1, queueInv_nil ht2, by rw [ht3]; exact hcodes⟩
  | codeGen =>
    refine Res.ends_mono (codeGenBody_inv htree) fun t ht => ?_
    obtain ⟨ht1, ht2, ht3⟩ := ht
    exact ⟨ht2 ▸ htree, queueInv_congr hqueue ht3 ht2, ht1⟩
  | compress =>
    refine Res.ends_bind (compressSetup_inv ⟨htree, hqueue, hcodes⟩) (fun _ t ht => ?_) fun _ ht => ht
    exact Res.ends_mono (compressWrite_ends t) fun u hu =>
      tablesInv_congr ht (by rw [hu]) (by rw [hu]) (by rw [hu])
  | decompress =>
    refine Res.ends_bind (decompressSetup_inv ⟨htree, hqueue, hcodes⟩) (fun _ t ht => ?_) fun _ ht => ht
    exact Res.ends_mono (decompressDecode_ends t) fun u hu =>
      tablesInv_congr ht (by rw [hu]) (by rw [hu]) (by rw [hu])
  | _ => exact frame (by simp [bodyParts]) (by simp [bodyParts]) (by simp [bodyParts])

theorem writerInv_empty : WriterInv Writer.empty := ⟨Nat.zero_le 7, Nat.one_pos⟩

/-- The writer holds fewer than eight bits between commands. -/
theorem commandBody_writerInv (i : Instr) {s : State} (h : WriterInv s.bw) :
    (commandBody i s).Ends fun t => WriterInv t.bw := by
  cases i with
  | bwReset => exact writerInv_empty
  | bwPut b =>
    simp only [commandBody]
    split
    · exact putBit_writerInv b s h
    · exact h
  | bwPutCode sym =>
    simp only [commandBody]
    split
    · split
      · exact h
      · exact putBits_writerInv _ s h
    · exact h
  | bwFlush =>
    simp only [commandBody]
    split
    · exact flushBody_writerInv s h
    · exact h
  | compress =>
    refine Res.ends_bind (P := fun t => WriterInv t.bw)
      (Res.ends_mono (compressSetup_ends s) fun t ht => by rw [ht]; exact h)
      (fun _ t _ => compressWrite_writerInv t) fun _ ht => ht
  | _ => exact Res.ends_mono (commandBody_keeps (p := .bw) s (by simp [bodyParts])) fun t ht => by rw [ht]; exact h

theorem readerInv_emptyAt (pos : Word) : ReaderInv (Reader.emptyAt pos) := Nat.le_refl 8

/-- The reader's cursor stays at or below 8. -/
theorem decompressDecode_readerInv {s : State} (h : ReaderInv s.br) :
    (decompressDecode s).Ends fun t => ReaderInv t.br := by
  unfold decompressDecode
  split
  · exact h
  · exact Res.ends_bind (decodeFrom_readerInv _ _ (readerInv_emptyAt _)) (fun _ _ ht => ht) fun _ ht => ht

theorem commandBody_readerInv (i : Instr) {s : State} (h : ReaderInv s.br) :
    (commandBody i s).Ends fun t => ReaderInv t.br := by
  cases i with
  | brReset => exact readerInv_emptyAt 0
  | brGet =>
    simp only [commandBody]
    split
    · refine Res.ends_bind (getBit_readerInv s h) (fun bit t ht => ?_) fun _ ht => ht
      cases bit <;> exact ht
    · exact h
  | decompress =>
    refine Res.ends_bind (P := fun t => ReaderInv t.br)
      (Res.ends_mono (decompressSetup_ends s) fun t ht => by rw [ht]; exact h)
      (fun _ t ht => decompressDecode_readerInv ht) fun _ ht => ht
  | _ => exact Res.ends_mono (commandBody_keeps (p := .br) s (by simp [bodyParts])) fun t ht => by rw [ht]; exact h

/-! ## The invariant through a step -/

/-- Inv without its clause about the running command. -/
structure StoredInv (s : State) : Prop where
  memory : Mem.wf s.mem
  tables : TablesInv s
  writer : WriterInv s.bw
  reader : ReaderInv s.br

theorem inv_iff {s : State} : Inv s ↔ StoredInv s ∧ RunningInv s :=
  ⟨fun h => ⟨⟨h.memory, ⟨h.tree, h.queue, h.codes⟩, h.writer, h.reader⟩, h.running⟩,
    fun ⟨⟨hm, ⟨ht, hq, hc⟩, hw, hr⟩, hrun⟩ => ⟨hm, ht, hq, hw, hr, hc, hrun⟩⟩

theorem Inv.stored {s : State} (h : Inv s) : StoredInv s := (inv_iff.1 h).1

/-- Idle, the invariant asks nothing of STATUS, RESULT and ERR_ADDR. -/
theorem StoredInv.inv_of_idle {s : State} (h : StoredInv s) (hidle : s.status.busy = false) : Inv s :=
  inv_iff.2 ⟨h, fun hb => by simp [hidle] at hb⟩

/-- A command that completes leaves the invariant, with nothing running. -/
theorem exec_inv {i : Instr} {s t : State} (h : StoredInv s) (he : exec i s = .next t) : Inv t := by
  obtain ⟨u, ⟨hm, ht, hw, hr⟩, htu, hidle, -⟩ := exec_rest he
    (Res.ends_and (commandBody_wf i h.memory) (Res.ends_and (commandBody_tablesInv i h.tables)
      (Res.ends_and (commandBody_writerInv i h.writer) (commandBody_readerInv i h.reader))))
  refine StoredInv.inv_of_idle ?_ hidle
  rw [htu]
  exact ⟨hm, ht, hw, hr⟩

/-- The step of the core: the command's, or the completion of an illegal word, which writes no more than STATUS. -/
theorem coreStep_inv {s t : State} (h : StoredInv s) (he : coreStep s = .next t) : Inv t := by
  unfold coreStep at he
  split at he
  · exact exec_inv h he
  · cases he
    exact StoredInv.inv_of_idle ⟨h.memory, h.tables, h.writer, h.reader⟩ rfl

/-- What an `rst` leaves of buffer memory is canonical, an aborted command's writes too (R293). -/
theorem abortedMem_wf (i : Instr) {s : State} (h : StoredInv s) : Mem.wf (abortedMem i s) := by
  unfold abortedMem
  split
  next t he =>
    dsimp only
    have hcopy : Mem.wf (copyDst s.region t.mem (Config.freeProgress s.draws) (dstWrites i s t).1 s.mem) :=
      (copyDst_kept s.region t.mem _ _ s.mem (fun _ => True) fun _ _ _ => trivial).2 h.memory
    split
    · exact (exec_inv h he).memory
    · split
      · exact Mem.write_wf _ (addr_lt_memSize _) hcopy
      · exact hcopy
  · exact h.memory
  · exact h.memory

/-- The block after reset meets the invariant over any canonical memory. -/
theorem resetBlock_inv {mem : List Host.Cell} (s : State) (h : Mem.wf mem) : Inv (resetBlock mem s) := by
  refine StoredInv.inv_of_idle ⟨h, ⟨.inl ⟨rfl, rfl, rfl⟩, queueInv_nil rfl, fun b => ?_⟩, writerInv_empty,
    readerInv_emptyAt 0⟩ rfl
  exact (congrArg List.length (codeOf_noCodes b)).trans_le (Nat.zero_le _)

theorem resetEvent_inv {s : State} (h : StoredInv s) : Inv (resetEvent s) := by
  unfold resetEvent
  split
  · split
    · exact resetBlock_inv s (abortedMem_wf _ h)
    · exact resetBlock_inv s h.memory
  · exact resetBlock_inv s h.memory

/-- What a host write can do (R41): accept a command word while idle, or set CTRL, INT, a region register or a count. -/
theorem writeWord_cases (off : Nat) (v : Word) (s : State) :
    (s.status.busy = false ∧ off = 0x04 ∧ writeWord off v s = s.accept v) ∨
      ∃ irqEn int region ft,
        writeWord off v s = { s with irqEn := irqEn, int := int, region := region, ft := ft } := by
  have anytime : ∃ irqEn int region ft,
      writeAnytime off v s = { s with irqEn := irqEn, int := int, region := region, ft := ft } := by
    unfold writeAnytime
    split
    · exact ⟨_, _, _, _, rfl⟩
    · split <;> exact ⟨_, _, _, _, rfl⟩
  cases hb : s.status.busy with
  | true =>
    right
    rw [writeWord, if_pos hb, writeBusy]
    split
    · exact ⟨_, _, _, _, rfl⟩
    · exact anytime
  | false =>
    rw [writeWord, if_neg (by simp [hb]), writeIdle]
    split
    · exact .inl ⟨rfl, ‹_›, rfl⟩
    · right
      iterate 6
        split
        · exact ⟨_, _, _, _, rfl⟩
      exact anytime

theorem writeWord_inv {s : State} (off : Nat) (v : Word) (h : Inv s) : Inv (writeWord off v s) := by
  obtain ⟨-, -, hw⟩ | ⟨irqEn, int, region, ft, hw⟩ := writeWord_cases off v s
  · rw [hw]
    exact inv_iff.2 ⟨⟨h.memory, h.stored.tables, h.writer, h.reader⟩, fun _ => accepted_accept v s⟩
  · rw [hw]
    exact ⟨h.memory, h.tree, h.queue, h.writer, h.reader, h.codes, h.running⟩

/-- An access of the host keeps the invariant: a memory write its canonical form, a CMD write by its acceptance. -/
theorem hostAct_inv {a : HostAction} {s t : State} (h : Inv s) (he : hostAct a s = .next t) : Inv t := by
  have hresp : ∀ {u : State} (r : HostResp), Inv u → Inv { u with resp := r } := fun _ hu =>
    ⟨hu.memory, hu.tree, hu.queue, hu.writer, hu.reader, hu.codes, hu.running⟩
  cases a with
  | readReg off bytes =>
    simp only [hostAct] at he
    split at he <;> cases he <;> exact hresp _ h
  | writeReg off bytes v =>
    simp only [hostAct] at he
    split at he <;> cases he
    · exact hresp _ (writeWord_inv _ _ h)
    · exact hresp _ h
  | readMem addr =>
    simp only [hostAct] at he
    split at he <;> cases he
    exact hresp _ h
  | writeMem addr v =>
    simp only [hostAct] at he
    split at he <;> cases he
    exact ⟨Mem.write_wf v (addr_lt_memSize addr) h.memory, h.tree, h.queue, h.writer, h.reader, h.codes, h.running⟩
  | setBusFault kind addr on =>
    simp only [hostAct] at he
    split at he <;> cases he
    exact ⟨h.memory, h.tree, h.queue, h.writer, h.reader, h.codes, h.running⟩
  | wait =>
    cases he
    exact hresp _ h
  | rst =>
    cases he
    exact resetEvent_inv h.stored

theorem hostStep_inv {s t : State} (h : Inv s) (he : hostStep s = .next t) : Inv t := by
  unfold hostStep at he
  split at he
  · cases he
    exact h
  · refine hostAct_inv ?_ he
    exact ⟨h.memory, h.tree, h.queue, h.writer, h.reader, h.codes, h.running⟩

/-- Settles O58: the core's step ends idle with every part of the invariant kept, the host's by what each access
writes. -/
theorem stepKeepsTheInvariant : Obligations.StepKeepsTheInvariant := by
  intro s t h he
  have hm : machineStep s = .next t := he
  unfold machineStep at hm
  split at hm
  · obtain ⟨hmem, htab, hbw, hbr⟩ := h.stored
    exact coreStep_inv (s := s.tick) ⟨hmem, htab, hbw, hbr⟩ hm
  · exact hostStep_inv h hm

/-- Settles O56: the reset state is that of a reset block with no memory listed. -/
theorem resetMeetsTheInvariant : Obligations.ResetMeetsTheInvariant := by
  obtain ⟨hm, ht, hq, hw, hr, hc, hrun⟩ := resetBlock_inv State.reset Mem.wf_reset
  exact ⟨hm, ht, hq, hw, hr, hc, hrun⟩

end Sys2Proof.Machine
end

section
/-! The words of the register window (spec/10_state.md R23, R24, R26, R27, R33 to R38): fields side by side in a
word, as a number and under a mask of reserved bits. -/

namespace Sys2Proof.Machine

/-! ## Fields of a word -/

/-- Two fields that do not overlap, as a number. -/
theorem toNat_or_shiftLeft {x y : Word} {k : Nat} (hx : x.toNat < 2 ^ k) (hy : 2 ^ k * y.toNat < 2 ^ 32) :
    (x ||| y <<< k).toNat = x.toNat + 2 ^ k * y.toNat := by
  have hshift : (y <<< k).toNat = 2 ^ k * y.toNat := by
    rw [BitVec.toNat_shiftLeft, Nat.shiftLeft_eq, Nat.mul_comm, Nat.mod_eq_of_lt hy]
  rw [BitVec.toNat_or, hshift, Nat.lor_comm, ← Nat.two_pow_add_eq_or_of_lt hx, Nat.add_comm]

/-- A field n bits wide at bit k leaves 0 what a mask selects outside it. -/
theorem shiftLeft_and_eq_zero {x m : Word} (n k : Nat) (hx : x.toNat < 2 ^ n)
    (hm : ∀ i, i < n → m.getLsbD (k + i) = false) : x <<< k &&& m = 0#32 := by
  refine BitVec.eq_of_getLsbD_eq fun i hi => ?_
  rw [BitVec.getLsbD_and, BitVec.getLsbD_shiftLeft, BitVec.getLsbD_zero]
  by_cases hk : i < k
  · simp [hk]
  · by_cases hn : i - k < n
    · have := hm (i - k) hn
      rw [show k + (i - k) = i by omega] at this
      rw [this, Bool.and_false]
    · have : x.getLsbD (i - k) = false :=
        Nat.testBit_lt_two_pow (hx.trans_le (Nat.pow_le_pow_right Nat.two_pos (Nat.le_of_not_lt hn)))
      rw [this, Bool.and_false, Bool.false_and]

/-- The same for a field at bit 0. -/
theorem and_eq_zero_of_lt {x m : Word} (n : Nat) (hx : x.toNat < 2 ^ n) (hm : ∀ i, i < n → m.getLsbD i = false) :
    x &&& m = 0#32 := by
  have := shiftLeft_and_eq_zero n 0 hx fun i hi => by rw [Nat.zero_add]; exact hm i hi
  rwa [BitVec.shiftLeft_zero] at this

theorem or_and_eq_zero {x y m : Word} (hx : x &&& m = 0#32) (hy : y &&& m = 0#32) : (x ||| y) &&& m = 0#32 := by
  rw [BitVec.and_comm, BitVec.and_or_distrib_left, BitVec.and_comm m x, BitVec.and_comm m y, hx, hy, BitVec.or_self]

theorem toNat_setWidth_of_le {n : Nat} (a : BitVec n) (hn : n ≤ 32) : (a.setWidth 32 : Word).toNat = a.toNat := by
  rw [BitVec.toNat_setWidth, Nat.mod_eq_of_lt (a.isLt.trans_le (Nat.pow_le_pow_right Nat.two_pos hn))]

theorem toNat_setWidth_lt {n : Nat} (a : BitVec n) (hn : n ≤ 32) : (a.setWidth 32 : Word).toNat < 2 ^ n := by
  rw [toNat_setWidth_of_le a hn]
  exact a.isLt

@[simp] theorem toNat_bitWord (b : Bool) : (bitWord b).toNat = b.toNat := by cases b <;> rfl

theorem toNat_bitWord_lt (b : Bool) : (bitWord b).toNat < 2 ^ 1 := by
  rw [toNat_bitWord]
  exact b.toNat_lt

theorem getLsbD_bitWord (b : Bool) (i : Nat) : (bitWord b).getLsbD i = (decide (i = 0) && b) := by
  cases b <;> simp [bitWord, BitVec.getLsbD_one]

/-! ## STATUS, CTRL and INT -/

theorem codeNumber_eq (c : StatusCode) : codeNumber c = c.value.toNat := by cases c <;> rfl

theorem detailNumber_eq (d : Detail) : detailNumber d = d.value.toNat := by cases d <;> rfl

theorem Status.toNat_word (st : Status) :
    st.word.toNat =
      st.busy.toNat + 2 * st.done.toNat + 2 ^ 8 * codeNumber st.code + 2 ^ 16 * detailNumber st.detail := by
  have hb := st.busy.toNat_lt
  have hd := st.done.toNat_lt
  have hc := st.code.value.isLt
  have he := st.detail.value.isLt
  have h1 : (bitWord st.busy ||| bitWord st.done <<< 1).toNat = st.busy.toNat + 2 ^ 1 * st.done.toNat := by
    rw [toNat_or_shiftLeft] <;> simp only [toNat_bitWord] <;> omega
  have h2 : (bitWord st.busy ||| bitWord st.done <<< 1 ||| st.code.value.setWidth 32 <<< 8).toNat =
      st.busy.toNat + 2 ^ 1 * st.done.toNat + 2 ^ 8 * st.code.value.toNat := by
    rw [toNat_or_shiftLeft] <;> simp only [h1, toNat_setWidth_of_le, Nat.reduceLeDiff] <;> omega
  rw [codeNumber_eq, detailNumber_eq, Status.word, toNat_or_shiftLeft] <;>
    simp only [h2, toNat_setWidth_of_le, Nat.reduceLeDiff] <;> omega

theorem Status.word_and_reserved (st : Status) : st.word &&& 0xFF0000FC#32 = 0#32 :=
  or_and_eq_zero
    (or_and_eq_zero
      (or_and_eq_zero (and_eq_zero_of_lt 1 (toNat_bitWord_lt _) (by decide))
        (shiftLeft_and_eq_zero 1 1 (toNat_bitWord_lt _) (by decide)))
      (shiftLeft_and_eq_zero 8 8 (toNat_setWidth_lt _ (by decide)) (by decide)))
    (shiftLeft_and_eq_zero 8 16 (toNat_setWidth_lt _ (by decide)) (by decide))

theorem IntReg.toNat_word (r : IntReg) : r.word.toNat = r.donePend.toNat + 2 * r.overrun.toNat := by
  have hd := r.donePend.toNat_lt
  have ho := r.overrun.toNat_lt
  rw [IntReg.word, toNat_or_shiftLeft] <;> simp only [toNat_bitWord] <;> omega

theorem IntReg.word_and_reserved (r : IntReg) : r.word &&& 0xFFFFFFFC#32 = 0#32 :=
  or_and_eq_zero (and_eq_zero_of_lt 1 (toNat_bitWord_lt _) (by decide))
    (shiftLeft_and_eq_zero 1 1 (toNat_bitWord_lt _) (by decide))

theorem IntReg.getLsbD_word (r : IntReg) (i : Nat) :
    r.word.getLsbD i = (decide (i = 0) && r.donePend || decide (i = 1) && r.overrun) := by
  rw [IntReg.word, BitVec.getLsbD_or, BitVec.getLsbD_shiftLeft, getLsbD_bitWord, getLsbD_bitWord]
  rcases i with - | - | i <;> simp

/-- W1C (R27), on INT as a word. -/
theorem IntReg.word_writeOnes (r : IntReg) (v : Word) : (r.writeOnes v).word = r.word &&& ~~~v := by
  refine BitVec.eq_of_getLsbD_eq fun i hi => ?_
  rw [BitVec.getLsbD_and, BitVec.getLsbD_not, IntReg.getLsbD_word, IntReg.getLsbD_word]
  rcases i with - | - | i <;> simp [IntReg.writeOnes]

/-- CTRL holds bit 0 of the written word and no other (R26). -/
theorem bitWord_getLsbD_zero (v : Word) : bitWord (v.getLsbD 0) = v &&& 1 := by
  refine BitVec.eq_of_getLsbD_eq fun i hi => ?_
  rw [getLsbD_bitWord, BitVec.getLsbD_and]
  cases i <;> simp [BitVec.getLsbD_one]

/-! ## The tree, the writer and the reader -/

theorem treeRootWord_of_valid {t : Tree} (h : t.valid = true) :
    treeRootWord t = t.root.setWidth 32 ||| bitWord t.valid <<< 31 := by
  rw [treeRootWord, if_pos h, h]
  rfl

theorem toNat_treeRootWord (t : Tree) :
    (treeRootWord t).toNat = if t.valid then t.root.toNat + 2 ^ 31 else 0 := by
  cases hv : t.valid with
  | true =>
    have hr := t.root.isLt
    rw [treeRootWord_of_valid hv, hv, toNat_or_shiftLeft] <;>
      simp only [toNat_setWidth_of_le, Nat.reduceLeDiff, toNat_bitWord, Bool.toNat_true, if_true] <;> omega
  | false => simp [treeRootWord, hv]

theorem treeRootWord_and_reserved (t : Tree) : treeRootWord t &&& 0x7FFFFE00#32 = 0#32 := by
  cases hv : t.valid with
  | true =>
    rw [treeRootWord_of_valid hv]
    exact or_and_eq_zero (and_eq_zero_of_lt 9 (toNat_setWidth_lt _ (by decide)) (by decide))
      (shiftLeft_and_eq_zero 1 31 (toNat_bitWord_lt _) (by decide))
  | false => simp [treeRootWord, hv]

theorem toNat_bwStateWord (w : Writer) :
    (bwStateWord w).toNat = w.pending.toNat + 2 ^ 8 * w.nbits.toNat := by
  have hp := w.pending.isLt
  have hn := w.nbits.isLt
  rw [bwStateWord, toNat_or_shiftLeft] <;> simp only [toNat_setWidth_of_le, Nat.reduceLeDiff] <;> omega

theorem toNat_brStateWord (r : Reader) :
    (brStateWord r).toNat = r.cur.toNat + 2 ^ 8 * r.cursor.toNat := by
  have hp := r.cur.isLt
  have hn := r.cursor.isLt
  rw [brStateWord, toNat_or_shiftLeft] <;> simp only [toNat_setWidth_of_le, Nat.reduceLeDiff] <;> omega

theorem bwStateWord_and_reserved (w : Writer) : bwStateWord w &&& 0xFFFFF000#32 = 0#32 :=
  or_and_eq_zero (and_eq_zero_of_lt 8 (toNat_setWidth_lt _ (by decide)) (by decide))
    (shiftLeft_and_eq_zero 4 8 (toNat_setWidth_lt _ (by decide)) (by decide))

theorem brStateWord_and_reserved (r : Reader) : brStateWord r &&& 0xFFFFF000#32 = 0#32 :=
  or_and_eq_zero (and_eq_zero_of_lt 8 (toNat_setWidth_lt _ (by decide)) (by decide))
    (shiftLeft_and_eq_zero 4 8 (toNat_setWidth_lt _ (by decide)) (by decide))

/-! ## The node store -/

theorem toNat_nodeWord_low (n : Node) : (nodeWord n 0).toNat = n.weight.toNat % 2 ^ 32 := BitVec.toNat_setWidth ..

theorem toNat_nodeWord_high (n : Node) : (nodeWord n 1).toNat = n.weight.toNat / 2 ^ 32 := by
  have hw := n.weight.isLt
  rw [nodeWord, BitVec.toNat_setWidth, BitVec.toNat_ushiftRight, Nat.shiftRight_eq_div_pow]
  omega

theorem toNat_nodeWord_link (n : Node) : (nodeWord n 2).toNat = n.left.toNat + 2 ^ 16 * n.right.toNat := by
  have hl := n.left.isLt
  have hr := n.right.isLt
  rw [nodeWord, toNat_or_shiftLeft] <;> simp only [toNat_setWidth_of_le, Nat.reduceLeDiff] <;> omega

theorem nodeWord_sym (n : Node) (k : Nat) : nodeWord n (k + 3) = n.symbol.setWidth 32 ||| bitWord n.leaf <<< 31 := rfl

theorem toNat_nodeWord_sym (n : Node) : (nodeWord n 3).toNat = n.symbol.toNat + 2 ^ 31 * n.leaf.toNat := by
  have hs := n.symbol.isLt
  have hl := n.leaf.toNat_lt
  rw [nodeWord_sym n 0, toNat_or_shiftLeft] <;>
    simp only [toNat_setWidth_of_le, toNat_bitWord, Nat.reduceLeDiff] <;> omega

theorem nodeMask_sym (k : Nat) : nodeMask (k + 3) = 0x800000FF#32 := rfl

/-- A node's word has no bit outside the fields R34 gives it. -/
theorem nodeWord_and_reserved (n : Node) (k : Nat) : nodeWord n k &&& ~~~(nodeMask k) = 0#32 := by
  match k with
  | 0 => exact and_eq_zero_of_lt 32 (nodeWord n 0).isLt (by decide)
  | 1 =>
    refine and_eq_zero_of_lt 8 ?_ (by decide)
    have hw := n.weight.isLt
    rw [toNat_nodeWord_high]
    omega
  | 2 =>
    exact or_and_eq_zero (and_eq_zero_of_lt 9 (toNat_setWidth_lt _ (by decide)) (by decide))
      (shiftLeft_and_eq_zero 9 16 (toNat_setWidth_lt _ (by decide)) (by decide))
  | k + 3 =>
    rw [nodeWord_sym, nodeMask_sym]
    exact or_and_eq_zero (and_eq_zero_of_lt 8 (toNat_setWidth_lt _ (by decide)) (by decide))
      (shiftLeft_and_eq_zero 1 31 (toNat_bitWord_lt _) (by decide))

/-- At or above NODE_COUNT the bits outside a node's fields read 0 too. -/
theorem nodeView_word_and_reserved (t : Tree) (i k : Nat) (draw : Word) :
    (nodeView t i k).word draw &&& ~~~(nodeMask k) = 0#32 := by
  have stale : ({ fixed := 0, free := nodeMask k } : RegView).word draw &&& ~~~(nodeMask k) = 0#32 := by
    unfold RegView.word
    split
    · exact BitVec.zero_and
    · simp [BitVec.and_assoc]
  unfold nodeView
  split
  · split
    · exact nodeWord_and_reserved _ k
    · exact stale
  · exact stale

/-! ## The codes -/

@[simp] theorem codeView_len (c : Bits) : codeView c 0 = (codeLen c).setWidth 32 := rfl

theorem codeView_word (c : Bits) {j : Nat} (hj : j < 8) : codeView c (j + 1) = codeWord c j := by
  rw [codeView, if_neg (Nat.succ_ne_zero j), if_pos (Nat.succ_le_of_lt hj), Nat.add_sub_cancel]

theorem codeView_reserved (c : Bits) {k : Nat} (hk : 8 < k) : codeView c k = 0#32 :=
  (if_neg (by omega)).trans (if_neg (by omega))

theorem codeWord_nil (j : Nat) : codeWord [] j = 0#32 := by
  refine BitVec.eq_of_getLsbD_eq fun i hi => ?_
  have := codeWord_getLsbD [] j (k := 31 - i) (by omega)
  rw [show 31 - (31 - i) = i by omega] at this
  rw [this, BitVec.getLsbD_zero]
  rfl

/-- No code reads 0 in every word. -/
theorem codeView_nil (k : Nat) : codeView [] k = 0#32 := by
  unfold codeView
  split
  · rfl
  · split
    · exact codeWord_nil _
    · rfl

end Sys2Proof.Machine
end

section
/-! The host's register accesses (spec/10_state.md R23 to R45; spec/20_memory.md R68): what a read of each part of the
window answers, what a write of each part does, and the obligations about them. -/

namespace Sys2Proof.Machine

/-! ## Reads -/

theorem hostAct_readReg {off : BitVec 15} (h : off.toNat % 4 = 0) (s : State) :
    hostAct (.readReg off 4) s = .next { s with resp := .word (readWord s off.toNat) } := by
  simp [hostAct, accessOk, h]

@[simp] theorem readWord_resp (s : State) (r : HostResp) (off : Nat) :
    readWord { s with resp := r } off = readWord s off := rfl

/-! ID, STATUS, CTRL and INT read true at any time (R42). -/

theorem readWord_id (s : State) : readWord s 0x00 = idWord := readWord_busy rfl (by decide)
theorem readWord_status (s : State) : readWord s 0x08 = s.status.word := readWord_busy rfl (by decide)
theorem readWord_ctrl (s : State) : readWord s 0x0C = bitWord s.irqEn := readWord_busy rfl (by decide)
theorem readWord_int (s : State) : readWord s 0x10 = s.int.word := readWord_busy rfl (by decide)

/-- Past BR_POS the control block is reserved (R23). -/
theorem controlWord_reserved (s : State) {off : Nat} (h : off = 0x1C ∨ 0x58 ≤ off) : controlWord s off = 0 := by
  unfold controlWord
  split
  any_goals rfl
  all_goals omega

/-- The registers a host writes with plain effect, as the state holds them. -/
def plainValue (s : State) (off : Nat) : Word :=
  if off = 0x20 then s.region.srcBase
  else if off = 0x24 then s.region.srcLen
  else if off = 0x28 then s.region.dstBase
  else if off = 0x2C then s.region.dstCap
  else if off = 0x38 then s.ft.total
  else s.ft.at (BitVec.ofNat 8 ((off - 0x400) / 4))

theorem plainValue_count (s : State) {off : Nat} (h : 0x400 ≤ off) :
    plainValue s off = s.ft.at (BitVec.ofNat 8 ((off - 0x400) / 4)) := by
  unfold plainValue
  iterate 5 rw [if_neg (by omega)]

theorem readWord_plain {s : State} {off : Nat} (hidle : s.status.busy = false) (hp : plainRegister off) :
    readWord s off = plainValue s off := by
  rcases hp with rfl | rfl | rfl | rfl | rfl | ⟨h1, h2⟩
  case inr.inr.inr.inr.inr => rw [readWord_count hidle h1 h2, plainValue_count s h1]
  all_goals exact readWord_control hidle (by decide)

/-- COUNT[b]. -/
theorem readWord_count_of (s : State) (hidle : s.status.busy = false) (b : Byte) :
    readWord s (0x400 + 4 * b.toNat) = s.ft.at b := by
  have hb := b.isLt
  rw [readWord_count hidle (by omega) (by omega), show (0x400 + 4 * b.toNat - 0x400) / 4 = b.toNat by omega,
    BitVec.ofNat_toNat, BitVec.setWidth_eq]

/-- Word k of NODE[i], below NODE_COUNT (R34). -/
theorem readWord_node {s : State} {i k off : Nat} {n : Node} (hidle : s.status.busy = false)
    (hi : i < s.tree.nodeCount.toNat) (hn : s.tree.nodes[i]? = some n) (hk : k < 4)
    (hoff : off = 0x2000 + 16 * i + 4 * k) : readWord s off = nodeWord n k := by
  have hlt : i < 511 := by
    by_contra hge
    rw [Vector.getElem?_eq_none (by omega)] at hn
    cases hn
  apply readWord_of
  rw [regView_node hidle (by omega) (by omega), show (off - 0x2000) / 16 = i by omega,
    show (off - 0x2000) % 16 / 4 = k by omega, nodeView, if_pos hi, hn]

/-- Word k of CODE[sym] (R36). -/
theorem readWord_code_of {s : State} {k off : Nat} (hidle : s.status.busy = false) (sym : Byte) (hk : k < 16)
    (hoff : off = 0x4000 + 64 * sym.toNat + 4 * k) : readWord s off = codeView (codeOf s.codes sym) k := by
  rw [readWord_code hidle (by omega), show (off - 0x4000) / 64 = sym.toNat by omega,
    show (off - 0x4000) % 64 / 4 = k by omega, BitVec.ofNat_toNat, BitVec.setWidth_eq]

/-! ## Writes -/

theorem hostAct_writeReg {off : BitVec 15} (h : off.toNat % 4 = 0) (v : Word) (s : State) :
    hostAct (.writeReg off 4 v) s = .next { writeWord off.toNat v s with resp := .none } := by
  simp [hostAct, accessOk, h]

theorem writeWord_busy {s : State} (h : s.status.busy = true) (off : Nat) (v : Word) :
    writeWord off v s = writeBusy off v s := if_pos h

theorem writeWord_idle {s : State} (h : s.status.busy = false) (off : Nat) (v : Word) :
    writeWord off v s = writeIdle off v s := if_neg (by simp [h])

theorem writeWord_ctrl (v : Word) (s : State) : writeWord 0x0C v s = { s with irqEn := v.getLsbD 0 } := by
  unfold writeWord
  split <;> rfl

theorem writeWord_int (v : Word) (s : State) : writeWord 0x10 v s = { s with int := s.int.writeOnes v } := by
  unfold writeWord
  split <;> rfl

theorem writeAnytime_other {off : Nat} (h1 : off ≠ 0x0C) (h2 : off ≠ 0x10) (v : Word) (s : State) :
    writeAnytime off v s = s := by
  rw [writeAnytime, if_neg h1, if_neg h2]

/-- While busy every write but those of CMD, CTRL and INT is ignored (R41). -/
theorem writeBusy_other {off : Nat} (h0 : off ≠ 0x04) (h1 : off ≠ 0x0C) (h2 : off ≠ 0x10) (v : Word) (s : State) :
    writeBusy off v s = s := by
  rw [writeBusy, if_neg h0, writeAnytime_other h1 h2]

/-- While idle a write of a reserved or a read-only offset is ignored (R40). -/
theorem writeIdle_ignored {off : Nat} (h : reservedOffset off ∨ readOnlyOffset off) (v : Word) (s : State) :
    writeIdle off v s = s := by
  unfold reservedOffset readOnlyOffset at h
  unfold writeIdle
  iterate 7 rw [if_neg (by omega)]
  exact writeAnytime_other (by omega) (by omega) v s

theorem writeIdle_count {off : Nat} (h1 : 0x400 ≤ off) (h2 : off < 0x800) (v : Word) (s : State) :
    writeIdle off v s =
      { s with ft := { s.ft with count := s.ft.count.setIfInBounds ((off - 0x400) / 4) v } } := by
  unfold writeIdle
  iterate 6 rw [if_neg (by omega)]
  exact if_pos ⟨h1, h2⟩

/-- A plain register is in the region registers or the table, and a write of it is of nothing else. -/
theorem writeIdle_plain {off : Nat} (hp : plainRegister off) (v : Word) (s : State) :
    writeIdle off v s = { s with region := (writeIdle off v s).region, ft := (writeIdle off v s).ft } := by
  rcases hp with rfl | rfl | rfl | rfl | rfl | ⟨h1, h2⟩
  case inr.inr.inr.inr.inr => rw [writeIdle_count h1 h2]
  all_goals rfl

theorem FreqTable.at_withTotal (t : FreqTable) (v : Word) (b : Byte) :
    ({ t with total := v } : FreqTable).at b = t.at b := rfl

theorem FreqTable.at_set (t : FreqTable) (i : Nat) (v : Word) (b : Byte) :
    ({ t with count := t.count.setIfInBounds i v } : FreqTable).at b = if i = b.toNat then v else t.at b := by
  simp [FreqTable.at, Vector.getElem_setIfInBounds]

/-- A write of a plain register is what it then holds, and the others hold what they held. -/
theorem plainValue_writeIdle {off other : Nat} (hp : plainRegister off) (ho : plainRegister other)
    (ha : off % 4 = 0) (hb : other % 4 = 0) (v : Word) (s : State) :
    plainValue (writeIdle off v s) other = if other = off then v else plainValue s other := by
  rcases hp with rfl | rfl | rfl | rfl | rfl | ⟨h1, h2⟩
  case inr.inr.inr.inr.inr =>
    rw [writeIdle_count h1 h2]
    rcases ho with rfl | rfl | rfl | rfl | rfl | ⟨h3, h4⟩
    case inr.inr.inr.inr.inr =>
      rw [plainValue_count _ h3, plainValue_count _ h3, FreqTable.at_set]
      have hm : (BitVec.ofNat 8 ((other - 0x400) / 4)).toNat = (other - 0x400) / 4 := by
        rw [BitVec.toNat_ofNat]
        omega
      rw [hm]
      exact if_congr (by omega) rfl rfl
    all_goals
      rw [if_neg (by omega)]
      rfl
  all_goals
    split
    next h =>
      rw [h]
      rfl
    next h => simp [plainValue, writeIdle, FreqTable.at_withTotal, h]

/-- Settles O15: the write is that of its offset's register, as the reads of it show. -/
theorem hostWritesIdleAndBusy : Obligations.HostWritesIdleAndBusy := by
  intro s off v ha
  refine ⟨_, hostAct_writeReg ha v s, fun h => ?_, fun h => ?_, fun hidle hp => ?_, fun hbusy h => ?_,
    fun hbusy h0 h1 h2 => ?_⟩
  · rw [h, writeWord_ctrl]
    exact ⟨by rw [readWord_ctrl, bitWord_getLsbD_zero], rfl⟩
  · rw [h, writeWord_int]
    exact ⟨by rw [readWord_int, IntReg.word_writeOnes], rfl⟩
  · have hframe := writeIdle_plain hp v s
    have hreads : ∀ n, plainRegister n → n % 4 = 0 →
        readWord (writeIdle off.toNat v s) n = if n = off.toNat then v else readWord s n := fun n hn hna => by
      rw [readWord_plain hidle hn, readWord_plain (by rw [hframe]; exact hidle) hn, plainValue_writeIdle hp hn ha hna]
    rw [writeWord_idle hidle]
    refine ⟨by rw [readWord_resp, hreads _ hp ha, if_pos rfl], congrArg (fun t => { t with resp := .none }) hframe,
      fun other hoa hop hne => ?_⟩
    rw [readWord_resp, hreads _ hop hoa, if_neg fun he => hne (BitVec.eq_of_toNat_eq he)]
  · rw [h, writeWord_busy hbusy]
    rfl
  · rw [writeWord_busy hbusy, writeBusy_other h0 h1 h2]

/-- A reserved offset reads 0 while idle (R40). -/
theorem readWord_reservedOffset {s : State} {off : Nat} (hidle : s.status.busy = false) (h : reservedOffset off) :
    readWord s off = 0 := by
  rcases h with rfl | ⟨h1, h2⟩ | h | h | ⟨h1, h2⟩
  · exact (readWord_control hidle (by decide)).trans (controlWord_reserved s (.inl rfl))
  · exact (readWord_control hidle h2).trans (controlWord_reserved s (.inr h1))
  · exact readWord_reserved hidle (.inl h)
  · exact readWord_reserved hidle (.inr h)
  · exact (readWord_code hidle h1).trans (codeView_reserved _ (by omega))

/-- NODE_COUNT and PQ_SIZE: ten bits, and none above them. -/
theorem setWidth_and_reserved (n : BitVec 10) : (n.setWidth 32 : Word) &&& 0xFFFFFC00#32 = 0#32 :=
  and_eq_zero_of_lt 10 (toNat_setWidth_lt n (by decide)) (by decide)

/-- Settles O16: each word's fields leave its reserved bits 0, and no branch of a write is at these offsets. -/
theorem reservedReadsZeroAndIgnoresWrites : Obligations.ReservedReadsZeroAndIgnoresWrites := by
  intro s off v ha hidle
  refine ⟨readWord_reservedOffset hidle, fun h => ?_, ?_, ?_, ?_, ?_, ?_, ?_, ?_, ?_, fun h1 h2 => ?_,
    fun h1 h2 => ?_⟩
  · rw [hostAct_writeReg ha, writeWord_idle hidle, writeIdle_ignored h]
  · rw [readWord_status]
    exact s.status.word_and_reserved
  · rw [readWord_ctrl]
    exact and_eq_zero_of_lt 1 (toNat_bitWord_lt _) (by decide)
  · rw [readWord_int]
    exact s.int.word_and_reserved
  · rw [readWord_control hidle (by decide)]
    exact treeRootWord_and_reserved s.tree
  · rw [readWord_control hidle (by decide)]
    exact setWidth_and_reserved s.tree.nodeCount
  · rw [readWord_control hidle (by decide)]
    exact setWidth_and_reserved (pqSize s)
  · rw [readWord_control hidle (by decide)]
    exact bwStateWord_and_reserved s.bw
  · rw [readWord_control hidle (by decide)]
    exact brStateWord_and_reserved s.br
  · rw [readWord, regView_node hidle h1 h2, show off.toNat % 16 / 4 = (off.toNat - 0x2000) % 16 / 4 by omega]
    exact nodeView_word_and_reserved ..
  · rw [readWord_code hidle h1, show (off.toNat - 0x4000) % 64 / 4 = 0 by omega, codeView_len]
    exact and_eq_zero_of_lt 8 (toNat_setWidth_lt _ (by decide)) (by decide)

/-- Settles O17: ID is a constant of the window, and its offset is one that writes ignore, busy or idle. -/
theorem idIsConstant : Obligations.IdIsConstant := by
  intro s v
  have hw : writeWord (0x0000#15).toNat v s = s := by
    cases hb : s.status.busy with
    | true => rw [writeWord_busy hb, writeBusy_other (by decide) (by decide) (by decide)]
    | false => exact (writeWord_idle hb _ v).trans (writeIdle_ignored (.inr (.inl rfl)) v s)
  exact ⟨readWord_id s, by rw [hostAct_writeReg (by decide), hw]⟩

/-- STATUS, CTRL and INT, busy or idle. -/
theorem controlReads_holds (s : State) : controlReads s :=
  ⟨by rw [readWord_status, Status.toNat_word], by rw [readWord_ctrl, toNat_bitWord],
    by rw [readWord_int, IntReg.toNat_word]⟩

theorem toNat_pqSize {s : State} (h : s.pq.length ≤ 511) : ((pqSize s).setWidth 32 : Word).toNat = s.pq.length := by
  rw [toNat_setWidth_of_le _ (by decide), pqSize, BitVec.toNat_ofNat]
  omega

/-- The other registers, while idle. -/
theorem idleReads_of_idle {s : State} (hidle : s.status.busy = false) : idleReads s := by
  have control : ∀ {off : Nat}, off < 0x400 → readWord s off = controlWord s off := readWord_control hidle
  refine ⟨control (by decide), control (by decide), control (by decide), control (by decide), control (by decide),
    control (by decide), control (by decide), control (by decide), control (by decide), control (by decide),
    readWord_count_of s hidle, ?_, ?_, fun h => ?_, ?_, control (by decide), ?_, control (by decide)⟩
  · rw [control (by decide)]
    exact toNat_treeRootWord s.tree
  · rw [control (by decide)]
    exact toNat_setWidth_of_le s.tree.nodeCount (by decide)
  · rw [control (by decide)]
    exact toNat_pqSize h
  · rw [control (by decide)]
    exact toNat_bwStateWord s.bw
  · rw [control (by decide)]
    exact toNat_brStateWord s.br

/-- Settles O18: each register's word is the state's field in R23's layout; a command that completes leaves the core
idle, DONE set. -/
theorem registersReadTheState : Obligations.RegistersReadTheState := by
  refine fun s => ⟨fun off h => hostAct_readReg h s, controlReads_holds s, idleReads_of_idle, fun h => ?_,
    fun i t _ he => ?_⟩
  · rw [readWord_status, h.status]
    rfl
  · obtain ⟨hidle, hdone, -⟩ := exec_completes he
    refine ⟨?_, idleReads_of_idle hidle⟩
    rw [readWord_status, Status.toNat_word, hidle, hdone]
    rfl

/-- Settles O20: the words of a code and of a node, field by field. -/
theorem windowShowsNodesAndCodes : Obligations.WindowShowsNodesAndCodes := by
  refine ⟨fun s sym j k hidle hj hk hlen => ⟨?_, ?_⟩, fun s i n hidle hi hn => ⟨?_, ?_, ?_, ?_⟩⟩
  · rw [readWord_code_of hidle sym (k := 0) (by decide) (by omega), codeView_len,
      toNat_setWidth_of_le _ (by decide), codeLen, BitVec.toNat_ofNat]
    omega
  · rw [readWord_code_of hidle sym (k := j + 1) (by omega) (by omega), codeView_word _ hj, codeWord_getLsbD _ _ hk]
  · rw [readWord_node hidle hi hn (k := 0) (by decide) (by omega), toNat_nodeWord_low]
  · rw [readWord_node hidle hi hn (k := 1) (by decide) (by omega), toNat_nodeWord_high]
  · rw [readWord_node hidle hi hn (k := 2) (by decide) (by omega), toNat_nodeWord_link]
  · rw [readWord_node hidle hi hn (k := 3) (by decide) (by omega), toNat_nodeWord_sym]

/-! ## The output irq -/

/-- After a command DONE_PEND is set, and IRQ_EN is the host's. -/
theorem irq_of_exec {i : Instr} {s t : State} (h : exec i s = .next t) : irq t = s.irqEn := by
  obtain ⟨-, -, hpend⟩ := exec_completes h
  obtain ⟨⟨-, hirq, -⟩, -⟩ := exec_kept h
  rw [irq, hpend, hirq, Bool.and_true]

/-- Settles O22: irq is the two bits' conjunction; completion sets the one, and a host's W1C clears it. -/
theorem irqFollowsCompletion : Obligations.IrqFollowsCompletion := by
  refine ⟨fun s => Bool.and_eq_true_iff, rfl, fun i s t h => irq_of_exec h, fun s t v hv h => ?_⟩
  rw [hostAct_writeReg (by decide)] at h
  cases h
  rw [show (0x0010#15).toNat = 0x10 from rfl, writeWord_int]
  simp [irq, IntReg.writeOnes, hv]

/-! ## The window after reset -/

/-- Of the control block only ID and BR_STATE are not 0 (R45). -/
theorem controlWord_reset {off : Nat} (h1 : off ≠ 0x00) (h2 : off ≠ 0x50) : controlWord State.reset off = 0 := by
  unfold controlWord
  split
  case h_1 => exact absurd rfl h1
  case h_20 => exact absurd rfl h2
  all_goals rfl

/-- Settles O23: the four parts of the window outside the node store, at State.reset. -/
theorem resetRegisterValues : Obligations.ResetRegisterValues := by
  refine ⟨readWord_id _, readWord_control rfl (by decide), rfl, rfl, fun off ha h1 h2 hout => ?_⟩
  have hidle : State.reset.status.busy = false := rfl
  have hlt := off.isLt
  by_cases hcontrol : off.toNat < 0x400
  · rw [readWord_control hidle hcontrol, controlWord_reset h1 h2]
  by_cases hcount : off.toNat < 0x800
  · rw [readWord_count hidle (Nat.le_of_not_lt hcontrol) hcount]
    exact FreqTable.clear_at _
  by_cases hcode : 0x4000 ≤ off.toNat
  · rw [readWord_code hidle hcode]
    exact (congrArg (codeView · _) (codeOf_noCodes _)).trans (codeView_nil _)
  · exact readWord_reserved hidle (by omega)

end Sys2Proof.Machine
end

section
/-! Buffer memory through a step (spec/20_memory.md R60): what each move can do to it, and that every step keeps its
canonical form. -/

namespace Sys2Proof.Machine

/-! ## What a move does to buffer memory -/

/-- A command that completes leaves buffer memory canonical. -/
theorem exec_wf {i : Instr} {s t : State} (h : Mem.wf s.mem) (he : exec i s = .next t) : Mem.wf t.mem := by
  obtain ⟨u, hu, ht, -⟩ := exec_rest he (commandBody_wf i h)
  rw [ht]
  exact hu

theorem coreStep_wf {s t : State} (h : Mem.wf s.mem) (he : coreStep s = .next t) : Mem.wf t.mem := by
  unfold coreStep at he
  split at he
  · exact exec_wf h he
  · cases he
    exact h

/-- The memory of an aborted command (R293): none of its writes, all of them, or the first `k`, with or without one
more byte that the abort interrupted. -/
theorem abortedMem_cases (i : Instr) (s : State) :
    abortedMem i s = s.mem ∨ ∃ t, exec i s = .next t ∧
      (abortedMem i s = t.mem ∨ ∃ k first,
        abortedMem i s = copyDst s.region t.mem k first s.mem ∨
          ∃ v, abortedMem i s =
            Mem.write (copyDst s.region t.mem k first s.mem) (s.region.dstAddr (first + k)).toNat v) := by
  unfold abortedMem
  split
  next t he =>
    refine .inr ⟨t, he, ?_⟩
    dsimp only
    split
    · exact .inl rfl
    · refine .inr ⟨Config.freeProgress s.draws, (dstWrites i s t).1, ?_⟩
      split
      · exact .inr ⟨_, rfl⟩
      · exact .inl rfl
  · exact .inl rfl
  · exact .inl rfl

/-- Bytes copied into a canonical memory leave it canonical. -/
theorem copyDst_wf (r : Region) (new : List Host.Cell) (n o : Nat) {m : List Host.Cell} (h : Mem.wf m) :
    Mem.wf (copyDst r new n o m) :=
  (copyDst_kept r new n o m (fun _ => True) fun _ _ _ => trivial).2 h

theorem abortedMem_canonical (i : Instr) {s : State} (h : Mem.wf s.mem) : Mem.wf (abortedMem i s) := by
  obtain hm | ⟨t, he, hm | ⟨k, first, hm | ⟨v, hm⟩⟩⟩ := abortedMem_cases i s <;> rw [hm]
  · exact h
  · exact exec_wf h he
  · exact copyDst_wf _ _ _ _ h
  · exact Mem.write_wf v (addr_lt_memSize _) (copyDst_wf _ _ _ _ h)

/-- An `rst` leaves buffer memory as it was, or as the command it aborted leaves it. -/
theorem resetEvent_mem (s : State) :
    (resetEvent s).mem = s.mem ∨ ∃ i, (resetEvent s).mem = abortedMem i s := by
  unfold resetEvent
  split
  · split
    · exact .inr ⟨_, rfl⟩
    · exact .inl rfl
  · exact .inl rfl

/-- No register write reaches buffer memory. -/
theorem writeWord_mem (off : Nat) (v : Word) (s : State) : (writeWord off v s).mem = s.mem := by
  obtain ⟨-, -, hw⟩ | ⟨irqEn, int, region, ft, hw⟩ := writeWord_cases off v s <;> rw [hw]
  rfl

/-- Of the host's accesses only a write of buffer memory and an `rst` change it. -/
theorem hostAct_mem {a : HostAction} {s t : State} (he : hostAct a s = .next t) :
    t.mem = s.mem ∨ (∃ (addr : Word) (v : Byte), t.mem = Mem.write s.mem addr.toNat v) ∨ t = resetEvent s := by
  cases a with
  | readReg off bytes =>
    simp only [hostAct] at he
    split at he <;> cases he <;> exact .inl rfl
  | writeReg off bytes v =>
    simp only [hostAct] at he
    split at he <;> cases he
    · exact .inl (writeWord_mem _ _ s)
    · exact .inl rfl
  | readMem addr =>
    rw [hostAct_readMem] at he
    split at he <;> cases he
    exact .inl rfl
  | writeMem addr v =>
    rw [hostAct_writeMem] at he
    split at he <;> cases he
    exact .inr (.inl ⟨addr, v, rfl⟩)
  | setBusFault kind addr on =>
    rw [hostAct_setBusFault] at he
    split at he <;> cases he
    exact .inl rfl
  | wait =>
    cases he
    exact .inl rfl
  | rst =>
    cases he
    exact .inr (.inr rfl)

theorem hostAct_wf {a : HostAction} {s t : State} (h : Mem.wf s.mem) (he : hostAct a s = .next t) :
    Mem.wf t.mem := by
  obtain hm | ⟨addr, v, hm⟩ | rfl := hostAct_mem he
  · rwa [hm]
  · rw [hm]
    exact Mem.write_wf v (addr_lt_memSize addr) h
  · obtain hm | ⟨i, hm⟩ := resetEvent_mem s <;> rw [hm]
    · exact h
    · exact abortedMem_canonical i h

theorem hostStep_wf {s t : State} (h : Mem.wf s.mem) (he : hostStep s = .next t) : Mem.wf t.mem := by
  unfold hostStep at he
  split at he
  · cases he
    exact h
  · refine hostAct_wf ?_ he
    exact h

/-- Settles O57: a command writes byte by byte, and the host's accesses write one byte, copied bytes or none. -/
theorem stepKeepsMemoryCanonical : Obligations.StepKeepsMemoryCanonical := by
  intro s t h he
  have hm : machineStep s = .next t := he
  unfold machineStep at hm
  split at hm
  · exact coreStep_wf (s := s.tick) h hm
  · exact hostStep_wf h hm

end Sys2Proof.Machine
end

section
/-! The bytes of buffer memory a command writes (spec/20_memory.md R60, R65; spec/46_orchestrator.md R236): those of
DST at the offsets it has reached. -/

namespace Sys2Proof.Machine

/-- The addresses of the DST offsets from `first` on that a command which ended in `t`, at offset `next`, wrote. -/
def writtenAddrs (r : Region) (first next : Nat) (t : State) (a : Nat) : Prop :=
  ∃ o, spanOffsets first next t o ∧ o < r.dstCap.toNat ∧ a = (r.dstAddr o).toNat

/-- Offsets below `next` are written whatever STATUS reports. -/
theorem spanAddrs.written {r : Region} {first next a : Nat} (t : State) (h : spanAddrs r first next a) :
    writtenAddrs r first next t a := by
  obtain ⟨o, hlo, hhi, hcap, ha⟩ := h
  exact ⟨o, ⟨hlo, .inl hhi⟩, hcap, ha⟩

/-- The offset `pos` is in none of the fields that completion and a report write. -/
def AtCompletion (pos : State → Nat) : Prop :=
  ∀ s : State, pos s.complete = pos s ∧ ∀ e, pos (s.report e).complete = pos s

theorem atCompletion_bwPos : AtCompletion bwPos := fun _ => ⟨rfl, fun _ => rfl⟩

theorem atCompletion_decPos : AtCompletion decPos := fun _ => ⟨rfl, fun _ => rfl⟩

/-- A command whose piece writes from the offset `pos` on keeps every byte but those it reached, and the one at
`pos` when DETAIL is DST_WRITE_FAULT. -/
theorem Traced.memoryKept {pos : State → Nat} {r : Res Unit} {s t : State} (hpos : AtCompletion pos)
    (h : Traced pos s r) (ht : finish r = .next t) :
    MemoryKeptBut (writtenAddrs s.region (pos s) (pos t) t) s t := by
  rcases finish_eq_next ht with ⟨u, rfl, rfl⟩ | ⟨e, u, rfl, rfl⟩
  · obtain ⟨hdone, -⟩ := hpos u
    rw [hdone]
    exact (Trace.kept h).mono fun _ ha => ha.written _
  · obtain ⟨-, hreport⟩ := hpos u
    rw [hreport]
    rcases h with h | ⟨hdetail, m, hm, hroom, hu, rfl⟩
    · exact h.kept.mono fun _ ha => ha.written _
    · rw [hu]
      refine MemoryKeptBut.trans (t := m) (hm.kept.mono fun _ ha => ha.written _) ?_
      refine (memoryKept_write m _ _ _ rfl).mono fun a ha => ?_
      rw [hm.region] at hroom ha
      exact ⟨pos m, ⟨hm.le, .inr ⟨rfl, hdetail⟩⟩, hroom, ha⟩

/-- A command with a set-up that writes no memory keeps what its main part keeps. -/
theorem memoryKept_bind {r : Res Unit} {f : State → Res Unit} {s t : State} {P : Nat → Prop}
    (hr : r.Ends fun u => u.mem = s.mem) (hf : ∀ u, r = .ok () u → finish (f u) = .next t → MemoryKeptBut P u t)
    (ht : finish (r.bind fun _ u => f u) = .next t) : MemoryKeptBut P s t := by
  cases r with
  | ok a u => exact (MemoryKeptBut.of_eq hr).trans (hf u rfl ht)
  | raise e u =>
    cases ht
    exact MemoryKeptBut.of_eq hr
  | fault w => cases ht

/-- What holds of the state of a piece that reaches its end. -/
theorem Res.Ends.of_ok {α : Type} {r : Res α} {Q : State → Prop} {a : α} {u : State} (h : r.Ends Q)
    (hr : r = .ok a u) : Q u := by
  subst hr
  exact h

/-- The writer's commands check the region and then write from BW_POS on. -/
theorem memoryKept_writer {c : Bool} {code : StatusCode} {r : Res Unit} {s t : State} (h : Traced bwPos s r)
    (ht : finish (if c then r else raiseCode code s) = .next t) :
    MemoryKeptBut (writtenAddrs s.region s.bw.pos.toNat t.bw.pos.toNat t) s t := by
  refine Traced.memoryKept atCompletion_bwPos ?_ ht
  split
  · exact h
  · exact .inl (Trace.refl _ _)

/-- COMPRESS writes from DST offset 0 on, once its set-up is done. -/
theorem memoryKept_compress {s t : State} (ht : exec .compress s = .next t) :
    MemoryKeptBut (writtenAddrs s.region 0 t.bw.pos.toNat t) s t := by
  refine memoryKept_bind (Res.ends_mono (compressSetup_ends s) fun u hu => by rw [hu]) (fun u hu hf => ?_) ht
  have hregion : u.region = s.region := (Res.Ends.of_ok (compressSetup_ends s) hu).platform.1
  rw [← hregion]
  exact (compressWrite_traced u).memoryKept atCompletion_bwPos hf

/-- DECOMPRESS writes from DST offset 0 on, once its set-up has set DECODED to 0. -/
theorem memoryKept_decompress {s t : State} (ht : exec .decompress s = .next t) :
    MemoryKeptBut (writtenAddrs s.region 0 t.decoded.toNat t) s t := by
  refine memoryKept_bind (Res.ends_mono (decompressSetup_ends s) fun u hu => by rw [hu]) (fun u hu hf => ?_) ht
  have honly : DecompressSetupOnly s u := Res.Ends.of_ok (decompressSetup_ends s) hu
  have hdecoded : decPos u = 0 := by rw [honly]; rfl
  rw [← honly.platform.1, ← hdecoded]
  exact (decompressDecode_traced u).memoryKept atCompletion_decPos hf

/-- Settles O13: the writer's commands, COMPRESS and DECOMPRESS by the trace of their writes; no other command has
buffer memory among its parts. -/
theorem memoryWrittenOnlyInDst : Obligations.MemoryWrittenOnlyInDst := by
  intro i s t h
  cases i with
  | bwPut b => exact memoryKept_writer (putBit_traced b s) h
  | bwPutCode sym =>
    refine memoryKept_writer ?_ h
    split
    · exact .inl (Trace.refl _ _)
    · exact putBits_traced _ s
  | bwFlush => exact memoryKept_writer (flushBody_traced s) h
  | compress => exact memoryKept_compress h
  | decompress => exact memoryKept_decompress h
  | nop | ftClear | ftCount | ftScan | pqClear | pqInsert | pqExtract | treeBuild | codeGen | bwReset | brReset
  | brGet =>
    obtain ⟨-, hparts⟩ := exec_kept h
    exact fun a _ => hparts .mem (by simp [writtenParts]) a

end Sys2Proof.Machine
end

section
/-! The region requirement of a command (spec/20_memory.md R69; spec/46_orchestrator.md R226) and the width and
alignment of a register access (R66): what fails the check has no other effect. -/

namespace Sys2Proof.Machine

/-! ## The requirement as inequalities -/

theorem Region.validSrc_iff (r : Region) : r.validSrc = true ↔ srcInSpace r := decide_eq_true_iff

theorem Region.validDst_iff (r : Region) : r.validDst = true ↔ dstInSpace r := decide_eq_true_iff

theorem Region.disjoint_iff (r : Region) : r.disjoint = true ↔ regionsApart r := by
  simp [Region.disjoint, regionsApart, or_assoc, BitVec.toNat_eq]

theorem Region.codecOk_iff_inequalities (r : Region) :
    r.codecOk = true ↔ srcInSpace r ∧ dstInSpace r ∧ regionsApart r := by
  rw [Region.codecOk_iff, Region.validSrc_iff, Region.validDst_iff, Region.disjoint_iff]

/-! ## A requirement that fails -/

/-- The state in which a command finds its regions bad: COMPRESS and DECOMPRESS have cleared their lengths (R226). -/
def lengthsCleared (i : Instr) (s : State) : State :=
  match i with
  | .compress => { s with outLen := 0 }
  | .decompress => { s with outLen := 0, decoded := 0 }
  | _ => s

/-- With the requirement failed a command raises BAD_REGION, having cleared no more than its lengths. -/
theorem commandBody_badRegion {i : Instr} {s : State} (h : ¬ regionOk i s.region) :
    commandBody i s = raiseCode .badRegion (lengthsCleared i s) := by
  cases i with
  | ftScan | brGet => exact if_neg fun hv => h (s.region.validSrc_iff.1 hv)
  | bwPut | bwPutCode | bwFlush => exact if_neg fun hv => h (s.region.validDst_iff.1 hv)
  | compress =>
    rw [commandBody, compressSetup_bad (Bool.eq_false_iff.2 fun hv => h (s.region.codecOk_iff_inequalities.1 hv))]
    rfl
  | decompress =>
    rw [commandBody, decompressSetup_bad (Bool.eq_false_iff.2 fun hv => h (s.region.codecOk_iff_inequalities.1 hv))]
    rfl
  | nop | ftClear | ftCount | pqClear | pqInsert | pqExtract | treeBuild | codeGen | bwReset | brReset =>
    exact absurd trivial h

/-- A command whose requirement fails completes with BAD_REGION, and keeps all but the lengths it has cleared. -/
theorem exec_badRegion {i : Instr} {s : State} (h : ¬ regionOk i s.region) :
    ∃ t, exec i s = .next t ∧ Ended .badRegion .none t ∧ KeptExcept [] (lengthsCleared i s) t ∧
      t.outLen = (lengthsCleared i s).outLen ∧ t.decoded = (lengthsCleared i s).decoded := by
  have he := exec_eq_finish i s
  rw [commandBody_badRegion h] at he
  exact ⟨_, he, ended_report _ _, (KeptExcept.refl [] _).report (.inl rfl), rfl, rfl⟩

/-- What clearing the lengths keeps. -/
theorem lengthsCleared_compress_kept (s : State) : KeptExcept [.outLen] s (lengthsCleared .compress s) :=
  (BodyKept.of_fields _ _ _ _ _ _ _ _ _ _ _ (.inr rfl) (.inr rfl) (.inr rfl) (.inr rfl) (.inr rfl)
    (.inr rfl) (.inr rfl) (.inl (by simp)) (.inr rfl) (.inr rfl)).kept

theorem lengthsCleared_decompress_kept (s : State) :
    KeptExcept [.outLen, .decoded] s (lengthsCleared .decompress s) :=
  (BodyKept.of_fields _ _ _ _ _ _ _ _ _ _ _ (.inr rfl) (.inr rfl) (.inr rfl) (.inr rfl) (.inr rfl)
    (.inr rfl) (.inr rfl) (.inl (by simp)) (.inl (by simp)) (.inr rfl)).kept

theorem lengthsCleared_other {i : Instr} (h1 : i ≠ .compress) (h2 : i ≠ .decompress) (s : State) :
    lengthsCleared i s = s := by
  cases i with
  | compress => exact absurd rfl h1
  | decompress => exact absurd rfl h2
  | _ => rfl

/-! ## A requirement that is met -/

/-- Not a raise of BAD_REGION. -/
def NotBadRegion (e : Raise) (_ : State) : Prop := e.code ≠ .badRegion

theorem srcStop.notBadRegion {s t : State} {e : Raise} (h : srcStop s e t) : NotBadRegion e t := by
  obtain ⟨j, -, -, rfl⟩ := h
  exact StatusCode.noConfusion

theorem dstStop.notBadRegion {pos : State → Nat} {s t : State} {e : Raise} (h : dstStop pos s e t) :
    NotBadRegion e t := by
  obtain ⟨-, -, rfl⟩ | ⟨-, rfl⟩ := h <;> exact StatusCode.noConfusion

theorem codeStop.notBadRegion {code : StatusCode} {detail : Detail} {e : Raise} {t : State}
    (h : codeStop code detail e t) (hc : code ≠ .badRegion) : NotBadRegion e t := by
  rw [h]
  exact hc

theorem compress_raises_notBadRegion {s : State} (h : s.region.codecOk = true) :
    (commandBody .compress s).Raises NotBadRegion := by
  refine Res.raises_bind (Res.raises_mono (compressSetup_raises h) fun _ _ he => he.notBadRegion)
    (compressSetup_ends s) fun _ t _ => ?_
  refine Res.raises_mono (compressWrite_raises t) fun e u he => ?_
  obtain he | he | he := he
  · exact he.notBadRegion
  · exact he.notBadRegion
  · exact codeStop.notBadRegion he StatusCode.noConfusion

theorem decompress_raises_notBadRegion {s : State} (h : s.region.codecOk = true) :
    (commandBody .decompress s).Raises NotBadRegion := by
  refine Res.raises_bind (Res.raises_mono (decompressSetup_raises h) fun e u he => ?_)
    (decompressSetup_ends s) fun _ t _ => Res.raises_mono (decompressDecode_raises t) fun e u he => ?_
  · obtain he | he | he | he := he
    · exact he.notBadRegion
    all_goals exact he.notBadRegion StatusCode.noConfusion
  · obtain he | he | he := he
    · exact he.notBadRegion
    · exact he.notBadRegion
    · exact codeStop.notBadRegion he StatusCode.noConfusion

/-- With the requirement met a command raises no BAD_REGION. -/
theorem commandBody_raises_notBadRegion {i : Instr} {s : State} (h : regionOk i s.region) :
    (commandBody i s).Raises NotBadRegion := by
  have raised : ∀ {code : StatusCode}, code ≠ .badRegion →
      (raiseCode code s : Res Unit).Raises NotBadRegion := fun hc => Res.raises_raise hc
  cases i with
  | nop | ftClear | pqClear | bwReset | brReset => exact Res.raises_ok _ _ _
  | ftCount b =>
    simp only [commandBody]
    split
    · exact raised StatusCode.noConfusion
    · exact Res.raises_ok _ _ _
  | ftScan =>
    rw [commandBody, if_pos (s.region.validSrc_iff.2 h)]
    exact Res.raises_mono (scanBody_raises s) fun _ _ he => he.notBadRegion
  | pqInsert n =>
    simp only [commandBody]
    split
    · exact raised StatusCode.noConfusion
    · split
      · exact raised StatusCode.noConfusion
      · split
        · exact Res.raises_ok _ _ _
        · exact raised StatusCode.noConfusion
  | pqExtract =>
    simp only [commandBody]
    split
    · exact Res.raises_ok _ _ _
    · exact raised StatusCode.noConfusion
  | treeBuild => exact Res.raises_mono (treeBody_raises s) fun _ _ he => he.notBadRegion StatusCode.noConfusion
  | codeGen => exact codeGenBody_raises s _
  | bwPut b =>
    rw [commandBody, if_pos (s.region.validDst_iff.2 h)]
    exact Res.raises_mono (putBit_raises b s) fun _ _ he => he.notBadRegion
  | bwPutCode sym =>
    rw [commandBody, if_pos (s.region.validDst_iff.2 h)]
    split
    · exact raised StatusCode.noConfusion
    · exact Res.raises_mono (putBits_raises _ s) fun _ _ he => he.notBadRegion
  | bwFlush =>
    rw [commandBody, if_pos (s.region.validDst_iff.2 h)]
    exact Res.raises_mono (flushBody_raises s) fun _ _ he => he.notBadRegion
  | brGet =>
    rw [commandBody, if_pos (s.region.validSrc_iff.2 h)]
    refine Res.raises_bind (Res.raises_mono (getBit_raises s) fun _ _ he => he.notBadRegion) (getBit_ends s)
      fun bit t _ => ?_
    cases bit with
    | none => exact Res.raises_raise StatusCode.noConfusion
    | some b => exact Res.raises_ok _ _ _
  | compress => exact compress_raises_notBadRegion (s.region.codecOk_iff_inequalities.2 h)
  | decompress => exact decompress_raises_notBadRegion (s.region.codecOk_iff_inequalities.2 h)

/-- With the requirement met an accepted command does not report BAD_REGION. -/
theorem exec_code_ne_badRegion {i : Instr} {s t : State} (hA : Accepted s) (h : regionOk i s.region)
    (he : exec i s = .next t) : t.status.code ≠ .badRegion := by
  rw [exec_eq_finish] at he
  rcases finish_eq_next he with ⟨u, hu, rfl⟩ | ⟨e, u, hu, rfl⟩
  · have hstatus : u.status = s.status := (Res.Ends.of_ok (commandBody_ends i s) hu).status
    rw [(ended_complete (hstatus.trans hA.status)).code]
    exact StatusCode.noConfusion
  · exact commandBody_raises_notBadRegion h e u hu

/-- Settles O14: the check comes first in each command that has one, and nothing after it raises BAD_REGION. -/
theorem badRegionBeforeAnyOtherEffect : Obligations.BadRegionBeforeAnyOtherEffect := by
  refine fun i s hA => ⟨s.region.validSrc_iff, s.region.validDst_iff, s.region.codecOk_iff_inequalities,
    fun h => ?_, fun h t => exec_code_ne_badRegion hA h, fun h j => srcAddr_toNat (s.region.validSrc_iff.2 h),
    fun h o => dstAddr_toNat (s.region.validDst_iff.2 h)⟩
  obtain ⟨t, ht, hend, hkept, hout, hdec⟩ := exec_badRegion h
  refine ⟨t, ht, hend, fun h1 h2 => ?_, fun hi => ?_, fun hi => ?_⟩
  · rwa [lengthsCleared_other h1 h2] at hkept
  · subst hi
    exact ⟨hout, (lengthsCleared_compress_kept s).trans (hkept.mono (by simp))⟩
  · subst hi
    exact ⟨hout, hdec, (lengthsCleared_decompress_kept s).trans (hkept.mono (by simp))⟩

/-! ## A register access of another width or alignment -/

theorem accessOk_iff (off : BitVec 15) (bytes : Nat) :
    accessOk off bytes = true ↔ bytes = 4 ∧ off.toNat % 4 = 0 := by
  simp [accessOk]

/-- Settles O19: both accesses check width and alignment before anything else. -/
theorem misalignedAccessHasNoEffect : Obligations.MisalignedAccessHasNoEffect := by
  intro s off bytes v h
  have hbad : ¬ accessOk off bytes = true := by
    rw [accessOk_iff]
    rintro ⟨hb, ha⟩
    exact h.elim (· hb) (· ha)
  exact ⟨if_neg hbad, if_neg hbad⟩

end Sys2Proof.Machine
end

section
/-! The encoding (spec/30_encoding.md R80 to R88): a word is its three fields, the decoder is the table of R81 read
row by row, and a command's fields give the command back. -/

namespace Sys2Proof

/-! ## A word and its fields -/

theorem toNat_opcOf (w : Word) : (opcOf w).toNat = w.toNat % 2 ^ 8 := by simp [opcOf]

theorem toNat_immOf (w : Word) : (immOf w).toNat = w.toNat / 2 ^ 8 % 2 ^ 16 := by
  simp [immOf, Nat.shiftRight_eq_div_pow]

theorem toNat_rsvOf (w : Word) : (rsvOf w).toNat = w.toNat / 2 ^ 24 := by
  simp only [rsvOf, BitVec.extractLsb'_toNat, Nat.shiftRight_eq_div_pow]
  omega

/-- OPC, IMM and RSV are all of a word (R80). -/
theorem word_ext {v w : Word} (hopc : opcOf v = opcOf w) (himm : immOf v = immOf w) (hrsv : rsvOf v = rsvOf w) :
    v = w := by
  have ho := congrArg BitVec.toNat hopc
  have hi := congrArg BitVec.toNat himm
  have hr := congrArg BitVec.toNat hrsv
  rw [toNat_opcOf, toNat_opcOf] at ho
  rw [toNat_immOf, toNat_immOf] at hi
  rw [toNat_rsvOf, toNat_rsvOf] at hr
  exact BitVec.eq_of_toNat_eq (by omega)

/-- A word is an OPC value alone when OPC is that value and the other fields are 0. -/
theorem eq_setWidth_opc_iff (w : Word) (opc : BitVec 8) :
    w = opc.setWidth 32 ↔ opcOf w = opc ∧ immOf w = 0#16 ∧ rsvOf w = 0#8 := by
  have hword : opc.setWidth 32 = opc.setWidth 32 ||| ((0#16).setWidth 32 <<< 8) := by simp
  rw [hword]
  constructor
  · rintro rfl
    exact ⟨opcOf_assembled _ _, immOf_assembled _ _, rsvOf_assembled _ _⟩
  · rintro ⟨hopc, himm, hrsv⟩
    refine word_ext ?_ ?_ ?_
    · rw [hopc, opcOf_assembled]
    · rw [himm, immOf_assembled]
    · rw [hrsv, rsvOf_assembled]

/-! ## The operand forms of R82 as one -/

/-- An operand of n bits in IMM, the bits above it 0. -/
def sizedForm (n : Nat) (mk : BitVec n → Instr) (imm : BitVec 16) : Decoded :=
  if imm.toNat < 2 ^ n then .command (mk (imm.setWidth n)) else .illegal .operandBits

/-- The bits above the n low ones are 0 when the number is below 2^n. -/
theorem upperBits_eq_zero_iff {n : Nat} (m : Nat) (h : n + m = 16) (imm : BitVec 16) :
    imm.extractLsb' n m = 0#m ↔ imm.toNat < 2 ^ n := by
  have hlt : imm.toNat / 2 ^ n < 2 ^ m := Nat.div_lt_of_lt_mul (by rw [← Nat.pow_add, h]; exact imm.isLt)
  rw [← BitVec.toNat_inj, BitVec.extractLsb'_toNat, BitVec.toNat_zero, Nat.shiftRight_eq_div_pow,
    Nat.mod_eq_of_lt hlt, Nat.div_eq_zero_iff_lt (Nat.two_pow_pos n)]

theorem noneForm_eq_sizedForm (i : Instr) : noneForm i = sizedForm 0 fun _ => i := by
  funext imm
  have hzero : imm = 0#16 ↔ imm.toNat < 2 ^ 0 := by
    rw [Nat.pow_zero, Nat.lt_one_iff, ← BitVec.toNat_inj, BitVec.toNat_zero]
  simp only [noneForm, sizedForm, hzero]

theorem byteForm_eq_sizedForm (mk : Byte → Instr) : byteForm mk = sizedForm 8 mk := by
  funext imm
  simp only [byteForm, sizedForm, upperBits_eq_zero_iff (n := 8) 8 rfl,
    BitVec.setWidth_eq_extractLsb' (Nat.le_add_left 8 8)]

theorem nodeForm_eq_sizedForm (mk : NodeIx → Instr) : nodeForm mk = sizedForm 9 mk := by
  funext imm
  simp only [nodeForm, sizedForm, upperBits_eq_zero_iff (n := 9) 7 rfl,
    BitVec.setWidth_eq_extractLsb' (Nat.le_add_right 9 7)]

theorem bitForm_eq_sizedForm (mk : Bool → Instr) : bitForm mk = sizedForm 1 fun b => mk (b.getLsbD 0) := by
  funext imm
  have hlow : (imm.setWidth 1).getLsbD 0 = imm.getLsbD 0 := by simp
  simp only [bitForm, sizedForm, upperBits_eq_zero_iff (n := 1) 15 rfl, hlow]

theorem sizedForm_setWidth {n : Nat} (hn : n ≤ 16) (mk : BitVec n → Instr) (b : BitVec n) :
    sizedForm n mk (b.setWidth 16) = .command (mk b) := by
  have hb : (b.setWidth 16).toNat = b.toNat := BitVec.toNat_setWidth_of_le hn
  rw [sizedForm, if_pos (hb ▸ b.isLt), BitVec.setWidth_setWidth_of_le b hn, BitVec.setWidth_eq]

theorem sizedForm_eq_command {n : Nat} {mk : BitVec n → Instr} {imm : BitVec 16} {i : Instr} (hn : n ≤ 16)
    (h : sizedForm n mk imm = .command i) : ∃ b : BitVec n, b.setWidth 16 = imm ∧ mk b = i := by
  unfold sizedForm at h
  split at h
  next hlt =>
    refine ⟨imm.setWidth n, BitVec.eq_of_toNat_eq ?_, Decoded.command.inj h⟩
    rw [BitVec.toNat_setWidth_of_le hn, BitVec.toNat_setWidth, Nat.mod_eq_of_lt hlt]
  next => cases h

theorem exists_sizedForm_eq_command_iff {n : Nat} (mk : BitVec n → Instr) (imm : BitVec 16) :
    (∃ i, sizedForm n mk imm = .command i) ↔ imm.toNat < 2 ^ n := by
  unfold sizedForm
  split
  next hlt => exact ⟨fun _ => hlt, fun _ => ⟨_, rfl⟩⟩
  next hlt => exact ⟨fun ⟨_, h⟩ => (by cases h), fun h => absurd h hlt⟩

/-! ## The decoder, row by row -/

theorem OperandForm.width_le (form : OperandForm) : form.width ≤ 16 := by cases form <;> decide

/-- A row of R81 is what the decoder does with its OPC value: it reads an operand of the row's form, and the command
it makes of it has that OPC value and that operand. -/
def RowDecodes (row : BitVec 8 × OperandForm) : Prop :=
  ∃ mk : BitVec row.2.width → Instr, decodeOpc row.1 = sizedForm row.2.width mk ∧
    ∀ b, opcode (mk b) = row.1 ∧ immediate (mk b) = b.setWidth 16

theorem rowDecodes_none {opc : BitVec 8} (i : Instr) (hdec : decodeOpc opc = noneForm i) (hopc : opcode i = opc)
    (himm : immediate i = 0#16) : RowDecodes (opc, .none) := by
  refine ⟨fun _ => i, hdec.trans (noneForm_eq_sizedForm i), fun b => ⟨hopc, ?_⟩⟩
  rw [himm, BitVec.of_length_zero (x := b)]
  rfl

theorem rowDecodes_byte {opc : BitVec 8} (mk : Byte → Instr) (hdec : decodeOpc opc = byteForm mk)
    (hmk : ∀ b, opcode (mk b) = opc ∧ immediate (mk b) = b.setWidth 16) : RowDecodes (opc, .byte) :=
  ⟨mk, hdec.trans (byteForm_eq_sizedForm mk), hmk⟩

theorem rowDecodes_node {opc : BitVec 8} (mk : NodeIx → Instr) (hdec : decodeOpc opc = nodeForm mk)
    (hmk : ∀ n, opcode (mk n) = opc ∧ immediate (mk n) = n.setWidth 16) : RowDecodes (opc, .node) :=
  ⟨mk, hdec.trans (nodeForm_eq_sizedForm mk), hmk⟩

theorem rowDecodes_bit {opc : BitVec 8} (mk : Bool → Instr) (hdec : decodeOpc opc = bitForm mk)
    (hmk : ∀ b, opcode (mk b) = opc ∧ immediate (mk b) = (BitVec.ofBool b).setWidth 16) : RowDecodes (opc, .bit) := by
  have hbit : ∀ b : BitVec 1, BitVec.ofBool (b.getLsbD 0) = b := by decide
  refine ⟨fun b => mk (b.getLsbD 0), hdec.trans (bitForm_eq_sizedForm mk), fun b => ?_⟩
  obtain ⟨hopc, himm⟩ := hmk (b.getLsbD 0)
  exact ⟨hopc, himm.trans (congrArg (BitVec.setWidth 16) (hbit b))⟩

theorem rowDecodes_of_mem : ∀ row ∈ opcodeMap, RowDecodes row := by
  simp only [opcodeMap, List.cons_append, List.nil_append, List.forall_mem_cons]
  exact ⟨rowDecodes_none .nop rfl rfl rfl, rowDecodes_none .ftClear rfl rfl rfl,
    rowDecodes_byte .ftCount rfl fun _ => ⟨rfl, rfl⟩, rowDecodes_none .ftScan rfl rfl rfl,
    rowDecodes_none .pqClear rfl rfl rfl, rowDecodes_node .pqInsert rfl fun _ => ⟨rfl, rfl⟩,
    rowDecodes_none .pqExtract rfl rfl rfl, rowDecodes_none .treeBuild rfl rfl rfl,
    rowDecodes_none .codeGen rfl rfl rfl, rowDecodes_none .bwReset rfl rfl rfl,
    rowDecodes_bit .bwPut rfl fun _ => ⟨rfl, rfl⟩, rowDecodes_byte .bwPutCode rfl fun _ => ⟨rfl, rfl⟩,
    rowDecodes_none .bwFlush rfl rfl rfl, rowDecodes_none .brReset rfl rfl rfl, rowDecodes_none .brGet rfl rfl rfl,
    rowDecodes_none .compress rfl rfl rfl, rowDecodes_none .decompress rfl rfl rfl, List.forall_mem_nil _⟩

theorem decodeOpc_eq_illegal {opc : BitVec 8} (h : ∀ form, (opc, form) ∉ opcodeMap) (imm : BitVec 16) :
    decodeOpc opc imm = .illegal .reservedOpcode := by
  have hne : ∀ row ∈ opcodeMap, opc ≠ row.1 := fun row hmem he => h row.2 (he ▸ hmem)
  simp only [opcodeMap, List.cons_append, List.nil_append, List.forall_mem_cons] at hne
  simp [decodeOpc, hne]

/-! ## Decoding and assembling -/

/-- The decoder gives back a command whose two fields it is given. -/
theorem decodeOpc_opcode_immediate (i : Instr) : decodeOpc (opcode i) (immediate i) = .command i := by
  cases i with
  | ftCount b => exact (congrFun (byteForm_eq_sizedForm .ftCount) _).trans (sizedForm_setWidth (by decide) _ b)
  | bwPutCode b => exact (congrFun (byteForm_eq_sizedForm .bwPutCode) _).trans (sizedForm_setWidth (by decide) _ b)
  | pqInsert n => exact (congrFun (nodeForm_eq_sizedForm .pqInsert) _).trans (sizedForm_setWidth (by decide) _ n)
  | bwPut b => cases b <;> rfl
  | nop | ftClear | ftScan | pqClear | pqExtract | treeBuild | codeGen | bwReset | bwFlush | brReset | brGet
  | compress | decompress => rfl

/-- A command that the decoder makes of two fields has these fields. -/
theorem fields_of_decodeOpc {opc : BitVec 8} {imm : BitVec 16} {i : Instr} (h : decodeOpc opc imm = .command i) :
    opcode i = opc ∧ immediate i = imm := by
  by_cases hrow : ∃ form, (opc, form) ∈ opcodeMap
  · obtain ⟨form, hmem⟩ := hrow
    obtain ⟨mk, hdec, hmk⟩ := rowDecodes_of_mem _ hmem
    obtain ⟨b, rfl, rfl⟩ := sizedForm_eq_command form.width_le ((congrFun hdec imm).symm.trans h)
    exact hmk b
  · rw [decodeOpc_eq_illegal (not_exists.1 hrow)] at h
    cases h

theorem decode_of_rsvOf_eq_zero {w : Word} (h : rsvOf w = 0#8) : decode w = decodeOpc (opcOf w) (immOf w) :=
  if_neg fun hne => hne h

theorem rsvOf_of_decode {w : Word} {i : Instr} (h : decode w = .command i) : rsvOf w = 0#8 := by
  by_contra hne
  rw [decode, if_pos hne] at h
  cases h

/-- Settles O2: the assembled word holds the command's fields, and the decoder gives the command of its fields. -/
theorem decodeOfEncode : Obligations.DecodeOfEncode := by
  intro i
  obtain ⟨hopc, himm, hrsv⟩ := Laws.EncodedFields.assembled i
  rw [decode_of_rsvOf_eq_zero hrsv, hopc, himm, decodeOpc_opcode_immediate]

/-- Settles O3: word and assembled word agree in all three fields. -/
theorem encodeOfDecode : Obligations.EncodeOfDecode := by
  intro w i h
  have hw := rsvOf_of_decode h
  rw [decode_of_rsvOf_eq_zero hw] at h
  obtain ⟨hopc, himm⟩ := fields_of_decodeOpc h
  obtain ⟨hopc', himm', hrsv'⟩ := Laws.EncodedFields.assembled i
  exact word_ext (hopc'.trans hopc) (himm'.trans himm) (hrsv'.trans hw.symm)

/-- Settles O1: a legal sample is the assembled word of its command, and the illegal ones are evaluated. -/
theorem sampleWordsDecode : Obligations.SampleWordsDecode :=
  ⟨decodeOfEncode .nop, decodeOfEncode (.ftCount 0x61#8), decodeOfEncode (.pqInsert 300#9),
    decodeOfEncode .treeBuild, decodeOfEncode .codeGen, decodeOfEncode (.bwPut true),
    decodeOfEncode (.bwPutCode 0x62#8), decodeOfEncode .brGet, decodeOfEncode .compress,
    by decide, by decide, by decide⟩

/-! ## The legal words (R84) -/

/-- A legal word by its fields: RSV is 0, and a row of R81 has its OPC and an operand form that IMM fits. -/
def LegalFields (w : Word) : Prop :=
  rsvOf w = 0#8 ∧ ∃ form, (opcOf w, form) ∈ opcodeMap ∧ (immOf w).toNat < 2 ^ form.width

theorem exists_decodeOpc_iff (opc : BitVec 8) (imm : BitVec 16) :
    (∃ i, decodeOpc opc imm = .command i) ↔ ∃ form, (opc, form) ∈ opcodeMap ∧ imm.toNat < 2 ^ form.width := by
  have hrow : ∀ form, (opc, form) ∈ opcodeMap →
      ((∃ i, decodeOpc opc imm = .command i) ↔ imm.toNat < 2 ^ form.width) := by
    intro form hmem
    obtain ⟨mk, hdec, -⟩ := rowDecodes_of_mem _ hmem
    rw [show decodeOpc opc = _ from hdec, exists_sizedForm_eq_command_iff]
  refine ⟨fun h => ?_, fun ⟨form, hmem, hlt⟩ => (hrow form hmem).2 hlt⟩
  by_contra hnone
  have hunlisted : ∀ form, (opc, form) ∉ opcodeMap := fun form hmem => hnone ⟨form, hmem, (hrow form hmem).1 h⟩
  simp [decodeOpc_eq_illegal hunlisted] at h

theorem exists_decode_iff (w : Word) : (∃ i, decode w = .command i) ↔ LegalFields w := by
  rw [LegalFields, ← exists_decodeOpc_iff]
  constructor
  · rintro ⟨i, h⟩
    have hrsv := rsvOf_of_decode h
    exact ⟨hrsv, i, by rwa [← decode_of_rsvOf_eq_zero hrsv]⟩
  · rintro ⟨hrsv, i, h⟩
    exact ⟨i, by rwa [decode_of_rsvOf_eq_zero hrsv]⟩

/-! ### Mask and match (R82) -/

/-- A mask of R82 takes all of OPC and RSV, and of IMM the bits above the operand. -/
theorem OperandForm.mask_fields (form : OperandForm) :
    opcOf form.mask = BitVec.allOnes 8 ∧ immOf form.mask = BitVec.allOnes 16 <<< form.width ∧
      rsvOf form.mask = BitVec.allOnes 8 := by
  cases form <;> decide

theorem and_upperBits_eq_zero_iff (imm : BitVec 16) {n : Nat} :
    imm &&& BitVec.allOnes 16 <<< n = 0#16 ↔ imm.toNat < 2 ^ n := by
  have hle : imm.toNat / 2 ^ n * 2 ^ n < 2 ^ 16 := (Nat.div_mul_le_self _ _).trans_lt imm.isLt
  rw [← BitVec.shiftLeft_ushiftRight, ← BitVec.toNat_inj, BitVec.toNat_shiftLeft, BitVec.toNat_ushiftRight,
    Nat.shiftLeft_eq, Nat.shiftRight_eq_div_pow, Nat.mod_eq_of_lt hle, BitVec.toNat_zero, Nat.mul_eq_zero,
    Nat.div_eq_zero_iff_lt (Nat.two_pow_pos n), or_iff_left (Nat.two_pow_pos n).ne']

/-- A word matches a row when RSV is 0, OPC is the row's, and IMM fits the row's form. -/
theorem and_mask_eq_iff (w : Word) (opc : BitVec 8) (form : OperandForm) :
    w &&& form.mask = opc.setWidth 32 ↔ rsvOf w = 0#8 ∧ opcOf w = opc ∧ (immOf w).toNat < 2 ^ form.width := by
  obtain ⟨hopc, himm, hrsv⟩ := form.mask_fields
  have hO : opcOf (w &&& form.mask) = opcOf w :=
    BitVec.extractLsb'_and.trans (by rw [← opcOf, ← opcOf, hopc, BitVec.and_allOnes])
  have hI : immOf (w &&& form.mask) = immOf w &&& BitVec.allOnes 16 <<< form.width :=
    BitVec.extractLsb'_and.trans (by rw [← immOf, ← immOf, himm])
  have hR : rsvOf (w &&& form.mask) = rsvOf w :=
    BitVec.extractLsb'_and.trans (by rw [← rsvOf, ← rsvOf, hrsv, BitVec.and_allOnes])
  rw [eq_setWidth_opc_iff, hO, hI, hR, and_upperBits_eq_zero_iff, ← and_assoc, and_comm]

theorem selectsRow_iff (w : Word) : selectsRow w = true ↔ LegalFields w := by
  rw [selectsRow, List.any_eq_true]
  constructor
  · rintro ⟨⟨opc, form⟩, hmem, hsel⟩
    obtain ⟨hrsv, rfl, hlt⟩ := (and_mask_eq_iff w opc form).1 (beq_iff_eq.1 hsel)
    exact ⟨hrsv, form, hmem, hlt⟩
  · rintro ⟨hrsv, form, hmem, hlt⟩
    exact ⟨(opcOf w, form), hmem, beq_iff_eq.2 ((and_mask_eq_iff w _ form).2 ⟨hrsv, rfl, hlt⟩)⟩

/-! ### The three conditions of R84 -/

/-- R81 lists each OPC value once. -/
theorem formOf_eq_some_iff (opc : BitVec 8) (form : OperandForm) :
    formOf opc = some form ↔ (opc, form) ∈ opcodeMap := by
  constructor
  · intro h
    obtain ⟨row, hfind, rfl⟩ := Option.map_eq_some_iff.1 h
    have hkey := List.find?_some (p := fun r : BitVec 8 × OperandForm => r.1 == opc) hfind
    rw [← beq_iff_eq.1 hkey]
    exact List.mem_of_find?_eq_some hfind
  · have hrows : ∀ row ∈ opcodeMap, formOf row.1 = some row.2 := by decide
    exact hrows (opc, form)

theorem reservedZero_iff (w : Word) : reservedZero w = true ↔ rsvOf w = 0#8 := by
  rw [reservedZero, beq_iff_eq, ← toNat_rsvOf, ← BitVec.toNat_inj, BitVec.toNat_zero]

theorem setWidth_eq_opcOf (w : Word) : w.setWidth 8 = opcOf w := BitVec.setWidth_eq_extractLsb' (by decide)

theorem opcodeListed_and_operandFits_iff (w : Word) : (opcodeListed w && operandFits w) = true ↔
    ∃ form, (opcOf w, form) ∈ opcodeMap ∧ (immOf w).toNat < 2 ^ form.width := by
  simp only [opcodeListed, operandFits, setWidth_eq_opcOf, ← formOf_eq_some_iff, ← toNat_immOf]
  cases formOf (opcOf w) with
  | none => simp
  | some form => simp [Nat.div_eq_zero_iff_lt (Nat.two_pow_pos _)]

theorem wellFormed_iff (w : Word) : WellFormed w = true ↔ LegalFields w := by
  rw [WellFormed, Bool.and_assoc, Bool.and_eq_true, reservedZero_iff, opcodeListed_and_operandFits_iff, LegalFields]

/-- Settles O4: the decoder, mask and match, and R84's conditions each say LegalFields of the word. -/
theorem legalWordsByMaskAndMatch : Obligations.LegalWordsByMaskAndMatch := fun w =>
  ⟨(exists_decode_iff w).trans (selectsRow_iff w).symm,
    Bool.eq_iff_iff.2 ((wellFormed_iff w).trans (selectsRow_iff w).symm)⟩

end Sys2Proof

namespace Sys2Proof.Machine

/-! ## An illegal word -/

theorem coreStep_of_illegal {s : State} {why : Illegal} (h : decode s.cmdWord = .illegal why) :
    coreStep s = execIllegal s := by
  rw [coreStep, h]

/-- R84: ILLEGAL_COMMAND and nothing else. -/
theorem execIllegal_completes (s : State) :
    ∃ t, execIllegal s = .next t ∧ Ended .illegalCommand .none t ∧ KeptExcept [] s t :=
  ⟨_, rfl, ended_report _ _, (KeptExcept.refl [] s).report (.inl rfl)⟩

/-- Settles O6: the core runs execIllegal, from the state that differs from s in the counter of draws alone. -/
theorem illegalWordOnlyCompletes : Obligations.IllegalWordOnlyCompletes := by
  intro s why hmoves _ hdec
  rw [step_of_coreMoves hmoves, coreStep_of_illegal (by rwa [State.tick_cmdWord])]
  exact execIllegal_completes s.tick

end Sys2Proof.Machine
end

section
/-! The frequency table commands (spec/40_freq_table.md R101 to R104): what FT_CLEAR, FT_COUNT and FT_SCAN leave in the
table, read off the piece each of them runs. -/

namespace Sys2Proof.Machine

/-! ## The assembled word as a number -/

/-- OPC is the lowest byte of the word, IMM stands above it, and RSV is 0 (R80, R83). -/
theorem encode_toNat (i : Instr) : (encode i).toNat = (opcode i).toNat + 256 * (immediate i).toNat := by
  obtain ⟨hopc, himm, hrsv⟩ := Laws.EncodedFields.assembled i
  rw [← hopc, ← himm, toNat_opcOf, toNat_immOf]
  have hr := congrArg BitVec.toNat hrsv
  rw [toNat_rsvOf, BitVec.toNat_zero] at hr
  omega

/-! ## How a command ends, from how its piece ends -/

/-- A piece that reaches its end gives OK, and the command keeps all but the parts the piece writes. -/
theorem exec_of_commandBody_ok {i : Instr} {s u : State} (hA : Accepted s) (h : commandBody i s = .ok () u) :
    exec i s = .next u.complete ∧ Ended .ok .none u.complete ∧ KeptExcept (bodyParts i) s u.complete := by
  have hb : BodyKept (bodyParts i) s u := Res.Ends.of_ok (commandBody_ends i s) h
  refine ⟨?_, ended_complete (hb.status.trans hA.status), hb.kept.complete⟩
  rw [exec_eq_finish, h, finish_ok]

/-- A piece that refuses its command before it has written anything: the command reports why, and keeps everything. -/
theorem exec_of_commandBody_refuses {i : Instr} {s : State} {code : StatusCode}
    (h : commandBody i s = raiseCode code s) :
    ∃ t, exec i s = .next t ∧ Ended code .none t ∧ KeptExcept [] s t := by
  have he := exec_eq_finish i s
  rw [h] at he
  exact ⟨_, he, ended_report _ _, (KeptExcept.refl [] s).report (.inl rfl)⟩

/-- Settles O26: FT_CLEAR's piece sets the cleared table and nothing else. -/
theorem ftClearZeroesTheTable : Obligations.FtClearZeroesTheTable := by
  refine ⟨by decide, fun s hA => ?_⟩
  obtain ⟨he, hend, hkept⟩ := exec_of_commandBody_ok (i := .ftClear) hA rfl
  exact ⟨_, he, hend, FreqTable.clear_at, rfl, hkept⟩

/-! ## One byte counted -/

/-- A word below the largest counts one up without wrapping. -/
theorem toNat_add_one_of_ne_max {v : Word} (h : v.toNat ≠ 2 ^ 32 - 1) : (v + 1).toNat = v.toNat + 1 := by
  bv_omega

theorem FreqTable.full_iff (t : FreqTable) (b : Byte) :
    t.full b = true ↔ (t.at b).toNat = 2 ^ 32 - 1 ∨ t.total.toNat = 2 ^ 32 - 1 := by
  simp [FreqTable.full, BitVec.toNat_eq]

/-- Settles O27: the test of FT_COUNT is that a field is at its maximum; else the table with b counted is left. -/
theorem ftCountAddsOne : Obligations.FtCountAddsOne := by
  intro b s hA
  refine ⟨?_, ?_⟩
  · rw [encode_toNat, immediate, BitVec.toNat_setWidth_of_le (by decide)]
    rfl
  by_cases hmax : (s.ft.at b).toNat = 2 ^ 32 - 1 ∨ s.ft.total.toNat = 2 ^ 32 - 1
  · simp only [if_pos hmax]
    exact exec_of_commandBody_refuses (if_pos ((s.ft.full_iff b).2 hmax))
  · simp only [if_neg hmax]
    obtain ⟨hcount, htotal⟩ := not_or.1 hmax
    obtain ⟨he, hend, hkept⟩ := exec_of_commandBody_ok hA (i := .ftCount b) (if_neg ((s.ft.full_iff b).not.2 hmax))
    refine ⟨_, he, hend, hkept, toNat_add_one_of_ne_max htotal, ?_, fun c hc => ?_⟩
    · rw [State.complete_ft, FreqTable.bump_at, if_pos rfl, toNat_add_one_of_ne_max hcount]
    · rw [State.complete_ft, FreqTable.bump_at, if_neg hc]

/-! ## SRC counted -/

theorem countsOf_tableOfMsg {l : List Byte} (h : l.length < 2 ^ 32) : countsOf (tableOfMsg l) l :=
  ⟨tableOfMsg_at h, tableOfMsg_total h⟩

/-- A table of a byte string with a nonzero total has a nonzero count (R104). -/
theorem tableOfMsg_exists_at_ne_zero {l : List Byte} (h : l.length < 2 ^ 32) (hne : (tableOfMsg l).total ≠ 0) :
    ∃ b, (tableOfMsg l).at b ≠ 0 := by
  cases l with
  | nil => exact absurd rfl hne
  | cons b bs => exact ⟨b, (tableOfMsg_at_ne_zero h b).2 List.mem_cons_self⟩

/-- A scan that no read stops counts all of SRC. -/
theorem scanBody_of_srcReadable {s : State} (h : SrcReadable s) :
    scanBody s = .ok () { s with ft := tableOfMsg (srcBytes s) } := by
  obtain ⟨m, -, -, ⟨-, hscan⟩ | ⟨hlt, hfault, -⟩⟩ := scanBody_spec s
  · exact hscan
  · rw [h m hlt] at hfault
    cases hfault

/-- A scan stops at the first byte whose read faults, with the bytes before it counted. -/
theorem scanBody_of_firstFault {s : State} {j : Nat} (hj : j < s.region.srcLen.toNat) (hfault : srcFaults s j = true)
    (hfirst : ∀ k, k < j → srcFaults s k = false) :
    scanBody s = raiseIo .srcReadFault (s.region.srcAddr j) { s with ft := tableOfMsg (srcPart s j) } := by
  obtain ⟨m, -, hclear, hcase⟩ := scanBody_spec s
  have hmj : m ≤ j := Nat.le_of_not_lt fun hlt => by simp [hclear j hlt] at hfault
  rcases hcase with ⟨rfl, -⟩ | ⟨-, hfm, hscan⟩
  · omega
  · have hjm : j ≤ m := Nat.le_of_not_lt fun hlt => by simp [hfirst m hlt] at hfm
    rwa [Nat.le_antisymm hmj hjm] at hscan

theorem commandBody_ftScan {s : State} (h : s.region.validSrc = true) : commandBody .ftScan s = scanBody s := if_pos h

/-- FT_SCAN of a readable SRC. -/
theorem ftScan_completes {s : State} (hA : Accepted s) (hvalid : s.region.validSrc = true) (hread : SrcReadable s) :
    ∃ t, exec .ftScan s = .next t ∧ Ended .ok .none t ∧ KeptExcept [.ft] s t ∧ t.ft = tableOfMsg (srcBytes s) := by
  obtain ⟨he, hend, hkept⟩ :=
    exec_of_commandBody_ok hA ((commandBody_ftScan hvalid).trans (scanBody_of_srcReadable hread))
  exact ⟨_, he, hend, hkept, rfl⟩

/-- FT_SCAN of a SRC with a byte whose read faults. -/
theorem ftScan_stops {s : State} {j : Nat} (hvalid : s.region.validSrc = true) (hj : j < s.region.srcLen.toNat)
    (hfault : srcFaults s j = true) (hfirst : ∀ k, k < j → srcFaults s k = false) :
    ∃ t, exec .ftScan s = .next t ∧ Ended .ioError .srcReadFault t ∧ KeptExcept [.ft, .errAddr] s t ∧
      t.errAddr = s.region.srcAddr j ∧ t.ft = tableOfMsg (srcPart s j) := by
  have he := exec_eq_finish .ftScan s
  rw [commandBody_ftScan hvalid, scanBody_of_firstFault hj hfault hfirst] at he
  exact ⟨_, he, ended_report _ _, exec_kept he, rfl, rfl⟩

/-- Settles O28: FT_SCAN leaves the table of the bytes it has read, all of SRC or those before the first fault. -/
theorem ftScanCountsTheSource : Obligations.FtScanCountsTheSource := by
  refine fun s hA => ⟨fun hbad => ?_, fun hvalid hread => ?_, fun hvalid j hj hfault hfirst => ?_⟩
  · exact exec_of_commandBody_refuses (if_neg (Bool.eq_false_iff.1 hbad))
  · have hlen : (srcBytes s).length < 2 ^ 32 := by
      rw [srcBytes_length]
      exact s.region.srcLen.isLt
    have htotal : (tableOfMsg (srcBytes s)).total.toNat = s.region.srcLen.toNat :=
      (tableOfMsg_total hlen).trans (srcBytes_length s)
    obtain ⟨t, he, hend, hkept, hft⟩ := ftScan_completes hA hvalid hread
    rw [← hft] at htotal
    refine ⟨t, he, hend, hkept, ?_, ?_, BitVec.eq_of_toNat_eq htotal, ?_⟩
    · exact hft ▸ countsOf_tableOfMsg hlen
    · rw [htotal, hft, tableOfMsg_sum hlen, srcBytes_length]
    · exact hft ▸ tableOfMsg_exists_at_ne_zero hlen
  · have hlen : (srcPart s j).length < 2 ^ 32 := by
      rw [srcPart_length]
      exact hj.trans s.region.srcLen.isLt
    obtain ⟨t, he, hend, hkept, herr, hft⟩ := ftScan_stops hvalid hj hfault hfirst
    exact ⟨t, he, hend, hkept, herr, hft ▸ countsOf_tableOfMsg hlen⟩

end Sys2Proof.Machine
end

section
/-! The priority queue commands (spec/41_priority_queue.md R121 to R124): PQ_CLEAR, PQ_INSERT and PQ_EXTRACT read off
the piece each of them runs, and the queue as the multiset it holds. -/

namespace Sys2Proof.Machine

/-! ## PQ_INSERT -/

/-- The node store has every index that a NODE_COUNT of at most 511 admits. -/
theorem Tree.exists_node_of_lt_nodeCount {tree : Tree} {n : NodeIx} (hcap : tree.nodeCount.toNat ≤ 511)
    (hn : n.toNat < tree.nodeCount.toNat) : ∃ node, tree.node n = some node :=
  ⟨_, Vector.getElem?_eq_getElem (hn.trans_le hcap)⟩

/-- With a node and with room, PQ_INSERT's piece puts the node's entry into the queue. -/
theorem commandBody_pqInsert {s : State} {n : NodeIx} {node : Node} (hn : ¬ s.tree.nodeCount.toNat ≤ n.toNat)
    (hroom : ¬ Config.pqCap ≤ s.pq.length) (hnode : s.tree.node n = some node) :
    commandBody (.pqInsert n) s =
      .ok () { s with pq := pqInsert { weight := node.weight, index := n } s.pq } := by
  rw [commandBody, if_neg hn, if_neg hroom, hnode]

/-- Settles O30: the two checks of PQ_INSERT come in R267's order, and past them the node is in the store. -/
theorem pqInsertAddsTheEntry : Obligations.PqInsertAddsTheEntry := by
  intro n s hA hcap
  by_cases hn : s.tree.nodeCount.toNat ≤ n.toNat
  · simp only [if_pos hn]
    exact exec_of_commandBody_refuses (if_pos hn)
  by_cases hfull : 511 ≤ s.pq.length
  · simp only [if_neg hn, if_pos hfull]
    exact exec_of_commandBody_refuses ((if_neg hn).trans (if_pos hfull))
  · simp only [if_neg hn, if_neg hfull]
    obtain ⟨node, hnode⟩ := Tree.exists_node_of_lt_nodeCount hcap (Nat.lt_of_not_le hn)
    obtain ⟨he, hend, hkept⟩ := exec_of_commandBody_ok hA (commandBody_pqInsert hn hfull hnode)
    exact ⟨_, he, hend, hkept, pqInsert_length _ _, node, hnode, pqInsert_perm _ _⟩

/-! ## PQ_EXTRACT -/

/-- The key order of R120 is the order in which the model compares entries. -/
theorem not_keyBefore_iff (a b : Entry) : ¬ keyBefore a b ↔ a.keyLt b = false := by
  rw [← Bool.not_eq_true, Entry.keyLt_iff, keyBefore, BitVec.toNat_inj]

theorem commandBody_pqExtract_empty {s : State} (h : s.pq = []) :
    commandBody .pqExtract s = raiseCode .queueEmpty s := by
  rw [commandBody, pqExtract_eq_none_iff.2 h]

theorem commandBody_pqExtract_least {s : State} {e : Entry} {rest : List Entry} (h : pqExtract s.pq = some (e, rest)) :
    commandBody .pqExtract s = .ok () { s with pq := rest, result := e.index.setWidth 32 } := by
  rw [commandBody, h]

/-- PQ_EXTRACT on an empty queue. -/
theorem pqExtract_refuses {s : State} (h : s.pq = []) :
    ∃ t, exec .pqExtract s = .next t ∧ Ended .queueEmpty .none t ∧ KeptExcept [] s t :=
  exec_of_commandBody_refuses (commandBody_pqExtract_empty h)

/-- Settles O31: an empty queue is refused, and what extract takes from a queue that holds something is its least. -/
theorem pqExtractReturnsTheLeast : Obligations.PqExtractReturnsTheLeast := by
  refine ⟨by decide, fun s hA => ?_⟩
  by_cases hempty : s.pq = []
  · simp only [if_pos hempty]
    obtain ⟨t, he, hend, hkept⟩ := pqExtract_refuses hempty
    have hresult : t.result = s.result := hkept.2 .result List.not_mem_nil
    obtain ⟨-, hzero, -⟩ := hA
    exact ⟨t, he, hend, hkept, hresult.trans hzero⟩
  · simp only [if_neg hempty]
    obtain ⟨⟨e, rest⟩, hx⟩ := Option.ne_none_iff_exists'.1 (pqExtract_eq_none_iff.not.2 hempty)
    obtain ⟨-, hperm, hleast⟩ := pqExtract_eq_some hx
    obtain ⟨he, hend, hkept⟩ := exec_of_commandBody_ok hA (commandBody_pqExtract_least hx)
    exact ⟨_, he, hend, hkept, e, hperm, fun x hmem => (not_keyBefore_iff x e).2 (hleast x hmem),
      BitVec.toNat_setWidth_of_le (by decide)⟩

/-! ## A queue from its inserts -/

theorem foldr_pqInsert_perm (l : List Entry) : (l.foldr pqInsert []).Perm l := by
  induction l with
  | nil => exact List.Perm.refl _
  | cons e l ih => exact (pqInsert_perm e _).trans (ih.cons e)

theorem foldr_pqInsert_ascending (l : List Entry) : Ascending (l.foldr pqInsert []) := by
  induction l with
  | nil => exact List.Pairwise.nil
  | cons e l ih => exact pqInsert_ascending ih

/-- Settles O32: either order gives a queue in canonical order of the same multiset, and there is only one. -/
theorem queueForgetsInsertionOrder : Obligations.QueueForgetsInsertionOrder := by
  intro l1 l2 h
  have hsame : (l1.foldr pqInsert []).Perm (l2.foldr pqInsert []) :=
    (foldr_pqInsert_perm l1).trans (h.trans (foldr_pqInsert_perm l2).symm)
  exact ⟨(foldr_pqInsert_ascending l1).eq_of_perm (foldr_pqInsert_ascending l2) hsame, foldr_pqInsert_perm l1⟩

/-! ## PQ_CLEAR -/

/-- Settles O29: PQ_CLEAR's piece leaves the empty queue, which acceptance of the next word keeps. -/
theorem pqClearEmptiesTheQueue : Obligations.PqClearEmptiesTheQueue := by
  refine ⟨by decide, fun s hA => ?_⟩
  obtain ⟨he, hend, hkept⟩ := exec_of_commandBody_ok (i := .pqClear) hA rfl
  refine ⟨_, he, hend, rfl, rfl, hkept, fun w => ?_⟩
  obtain ⟨u, hu, huend, -⟩ := pqExtract_refuses (s := (State.complete { s with pq := [] }).accept w) rfl
  exact ⟨u, hu, huend⟩

end Sys2Proof.Machine
end

section
/-! TREE_BUILD (spec/42_tree_builder.md R140 to R143): how it ends on a table with counts and on one without, and the
counted symbols read off the leaves of the tree. -/

namespace Sys2Proof.Machine

/-! ## The counted symbols and the leaves -/

theorem leavesOf_length (t : FreqTable) : (leavesOf t).length = symbolsUsed t := leavesFrom_length _ _

theorem symbolsUsed_eq_zero_iff {t : FreqTable} : symbolsUsed t = 0 ↔ leavesOf t = [] := by
  rw [← leavesOf_length, List.length_eq_zero_iff]

/-- A leaf weighs what its symbol counts. -/
theorem weight_of_mem_leavesOf {t : FreqTable} {n : Node} (h : n ∈ leavesOf t) :
    n.weight.toNat = (t.at n.symbol).toNat := by
  obtain ⟨-, hleaf⟩ := mem_leavesOf.1 h
  calc n.weight.toNat = (leafNode (t.at n.symbol) n.symbol.toNat).weight.toNat := by rw [← hleaf]
    _ = (t.at n.symbol).toNat := BitVec.toNat_setWidth_of_le (by decide)

/-- A symbol is counted when a leaf bears it. -/
theorem at_ne_zero_iff_exists_leaf {t : FreqTable} {b : Byte} :
    t.at b ≠ 0 ↔ ∃ n ∈ leavesOf t, n.symbol = b := by
  constructor
  · intro hcount
    have hsymbol : (leafNode (t.at b) b.toNat).symbol = b := by simp [leafNode]
    exact ⟨_, mem_leavesOf.2 (by rw [hsymbol]; exact ⟨hcount, rfl⟩), hsymbol⟩
  · rintro ⟨n, hn, rfl⟩
    exact (mem_leavesOf.1 hn).1

/-- The first nodes of a built tree are the leaves it was built over. -/
theorem BuiltTree.mem_leaves_iff {leaves : List Node} {t : Tree} (h : BuiltTree leaves t) {n : Node} :
    n ∈ leaves ↔ ∃ i, i < leaves.length ∧ t.nodes[i]? = some n := by
  constructor
  · intro hn
    obtain ⟨i, hi, rfl⟩ := List.getElem_of_mem hn
    exact ⟨i, hi, h.leaf i _ (List.getElem?_eq_getElem hi)⟩
  · rintro ⟨i, hi, hn⟩
    rw [h.leaf i _ (List.getElem?_eq_getElem hi), Option.some_inj] at hn
    exact hn ▸ List.getElem_mem hi

/-! ## How TREE_BUILD ends -/

/-- On a table with a nonzero count it completes with OK and leaves a built tree. -/
theorem treeBuild_built {s : State} (h : leavesOf s.ft ≠ []) :
    ∃ u, treeBody s = .ok () u ∧ exec .treeBuild s = .next u.complete ∧ u.status = s.status ∧
      BuiltTree (leavesOf s.ft) u.tree := by
  obtain ⟨tree, hbody, hbuilt⟩ := treeBody_built h
  refine ⟨_, hbody, ?_, rfl, hbuilt⟩
  rw [exec_eq_finish, commandBody, hbody, finish_ok]

/-- On a table with no nonzero count it completes, with EMPTY_ALPHABET when FT_TOTAL is not 0 (R142). -/
theorem treeBuild_completes_of_no_leaves {s : State} (hA : Accepted s) (h : leavesOf s.ft = []) :
    ∃ t, exec .treeBuild s = .next t ∧
      if s.ft.total = 0 then Ended .ok .none t else Ended .emptyAlphabet .none t := by
  have he := exec_eq_finish .treeBuild s
  rw [commandBody, treeBody_empty h] at he
  by_cases htotal : s.ft.total = 0
  · rw [if_pos htotal] at he
    exact ⟨_, he, by rw [if_pos htotal]; exact ended_complete hA.status⟩
  · rw [if_neg htotal] at he
    exact ⟨_, he, by rw [if_neg htotal]; exact ended_report _ _⟩

/-- With no nonzero count TREE_BUILD leaves no tree, whichever CODE it reports. -/
theorem treeBuild_cleared {s t : State} (h : leavesOf s.ft = []) (he : exec .treeBuild s = .next t) :
    t.tree = s.tree.cleared := by
  have hbody : (commandBody .treeBuild s).Ends fun u => u.tree = s.tree.cleared := by
    rw [commandBody, treeBody_empty h]
    split <;> rfl
  obtain ⟨u, hu, ht, -⟩ := exec_rest he hbody
  rw [ht]
  exact hu

/-- TREE_BUILD leaves the queue empty, whichever CODE it reports. -/
theorem treeBuild_pq {s t : State} (he : exec .treeBuild s = .next t) : t.pq = [] := by
  obtain ⟨u, ⟨-, hpq⟩, ht, -⟩ := exec_rest he (treeBody_inv s)
  rw [ht]
  exact hpq

/-- Settles O33: the two kinds of table, and for the one with no leaves its two ends. -/
theorem treeBuildCompletes : Obligations.TreeBuildCompletes := by
  intro s hA
  by_cases hnone : symbolsUsed s.ft = 0
  · simp only [if_pos hnone]
    have hleaves := symbolsUsed_eq_zero_iff.1 hnone
    obtain ⟨t, he, hend⟩ := treeBuild_completes_of_no_leaves hA hleaves
    have htree : t.tree = s.tree.cleared := treeBuild_cleared hleaves he
    refine ⟨t, he, exec_kept he, treeBuild_pq he, ?_⟩
    rw [htree]
    exact ⟨rfl, rfl, rfl, hend⟩
  · simp only [if_neg hnone]
    obtain ⟨u, -, he, hstatus, hbuilt⟩ := treeBuild_built (symbolsUsed_eq_zero_iff.not.1 hnone)
    exact ⟨_, he, exec_kept he, treeBuild_pq he, ended_complete (hstatus.trans hA.status), hbuilt.valid⟩

/-! ## The tree it leaves -/

/-- Settles O34: the tree is built over the table's leaves, and these are the counted symbols with their counts. -/
theorem treeBuildShape : Obligations.TreeBuildShape := by
  intro s t _ he hused
  obtain ⟨u, -, hu, -, hbuilt⟩ := treeBuild_built (symbolsUsed_eq_zero_iff.not.1 hused)
  obtain rfl : u.complete = t := Host.Outcome.next.inj (hu.symm.trans he)
  rw [State.complete_tree, ← leavesOf_length]
  obtain ⟨r, hr, hweight⟩ := hbuilt.root
  refine ⟨hbuilt.shape, fun b => ?_, fun i n hi hn => ?_, ⟨r, hr, hweight.trans (leavesOf_sum s.ft)⟩, hbuilt.least⟩
  · rw [at_ne_zero_iff_exists_leaf]
    constructor
    · rintro ⟨n, hmem, hsymbol⟩
      obtain ⟨i, hi, hn⟩ := hbuilt.mem_leaves_iff.1 hmem
      exact ⟨i, n, hi, hn, hsymbol⟩
    · rintro ⟨i, n, hi, hn, hsymbol⟩
      exact ⟨n, hbuilt.mem_leaves_iff.2 ⟨i, hi, hn⟩, hsymbol⟩
  · exact weight_of_mem_leavesOf (hbuilt.mem_leaves_iff.2 ⟨i, hi, hn⟩)

/-- No tree is the same as no tree, whatever the node stores hold. -/
theorem sameTree_cleared (t u : Tree) : SameTree t.cleared u.cleared :=
  ⟨rfl, rfl, rfl, fun i hi => absurd hi (Nat.not_lt_zero i)⟩

/-- Settles O35: without counts both leave no tree, and with counts both run the same build. -/
theorem treeBuildIsDeterministic : Obligations.TreeBuildIsDeterministic := by
  intro s1 s2 t1 t2 hft h1 h2
  by_cases hleaves : leavesOf s1.ft = []
  · rw [treeBuild_cleared hleaves h1, treeBuild_cleared (hft ▸ hleaves) h2]
    exact sameTree_cleared s1.tree s2.tree
  · obtain ⟨u1, hbody1, he1, -⟩ := treeBuild_built hleaves
    obtain ⟨u2, hbody2, he2, -⟩ := treeBuild_built (s := s2) (hft ▸ hleaves)
    obtain rfl : u1.complete = t1 := Host.Outcome.next.inj (he1.symm.trans h1)
    obtain rfl : u2.complete = t2 := Host.Outcome.next.inj (he2.symm.trans h2)
    rw [State.complete_tree, State.complete_tree]
    exact treeBody_same hft hbody1 hbody2

end Sys2Proof.Machine
end

section
/-! CODE_GEN (spec/43_code_generator.md R160 to R162): how it ends on a tree that meets the invariant, and its table
read off the tree's paths and, after TREE_BUILD, off the counts. -/

namespace Sys2Proof.Machine

/-! ## How CODE_GEN ends -/

/-- On a tree that meets the invariant CODE_GEN completes with OK and leaves the tree's codes. -/
theorem codeGen_completes {s : State} (hA : Accepted s) (hi : TreeInv s.tree) :
    ∃ t, exec .codeGen s = .next t ∧ Ended .ok .none t ∧ KeptExcept [.codes] s t ∧ CodesOf s.tree t.codes := by
  obtain ⟨codes, -, hspec, hbody⟩ := codeGenBody_spec hi
  obtain ⟨he, hend, hkept⟩ := exec_of_commandBody_ok (i := .codeGen) hA hbody
  exact ⟨_, he, hend, hkept, hspec⟩

/-- The table a completed CODE_GEN leaves, from any state whose tree meets the invariant. -/
theorem codeGen_codes {s t : State} (hi : TreeInv s.tree) (he : exec .codeGen s = .next t) :
    codesOf s.tree = some t.codes ∧ CodesOf s.tree t.codes := by
  obtain ⟨codes, hcodes, hspec, hbody⟩ := codeGenBody_spec hi
  rw [exec_eq_finish, commandBody, hbody, finish_ok] at he
  obtain rfl := Host.Outcome.next.inj he
  exact ⟨hcodes, hspec⟩

/-! ## The codes and the paths -/

/-- Under an internal root the non-empty codes are the paths to the symbols' leaves. -/
theorem CodesOf.eq_iff_pathTo {t : Tree} {codes : Vector Bits 256} (h : CodesOf t codes) (hi : TreeInv t)
    (hv : t.valid = true) {r : Node} (hr : t.node t.root = some r) (hinternal : r.leaf = false) {b : Byte} {p : Bits}
    (hp : p ≠ []) : codeOf codes b = p ↔ PathTo t t.root p b := by
  constructor
  · rintro rfl
    obtain ⟨-, r', hr', ⟨hleaf, -⟩ | ⟨-, hpath⟩⟩ := h.path hi hp
    · obtain rfl : r = r' := Option.some.inj (hr.symm.trans hr')
      rw [hinternal] at hleaf
      cases hleaf
    · exact hpath
  · exact (h.paths hv r hr hinternal b).1 p

/-- Settles O36: the three kinds of tree are the three clauses of `CodesOf`. -/
theorem codeGenReadsOffThePaths : Obligations.CodeGenReadsOffThePaths := by
  intro s hA hi
  obtain ⟨t, he, hend, hkept, hspec⟩ := codeGen_completes hA hi
  refine ⟨t, he, hend, hkept, fun hv b => ?_, fun hv r hr => ⟨hspec.single hv r hr, fun hinternal b p hp => ?_⟩⟩
  · rw [hspec.none hv, codeOf_noCodes]
  · rw [hspec.eq_iff_pathTo hi hv hr hinternal hp, pathTo_iff]

/-- Settles O38: the path to one leaf does not lead on to another. -/
theorem codesArePrefixFree : Obligations.CodesArePrefixFree := by
  intro s t hi he b c hb hc hprefix
  exact (codeGen_codes hi he).2.prefix_free hi hb hc hprefix

/-! ## The codes and the counts -/

/-- TREE_BUILD leaves a tree that meets the invariant, whichever CODE it reports. -/
theorem treeBuild_treeInv {s t : State} (he : exec .treeBuild s = .next t) : TreeInv t.tree := by
  obtain ⟨u, ⟨htree, -⟩, ht, -⟩ := exec_rest he (treeBody_inv s)
  rw [ht]
  exact htree

/-- The codes of the tree TREE_BUILD leaves belong to the counted symbols; without counts there is no tree. -/
theorem treeBuild_code_ne_nil_iff {s t : State} {codes : Vector Bits 256} (he : exec .treeBuild s = .next t)
    (hcodes : codesOf t.tree = some codes) (hspec : CodesOf t.tree codes) (b : Byte) :
    codeOf codes b ≠ [] ↔ s.ft.at b ≠ 0 := by
  by_cases hleaves : leavesOf s.ft = []
  · have hnone : codes = noCodes := hspec.none (by rw [treeBuild_cleared hleaves he]; rfl)
    rw [hnone, codeOf_noCodes, leavesOf_eq_nil_iff.1 hleaves b]
    exact iff_of_false (not_not_intro rfl) (not_not_intro rfl)
  · obtain ⟨tree, codes', hbody, -, hcodes', -, hiff, -⟩ := treeBody_codes (.inl hleaves)
    rw [exec_eq_finish, commandBody, hbody, finish_ok] at he
    obtain rfl := Host.Outcome.next.inj he
    obtain rfl : codes' = codes := Option.some.inj (hcodes'.symm.trans hcodes)
    exact hiff b

/-- Settles O37: CODE_GEN reads the tree TREE_BUILD left, which acceptance of its word keeps. -/
theorem codesExactlyForCountedSymbols : Obligations.CodesExactlyForCountedSymbols := by
  intro s t u w hbuild hgen b
  have hi : TreeInv t.tree := treeBuild_treeInv hbuild
  obtain ⟨hcodes, hspec⟩ := codeGen_codes (s := t.accept w) hi hgen
  exact ⟨treeBuild_code_ne_nil_iff hbuild hcodes hspec b, hspec.length_le hi b⟩

end Sys2Proof.Machine
end

section
/-! The bitstream writer commands (spec/44_bitstream_writer.md R181 to R186): BW_RESET, BW_PUT, BW_PUT_CODE and
BW_FLUSH read off the piece each of them runs, and the stream that put_bit and a flush leave in DST. -/

namespace Sys2Proof.Machine

/-! ## The pieces past the region check -/

theorem commandBody_bwPut {s : State} (b : Bool) (h : s.region.validDst = true) :
    commandBody (.bwPut b) s = putBit b s := if_pos h

theorem commandBody_bwFlush {s : State} (h : s.region.validDst = true) : commandBody .bwFlush s = flushBody s :=
  if_pos h

theorem commandBody_bwPutCode_noCode {s : State} {sym : Byte} (h : s.region.validDst = true)
    (hcode : codeOf s.codes sym = []) : commandBody (.bwPutCode sym) s = raiseCode .noCode s :=
  (if_pos h).trans (if_pos (List.isEmpty_iff.2 hcode))

theorem commandBody_bwPutCode {s : State} {sym : Byte} (h : s.region.validDst = true)
    (hcode : codeOf s.codes sym ≠ []) : commandBody (.bwPutCode sym) s = putBits (codeOf s.codes sym) s :=
  (if_pos h).trans (if_neg (List.isEmpty_iff.not.2 hcode))

/-! ## BW_RESET -/

/-- Settles O39: the piece leaves the empty writer, of which BW_STATE and BW_POS are the two words. -/
theorem bwResetEmptiesTheWriter : Obligations.BwResetEmptiesTheWriter := by
  refine ⟨by decide, fun s hA => ?_⟩
  obtain ⟨he, hend, hkept⟩ := exec_of_commandBody_ok (i := .bwReset) hA rfl
  refine ⟨_, he, hend, ?_, ?_, rfl, hkept⟩
  · rw [readWord_control rfl (by decide)]
    exact (by decide : bwStateWord Writer.empty = 0)
  · rw [readWord_control rfl (by decide)]
    rfl

/-! ## A command that ends with one emit -/

/-- Buffer memory that is the same list is kept byte by byte. -/
theorem KeptExcept.drop_mem {ps : List Part} {s t : State} (h : KeptExcept (.mem :: ps) s t) (hm : t.mem = s.mem) :
    KeptExcept ps s t := by
  obtain ⟨hhost, hparts⟩ := h
  refine ⟨hhost, fun p hp => ?_⟩
  by_cases hpm : p = .mem
  · subst hpm
    exact fun a => by rw [hm]
  · exact hparts p (by simp [hpm, hp])

/-- The byte is written: OK, and the writer is empty of bits at the next offset. -/
theorem emitOutcome_of_bytesWritten {v : Byte} {s t : State} (hb : BytesWritten s t [v])
    (hroom : s.bw.pos.toNat < s.region.dstCap.toNat) (hfault : dstFaults s s.bw.pos.toNat = false)
    (hend : Ended .ok .none t.dropPending.complete) (hkept : KeptExcept [.bw, .mem] s t.dropPending.complete) :
    emitOutcome v s t.dropPending.complete := by
  have hpos : t.bw.pos.toNat = s.bw.pos.toNat + 1 := hb.pos
  have hbyte : dstByte t s.bw.pos.toNat = v := hb.bytes 0 Nat.one_pos
  have hmem := hb.kept.mono (Q := fun a => a = (s.region.dstAddr s.bw.pos.toNat).toNat) <| by
    rintro a ⟨o, hlo, hhi, -, rfl⟩
    rw [show o = s.bw.pos.toNat by omega]
  rw [emitOutcome, if_neg (Nat.not_le_of_lt hroom), if_neg (Bool.eq_false_iff.1 hfault)]
  exact ⟨hend, hkept, hbyte, rfl, rfl, hpos, hmem⟩

/-- The byte is not written: DST_FULL or DST_WRITE_FAULT, and the writer is kept. -/
theorem emitOutcome_of_writeStops {v : Byte} {s : State} {r : Res Unit} (hw : Mem.wf s.mem) (h : WriteStops r s) :
    ∃ t, finish r = .next t ∧ emitOutcome v s t := by
  obtain ⟨t, ht, herr, -, hhost, hparts, hcase⟩ := finish_writeStops hw h
  have hkept : KeptExcept [.mem, .errAddr] s t := ⟨hhost, fun p hp => by
    simp only [List.mem_cons, List.not_mem_nil, or_false, not_or] at hp
    exact hparts p hp.2 hp.1⟩
  refine ⟨t, ht, ?_⟩
  rcases hcase with ⟨hfull, hend, hmem⟩ | ⟨hroom, hfault, hend, -, hmem⟩
  · rw [emitOutcome, if_pos hfull]
    exact ⟨hend, herr, hkept.drop_mem hmem⟩
  · rw [emitOutcome, if_neg (Nat.not_le_of_lt hroom), if_pos hfault]
    exact ⟨hend, herr, hkept.mono (by simp), hmem⟩

/-- A command whose piece emits a byte and drops the pending bits. -/
theorem exec_emitOutcome {i : Instr} {v : Byte} {s : State} (hA : Accepted s) (hw : Mem.wf s.mem)
    (hparts : bodyParts i = [.bw, .mem])
    (h : commandBody i s = (emit v s).bind fun _ t => .ok () t.dropPending) :
    ∃ t, exec i s = .next t ∧ emitOutcome v s t := by
  rcases emit_spec v hw with ⟨t, ht, hb, hroom, hfault⟩ | hstop
  · rw [ht] at h
    obtain ⟨he, hend, hkept⟩ := exec_of_commandBody_ok hA h
    exact ⟨_, he, emitOutcome_of_bytesWritten hb hroom hfault hend (hparts ▸ hkept)⟩
  · rw [exec_eq_finish, h]
    exact emitOutcome_of_writeStops hw (hstop.bind _)

/-! ## BW_PUT -/

theorem shifted_eq (w : Writer) (b : Bool) : w.shifted b = BitVec.ofNat 8 (2 * w.pending.toNat + b.toNat) := by
  rw [Writer.shifted, Nat.mul_comm]

/-- BW_PUT of a bit that does not complete a byte. -/
theorem bwPut_pending {b : Bool} {s : State} (hA : Accepted s) (hi : WriterInv s.bw) (hv : s.region.validDst = true)
    (h7 : s.bw.nbits.toNat < 7) :
    ∃ t, exec (.bwPut b) s = .next t ∧ Ended .ok .none t ∧ KeptExcept [.bw] s t ∧ t.bw.pos = s.bw.pos ∧
      t.bw.pending.toNat = 2 * s.bw.pending.toNat + b.toNat ∧ t.bw.nbits.toNat = s.bw.nbits.toNat + 1 := by
  obtain ⟨he, hend, hkept⟩ := exec_of_commandBody_ok hA ((commandBody_bwPut b hv).trans (putBit_of_lt b h7))
  have hbw : KeptExcept [.bw] s _ := (hkept.mono (by simp [bodyParts])).drop_mem rfl
  refine ⟨_, he, hend, hbw, rfl, shifted_toNat hi b, ?_⟩
  show (s.bw.nbits + 1).toNat = _
  bv_omega

/-- Settles O40: the region check, then put_bit, which emits when seven bits are pending and else only shifts. -/
theorem bwPutAppendsOneBit : Obligations.BwPutAppendsOneBit := by
  intro b s hA hi hw
  by_cases hbad : s.region.validDst = false
  · simp only [if_pos hbad]
    exact exec_of_commandBody_refuses (if_neg (Bool.eq_false_iff.1 hbad))
  have hv := Bool.eq_true_of_not_eq_false hbad
  simp only [if_neg hbad]
  by_cases h7 : s.bw.nbits.toNat = 7
  · simp only [if_pos h7, ← shifted_eq]
    exact exec_emitOutcome hA hw rfl ((commandBody_bwPut b hv).trans (putBit_of_eq b h7))
  · simp only [if_neg h7]
    exact bwPut_pending hA hi hv (Nat.lt_of_le_of_ne hi.1 h7)

/-! ## BW_FLUSH -/

theorem padded_eq (w : Writer) : w.padded = w.pending <<< (8 - w.nbits.toNat) := by
  refine BitVec.eq_of_toNat_eq ?_
  rw [Writer.padded, BitVec.toNat_ofNat, BitVec.toNat_shiftLeft, Nat.shiftLeft_eq]

/-- Settles O41: the region check, then the flush, which emits the padded byte when a bit is pending. -/
theorem bwFlushPadsTheLastByte : Obligations.BwFlushPadsTheLastByte := by
  intro s hA _ hw
  by_cases hbad : s.region.validDst = false
  · simp only [if_pos hbad]
    exact exec_of_commandBody_refuses (if_neg (Bool.eq_false_iff.1 hbad))
  have hbody := commandBody_bwFlush (Bool.eq_true_of_not_eq_false hbad)
  simp only [if_neg hbad]
  by_cases h0 : s.bw.nbits = 0
  · simp only [if_pos h0]
    have hnop : commandBody .bwFlush s = .ok () s := hbody.trans (if_neg (by rw [h0]; decide))
    obtain ⟨he, hend, -⟩ := exec_of_commandBody_ok hA hnop
    exact ⟨_, he, hend, keptExcept_complete s⟩
  · simp only [if_neg h0, ← padded_eq]
    have hpos : 0 < s.bw.nbits.toNat := Nat.pos_of_ne_zero fun h => h0 (BitVec.eq_of_toNat_eq h)
    exact exec_emitOutcome hA hw rfl (hbody.trans (if_pos hpos))

/-! ## BW_PUT_CODE -/

/-- With room for every byte that the bits complete, and none of them faulting, all the bits are accepted. -/
theorem putBits_ok_of_fits {bs : Bits} {s : State} (hw : Mem.wf s.mem) (hi : WriterInv s.bw) (hd : DstWritable s)
    (hfit : (bitsHeld s.bw + bs.length) / 8 ≤ s.region.dstCap.toNat) : ∃ t, putBits bs s = .ok () t := by
  obtain ⟨n, t, hn, hb, ⟨-, hput⟩ | ⟨hlt, h7, hstop⟩⟩ := putBits_spec bs hw hi
  · exact ⟨t, hput⟩
  · have hheld := hb.held
    rw [List.length_take_of_le hn, bitsHeld, h7] at hheld
    have hroom : t.bw.pos.toNat < s.region.dstCap.toNat := by omega
    rcases hstop with ⟨hfull, -⟩ | ⟨-, hfault, -⟩
    · rw [hb.only.region] at hfull
      omega
    · rw [hb.only.dstFaults, hd _ hroom] at hfault
      cases hfault

/-- The bits accepted so far stand below the byte at BW_POS and in BW_PENDING. -/
theorem acceptedBit_of_memoryKept {s t : State} (hr : t.region = s.region) (hbw : t.bw = s.bw)
    (hm : MemoryKeptBut (fun a => a = (s.region.dstAddr s.bw.pos.toNat).toNat) s t) (i : Nat) :
    acceptedBit t i = acceptedBit s i := by
  have hlt := s.bw.pos.isLt
  by_cases h : i < 8 * s.bw.pos.toNat
  · rw [acceptedBit_byte h, acceptedBit_byte (hbw.symm ▸ h)]
    refine bitAt_congr ?_
    rw [dstByte, dstByte, hr]
    refine hm _ fun ha => ?_
    have := dstAddr_inj (by omega) hlt ha
    omega
  · rw [acceptedBit_pending h, acceptedBit_pending (hbw.symm ▸ h), hbw]

/-- How a command that puts the bits of a code ends: the first `n` of them are accepted, which are all of them, or
all before one that completes a byte that does not fit or faults. -/
def PutsCode (code : Bits) (s t : State) (n : Nat) : Prop :=
  n ≤ code.length ∧ bitsHeld t.bw = bitsHeld s.bw + n ∧
    (∀ i, i < bitsHeld s.bw → acceptedBit t i = acceptedBit s i) ∧
    (∀ i, i < n → acceptedBit t (bitsHeld s.bw + i) = code.getD i false) ∧
    (n = code.length ∧ Ended .ok .none t ∧ t.errAddr = 0 ∨
      n < code.length ∧ t.bw.nbits.toNat = 7 ∧ t.errAddr = s.region.dstAddr t.bw.pos.toNat ∧
        (s.region.dstCap.toNat ≤ t.bw.pos.toNat ∧ Ended .ioError .dstFull t ∨
          t.bw.pos.toNat < s.region.dstCap.toNat ∧ dstFaults s t.bw.pos.toNat = true ∧
            Ended .ioError .dstWriteFault t))

/-- All the bits accepted. -/
theorem PutsCode.of_ok {code : Bits} {s t : State} (hA : Accepted s) (hb : BitsAccepted s t code) :
    PutsCode code s t.complete code.length := by
  have herr : s.errAddr = 0 := hA.2.2
  exact ⟨Nat.le_refl _, hb.held, hb.before, hb.bits,
    .inl ⟨rfl, ended_complete (hb.only.status.trans hA.status), hb.only.errAddr.trans herr⟩⟩

/-- The bits accepted up to the one that stops. -/
theorem PutsCode.of_stops {code : Bits} {s t u : State} {r : Res Unit} {n : Nat} (hn : n < code.length)
    (hb : BitsAccepted s t (code.take n)) (h7 : t.bw.nbits.toNat = 7) (hstop : WriteStops r t)
    (hu : finish r = .next u) : PutsCode code s u n := by
  obtain ⟨u', hu', herr, hbw, hhost, -, hcase⟩ := finish_writeStops hb.wf hstop
  obtain rfl : u' = u := Host.Outcome.next.inj (hu'.symm.trans hu)
  have hlen : (code.take n).length = n := List.length_take_of_le hn.le
  have hheld := hb.held
  have hbits := hb.bits
  rw [hlen] at hheld hbits
  have hmem : MemoryKeptBut (fun a => a = (t.region.dstAddr t.bw.pos.toNat).toNat) t u' := by
    rcases hcase with ⟨-, -, hm⟩ | ⟨-, -, -, -, hm⟩
    · exact MemoryKeptBut.of_eq hm
    · exact hm
  have hbit := acceptedBit_of_memoryKept hhost.1 hbw hmem
  rw [hb.only.region] at herr hcase
  rw [hb.only.dstFaults] at hcase
  refine ⟨hn.le, by rw [hbw, hheld], fun i hi => ?_, fun i hi => ?_,
    .inr ⟨hn, by rw [hbw, h7], by rw [hbw, herr], ?_⟩⟩
  · rw [hbit, hb.before i hi]
  · rw [hbit, hbits i hi]
    simp [List.getD_eq_getElem?_getD, hi]
  · rw [hbw]
    rcases hcase with ⟨hfull, hend, -⟩ | ⟨hroom, hfault, hend, -⟩
    · exact .inl ⟨hfull, hend⟩
    · exact .inr ⟨hroom, hfault, hend⟩

/-- BW_PUT_CODE of a symbol with a code. -/
theorem bwPutCode_putsCode {sym : Byte} {s : State} (hA : Accepted s) (hi : WriterInv s.bw) (hw : Mem.wf s.mem)
    (hv : s.region.validDst = true) (hcode : codeOf s.codes sym ≠ []) :
    ∃ t, exec (.bwPutCode sym) s = .next t ∧ ∃ n, PutsCode (codeOf s.codes sym) s t n := by
  have he : exec (.bwPutCode sym) s = finish (putBits (codeOf s.codes sym) s) := by
    rw [exec_eq_finish, commandBody_bwPutCode hv hcode]
  obtain ⟨n, t, -, hb, ⟨rfl, hput⟩ | ⟨hlt, h7, hstop⟩⟩ := putBits_spec (codeOf s.codes sym) hw hi
  · rw [List.take_length] at hb
    rw [hput, finish_ok] at he
    exact ⟨_, he, _, PutsCode.of_ok hA hb⟩
  · obtain ⟨u, hu, -⟩ := finish_writeStops hb.wf hstop
    exact ⟨u, he.trans hu, n, PutsCode.of_stops hlt hb h7 hstop hu⟩

/-- Settles O42: the region check, the check for a code, then put_bit of each bit of the code. -/
theorem bwPutCodeAppendsTheCode : Obligations.BwPutCodeAppendsTheCode := by
  refine fun sym s hA hi hw => ⟨fun hv hcode hd hfit => ?_, ?_⟩
  · obtain ⟨t, hput⟩ := putBits_ok_of_fits hw hi hd hfit
    obtain ⟨he, hend, -⟩ := exec_of_commandBody_ok hA ((commandBody_bwPutCode hv hcode).trans hput)
    exact ⟨_, he, hend⟩
  by_cases hbad : s.region.validDst = false
  · simp only [if_pos hbad]
    exact exec_of_commandBody_refuses (if_neg (Bool.eq_false_iff.1 hbad))
  have hv := Bool.eq_true_of_not_eq_false hbad
  simp only [if_neg hbad]
  by_cases hcode : codeOf s.codes sym = []
  · simp only [if_pos hcode]
    exact exec_of_commandBody_refuses (commandBody_bwPutCode_noCode hv hcode)
  · simp only [if_neg hcode]
    obtain ⟨t, he, hputs⟩ := bwPutCode_putsCode hA hi hw hv hcode
    exact ⟨t, he, exec_kept he, hputs⟩

/-! ## The stream of a writer that starts empty -/

/-- A piece that reaches its end has not stopped on a byte. -/
theorem not_writeStops_ok {α : Type} (a : α) (s t : State) : ¬ WriteStops (.ok a s) t := by
  rintro (⟨-, h⟩ | ⟨-, -, h⟩) <;> cases h

/-- put_bit of each bit and a flush, both to their end, from a writer with no bit pending. -/
theorem streamed_of_ok {bs : Bits} {s t u : State} (hw : Mem.wf s.mem) (hp : s.bw.pending = 0) (hn : s.bw.nbits = 0)
    (hput : putBits bs s = .ok () t) (hflush : flushBody t = .ok () u) : Streamed s u bs := by
  have hrun : ((putBits bs s).bind fun _ v => flushBody v) = .ok () u := Res.bind_eq_ok.2 ⟨(), t, hput, hflush⟩
  have hspec := putBits_flush_spec bs hw hp hn
  rw [hrun] at hspec
  obtain ⟨v, hv, hst⟩ | ⟨v, hstop, -⟩ := hspec
  · cases hv
    exact hst
  · exact absurd hstop (not_writeStops_ok _ _ _)

/-- Settles O43: the stream of the bits flushed, read off at BW_POS 0. -/
theorem writerPacksBitsMsbFirst : Obligations.WriterPacksBitsMsbFirst := by
  intro bits s t u hempty _ hw hput hflush
  have hst := streamed_of_ok hw (by rw [hempty]; rfl) (by rw [hempty]; rfl) hput hflush
  have hpos0 : s.bw.pos.toNat = 0 := by rw [hempty]; rfl
  have hpos := hst.pos
  have hbits := hst.bits
  simp only [hpos0, Nat.zero_add, Nat.mul_zero] at hpos hbits
  refine ⟨hpos, fun i hi => hbits i (by unfold bytesFor; omega), fun i hlen hi => ?_, hst.kept.mono ?_⟩
  · rw [hbits i hi, List.getD_eq_default _ _ hlen]
  · rintro a ⟨o, -, ho, -, ha⟩
    exact ⟨o, hpos ▸ ho, ha⟩

end Sys2Proof.Machine
end

section
/-! The bitstream reader commands (spec/45_bitstream_reader.md R201 to R204): BR_RESET and BR_GET read off the piece
each of them runs, and the stream that get_bit answers from SRC offset 0 on. -/

namespace Sys2Proof.Machine

/-! ## BR_RESET -/

/-- Settles O44: the piece leaves the empty reader, of which BR_STATE and BR_POS are the two words. -/
theorem brResetEmptiesTheReader : Obligations.BrResetEmptiesTheReader := by
  refine ⟨by decide, fun s hA => ?_⟩
  obtain ⟨he, hend, hkept⟩ := exec_of_commandBody_ok (i := .brReset) hA rfl
  refine ⟨_, he, hend, ?_, ?_, hkept⟩
  · rw [readWord_control rfl (by decide)]
    exact (by decide : brStateWord (Reader.emptyAt 0) = 0x00000800#32)
  · rw [readWord_control rfl (by decide)]
    rfl

/-! ## One get_bit (R202) -/

/-- The reader that has consumed the byte v and taken its top bit. -/
def State.byteTaken (v : Byte) (s : State) : State := { s with br := { cur := v, cursor := 1, pos := s.br.pos + 1 } }

theorem getBit_buffered {s : State} (hc : s.br.cursor.toNat < 8) :
    getBit s = .ok (some (s.br.cur.getLsbD (7 - s.br.cursor.toNat))) s.bitTaken :=
  if_neg fun h => by rw [h] at hc; exact absurd hc (by decide)

/-- A reader with no bit buffered, at the end of SRC. -/
theorem getBit_endOfSrc {s : State} (hc : s.br.cursor = 8) (hend : s.region.srcLen.toNat ≤ s.br.pos.toNat) :
    getBit s = .ok none s := (if_pos hc).trans (if_pos hend)

theorem getBit_fault {s : State} (hc : s.br.cursor = 8) (hin : ¬ s.region.srcLen.toNat ≤ s.br.pos.toNat)
    (hf : srcFaults s s.br.pos.toNat = true) :
    getBit s = raiseIo .srcReadFault (s.region.srcAddr s.br.pos.toNat) s := by
  rw [getBit, if_pos hc, if_neg hin, coreRead_src, if_pos hf]
  rfl

theorem getBit_fresh {s : State} (hc : s.br.cursor = 8) (hin : ¬ s.region.srcLen.toNat ≤ s.br.pos.toNat)
    (hf : srcFaults s s.br.pos.toNat = false) :
    getBit s = .ok (some ((srcByte s s.br.pos.toNat).getLsbD 7)) (s.byteTaken (srcByte s s.br.pos.toNat)) := by
  rw [getBit, if_pos hc, if_neg hin, coreRead_src, if_neg (Bool.eq_false_iff.1 hf)]
  rfl

/-! ## BR_GET -/

/-- BR_GET of a bit: it stands in RESULT, and the reader is as get_bit leaves it. -/
theorem exec_brGet_bit {s t : State} {b : Bool} (hA : Accepted s) (hv : s.region.validSrc = true)
    (hget : getBit s = .ok (some b) t) :
    ∃ u, exec .brGet s = .next u ∧ Ended .ok .none u ∧ KeptExcept [.br, .result] s u ∧ u.result = bitWord b ∧
      u.br = t.br := by
  have hbody : commandBody .brGet s = .ok () { t with result := bitWord b } := by
    rw [commandBody, if_pos hv, hget]
    rfl
  obtain ⟨he, hend, hkept⟩ := exec_of_commandBody_ok hA hbody
  exact ⟨_, he, hend, hkept, rfl, rfl⟩

/-- BR_GET at the end of SRC: RESULT is 0, as acceptance left it. -/
theorem exec_brGet_endOfData {s : State} (hA : Accepted s) (hv : s.region.validSrc = true)
    (hget : getBit s = .ok none s) :
    ∃ u, exec .brGet s = .next u ∧ Ended .endOfData .none u ∧ KeptExcept [] s u ∧ u.result = 0 := by
  have hbody : commandBody .brGet s = raiseCode .endOfData s := by
    rw [commandBody, if_pos hv, hget]
    rfl
  obtain ⟨u, he, hend, hkept⟩ := exec_of_commandBody_refuses hbody
  obtain ⟨-, hresult, -⟩ := hA
  have hsame : u.result = s.result := hkept.2 .result List.not_mem_nil
  exact ⟨u, he, hend, hkept, hsame.trans hresult⟩

/-- BR_GET whose get_bit meets a read fault. -/
theorem exec_brGet_fault {s : State} {a : Word} (hv : s.region.validSrc = true)
    (hget : getBit s = raiseIo .srcReadFault a s) :
    ∃ u, exec .brGet s = .next u ∧ Ended .ioError .srcReadFault u ∧ KeptExcept [.errAddr] s u ∧ u.errAddr = a := by
  have he := exec_eq_finish .brGet s
  rw [commandBody, if_pos hv, hget] at he
  exact ⟨_, he, ended_report _ _, (KeptExcept.refl _ s).report (.inr (by simp)), rfl⟩

/-- Settles O45: the region check, then get_bit in its four cases. -/
theorem brGetReturnsTheNextBit : Obligations.BrGetReturnsTheNextBit := by
  intro s hA hi
  by_cases hbad : s.region.validSrc = false
  · simp only [if_pos hbad]
    exact exec_of_commandBody_refuses (if_neg (Bool.eq_false_iff.1 hbad))
  have hv := Bool.eq_true_of_not_eq_false hbad
  simp only [if_neg hbad]
  by_cases hc : s.br.cursor.toNat < 8
  · simp only [if_pos hc]
    obtain ⟨t, he, hend, hkept, hresult, hbr⟩ := exec_brGet_bit hA hv (getBit_buffered hc)
    refine ⟨t, he, hend, hkept, hresult, ?_, ?_, ?_⟩ <;> rw [hbr]
    · rfl
    · show (s.br.cursor + 1).toNat = _
      bv_omega
    · rfl
  have hc8 : s.br.cursor = 8 := BitVec.eq_of_toNat_eq (Nat.le_antisymm hi (Nat.le_of_not_lt hc))
  simp only [if_neg hc]
  by_cases hend : s.region.srcLen.toNat ≤ s.br.pos.toNat
  · simp only [if_pos hend]
    exact exec_brGet_endOfData hA hv (getBit_endOfSrc hc8 hend)
  simp only [if_neg hend]
  by_cases hf : srcFaults s s.br.pos.toNat = true
  · simp only [if_pos hf]
    exact exec_brGet_fault hv (getBit_fault hc8 hend hf)
  · simp only [if_neg hf]
    obtain ⟨t, he, hended, hkept, hresult, hbr⟩ :=
      exec_brGet_bit hA hv (getBit_fresh hc8 hend (Bool.eq_false_of_not_eq_true hf))
    refine ⟨t, he, hended, hkept, hresult, ?_, ?_, ?_⟩ <;> rw [hbr]
    · rfl
    · rfl
    · show (s.br.pos + 1).toNat = _
      bv_omega

/-! ## The stream of a reader that starts empty -/

/-- What get_bit answers at place i of the SRC stream: bit i, or EOD past the end. -/
def streamAnswer (s : State) (i : Nat) : Option Bool :=
  if i < 8 * s.region.srcLen.toNat then some (bitAt (srcByte s) i) else none

theorem ReaderOnly.streamAnswer {s t : State} (h : ReaderOnly s t) : streamAnswer t = streamAnswer s := by
  funext i
  rw [Machine.streamAnswer, Machine.streamAnswer, h.region, h.srcByte]

/-- One get_bit of the i-th call: the reader stands at bit i, or at the end of SRC once it has got there. -/
theorem getBit_streamAnswer {s : State} {m i : Nat} (hm : s.region.srcLen.toNat = m) (hr : ReadsTo s m)
    (h : ReaderAt s m (min i (8 * m))) :
    ∃ t, getBit s = .ok (streamAnswer s i) t ∧ ReaderOnly s t ∧ ReaderAt t m (min (i + 1) (8 * m)) := by
  rw [streamAnswer, hm]
  rcases getBit_spec h hr with ⟨hi, t, ht, ho, hat⟩ | ⟨hi, -, ht⟩ | ⟨-, hlt, -⟩
  · have hin : i < 8 * m := by omega
    rw [Nat.min_eq_left hin.le] at ht hat
    rw [if_pos hin, Nat.min_eq_left hin]
    exact ⟨t, ht, ho, hat⟩
  · have hout : 8 * m ≤ i := by omega
    rw [if_neg hout.not_gt, Nat.min_eq_right (by omega)]
    exact ⟨s, ht, ReaderOnly.refl s, hi ▸ h⟩
  · omega

/-- n get_bits from place i on. -/
theorem getBits_eq_streamAnswers {s : State} {m : Nat} (n i : Nat) (hm : s.region.srcLen.toNat = m)
    (hr : ReadsTo s m) (h : ReaderAt s m (min i (8 * m))) :
    getBits n s = some ((List.range' i n).map (streamAnswer s)) := by
  induction n generalizing s i with
  | zero => rfl
  | succ n ih =>
    obtain ⟨t, ht, ho, hat⟩ := getBit_streamAnswer hm hr h
    have hrest := ih (i + 1) (by rw [ho.region, hm]) (ho.readsTo hr) hat
    rw [ho.streamAnswer] at hrest
    rw [getBits, ht]
    simp only [hrest, Option.map_some, List.range'_succ, List.map_cons]

/-- Settles O46: the reset reader stands at bit 0 of a stream that can be read to its end. -/
theorem readerYieldsTheStream : Obligations.ReaderYieldsTheStream := by
  intro n s hempty hread
  have hat := readerAt_emptyAt hempty (Nat.zero_le s.region.srcLen.toNat)
  rw [List.range_eq_range']
  exact getBits_eq_streamAnswers n 0 rfl (SrcReadable.readsTo hread) (by simpa using hat)

end Sys2Proof.Machine
end

section
/-! NOP (spec/46_orchestrator.md R225), and that COMPRESS and DECOMPRESS set OUT_LEN only where they end with OK
(R232). -/

namespace Sys2Proof.Machine

/-! ## NOP -/

/-- Settles O25: NOP's piece is to do nothing, so that acceptance and completion are all there is. -/
theorem nopOnlyCompletes : Obligations.NopOnlyCompletes := by
  refine ⟨by decide, fun s hA => ?_⟩
  obtain ⟨he, hend, hkept⟩ := exec_of_commandBody_ok (i := .nop) hA rfl
  obtain ⟨-, hresult, herr⟩ := hA
  exact ⟨_, he, hend, hkept, hresult, herr, by rw [readWord_status, hend.1]; rfl⟩

/-! ## OUT_LEN -/

/-- What holds of the state in which a piece raises. -/
theorem Res.Ends.of_raise {α : Type} {r : Res α} {Q : State → Prop} {e : Raise} {u : State} (h : r.Ends Q)
    (hr : r = .raise e u) : Q u := by
  subst hr
  exact h

theorem WriterOnly.outLen {s t : State} (h : WriterOnly s t) : t.outLen = s.outLen := by
  unfold WriterOnly at h; rw [h]

theorem DecodeOnly.outLen {s t : State} (h : DecodeOnly s t) : t.outLen = s.outLen := by
  unfold DecodeOnly at h; rw [h]

/-- A piece that writes what the writer may write keeps OUT_LEN where it raises. -/
theorem Res.Ends.raises_outLen {r : Res Unit} {s : State} {n : Word} (hr : r.Ends (WriterOnly s)) (hs : s.outLen = n) :
    r.Raises fun _ t => t.outLen = n := fun _ _ he => (hr.of_raise he).outLen.trans hs

/-- Where the writing of COMPRESS raises, OUT_LEN has not been set. -/
theorem compressWrite_raises_outLen (s : State) : (compressWrite s).Raises fun _ t => t.outLen = s.outLen := by
  have hheader := emitAll_ends (headerBytes s.ft) { s with bw := Writer.empty }
  refine Res.raises_bind (hheader.raises_outLen rfl) hheader fun _ t ht => ?_
  have hcodes := encodeFrom_ends t.region.srcLen.toNat 0 t
  refine Res.raises_bind (hcodes.raises_outLen ht.outLen) hcodes fun _ u hu => ?_
  exact Res.raises_bind ((flushBody_ends u).raises_outLen (hu.outLen.trans ht.outLen)) (flushBody_ends u)
    fun _ v _ => Res.raises_ok _ _ _

/-- Where the decoding of DECOMPRESS raises, OUT_LEN has not been set. -/
theorem decompressDecode_raises_outLen (s : State) : (decompressDecode s).Raises fun _ t => t.outLen = s.outLen := by
  unfold decompressDecode
  split
  · exact Res.raises_ok _ _ _
  · exact Res.raises_bind (fun e t he => (Res.Ends.of_raise (decodeFrom_ends _ _) he).outLen) (decodeFrom_ends _ _)
      fun _ t _ => Res.raises_ok _ _ _

/-- Both commands set OUT_LEN to 0 before anything else, and then not before they have done all else. -/
theorem commandBody_raises_outLen {i : Instr} (hi : i = .compress ∨ i = .decompress) (s : State) :
    (commandBody i s).Raises fun _ t => t.outLen = 0 := by
  rcases hi with rfl | rfl
  · have hsetup : (compressSetup s).Ends fun t => t.outLen = 0 :=
      Res.ends_mono (compressSetup_ends s) fun t ht => by rw [ht]
    exact Res.raises_bind (fun e t he => hsetup.of_raise he) hsetup fun _ t ht =>
      Res.raises_mono (compressWrite_raises_outLen t) fun _ _ hu => hu.trans ht
  · have hsetup : (decompressSetup s).Ends fun t => t.outLen = 0 :=
      Res.ends_mono (decompressSetup_ends s) fun t ht => by rw [ht]
    exact Res.raises_bind (fun e t he => hsetup.of_raise he) hsetup fun _ t ht =>
      Res.raises_mono (decompressDecode_raises_outLen t) fun _ _ hu => hu.trans ht

/-- Settles O49: a command that reaches its end reports OK, and one that raises has left OUT_LEN at 0. -/
theorem failureCommitsNoContainer : Obligations.FailureCommitsNoContainer := by
  intro i s t hi hA he hcode
  have he' := he
  rw [exec_eq_finish] at he'
  rcases finish_eq_next he' with ⟨u, hu, -⟩ | ⟨e, u, hu, rfl⟩
  · obtain ⟨hnext, hend, -⟩ := exec_of_commandBody_ok hA hu
    obtain rfl := Host.Outcome.next.inj (hnext.symm.trans he)
    exact absurd hend.code hcode
  · exact commandBody_raises_outLen hi s e u hu

end Sys2Proof.Machine
end

section
/-! COMPRESS (spec/46_orchestrator.md R220 to R228): the table, tree and codes it writes by, and the three ways its
writing ends. -/

namespace Sys2Proof.Machine

/-! ## Table, tree and codes -/

/-- The tree and the codes that `t` holds are those of its table: TREE_BUILD's piece leaves the tree for that table,
and CODE_GEN reads the codes off it. -/
structure CodedByTable (t : State) : Prop where
  built : ∃ s, Accepted s ∧ s.ft = t.ft ∧ treeBody s = .ok () { s with pq := [], tree := t.tree }
  inv : TreeInv t.tree
  codes : codesOf t.tree = some t.codes
  paths : CodesOf t.tree t.codes
  coded : ∀ b, codeOf t.codes b ≠ [] ↔ t.ft.at b ≠ 0

theorem CodedByTable.treeOf {t : State} (h : CodedByTable t) : TreeOf t.ft t.tree := by
  obtain ⟨s, hA, hft, hbody⟩ := h.built
  exact hft ▸ treeOf_of_body hA hbody

theorem CodedByTable.congr {t u : State} (h : CodedByTable t) (hft : u.ft = t.ft) (htree : u.tree = t.tree)
    (hcodes : u.codes = t.codes) : CodedByTable u where
  built := by rw [hft, htree]; exact h.built
  inv := by rw [htree]; exact h.inv
  codes := by rw [htree, hcodes]; exact h.codes
  paths := by rw [htree, hcodes]; exact h.paths
  coded := by rw [hft, hcodes]; exact h.coded

/-- One table has one code for each symbol (R143, R228). -/
theorem CodedByTable.codes_eq {t u : State} (ht : CodedByTable t) (hu : CodedByTable u) (hft : t.ft = u.ft) :
    t.codes = u.codes := by
  obtain ⟨s1, -, hft1, hbody1⟩ := ht.built
  obtain ⟨s2, -, hft2, hbody2⟩ := hu.built
  exact codes_of_table (hft1.trans (hft.trans hft2.symm)) hbody1 hbody2 ht.inv hu.inv ht.paths hu.paths

/-- COMPRESS has come from `s` to `u`, where it begins to write. -/
structure ReadyToWrite (s u : State) : Prop where
  setup : compressSetup s = .ok () u
  ft : u.ft = tableOfMsg (srcBytes s)
  pq : u.pq = []
  coded : CodedByTable u

theorem ReadyToWrite.only {s u : State} (h : ReadyToWrite s u) : CompressSetupOnly s u :=
  Res.Ends.of_ok (compressSetup_ends s) h.setup

theorem ReadyToWrite.mem {s u : State} (h : ReadyToWrite s u) : u.mem = s.mem := by rw [h.only]

theorem ReadyToWrite.region {s u : State} (h : ReadyToWrite s u) : u.region = s.region := h.only.platform.1

theorem ReadyToWrite.srcBytes {s u : State} (h : ReadyToWrite s u) : srcBytes u = srcBytes s :=
  srcBytes_congr h.mem h.region

theorem ReadyToWrite.code_ne_nil {s u : State} (h : ReadyToWrite s u) :
    ∀ b ∈ Machine.srcBytes u, codeOf u.codes b ≠ [] := by
  intro b hb
  rw [h.srcBytes] at hb
  rw [h.coded.coded, h.ft]
  exact (tableOfMsg_at_ne_zero (by rw [srcBytes_length]; exact s.region.srcLen.isLt) b).2 hb

theorem SamePlatform.srcFaults {s t : State} (h : SamePlatform s t) (j : Nat) : srcFaults t j = srcFaults s j := by
  simp only [Machine.srcFaults, busFaults, h.1, h.2]

theorem SamePlatform.dstFaults {s t : State} (h : SamePlatform s t) (o : Nat) : dstFaults t o = dstFaults s o := by
  simp only [Machine.dstFaults, busFaults, h.1, h.2]

/-- A readable SRC is counted, and its table has a tree and codes. -/
theorem exists_readyToWrite {s : State} (hA : Accepted s) (hok : s.region.codecOk = true) (hr : SrcReadable s) :
    ∃ u, ReadyToWrite s u := by
  rcases compressSetup_spec hok with
    ⟨-, tree, codes, hsetup, hbody, hinv, hcodes, hpaths, hcoded⟩ | ⟨j, hj, hf, -⟩
  · have hlen : (srcBytes s).length < 2 ^ 32 := by rw [srcBytes_length]; exact s.region.srcLen.isLt
    have hbuilt : Accepted { s with outLen := 0, ft := tableOfMsg (srcBytes s) } := hA
    exact ⟨_, hsetup, rfl, rfl, ⟨_, hbuilt, rfl, hbody⟩, hinv, hcodes, hpaths, fun b =>
      (hcoded b).trans (tableOfMsg_at_ne_zero hlen b).symm⟩
  · rw [hr j hj] at hf
    cases hf

/-! ## How the writing ends -/

/-- What COMPRESS of a readable SRC leaves however its writing ends: table, tree and codes of the SRC bytes, and in
DST the container as far as BW_POS. -/
structure ContainerLeft (s t : State) : Prop where
  run : exec .compress s = .next t
  ft : t.ft = tableOfMsg (srcBytes s)
  pq : t.pq = []
  coded : CodedByTable t
  written : ContainerPrefix t (codeBits t.codes (srcBytes s)) t.bw.pos.toNat
  room : t.bw.pos.toNat ≤ s.region.dstCap.toNat
  clean : DstWritableTo s t.bw.pos.toNat

/-- The container is whole (R224). -/
def ContainerWhole (s t : State) : Prop :=
  Ended .ok .none t ∧ t.errAddr = 0 ∧ t.bw.pos.toNat = containerLength t.codes (srcBytes s) ∧
    t.outLen = t.bw.pos ∧ t.bw.nbits = 0

/-- The container has a byte that does not fit, and DST is full. -/
def ContainerCut (s t : State) : Prop :=
  t.bw.pos.toNat < containerLength t.codes (srcBytes s) ∧ t.bw.pos = s.region.dstCap ∧ Ended .ioError .dstFull t ∧
    t.errAddr = s.region.dstAddr t.bw.pos.toNat ∧ t.outLen = 0

/-- The container has a byte whose write faults. -/
def ContainerFaulted (s t : State) : Prop :=
  t.bw.pos.toNat < containerLength t.codes (srcBytes s) ∧ t.bw.pos.toNat < s.region.dstCap.toNat ∧
    dstFaults s t.bw.pos.toNat = true ∧ Ended .ioError .dstWriteFault t ∧
    t.errAddr = s.region.dstAddr t.bw.pos.toNat ∧ t.outLen = 0

theorem CompressWriteOnly.tables {s t : State} (h : CompressWriteOnly s t) :
    t.ft = s.ft ∧ t.tree = s.tree ∧ t.codes = s.codes ∧ t.pq = s.pq := by rw [h]; exact ⟨rfl, rfl, rfl, rfl⟩

theorem CompressWriteOnly.region {s t : State} (h : CompressWriteOnly s t) : t.region = s.region := by rw [h]

theorem CompressWriteOnly.busFault {s t : State} (h : CompressWriteOnly s t) : t.busFault = s.busFault := by rw [h]

theorem commandBody_compress {s u : State} (h : ReadyToWrite s u) : commandBody .compress s = compressWrite u := by
  rw [commandBody, h.setup]
  rfl

theorem exec_compress {s u : State} (h : ReadyToWrite s u) : exec .compress s = finish (compressWrite u) := by
  rw [exec_eq_finish, commandBody_compress h]

/-- A write at DST offset `n` leaves the bytes of DST before it. -/
theorem dstByte_of_memoryKept {s t : State} {n o : Nat} (hr : t.region = s.region)
    (hm : MemoryKeptBut (fun a => a = (s.region.dstAddr n).toNat) s t) (hn : n < 2 ^ 32) (ho : o < n) :
    dstByte t o = dstByte s o := by
  rw [dstByte, dstByte, hr]
  refine hm _ fun ha => ?_
  have := dstAddr_inj (by omega) hn ha
  omega

/-- The writing reaches its end: the container is whole. -/
theorem containerLeft_of_written {s u t : State} (hA : Accepted s) (hu : ReadyToWrite s u)
    (hrun : compressWrite u = .ok () t) (hw : ContainerWritten u t u.codes) :
    ContainerLeft s t.complete ∧ ContainerWhole s t.complete := by
  obtain ⟨he, hend, hkept⟩ := exec_of_commandBody_ok hA ((commandBody_compress hu).trans hrun)
  obtain ⟨hft, htree, hcodes, hpq⟩ := hw.only.tables
  have hprefix := hw.containerPrefix
  have hpos := hw.pos
  have hroom := hw.room
  rw [hu.srcBytes] at hprefix hpos
  rw [hu.region] at hroom
  refine ⟨⟨he, hft.trans hu.ft, hpq.trans hu.pq, hu.coded.congr hft htree hcodes, ?_, hroom, fun o ho => ?_⟩,
    hend, (hkept.2 .errAddr (by simp [bodyParts])).trans hA.2.2, ?_, hw.outLen, hw.nbits⟩
  · rw [State.complete_codes, hcodes]
    exact hprefix.congr rfl fun _ _ => rfl
  · exact (hu.only.platform.dstFaults o).symm.trans (hw.clean o ho)
  · rw [State.complete_codes, hcodes]
    exact hpos

/-- The writing stops on a byte of the container. -/
theorem containerLeft_of_stopped {s u t : State} (hu : ReadyToWrite s u) (hstop : WriteStops (compressWrite u) t)
    (hw : ContainerUpTo u t u.codes) (hlt : t.bw.pos.toNat < containerLength u.codes (srcBytes u)) :
    ∃ v, ContainerLeft s v ∧ (ContainerCut s v ∨ ContainerFaulted s v) := by
  obtain ⟨v, hv, herr, hbw, hhost, hparts, hcase⟩ := finish_writeStops hw.wf hstop
  obtain ⟨hft, htree, hcodes, hpq⟩ := hw.only.tables
  have hregion : t.region = s.region := hw.only.region.trans hu.region
  have hplatform : SamePlatform s t := ⟨hregion, hw.only.busFault.trans hu.only.platform.2⟩
  have hvft : v.ft = t.ft := hparts .ft (by decide) (by decide)
  have hvtree : v.tree = t.tree := hparts .tree (by decide) (by decide)
  have hvcodes : v.codes = t.codes := hparts .codes (by decide) (by decide)
  have hvpq : v.pq = t.pq := hparts .pq (by decide) (by decide)
  have hvout : v.outLen = t.outLen := hparts .outLen (by decide) (by decide)
  have hout : u.outLen = 0 := by rw [hu.only]
  have hmem : MemoryKeptBut (fun a => a = (t.region.dstAddr t.bw.pos.toNat).toNat) t v := by
    rcases hcase with ⟨-, -, hm⟩ | ⟨-, -, -, -, hm⟩
    · exact MemoryKeptBut.of_eq hm
    · exact hm
  have hprefix := hw.containerPrefix.congr hvft fun o ho => dstByte_of_memoryKept hhost.1 hmem t.bw.pos.isLt ho
  have hroom := hw.room
  rw [hu.srcBytes, ← hcodes, ← hvcodes] at hprefix hlt
  rw [hu.region] at hroom
  rw [hregion] at hcase herr
  rw [← hbw] at hcase herr hroom hlt hprefix
  refine ⟨v, ⟨(exec_compress hu).trans hv, hvft.trans (hft.trans hu.ft), hvpq.trans (hpq.trans hu.pq),
    hu.coded.congr (hvft.trans hft) (hvtree.trans htree) (hvcodes.trans hcodes), hprefix, hroom, fun o ho => ?_⟩, ?_⟩
  · rw [hbw] at ho
    exact (hu.only.platform.dstFaults o).symm.trans (hw.clean o ho)
  · have hzero : v.outLen = 0 := hvout.trans (hw.outLen.trans hout)
    rcases hcase with ⟨hfull, hend, -⟩ | ⟨hin, hf, hend, -⟩
    · exact .inl ⟨hlt, BitVec.eq_of_toNat_eq (Nat.le_antisymm hroom hfull), hend, herr, hzero⟩
    · exact .inr ⟨hlt, hin, (hplatform.dstFaults _).symm.trans hf, hend, herr, hzero⟩

/-- COMPRESS of a readable SRC completes, and ends in one of three ways. -/
theorem compress_completes {s : State} (hA : Accepted s) (hok : s.region.codecOk = true) (hr : SrcReadable s)
    (hw : Mem.wf s.mem) :
    ∃ t, ContainerLeft s t ∧ (ContainerWhole s t ∨ ContainerCut s t ∨ ContainerFaulted s t) := by
  obtain ⟨u, hu⟩ := exists_readyToWrite hA hok hr
  have hru : SrcReadable u := fun j hj => by
    rw [hu.only.platform.srcFaults]
    exact hr j (hu.region ▸ hj)
  rcases compressWrite_spec (hu.region ▸ hok) hru (hu.mem ▸ hw) hu.code_ne_nil with
    ⟨t, hrun, hwritten⟩ | ⟨t, hstop, hupto, hlt⟩
  · obtain ⟨hleft, hwhole⟩ := containerLeft_of_written hA hu hrun hwritten
    exact ⟨_, hleft, .inl hwhole⟩
  · obtain ⟨v, hleft, hcase⟩ := containerLeft_of_stopped hu hstop hupto hlt
    exact ⟨v, hleft, .inr hcase⟩

/-! ## The bytes that a command writing from DST offset 0 on leaves alone -/

theorem MemoryKeptBut.below {s t : State} {n : Nat} (h : MemoryKeptBut (writtenAddrs s.region 0 n t) s t)
    (hd : t.status.detail ≠ .dstWriteFault) :
    MemoryKeptBut (fun a => ∃ o, o < n ∧ a = (s.region.dstAddr o).toNat) s t := by
  refine h.mono ?_
  rintro a ⟨o, ⟨-, ho | ⟨-, hf⟩⟩, -, ha⟩
  · exact ⟨o, ho, ha⟩
  · exact absurd hf hd

theorem MemoryKeptBut.upTo {s t : State} {n : Nat} (h : MemoryKeptBut (writtenAddrs s.region 0 n t) s t) :
    MemoryKeptBut (fun a => ∃ o, o ≤ n ∧ a = (s.region.dstAddr o).toNat) s t := by
  refine h.mono ?_
  rintro a ⟨o, ⟨-, ho⟩, -, ha⟩
  exact ⟨o, by omega, ha⟩

/-! ## The container -/

theorem ContainerLeft.counts {s t : State} (h : ContainerLeft s t) : countsOf t.ft (srcBytes s) := by
  rw [h.ft]
  exact countsOf_tableOfMsg (by rw [srcBytes_length]; exact s.region.srcLen.isLt)

/-- Settles O47: with no write that faults the container is whole, or it ends at DST_CAP. -/
theorem compressWritesTheContainer : Obligations.CompressWritesTheContainer := by
  intro s hA hok hr hd hw
  obtain ⟨t, hleft, hcase⟩ := compress_completes hA hok hr hw
  have hmem := memoryKept_compress hleft.run
  have hroom := hleft.room
  refine ⟨t, hleft.run, exec_kept hleft.run, hleft.counts, hleft.pq, hleft.coded.treeOf, hleft.coded.codes, ?_⟩
  rcases hcase with ⟨hend, herr, hpos, hout, hnbits⟩ | ⟨hlt, hpos, hend, herr, hout⟩ | ⟨-, hin, hf, -⟩
  · rw [if_pos (hpos ▸ hroom), hout]
    exact ⟨hend, herr, hpos, rfl, hnbits, hleft.written, hmem.below (by rw [hend.detail]; decide)⟩
  · rw [if_neg (by rw [← hpos]; omega)]
    have hwritten := hleft.written
    rw [hpos] at hwritten herr hmem
    exact ⟨hend, herr, hout, hpos, hwritten, hmem.below (by rw [hend.detail]; decide)⟩
  · rw [hd _ hin] at hf
    cases hf

/-! ## Two containers -/

/-- The header's bytes of a container (R220). -/
theorem ContainerPrefix.header {t : State} {bits : Bits} {n o : Nat} (h : ContainerPrefix t bits n) (ho : o < 1028)
    (hn : o < n) : dstByte t o = (headerBytes t.ft).getD o 0 := by
  apply BitVec.eq_of_toNat_eq
  by_cases h4 : o < 4
  · rw [h.total o h4 hn, headerBytes_total _ h4]
  · have hb : (BitVec.ofNat 8 ((o - 4) / 4)).toNat = (o - 4) / 4 := by simp; omega
    have hsplit : 4 + 4 * (BitVec.ofNat 8 ((o - 4) / 4)).toNat + (o - 4) % 4 = o := by omega
    have hbyte := h.counts (BitVec.ofNat 8 ((o - 4) / 4)) ((o - 4) % 4) (by omega) (by omega)
    have hheader := headerBytes_count t.ft (BitVec.ofNat 8 ((o - 4) / 4)) (k := (o - 4) % 4) (by omega)
    rw [hsplit] at hbyte hheader
    rw [hbyte, hheader]

/-- Containers of one table and one bit stream have the same bytes. -/
theorem ContainerPrefix.dstPart_eq {t u : State} {bits : Bits} {n : Nat} (ht : ContainerPrefix t bits n)
    (hu : ContainerPrefix u bits n) (hft : t.ft = u.ft) : dstPart t n = dstPart u n := by
  refine List.map_congr_left fun o ho => ?_
  have ho : o < n := List.mem_range.1 ho
  by_cases hh : o < 1028
  · rw [ht.header hh ho, hu.header hh ho, hft]
  · have hbytes := bitAt_byte_ext (f := fun o => dstByte t (1028 + o)) (g := fun o => dstByte u (1028 + o))
      (n := n - 1028) (fun i hi => by rw [ht.stream i (by omega), hu.stream i (by omega)]) (o - 1028) (by omega)
    simpa only [Nat.add_sub_cancel' (Nat.le_of_not_lt hh)] using hbytes

/-- COMPRESS returns OK only over valid regions with a readable SRC, and the container is whole. -/
theorem compress_of_ok {s t : State} (hA : Accepted s) (hw : Mem.wf s.mem) (he : exec .compress s = .next t)
    (hcode : t.status.code = .ok) : ContainerLeft s t ∧ ContainerWhole s t := by
  have hraise : ∀ {e : Raise} {u : State}, compressSetup s = .raise e u → e.code = .ok := fun hsetup => by
    rw [exec_eq_finish, commandBody, hsetup] at he
    obtain rfl := Host.Outcome.next.inj he
    exact hcode
  cases hok : s.region.codecOk with
  | false => cases hraise (compressSetup_bad hok)
  | true =>
    rcases compressSetup_spec hok with ⟨hr, -⟩ | ⟨j, -, -, -, hsetup⟩
    · obtain ⟨v, hleft, hcase⟩ := compress_completes hA hok hr hw
      obtain rfl := Host.Outcome.next.inj (hleft.run.symm.trans he)
      refine ⟨hleft, ?_⟩
      rcases hcase with hwhole | ⟨-, -, hend, -⟩ | ⟨-, -, -, hend, -⟩
      · exact hwhole
      · rw [hend.code] at hcode
        cases hcode
      · rw [hend.code] at hcode
        cases hcode
    · cases hraise hsetup

/-- Settles O48: equal SRC bytes have one table, and so one tree, one code table and one container. -/
theorem compressIsDeterministic : Obligations.CompressIsDeterministic := by
  intro s1 s2 t1 t2 hA1 hA2 hw1 hw2 hsrc he1 he2 hok1 hok2
  obtain ⟨hleft1, -, -, hpos1, hout1, -⟩ := compress_of_ok hA1 hw1 he1 hok1
  obtain ⟨hleft2, -, -, hpos2, hout2, -⟩ := compress_of_ok hA2 hw2 he2 hok2
  have hft : t1.ft = t2.ft := by rw [hleft1.ft, hleft2.ft, hsrc]
  have hcodes : t1.codes = t2.codes := hleft1.coded.codes_eq hleft2.coded hft
  have hbw : t1.bw.pos = t2.bw.pos := BitVec.eq_of_toNat_eq (by rw [hpos1, hpos2, hcodes, hsrc])
  have hwritten := hleft1.written
  rw [hcodes, hsrc, hbw] at hwritten
  rw [hout1, hout2, hbw]
  exact ⟨rfl, hwritten.dstPart_eq hleft2.written hft⟩

end Sys2Proof.Machine
end

section
/-! DECOMPRESS up to its payload (spec/46_orchestrator.md R220, R229; spec/60_exceptions.md R267): the header as a
table, the checks of it, and the tree and codes it gives. -/

namespace Sys2Proof.Machine

/-! ## The header as a table -/

theorem srcPart_getD (s : State) {i n : Nat} (h : i < n) : (srcPart s n).getD i 0 = srcByte s i := by
  simp [srcPart, h]

/-- Word i of the header. -/
theorem wordsOf_srcPart (s : State) {i : Nat} (h : i < 257) :
    ((wordsOf (srcPart s 1028)).getD i 0).toNat = (srcByte s (4 * i)).toNat + 256 * (srcByte s (4 * i + 1)).toNat +
      65536 * (srcByte s (4 * i + 2)).toNat + 16777216 * (srcByte s (4 * i + 3)).toNat := by
  rw [wordsOf_getD _ _ (by rw [srcPart_length]; omega), le32_toNat, srcPart_getD s (by omega),
    srcPart_getD s (by omega), srcPart_getD s (by omega), srcPart_getD s (by omega)]

theorem tableOf_total (l : List Byte) : (tableOf l).total = (wordsOf l).getD 0 0 := rfl

theorem tableOf_at (l : List Byte) (b : Byte) : (tableOf l).at b = (wordsOf l).getD (b.toNat + 1) 0 := by
  have hb := b.isLt
  simp [FreqTable.at, tableOf]

/-- The table registers hold the header once it is read. -/
theorem holdsHeader_srcTable (s : State) : holdsHeader (srcTable s) s := by
  unfold srcTable
  refine ⟨by rw [tableOf_total, wordsOf_srcPart s (by omega)]; rfl, fun b => ?_⟩
  have hb := b.isLt
  rw [tableOf_at, wordsOf_srcPart s (by omega), headerCount, show 4 * (b.toNat + 1) = 4 + 4 * b.toNat by omega,
    show 5 + 4 * b.toNat = 4 + 4 * b.toNat + 1 by omega, show 6 + 4 * b.toNat = 4 + 4 * b.toNat + 2 by omega,
    show 7 + 4 * b.toNat = 4 + 4 * b.toNat + 3 by omega]

theorem FreqTable.sum_eq (t : FreqTable) :
    t.sum = ((List.range 256).map fun i => (t.at (BitVec.ofNat 8 i)).toNat).sum := by
  unfold FreqTable.sum
  congr 1
  refine List.ext_getElem (by simp) fun i h1 h2 => ?_
  have hi : i < 256 := by simpa using h1
  simp [FreqTable.at, Nat.mod_eq_of_lt hi]

theorem sum_srcTable (s : State) : (srcTable s).sum = headerSum s := by
  rw [FreqTable.sum_eq, headerSum]
  refine congrArg List.sum (List.map_congr_left fun i hi => ?_)
  have hi : i < 256 := List.mem_range.1 hi
  rw [(holdsHeader_srcTable s).2, BitVec.toNat_ofNat, Nat.mod_eq_of_lt hi]

theorem FreqTable.sum_eq_zero_iff_no_leaves (t : FreqTable) : t.sum = 0 ↔ leavesOf t = [] := by
  rw [leavesOf_eq_nil_iff, FreqTable.sum, List.sum_eq_zero_iff]
  constructor
  · intro h b
    refine BitVec.eq_of_toNat_eq (h _ (List.mem_map.2 ⟨t.at b, ?_, rfl⟩))
    exact Vector.mem_toList_iff.2 (Vector.getElem_mem b.isLt)
  · rintro h n hn
    obtain ⟨v, hv, rfl⟩ := List.mem_map.1 hn
    obtain ⟨i, hi, rfl⟩ := Vector.getElem_of_mem (Vector.mem_toList_iff.1 hv)
    have := h (BitVec.ofNat 8 i)
    simp only [FreqTable.at, BitVec.toNat_ofNat, Nat.mod_eq_of_lt hi] at this
    rw [this]
    rfl

theorem leavesOf_srcTable (s : State) : leavesOf (srcTable s) = [] ↔ headerSum s = 0 := by
  rw [← FreqTable.sum_eq_zero_iff_no_leaves, sum_srcTable]

theorem total_srcTable (s : State) : (srcTable s).total = 0 ↔ headerTotal s = 0 := by
  rw [← (holdsHeader_srcTable s).1]
  exact BitVec.toNat_inj.symm

/-! ## The tree step -/

/-- DECOMPRESS with the header in the table registers and a tree for it. -/
def headerTree (s : State) (tree : Tree) : State := { headerRead s with pq := [], tree := tree }

/-- DECOMPRESS with the header in the table registers, a tree for it and the tree's codes. -/
def headerCoded (s : State) (tree : Tree) (codes : Vector Bits 256) : State := { headerTree s tree with codes := codes }

theorem headerTree_kept (s : State) (tree : Tree) :
    KeptExcept [.outLen, .decoded, .ft, .tree, .pq] s (headerTree s tree) :=
  ⟨HostSideKept.refl s, fun p hp => by cases p <;> simp_all [keeps, headerTree, headerRead]⟩

theorem headerCoded_kept (s : State) (tree : Tree) (codes : Vector Bits 256) :
    KeptExcept [.outLen, .decoded, .ft, .tree, .pq, .codes] s (headerCoded s tree codes) :=
  ⟨HostSideKept.refl s, fun p hp => by cases p <;> simp_all [keeps, headerCoded, headerTree, headerRead]⟩

/-- The setup of DECOMPRESS once its header can be read: no tree, or the tree and codes of the header, when the counts
sum to T. -/
theorem decompressSetup_spec {s : State} (hA : Accepted s) (hok : s.region.codecOk = true)
    (hlen : 1028 ≤ s.region.srcLen.toNat) (hr : SrcReadableTo s 1028) :
    (headerSum s = 0 ∧ headerTotal s ≠ 0 ∧
      decompressSetup s = raiseCorrupt .emptyAlphabet (headerTree s s.tree.cleared)) ∨
    ((headerSum s ≠ 0 ∨ headerTotal s = 0) ∧ ∃ tree codes, CodedByTable (headerCoded s tree codes) ∧
      decompressSetup s =
        if headerSum s = headerTotal s then .ok () (headerCoded s tree codes)
        else raiseCorrupt .freqSumMismatch (headerTree s tree)) := by
  have hcase := containerTree_spec (headerRead s)
  rw [← decompressSetup_read hok hlen hr, headerRead_ft, leavesOf_srcTable, Ne, Ne, leavesOf_srcTable, total_srcTable,
    sum_srcTable, (holdsHeader_srcTable s).1] at hcase
  rcases hcase with hempty | ⟨hsome, tree, codes, hbody, hinv, hcodes, hpaths, hcoded, -, hsetup⟩
  · exact .inl hempty
  · exact .inr ⟨hsome, tree, codes, ⟨⟨headerRead s, hA, rfl, hbody⟩, hinv, hcodes, hpaths, hcoded⟩, hsetup⟩

theorem CodedByTable.valid_eq_false {t : State} (h : CodedByTable t) (hl : leavesOf t.ft = []) :
    t.tree.valid = false := by
  obtain ⟨s, -, hft, hbody⟩ := h.built
  rw [treeBody_empty (hft ▸ hl)] at hbody
  split at hbody
  · rw [← congrArg State.tree (Res.ok.inj hbody).2]
    rfl
  · cases hbody

theorem CodedByTable.valid_eq_true {t : State} (h : CodedByTable t) (hl : leavesOf t.ft ≠ []) :
    t.tree.valid = true := by
  rcases h.inv with ⟨hv, -⟩ | ⟨hv, -⟩
  · refine absurd (leavesOf_eq_nil_iff.2 fun b => ?_) hl
    by_contra hb
    exact (h.coded b).2 hb (by rw [h.paths.none hv]; exact codeOf_noCodes b)
  · exact hv

/-! ## The checks -/

/-- A setup that raises ends the command. -/
theorem exec_decompress_of_setup_raise {s u : State} {e : Raise} (h : decompressSetup s = .raise e u) :
    exec .decompress s = .next (u.report e).complete := by
  rw [exec_eq_finish, commandBody, h]
  rfl

/-- Settles O50: the setup's raises come in the order of the checks, and with T = 0 the decoding does nothing. -/
theorem decompressChecksTheHeader : Obligations.DecompressChecksTheHeader := by
  intro s hA hok
  refine ⟨fun hshort => ?_, fun hlen o ho hf hfirst => ?_, fun hlen hr hsum htotal => ?_,
    fun hlen hr hsum htotal => ?_, fun hlen hr hsum htotal => ?_⟩
  · exact ⟨_, exec_decompress_of_setup_raise (decompressSetup_short hok hshort), ended_report _ _, rfl, rfl,
      (lengthsCleared_decompress_kept s).report (.inl rfl)⟩
  · exact ⟨_, exec_decompress_of_setup_raise (decompressSetup_fault hok hlen ho hf hfirst), ended_report _ _,
      rfl, rfl, rfl, ((lengthsCleared_decompress_kept s).mono (by simp)).report (.inr (by simp))⟩
  · rcases decompressSetup_spec hA hok hlen hr with ⟨-, -, hsetup⟩ | ⟨hsome, -⟩
    · exact ⟨_, exec_decompress_of_setup_raise hsetup, ended_report _ _, rfl, rfl, holdsHeader_srcTable s, rfl,
        (headerTree_kept s _).report (.inl rfl)⟩
    · omega
  · rcases decompressSetup_spec hA hok hlen hr with ⟨hzero, -⟩ | ⟨-, tree, codes, hcoded, hsetup⟩
    · exact absurd hzero hsum
    · rw [if_neg htotal] at hsetup
      exact ⟨_, exec_decompress_of_setup_raise hsetup, ended_report _ _, rfl, rfl, holdsHeader_srcTable s,
        hcoded.treeOf, (headerTree_kept s tree).report (.inl rfl)⟩
  · rcases decompressSetup_spec hA hok hlen hr with ⟨-, hne, -⟩ | ⟨-, tree, codes, hcoded, hsetup⟩
    · exact absurd htotal hne
    · rw [if_pos (hsum.trans htotal.symm)] at hsetup
      have hbody : commandBody .decompress s = .ok () { headerCoded s tree codes with outLen := 0 } := by
        rw [commandBody, hsetup]
        exact decompressDecode_zero ((total_srcTable s).2 htotal)
      obtain ⟨he, hend, -⟩ := exec_of_commandBody_ok hA hbody
      exact ⟨_, he, hend, rfl, rfl, holdsHeader_srcTable s, hcoded.valid_eq_false ((leavesOf_srcTable s).2 hsum),
        (headerCoded_kept s tree codes).complete⟩

end Sys2Proof.Machine
end

section
/-! DECOMPRESS from its payload on (spec/46_orchestrator.md R223, R229, R230): the symbols it decodes, and how it ends
when the payload is done, cut short or not writable. -/

namespace Sys2Proof.Machine

/-! ## The payload as a bit stream -/

theorem payloadBits_eq_map (s : State) : payloadBits s =
    (List.range (8 * (s.region.srcLen.toNat - 1028))).map fun i => bitAt (srcByte s) (8 * 1028 + i) :=
  bitsOf_srcBytes_drop s 1028

/-- The SRC stream has the payload's bits from byte 1028 on. -/
theorem streamHas_of_prefix {s : State} {m : Nat} {p : Bits} (hm : 1028 ≤ m) (hlen : m ≤ s.region.srcLen.toNat)
    (hp : p <+: (payloadBits s).take (8 * (m - 1028))) : StreamHas s m (8 * 1028) p := by
  rw [payloadBits_eq_map, ← List.map_take, List.take_range] at hp
  have hple := hp.length_le
  simp only [List.length_map, List.length_range] at hple
  refine ⟨by omega, fun k hk => ?_⟩
  rw [List.getD_eq_getElem?_getD, List.getElem?_eq_getElem hk, Option.getD_some, hp.getElem hk, List.getElem_map,
    List.getElem_range]

theorem payloadBits_length (s : State) : (payloadBits s).length = 8 * (s.region.srcLen.toNat - 1028) := by
  simp [payloadBits_eq_map]

theorem payloadBits_take_srcLen (s : State) :
    (payloadBits s).take (8 * (s.region.srcLen.toNat - 1028)) = payloadBits s :=
  List.take_of_length_le (payloadBits_length s).le

/-! ## The state at the payload -/

/-- DECOMPRESS has come from `s` to `v`, where it begins to decode. -/
structure AtPayload (s v : State) : Prop where
  run : commandBody .decompress s =
    (decodeFrom (headerTotal s) v).bind fun _ t => .ok () { t with outLen := t.decoded }
  only : v = { s with outLen := 0, decoded := 0, ft := v.ft, pq := v.pq, tree := v.tree, codes := v.codes, br := v.br }
  reader : v.br = Reader.emptyAt (BitVec.ofNat 32 Config.hdrLen)
  ft : v.ft = srcTable s
  coded : CodedByTable v
  valid : v.tree.valid = true

theorem AtPayload.header {s v : State} (h : AtPayload s v) : holdsHeader v.ft s := h.ft ▸ holdsHeader_srcTable s

theorem AtPayload.mem {s v : State} (h : AtPayload s v) : v.mem = s.mem := by rw [h.only]

theorem AtPayload.decoded {s v : State} (h : AtPayload s v) : v.decoded.toNat = 0 := by rw [h.only]; rfl

theorem AtPayload.outLen {s v : State} (h : AtPayload s v) : v.outLen = 0 := by rw [h.only]

theorem AtPayload.platform {s v : State} (h : AtPayload s v) : SamePlatform s v := by rw [h.only]; exact ⟨rfl, rfl⟩

theorem AtPayload.region {s v : State} (h : AtPayload s v) : v.region = s.region := h.platform.1

theorem AtPayload.readsTo {s v : State} {m : Nat} (h : AtPayload s v) (hr : ReadsTo s m) : ReadsTo v m :=
  hr.congr h.region h.platform.srcFaults

theorem AtPayload.readerAt {s v : State} {m : Nat} (h : AtPayload s v) (hm : 1028 ≤ m) : ReaderAt v m (8 * 1028) :=
  readerAt_emptyAt h.reader hm

/-- A sound header brings DECOMPRESS to its payload. -/
theorem exists_atPayload {s : State} (h : SoundHeader s) : ∃ v, AtPayload s v := by
  obtain ⟨hA, hok, -, hlen, hr, hsum, htotal⟩ := h
  rcases decompressSetup_spec hA hok hlen hr with ⟨hzero, hne, -⟩ | ⟨-, tree, codes, hcoded, hsetup⟩
  · omega
  rw [if_pos hsum] at hsetup
  have hT : (headerCoded s tree codes).ft.total ≠ 0 := (total_srcTable s).not.2 htotal
  have hvalid : tree.valid = true := hcoded.valid_eq_true ((leavesOf_srcTable s).not.2 (by omega))
  refine ⟨{ headerCoded s tree codes with br := Reader.emptyAt (BitVec.ofNat 32 Config.hdrLen) }, ?_, rfl, rfl, rfl,
    hcoded.congr rfl rfl rfl, hvalid⟩
  rw [commandBody, hsetup]
  refine (decompressDecode_run hT).trans ?_
  rw [show (headerCoded s tree codes).ft.total.toNat = headerTotal s from (holdsHeader_srcTable s).1]

/-! ## How the decoding ends the command -/

/-- Decoding all symbols ends the command with OK and OUT_LEN their number. -/
theorem AtPayload.exec_of_ok {s v w : State} (h : AtPayload s v) (hA : Accepted s)
    (hrun : decodeFrom (headerTotal s) v = .ok () w) :
    exec .decompress s = .next (State.complete { w with outLen := w.decoded }) ∧
      Ended .ok .none (State.complete { w with outLen := w.decoded }) := by
  have hbody : commandBody .decompress s = .ok () { w with outLen := w.decoded } := by rw [h.run, hrun]; rfl
  obtain ⟨he, hend, -⟩ := exec_of_commandBody_ok hA hbody
  exact ⟨he, hend⟩

theorem AtPayload.exec_of_raise {s v w : State} {e : Raise} (h : AtPayload s v)
    (hrun : decodeFrom (headerTotal s) v = .raise e w) : exec .decompress s = .next (w.report e).complete := by
  rw [exec_eq_finish, h.run, hrun]
  rfl

/-- DECOMPRESS over a sound header completes, with the header's table, tree and codes. -/
theorem AtPayload.completes {s v : State} (h : AtPayload s v) :
    ∃ t, exec .decompress s = .next t ∧ DecodesByHeader s t ∧ t.codes = v.codes := by
  have hends := decodeFrom_ends (headerTotal s) v
  have hby : DecodesByHeader s v := ⟨h.header, h.coded.treeOf, h.coded.codes⟩
  cases hrun : decodeFrom (headerTotal s) v with
  | ok a w =>
    have hw : DecodeOnly v w := hends.of_ok hrun
    refine ⟨State.complete { w with outLen := w.decoded }, by rw [exec_eq_finish, h.run, hrun]; rfl, ?_⟩
    rw [hw]
    exact ⟨hby, rfl⟩
  | raise e w =>
    have hw : DecodeOnly v w := hends.of_raise hrun
    refine ⟨_, h.exec_of_raise hrun, ?_⟩
    rw [hw]
    exact ⟨hby, rfl⟩
  | fault f => exact absurd hrun (decodeFrom_no_fault _ v h.coded.inv h.valid f)

/-! ## Symbols decoded -/

theorem dstPart_congr {s t : State} (hm : t.mem = s.mem) (hr : t.region = s.region) (n : Nat) :
    dstPart t n = dstPart s n := List.map_congr_left fun o _ => by rw [dstByte, dstByte, hm, hr]

theorem Decoded.dstPart_eq {s t : State} {msg : List Byte} (h : Decoded s t msg) (h0 : s.decoded.toNat = 0) :
    dstPart t msg.length = msg := by
  refine List.ext_getElem (by simp) fun i h1 h2 => ?_
  have hbyte := h.bytes i h2
  rw [h0, Nat.zero_add] at hbyte
  simp [dstPart, hbyte, h2]

/-- DECOMPRESS of `s` has come to `t` with the symbols `msg` in DST. -/
structure Stored (s t : State) (msg : List Byte) : Prop where
  decoded : t.decoded.toNat = msg.length
  bytes : dstPart t msg.length = msg
  outLen : t.outLen = 0
  platform : SamePlatform s t

theorem AtPayload.stored {s v w x : State} {msg : List Byte} (h : AtPayload s v) (hw : Decoded v w msg)
    (ho : ReaderOnly w x) : Stored s x msg := by
  have hx : DecodeOnly v x := hw.only.trans ho.decode
  have hxd : x.decoded = w.decoded := by rw [ho]
  refine ⟨?_, ?_, hx.outLen.trans h.outLen, hx.region.trans h.region, hx.busFault.trans h.platform.2⟩
  · rw [hxd, hw.decoded, h.decoded, Nat.zero_add]
  · rw [dstPart_congr ho.mem ho.region, hw.dstPart_eq h.decoded]

/-- The first symbols of a payload that begins with the codes of a message, as far as they can be written. -/
theorem AtPayload.decodes {s v : State} {m n : Nat} {msg : List Byte} (h : AtPayload s v) (hs : SoundHeader s)
    (hm : 1028 ≤ m) (hr : ReadsTo s m) (hd : DstWritableTo s msg.length)
    (hroom : msg.length ≤ s.region.dstCap.toNat)
    (hne : ∀ b ∈ msg, codeOf v.codes b ≠ [])
    (hp : codeBits v.codes msg <+: (payloadBits s).take (8 * (m - 1028))) (hn : headerTotal s = msg.length + n) :
    ∃ w, decodeFrom (headerTotal s) v = decodeFrom n w ∧ Decoded v w msg ∧
      ReaderAt w m (8 * 1028 + (codeBits v.codes msg).length) := by
  obtain ⟨-, hok, hw, -⟩ := hs
  have hstream : StreamHas v m (8 * 1028) (codeBits v.codes msg) :=
    (streamHas_of_prefix hm hr.le hp).congr fun j _ => srcByte_congr h.mem h.region j
  rw [hn]
  refine decodeFrom_message msg n h.coded.paths h.coded.inv (h.region ▸ hok) (h.readsTo hr) ?_ (h.mem ▸ hw)
    (h.readerAt hm) (by rw [h.decoded, h.region]; omega) hne hstream
  rw [h.decoded, Nat.zero_add]
  exact fun o ho => (h.platform.dstFaults o).trans (hd o ho)

/-- The bits after those of the symbols decoded. -/
theorem AtPayload.streamHas_rest {s v w : State} {m : Nat} {msg : List Byte} {rest : Bits} (h : AtPayload s v)
    (hs : SoundHeader s) (hm : 1028 ≤ m) (hr : ReadsTo s m) (hw : Decoded v w msg)
    (hp : codeBits v.codes msg ++ rest <+: (payloadBits s).take (8 * (m - 1028))) :
    StreamHas w m (8 * 1028 + (codeBits v.codes msg).length) rest := by
  obtain ⟨-, hok, -⟩ := hs
  have hle := hr.le
  refine ((StreamHas.append.1 (streamHas_of_prefix hm hle hp)).2).congr fun j hj => ?_
  rw [hw.srcByte (h.region ▸ hok) (by rw [h.region]; omega), srcByte_congr h.mem h.region]

theorem codeBits_take_isPrefix (codes : Vector Bits 256) (msg : List Byte) (k : Nat) :
    codeBits codes (msg.take k) <+: codeBits codes msg := by
  conv_rhs => rw [← List.take_append_drop k msg, codeBits, List.flatMap_append]
  exact List.prefix_append _ _

/-- With the codes of k + 1 symbols to be read, k are stored and the next is decoded. -/
theorem AtPayload.decodes_next {s v : State} {m n k : Nat} {msg : List Byte} (h : AtPayload s v) (hs : SoundHeader s)
    (hm : 1028 ≤ m) (hr : ReadsTo s m) (hk : k < msg.length) (hd : DstWritableTo s k)
    (hroom : k ≤ s.region.dstCap.toNat)
    (hne : ∀ b ∈ msg, codeOf v.codes b ≠ [])
    (hp : codeBits v.codes msg <+: (payloadBits s).take (8 * (m - 1028))) (hn : headerTotal s = k + n) :
    ∃ w x, decodeFrom (headerTotal s) v = decodeFrom n w ∧ decodeSymbol w = .ok (msg.getD k 0) x ∧
      Stored s x (msg.take k) := by
  have hlen : (msg.take k).length = k := List.length_take_of_le hk.le
  have hsplit : codeBits v.codes (msg.take k) ++ codeOf v.codes (msg.getD k 0) <+:
      (payloadBits s).take (8 * (m - 1028)) := by
    rw [← codeBits_take_succ v.codes msg hk]
    exact (codeBits_take_isPrefix v.codes msg (k + 1)).trans hp
  obtain ⟨w, hrun, hw, hat⟩ := h.decodes (msg := msg.take k) hs hm hr (hlen.symm ▸ hd) (hlen.symm ▸ hroom)
    (fun b hb => hne b (List.mem_of_mem_take hb)) ((List.prefix_append _ _).trans hsplit) (hlen.symm ▸ hn)
  have hwtree : w.tree = v.tree := hw.only.tree
  have hmem : msg.getD k 0 ∈ msg := by simp [List.getD_eq_getElem?_getD, hk]
  obtain ⟨x, hx, ho, -⟩ := decodeSymbol_code (hwtree ▸ h.coded.paths) (hwtree ▸ h.coded.inv) hat
    (hw.only.readsTo (h.readsTo hr)) (hne _ hmem) (h.streamHas_rest hs hm hr hw hsplit)
  exact ⟨w, x, hrun, hx, h.stored hw ho⟩

/-- Where what can be read ends inside a code, the decoding ends there. -/
theorem AtPayload.decodes_stop {s v : State} {m : Nat} {msg : List Byte} {rest : Bits} {b : Byte} (h : AtPayload s v)
    (hs : SoundHeader s) (hm : 1028 ≤ m) (hr : ReadsTo s m) (hlt : msg.length < headerTotal s)
    (hd : DstWritableTo s msg.length) (hroom : msg.length ≤ s.region.dstCap.toNat)
    (hne : ∀ b ∈ msg, codeOf v.codes b ≠ [])
    (hp : (payloadBits s).take (8 * (m - 1028)) = codeBits v.codes msg ++ rest) (hcode : codeOf v.codes b ≠ rest)
    (hrest : rest <+: codeOf v.codes b) :
    ∃ x, decodeFrom (headerTotal s) v = .raise (readStop s m) x ∧ Stored s x msg ∧ x.br.pos.toNat = m := by
  obtain ⟨n, hn⟩ : ∃ n, headerTotal s = msg.length + (n + 1) := ⟨headerTotal s - msg.length - 1, by omega⟩
  obtain ⟨w, hrun, hw, hat⟩ := h.decodes hs hm hr hd hroom hne (hp ▸ List.prefix_append _ _) hn
  have hwtree : w.tree = v.tree := hw.only.tree
  have hend : 8 * 1028 + (codeBits v.codes msg).length + rest.length = 8 * m := by
    have hle := hr.le
    have hlen := congrArg List.length hp
    rw [List.length_take, payloadBits_length, List.length_append] at hlen
    omega
  obtain ⟨x, hx, ho, hpos⟩ := decodeSymbol_stop (hwtree ▸ h.coded.paths) (hwtree ▸ h.coded.inv) hat
    (hw.only.readsTo (h.readsTo hr)) hrest hcode (h.streamHas_rest hs hm hr hw (hp ▸ List.prefix_refl _)) hend
  refine ⟨x, ?_, h.stored hw ho, hpos⟩
  rw [hrun, decodeFrom_stop hx, hw.only.readStop, readStop, readStop, h.region]

end Sys2Proof.Machine
end

section
/-! The statements about DECOMPRESS's payload without faults (spec/46_orchestrator.md R223, R229, R230). -/

namespace Sys2Proof.Machine

/-! ## A whole message -/

/-- A payload that begins with the codes of a message of T bytes, which fits DST, is decoded whole. -/
theorem AtPayload.decodes_message {s v : State} {msg : List Byte} (h : AtPayload s v) (hs : DecodableHeader s)
    (hlen : msg.length = headerTotal s) (hroom : headerTotal s ≤ s.region.dstCap.toNat)
    (hne : ∀ b ∈ msg, codeOf v.codes b ≠ []) (hp : codeBits v.codes msg <+: payloadBits s) :
    ∃ t, exec .decompress s = .next t ∧ Ended .ok .none t ∧ t.outLen.toNat = msg.length ∧
      t.decoded = t.outLen ∧ dstPart t msg.length = msg := by
  obtain ⟨hsound, hr, hd⟩ := hs
  have ⟨hA, _, _, hsrc, _⟩ := hsound
  obtain ⟨w, hrun, hw, -⟩ := h.decodes (n := 0) hsound hsrc (SrcReadable.readsTo hr)
    (fun o ho => hd o (by omega)) (by omega) hne (by rw [payloadBits_take_srcLen]; exact hp) hlen.symm
  obtain ⟨he, hend⟩ := h.exec_of_ok hA hrun
  have hst := h.stored hw (ReaderOnly.refl w)
  exact ⟨_, he, hend, hst.decoded, rfl, hst.bytes⟩

/-- Where DST is full before the message is done, DECOMPRESS ends on the symbol that does not fit. -/
theorem AtPayload.decodes_full {s v : State} {msg : List Byte} (h : AtPayload s v) (hs : DecodableHeader s)
    (hlen : msg.length = headerTotal s) (hfull : s.region.dstCap.toNat < headerTotal s)
    (hne : ∀ b ∈ msg, codeOf v.codes b ≠ []) (hp : codeBits v.codes msg <+: payloadBits s) :
    ∃ t, exec .decompress s = .next t ∧ Ended .ioError .dstFull t ∧ t.outLen = 0 ∧
      t.decoded = s.region.dstCap ∧ t.errAddr = s.region.dstAddr s.region.dstCap.toNat ∧
      dstPart t s.region.dstCap.toNat = msg.take s.region.dstCap.toNat := by
  obtain ⟨hsound, hr, hd⟩ := hs
  have ⟨_, _, _, hsrc, _⟩ := hsound
  obtain ⟨n, hn⟩ : ∃ n, headerTotal s = s.region.dstCap.toNat + (n + 1) :=
    ⟨headerTotal s - s.region.dstCap.toNat - 1, by omega⟩
  obtain ⟨w, x, hrun, hx, hst⟩ := h.decodes_next hsound hsrc (SrcReadable.readsTo hr) (hlen ▸ hfull) hd
    (Nat.le_refl _) hne (by rw [payloadBits_take_srcLen]; exact hp) hn
  obtain ⟨hdec, hbytes, hout, hregion, -⟩ := hst
  rw [List.length_take_of_le (hlen ▸ hfull.le)] at hdec hbytes
  rw [decodeFrom_full hx (by rw [hregion, hdec]), hregion, hdec] at hrun
  exact ⟨_, h.exec_of_raise hrun, ended_report _ _, hout, BitVec.eq_of_toNat_eq hdec, rfl, hbytes⟩

/-- Settles O51: the loop runs over the symbols of the message, T of them or as many as fit DST. -/
theorem decompressDecodesTheMessage : Obligations.DecompressDecodesTheMessage := by
  intro s hs
  obtain ⟨v, hv⟩ := exists_atPayload hs.1
  obtain ⟨t, he, hby, hcodes⟩ := hv.completes
  refine ⟨t, he, hby, fun msg hlen hne hp => ?_⟩
  rw [hcodes] at hne hp
  split
  next hroom =>
    obtain ⟨t', he', hend, hout, hdec, hbytes⟩ := hv.decodes_message hs hlen hroom hne hp
    obtain rfl := Host.Outcome.next.inj (he'.symm.trans he)
    have hmem := (memoryKept_decompress he).below (by rw [hend.detail]; decide)
    rw [hdec, hout] at hmem
    exact ⟨hend, hout, hdec, hbytes, hmem⟩
  next hfull =>
    obtain ⟨t', he', hends⟩ := hv.decodes_full hs hlen (Nat.lt_of_not_le hfull) hne hp
    obtain rfl := Host.Outcome.next.inj (he'.symm.trans he)
    exact hends

/-! ## A payload cut short -/

/-- A payload that ends inside a code is TRUNCATED. -/
theorem AtPayload.decodes_truncated {s v : State} {msg : List Byte} {rest : Bits} {b : Byte} (h : AtPayload s v)
    (hs : DecodableHeader s) (hlt : msg.length < headerTotal s) (hroom : msg.length ≤ s.region.dstCap.toNat)
    (hne : ∀ b ∈ msg, codeOf v.codes b ≠ []) (hp : payloadBits s = codeBits v.codes msg ++ rest)
    (hcode : codeOf v.codes b ≠ rest) (hrest : rest <+: codeOf v.codes b) :
    ∃ t, exec .decompress s = .next t ∧ Ended .corruptContainer .truncated t ∧ t.outLen = 0 ∧
      t.decoded.toNat = msg.length ∧ t.br.pos = s.region.srcLen ∧ dstPart t msg.length = msg := by
  obtain ⟨hsound, hr, hd⟩ := hs
  have ⟨_, _, _, hsrc, _⟩ := hsound
  obtain ⟨x, hrun, hst, hpos⟩ := h.decodes_stop hsound hsrc (SrcReadable.readsTo hr) hlt
    (fun o ho => hd o (by omega)) hroom hne (by rw [payloadBits_take_srcLen]; exact hp) hcode hrest
  rw [readStop, if_neg (Nat.lt_irrefl _)] at hrun
  exact ⟨_, h.exec_of_raise hrun, ended_report _ _, hst.outLen, hst.decoded, BitVec.eq_of_toNat_eq hpos, hst.bytes⟩

/-- Settles O52: the walk for the symbol that is due runs out of bits. -/
theorem decompressDetectsTruncation : Obligations.DecompressDetectsTruncation := by
  intro s hs hroom
  obtain ⟨v, hv⟩ := exists_atPayload hs.1
  obtain ⟨t, he, hby, hcodes⟩ := hv.completes
  refine ⟨t, he, hby, fun msg rest hlt hne hp hrest => ?_⟩
  rw [hcodes] at hne hp hrest
  obtain ⟨b, hcode, hprefix⟩ := hrest
  obtain ⟨t', he', hends⟩ := hv.decodes_truncated hs hlt (by omega) hne hp hcode hprefix
  obtain rfl := Host.Outcome.next.inj (he'.symm.trans he)
  exact hends

/-! ## A single symbol -/

/-- The tree of a table that counts one symbol is that symbol's leaf (R161). -/
theorem CodedByTable.root_single {t : State} {b : Byte} (h : CodedByTable t) (hb : ∀ c, t.ft.at c ≠ 0 ↔ c = b) :
    ∃ r, t.tree.node t.tree.root = some r ∧ r.leaf = true ∧ r.symbol = b := by
  have hv : t.tree.valid = true := h.valid_eq_true fun hl => (hb b).2 rfl (leavesOf_eq_nil_iff.1 hl b)
  rcases h.inv with ⟨hf, -⟩ | ⟨-, k, hk1, hk, hs⟩
  · rw [hv] at hf
    cases hf
  have hsymbol : ∀ i n, i < k → t.tree.nodes[i]? = some n → n.symbol = b := fun i n hi hn =>
    (hb _).1 ((h.coded _).1 (h.paths.ne_nil hv hk1 hk hs hi hn))
  have hk : k = 1 := by
    by_contra hne
    obtain ⟨m, hm, -⟩ := hs.leaves 0 (by omega)
    obtain ⟨n, hn, -⟩ := hs.leaves 1 (by omega)
    have hlt := hs.symbols 0 1 m n (by omega) (by omega) hm hn
    rw [hsymbol 0 m (by omega) hm, hsymbol 1 n (by omega) hn] at hlt
    omega
  obtain ⟨r, hr, hleaf, -⟩ := hs.leaves 0 (by omega)
  refine ⟨r, ?_, hleaf, hsymbol 0 r (by omega) hr⟩
  rw [Tree.node, hs.root, hk]
  exact hr

/-- When one symbol counts all T, it is the only one counted. -/
theorem AtPayload.counted_single {s v : State} {b : Byte} (h : AtPayload s v) (hs : SoundHeader s)
    (hb : headerCount s b.toNat = headerTotal s) (c : Byte) : v.ft.at c ≠ 0 ↔ c = b := by
  obtain ⟨-, -, -, -, -, hsum, htotal⟩ := hs
  obtain ⟨-, hcount⟩ := h.header
  have hnat : v.ft.at c ≠ 0 ↔ headerCount s c.toNat ≠ 0 := by
    rw [← hcount]
    exact not_congr BitVec.toNat_inj.symm
  rw [hnat]
  constructor
  · intro hc
    by_contra hne
    have hpair : headerCount s b.toNat + headerCount s c.toNat ≤ ∑ i ∈ Finset.range 256, headerCount s i :=
      Finset.add_le_sum (fun _ _ => Nat.zero_le _) (Finset.mem_range.2 b.isLt) (Finset.mem_range.2 c.isLt)
        fun heq => hne (BitVec.eq_of_toNat_eq heq.symm)
    have hrange : headerSum s = ∑ i ∈ Finset.range 256, headerCount s i := rfl
    omega
  · rintro rfl
    omega

/-- With a single counted symbol the loop takes one bit for each. -/
theorem AtPayload.decodes_single {s v : State} {b : Byte} (h : AtPayload s v) (hs : DecodableHeader s)
    (hb : headerCount s b.toNat = headerTotal s) (hbits : headerTotal s ≤ (payloadBits s).length)
    (hroom : headerTotal s ≤ s.region.dstCap.toNat) :
    ∃ w, decodeFrom (headerTotal s) v = .ok () w ∧ Decoded v w (List.replicate (headerTotal s) b) := by
  obtain ⟨hsound, hr, hd⟩ := hs
  obtain ⟨r, hroot, hleaf, rfl⟩ := h.coded.root_single (h.counted_single hsound hb)
  obtain ⟨-, hok, hw, hsrc, -⟩ := hsound
  rw [payloadBits_length] at hbits
  have hlen : (List.replicate (headerTotal s) r.symbol).length = headerTotal s := List.length_replicate
  obtain ⟨w, hrun, hdec, -⟩ := decodeFrom_places (List.replicate (headerTotal s) r.symbol) 0 (fun k => 8 * 1028 + k)
    (m := s.region.srcLen.toNat) (h.region ▸ hok) (h.readsTo (SrcReadable.readsTo hr))
    (fun o ho => by rw [h.platform.dstFaults]; rw [h.decoded, hlen] at ho; exact hd o (by omega)) (h.mem ▸ hw)
    (h.readerAt hsrc) (by rw [h.decoded, hlen, h.region]; omega) fun k hk t htree _ hrt _ hat => by
      rw [hlen] at hk
      have hsymbol : (List.replicate (headerTotal s) r.symbol).getD k 0 = r.symbol := by
        simp [List.getD_eq_getElem?_getD, hk]
      rw [hsymbol]
      exact decodeSymbol_single (htree ▸ hroot) hleaf hat hrt (show 8 * 1028 + k < _ by omega)
  rw [hlen] at hrun
  exact ⟨w, hrun, hdec⟩

/-- Settles O53: the tree is one leaf, at which every bit answers its symbol. -/
theorem singleSymbolTakesEitherBit : Obligations.SingleSymbolTakesEitherBit := by
  intro s b hs hb hbits hroom
  obtain ⟨v, hv⟩ := exists_atPayload hs.1
  obtain ⟨w, hrun, hw⟩ := hv.decodes_single hs hb hbits hroom
  obtain ⟨he, hend⟩ := hv.exec_of_ok hs.1.1 hrun
  obtain ⟨hdec, hbytes, -⟩ := hv.stored hw (ReaderOnly.refl w)
  rw [List.length_replicate] at hdec hbytes
  exact ⟨_, he, hend, hdec, hbytes⟩

end Sys2Proof.Machine
end

section
/-! DECOMPRESS of what COMPRESS wrote (spec/46_orchestrator.md R231): the round trip, and the container without its
last byte. -/

namespace Sys2Proof.Machine

/-! ## The container read back -/

/-- SRC of `u` that begins with the bytes of a container holds its table in the header. -/
theorem ContainerPrefix.srcTable_eq {t u : State} {bits : Bits} {n : Nat} (h : ContainerPrefix t bits n)
    (hn : 1028 ≤ n) (hbytes : ∀ o, o < 1028 → srcByte u o = dstByte t o) : srcTable u = t.ft := by
  have hheader : srcPart u 1028 = headerBytes t.ft := by
    refine List.ext_getElem (by simp) fun o h1 h2 => ?_
    have ho : o < 1028 := by simpa using h1
    simp only [srcPart, List.getElem_map, List.getElem_range]
    rw [hbytes o ho, h.header ho (by omega), List.getD_eq_getElem _ _ h2]
  unfold srcTable
  rw [hheader, tableOf_headerBytes]

theorem map_getD_range (l : Bits) {n : Nat} (h : n ≤ l.length) :
    (List.range n).map (fun i => l.getD i false) = l.take n := by
  refine List.ext_getElem (by simp [h]) fun i h1 h2 => ?_
  have hi : i < n := by simpa using h1
  simp [List.getElem?_eq_getElem (show i < l.length by omega)]

/-- The payload of SRC that holds a container's first bytes is its bit stream, padded with 0. -/
theorem ContainerPrefix.payload_eq {t u : State} {bits : Bits} {n : Nat} (h : ContainerPrefix t bits n)
    (hn : u.region.srcLen.toNat ≤ n) (hbytes : ∀ o, o < u.region.srcLen.toNat → srcByte u o = dstByte t o) :
    payloadBits u = (List.range (8 * (u.region.srcLen.toNat - 1028))).map fun i => bits.getD i false := by
  rw [payloadBits_eq_map]
  refine List.map_congr_left fun i hi => ?_
  have hi : i < 8 * (u.region.srcLen.toNat - 1028) := List.mem_range.1 hi
  rw [← h.stream i (by omega), ← bitAt_add]
  exact bitAt_congr (hbytes _ (by omega))

/-- A payload long enough begins with the whole stream. -/
theorem ContainerPrefix.bits_prefix {t u : State} {bits : Bits} {n : Nat} (h : ContainerPrefix t bits n)
    (hn : u.region.srcLen.toNat ≤ n) (hbytes : ∀ o, o < u.region.srcLen.toNat → srcByte u o = dstByte t o)
    (hlong : bits.length ≤ 8 * (u.region.srcLen.toNat - 1028)) : bits <+: payloadBits u := by
  have htake : (payloadBits u).take bits.length = bits := by
    rw [h.payload_eq hn hbytes, ← List.map_take, List.take_range, Nat.min_eq_left hlong,
      map_getD_range bits (Nat.le_refl _), List.take_length]
  exact htake ▸ List.take_prefix _ _

/-- A payload that is too short is a leading part of the stream. -/
theorem ContainerPrefix.payload_prefix {t u : State} {bits : Bits} {n : Nat} (h : ContainerPrefix t bits n)
    (hn : u.region.srcLen.toNat ≤ n) (hbytes : ∀ o, o < u.region.srcLen.toNat → srcByte u o = dstByte t o)
    (hshort : 8 * (u.region.srcLen.toNat - 1028) ≤ bits.length) : payloadBits u <+: bits := by
  rw [h.payload_eq hn hbytes, map_getD_range bits hshort]
  exact List.take_prefix _ _

/-- The header of a container says how many bytes were compressed. -/
theorem ContainerLeft.header_sums {s t u : State} (h : ContainerLeft s t) (hft : srcTable u = t.ft) :
    headerTotal u = s.region.srcLen.toNat ∧ headerSum u = s.region.srcLen.toNat := by
  have hlen : (srcBytes s).length < 2 ^ 32 := by rw [srcBytes_length]; exact s.region.srcLen.isLt
  rw [h.ft] at hft
  rw [← sum_srcTable, ← (holdsHeader_srcTable u).1, hft, tableOfMsg_sum hlen, tableOfMsg_total hlen,
    srcBytes_length]
  exact ⟨rfl, rfl⟩

/-- With bytes compressed, what is read back has a sound header. -/
theorem ContainerLeft.decodable {s t u : State} {len n : Nat} (h : ContainerLeft s t) (hu : ReadyToDecompress t u len n)
    (hft : srcTable u = t.ft) (hlen : 1028 ≤ len) (hne : s.region.srcLen.toNat ≠ 0) : DecodableHeader u := by
  obtain ⟨hA, hok, hr, hd, hw, hsrc, -⟩ := hu
  obtain ⟨htotal, hsum⟩ := h.header_sums hft
  exact ⟨⟨hA, hok, hw, by omega, fun j hj => hr j (by omega), hsum.trans htotal.symm, by omega⟩, hr, hd⟩

theorem ContainerLeft.code_ne_nil {s t : State} (h : ContainerLeft s t) :
    ∀ b ∈ srcBytes s, codeOf t.codes b ≠ [] := by
  intro b hb
  rw [h.coded.coded, h.ft]
  exact (tableOfMsg_at_ne_zero (by rw [srcBytes_length]; exact s.region.srcLen.isLt) b).2 hb

/-- Reading the container back, DECOMPRESS has the codes that COMPRESS wrote by (R143). -/
theorem AtPayload.codes_eq {s t u v : State} (hv : AtPayload u v) (h : ContainerLeft s t) (hft : srcTable u = t.ft) :
    v.codes = t.codes := hv.coded.codes_eq h.coded (hv.ft.trans hft)

/-- Every counted symbol has a code bit, so that a message of some bytes has a stream of some bits. -/
theorem codeBits_length_pos {codes : Vector Bits 256} {msg : List Byte} (hne : ∀ b ∈ msg, codeOf codes b ≠ [])
    (h : msg ≠ []) : 0 < (codeBits codes msg).length := by
  obtain ⟨b, hb⟩ := List.exists_mem_of_ne_nil msg h
  refine List.length_pos_iff.2 fun hnil => hne b hb ?_
  exact List.flatMap_eq_nil_iff.1 hnil b hb

/-! ## The round trip -/

/-- Settles O54: the payload is the codes of the bytes under the codes the header gives; the empty input has only a
header. -/
theorem decompressInvertsCompress : Obligations.DecompressInvertsCompress := by
  intro s t u hA hw he hcode hu
  obtain ⟨hleft, -, -, hpos, hout, -⟩ := compress_of_ok hA hw he hcode
  have ⟨huA, huok, hur, _, _, hlen, hroom, hbytes⟩ := hu
  rw [hout] at hlen hbytes
  rw [containerLength] at hpos
  have hft : srcTable u = t.ft := hleft.written.srcTable_eq (by omega) fun o ho => hbytes o (by omega)
  obtain ⟨htotal, hsum⟩ := hleft.header_sums hft
  by_cases h0 : s.region.srcLen.toNat = 0
  · obtain ⟨-, -, -, -, hzero⟩ := decompressChecksTheHeader u huA huok
    obtain ⟨v, hv, hend, hvout, -⟩ := hzero (by omega) (fun o ho => hur o (by omega)) (by omega) (by omega)
    refine ⟨v, hv, hend, hvout.trans (BitVec.eq_of_toNat_eq h0.symm), ?_⟩
    rw [h0, srcBytes, h0]
    rfl
  · have hdec : DecodableHeader u := hleft.decodable hu hft (by rw [hout]; omega) h0
    obtain ⟨v, hv⟩ := exists_atPayload hdec.1
    have hcodes : v.codes = t.codes := hv.codes_eq hleft hft
    have hprefix : codeBits t.codes (srcBytes s) <+: payloadBits u :=
      hleft.written.bits_prefix hlen.le (fun o ho => hbytes o (hlen ▸ ho)) (by rw [hlen, hpos, bytesFor]; omega)
    obtain ⟨w, hrun, hend, hwout, -, hmsg⟩ := hv.decodes_message (msg := srcBytes s) hdec
      (by rw [srcBytes_length, htotal]) (by omega) (hcodes ▸ hleft.code_ne_nil) (hcodes ▸ hprefix)
    rw [srcBytes_length] at hwout hmsg
    exact ⟨w, hrun, hend, BitVec.eq_of_toNat_eq hwout, hmsg⟩

/-! ## The last byte gone -/

/-- Settles O55: without its last byte the stream ends inside the code of some byte, and a header alone is short. -/
theorem missingFinalByteIsDetected : Obligations.MissingFinalByteIsDetected := by
  intro s t u hA hw he hcode hu
  obtain ⟨hleft, -, -, hpos, hout, -⟩ := compress_of_ok hA hw he hcode
  have ⟨huA, huok, _, _, _, hlen, hroom, hbytes⟩ := hu
  rw [hout] at hlen hbytes
  rw [containerLength, bytesFor] at hpos
  by_cases h0 : s.region.srcLen = 0
  · have hnil : codeBits t.codes (srcBytes s) = [] := by rw [srcBytes, h0]; rfl
    rw [hnil] at hpos
    obtain ⟨hshort, -⟩ := decompressChecksTheHeader u huA huok
    obtain ⟨v, hv, hend, hvout, -⟩ := hshort (by rw [hlen, hpos]; decide)
    exact ⟨v, hv, hvout, by rw [if_pos h0]; exact hend⟩
  · have hsrc : s.region.srcLen.toNat ≠ 0 := fun h => h0 (BitVec.eq_of_toNat_eq h)
    have hbits : 0 < (codeBits t.codes (srcBytes s)).length := codeBits_length_pos hleft.code_ne_nil fun hnil => by
      have := congrArg List.length hnil
      rw [srcBytes_length] at this
      exact hsrc this
    have hft : srcTable u = t.ft := hleft.written.srcTable_eq (by omega) fun o ho => hbytes o (by omega)
    obtain ⟨htotal, -⟩ := hleft.header_sums hft
    have hdec : DecodableHeader u := hleft.decodable hu hft (by rw [hout]; omega) hsrc
    obtain ⟨v, hv⟩ := exists_atPayload hdec.1
    have hcodes : v.codes = t.codes := hv.codes_eq hleft hft
    have hprefix : payloadBits u <+: codeBits t.codes (srcBytes s) :=
      hleft.written.payload_prefix (by omega) (fun o ho => hbytes o (hlen ▸ ho)) (by omega)
    obtain ⟨msg, b, rest, hmsg, hsplit, hrest, hne⟩ := codeBits_split t.codes (srcBytes s) (payloadBits u) hprefix
      (by rw [payloadBits_length]; omega)
    have hmsgLen := hmsg.length_le
    rw [List.length_append, List.length_singleton, srcBytes_length] at hmsgLen
    obtain ⟨w, hrun, hend, hwout, -⟩ := hv.decodes_truncated (msg := msg) (b := b) (rest := rest) hdec
      (by omega) (by omega) (fun c hc => hcodes ▸ hleft.code_ne_nil c (hmsg.subset (List.mem_append_left _ hc))) (hcodes ▸ hsplit)
      (hcodes ▸ hne) (hcodes ▸ hrest)
    exact ⟨w, hrun, hwout, by rw [if_neg h0]; exact hend⟩

end Sys2Proof.Machine
end

section
/-! COMPRESS and DECOMPRESS over accesses that fault (spec/46_orchestrator.md R227 to R230; spec/60_exceptions.md R264,
R267). -/

namespace Sys2Proof.Machine

/-! ## COMPRESS -/

/-- The first pass of COMPRESS ends at the first byte that cannot be read. -/
theorem compressSetup_of_firstReadFault {s : State} {j : Nat} (hok : s.region.codecOk = true) (h : FirstReadFault s j) :
    compressSetup s = raiseIo .srcReadFault (s.region.srcAddr j)
      { s with outLen := 0, ft := tableOfMsg (srcPart s j) } := by
  obtain ⟨hj, hf, hclean⟩ := h
  rcases compressSetup_spec hok with ⟨hr, -⟩ | ⟨k, hk, hfk, hno, hsetup⟩
  · rw [hr j hj] at hf
    cases hf
  · obtain rfl : k = j := by
      rcases Nat.lt_trichotomy k j with hlt | heq | hlt
      · rw [hclean k hlt] at hfk
        cases hfk
      · exact heq
      · rw [hno j hlt] at hf
        cases hf
    exact hsetup

theorem compress_readFault {s : State} {j : Nat} (hok : s.region.codecOk = true) (h : FirstReadFault s j) :
    ∃ t, exec .compress s = .next t ∧ Ended .ioError .srcReadFault t ∧ t.errAddr = s.region.srcAddr j ∧
      t.outLen = 0 ∧ countsOf t.ft (srcPart s j) ∧ KeptExcept [.outLen, .ft, .errAddr] s t := by
  have he := exec_eq_finish .compress s
  rw [commandBody, compressSetup_of_firstReadFault hok h] at he
  have hlen : (srcPart s j).length < 2 ^ 32 := by
    rw [srcPart_length]
    exact h.1.trans s.region.srcLen.isLt
  exact ⟨_, he, ended_report _ _, rfl, rfl, countsOf_tableOfMsg hlen,
    HostSideKept.refl s, fun p hp => by cases p <;> simp_all [keeps, State.report, State.complete]⟩

/-- A fault of a byte of the container is where the writing ends. -/
theorem ContainerLeft.faulted_at {s t : State} {o : Nat} (h : ContainerLeft s t)
    (hcase : ContainerWhole s t ∨ ContainerCut s t ∨ ContainerFaulted s t) (hf : FirstWriteFault s o)
    (ho : o < containerLength t.codes (srcBytes s)) : ContainerFaulted s t ∧ t.bw.pos.toNat = o := by
  obtain ⟨hcap, hfo, hclean⟩ := hf
  have hle : t.bw.pos.toNat ≤ o := Nat.le_of_not_lt fun hlt => by
    rw [h.clean o hlt] at hfo
    cases hfo
  rcases hcase with ⟨-, -, hpos, -⟩ | ⟨-, hpos, -⟩ | hfaulted
  · omega
  · rw [hpos] at hle
    omega
  · obtain ⟨-, -, hft, -⟩ := id hfaulted
    refine ⟨hfaulted, Nat.le_antisymm hle (Nat.le_of_not_lt fun hlt => ?_)⟩
    rw [hclean _ hlt] at hft
    cases hft

theorem compress_stops {s : State} (hA : Accepted s) (hok : s.region.codecOk = true) : compressStops s := by
  refine ⟨fun j hj => compress_readFault hok hj, fun hr hw => ?_⟩
  obtain ⟨t, hleft, hcase⟩ := compress_completes hA hok hr hw
  refine ⟨t, hleft.run, hleft.counts, hleft.coded.treeOf, hleft.coded.codes, fun o hf ho => ?_⟩
  obtain ⟨⟨-, -, -, hend, herr, hout⟩, hpos⟩ := hleft.faulted_at hcase hf ho
  have hwritten := hleft.written
  have hmem := (memoryKept_compress hleft.run).upTo
  rw [hpos] at herr hwritten hmem
  exact ⟨hend, herr, hout, hpos, hwritten, exec_kept hleft.run, hmem⟩

/-! ## DECOMPRESS -/

/-- A write that faults at DST offset `n` leaves the bytes before it. -/
theorem dstPart_faultedAt (s : State) {n : Nat} (h : n < 2 ^ 32) :
    dstPart (s.faultedAt (s.region.dstAddr n)) n = dstPart s n :=
  List.map_congr_left fun _ ho =>
    dstByte_of_memoryKept rfl (memoryKept_write _ _ _ _ rfl) h (List.mem_range.1 ho)

/-- Where SRC cannot be read on inside a code, DECOMPRESS ends at that byte. -/
theorem AtPayload.decodes_readFault {s v : State} {j : Nat} {msg : List Byte} {rest : Bits} {b : Byte}
    (h : AtPayload s v) (hs : SoundHeader s) (hj : FirstReadFault s j) (hlt : msg.length < headerTotal s)
    (hroom : msg.length ≤ s.region.dstCap.toNat) (hd : DstWritableTo s msg.length)
    (hne : ∀ b ∈ msg, codeOf v.codes b ≠ [])
    (hp : (payloadBits s).take (8 * (j - 1028)) = codeBits v.codes msg ++ rest) (hcode : codeOf v.codes b ≠ rest)
    (hrest : rest <+: codeOf v.codes b) :
    ∃ t, exec .decompress s = .next t ∧ Ended .ioError .srcReadFault t ∧ t.errAddr = s.region.srcAddr j ∧
      t.outLen = 0 ∧ t.decoded.toNat = msg.length ∧ t.br.pos.toNat = j ∧ dstPart t msg.length = msg := by
  obtain ⟨hjlt, hf, hclean⟩ := hj
  have ⟨_, _, _, _, hheader, _⟩ := hs
  have hm : 1028 ≤ j := Nat.le_of_not_lt fun hlt => by
    rw [hheader j hlt] at hf
    cases hf
  obtain ⟨x, hrun, hst, hpos⟩ :=
    h.decodes_stop hs hm ⟨hjlt.le, hclean, fun _ => hf⟩ hlt hd hroom hne hp hcode hrest
  rw [readStop, if_pos hjlt] at hrun
  exact ⟨_, h.exec_of_raise hrun, ended_report _ _, rfl, hst.outLen, hst.decoded, hpos, hst.bytes⟩

/-- The bytes past the header that hold n bits. -/
theorem payload_fits {n m : Nat} (h : 1028 + bytesFor n ≤ m) : 1028 ≤ m ∧ n ≤ 8 * (m - 1028) := by
  unfold bytesFor at h
  omega

/-- A stream that begins with bits in bytes that can be read. -/
theorem prefix_take_of_readable {s : State} {m : Nat} {p : Bits} (hm : ReadsTo s m) (hp : p <+: payloadBits s)
    (hpos : p ≠ []) (hr : SrcReadableTo s (1028 + bytesFor p.length)) :
    1028 ≤ m ∧ p <+: (payloadBits s).take (8 * (m - 1028)) := by
  have hple := hp.length_le
  rw [payloadBits_length] at hple
  have hlen := List.length_pos_iff.2 hpos
  have hle : 1028 + bytesFor p.length ≤ m := Nat.le_of_not_lt fun hlt => by
    have hstop := hm.stop (by unfold bytesFor at hlt; omega)
    rw [hr m hlt] at hstop
    cases hstop
  obtain ⟨hm1, hfit⟩ := payload_fits hle
  exact ⟨hm1, List.prefix_take_iff.2 ⟨hp, hfit⟩⟩

/-- Where a symbol is decoded whose byte cannot be written, DECOMPRESS ends at that byte. -/
theorem AtPayload.decodes_writeFault {s v : State} {o : Nat} {msg : List Byte} (h : AtPayload s v) (hs : SoundHeader s)
    (hf : FirstWriteFault s o) (hlen : msg.length = o + 1) (hle : msg.length ≤ headerTotal s)
    (hne : ∀ b ∈ msg, codeOf v.codes b ≠ []) (hp : codeBits v.codes msg <+: payloadBits s)
    (hr : SrcReadableTo s (1028 + bytesFor (codeBits v.codes msg).length)) :
    ∃ t, exec .decompress s = .next t ∧ Ended .ioError .dstWriteFault t ∧ t.errAddr = s.region.dstAddr o ∧
      t.outLen = 0 ∧ t.decoded.toNat = o ∧ dstPart t o = msg.take o := by
  obtain ⟨hcap, hfo, hclean⟩ := hf
  obtain ⟨m, hm⟩ := exists_readsTo s
  have hmsg : msg ≠ [] := List.length_pos_iff.1 (by omega)
  obtain ⟨hm1, hp⟩ := prefix_take_of_readable hm hp (List.length_pos_iff.1 (codeBits_length_pos hne hmsg)) hr
  obtain ⟨n, hn⟩ : ∃ n, headerTotal s = o + (n + 1) := ⟨headerTotal s - o - 1, by omega⟩
  obtain ⟨w, x, hrun, hx, hdec, hbytes, hout, hplat⟩ := h.decodes_next hs hm1 hm (by omega) hclean hcap.le hne hp hn
  rw [List.length_take_of_le (by omega)] at hdec hbytes
  have hxroom : x.decoded.toNat < x.region.dstCap.toNat := by rw [hplat.1, hdec]; exact hcap
  have hxfault : dstFaults x x.decoded.toNat = true := by rw [hplat.dstFaults, hdec]; exact hfo
  rw [decodeFrom_writeFault hx hxroom hxfault, hdec] at hrun
  refine ⟨_, h.exec_of_raise hrun, ended_report _ _, by rw [← hplat.1]; rfl, hout, hdec, ?_⟩
  have ho : o < 2 ^ 32 := hcap.trans s.region.dstCap.isLt
  exact (dstPart_faultedAt x ho).trans hbytes

theorem decompress_stops {s : State} (hs : SoundHeader s) : decompressStops s := by
  obtain ⟨v, hv⟩ := exists_atPayload hs
  obtain ⟨t, he, hby, hcodes⟩ := hv.completes
  refine ⟨t, he, hby, fun j msg rest hj hlt hroom hd hne hp hrest => ?_, fun o msg hf hlen hle hne hp hr => ?_⟩
  · rw [hcodes] at hne hp hrest
    obtain ⟨b, hcode, hprefix⟩ := hrest
    obtain ⟨t', he', hend, herr, hout, hdec, hpos, hbytes⟩ :=
      hv.decodes_readFault hs hj hlt hroom hd hne hp hcode hprefix
    obtain rfl := Host.Outcome.next.inj (he'.symm.trans he)
    have hmem := (memoryKept_decompress he).below (by rw [hend.detail]; decide)
    rw [hdec] at hmem
    exact ⟨hend, herr, hout, hdec, hpos, hbytes, hmem⟩
  · rw [hcodes] at hne hp hr
    obtain ⟨t', he', hend, herr, hout, hdec, hbytes⟩ := hv.decodes_writeFault hs hf hlen hle hne hp hr
    obtain rfl := Host.Outcome.next.inj (he'.symm.trans he)
    have hmem := (memoryKept_decompress he).upTo
    rw [hdec] at hmem
    exact ⟨hend, herr, hout, hdec, hbytes, hmem⟩

/-- Settles O60: COMPRESS ends in its first pass or on a byte of the container, DECOMPRESS in the walk for a symbol
or on the byte of one. -/
theorem codecStopsAtTheFirstFault : Obligations.CodecStopsAtTheFirstFault :=
  ⟨fun _ hA hok => compress_stops hA hok, fun _ hs => decompress_stops hs⟩

end Sys2Proof.Machine
end

section
/-! The host's write of CMD (spec/60_exceptions.md R270, R272): acceptance while idle, OVERRUN while busy. -/

namespace Sys2Proof.Machine

/-- When the core does not move, the step is the host's. -/
theorem step_of_host {s : State} (h : coreMoves s = false) : step s = hostStep s := if_neg (by simp [h])

theorem coreMoves_idle {s : State} (h : s.status.busy = false) : coreMoves s = false := by simp [coreMoves, h]

/-- The host makes its oldest access, with one free value counted. -/
theorem hostStep_cons {s : State} {a : HostAction} {rest : List HostAction} (h : s.inbox = a :: rest) :
    hostStep s = hostAct a { s with inbox := rest, draws := s.draws + 1 } := by
  unfold hostStep
  rw [h]

/-- A 32-bit write of CMD while idle is the acceptance of the word (R270). -/
theorem hostAct_writeCmd_idle {s : State} (h : s.status.busy = false) (w : Word) :
    hostAct (.writeReg 0x0004#15 4 w) s = .next { s.accept w with resp := .none } := by
  rw [hostAct_writeReg (by decide), writeWord_idle h]
  rfl

/-- Settles O7: while busy CMD is the one register with its own branch, which sets OVERRUN. -/
theorem cmdWriteWhileBusySetsOverrun : Obligations.CmdWriteWhileBusySetsOverrun := by
  intro s w h
  rw [hostAct_writeReg (by decide), writeWord_busy h]
  rfl

/-- The state that acceptance of `w` leaves when the host's write of CMD was its oldest access. -/
def acceptedByHost (w : Word) (rest : List HostAction) (s : State) : State :=
  { State.accept w { s with inbox := rest, draws := s.draws + 1 } with resp := .none }

theorem step_writeCmd_idle {s : State} {w : Word} {rest : List HostAction} (h : s.status.busy = false)
    (hin : s.inbox = .writeReg 0x0004#15 4 w :: rest) : step s = .next (acceptedByHost w rest s) := by
  rw [step_of_host (coreMoves_idle h), hostStep_cons hin]
  exact hostAct_writeCmd_idle (s := { s with inbox := rest, draws := s.draws + 1 }) h w

/-- Acceptance writes no part but RESULT and ERR_ADDR. -/
theorem acceptedByHost_keeps (w : Word) (rest : List HostAction) (s : State) {p : Part} (hr : p ≠ .result)
    (he : p ≠ .errAddr) : keeps p s (acceptedByHost w rest s) := by
  cases p with
  | result => exact absurd rfl hr
  | errAddr => exact absurd rfl he
  | mem => exact fun _ => rfl
  | _ => rfl

/-- Settles O8: the host's write is the acceptance of the word, and its wait lets the core take the next step. -/
theorem hostRunsACommand : Obligations.HostRunsACommand := by
  intro s w i rest hidle hin hdec
  have hmoves : coreMoves (acceptedByHost w (.wait :: rest) s) = true := rfl
  exact ⟨_, step_writeCmd_idle hidle hin, accepted_accept w s, rfl, rfl, rfl, rfl, rfl, rfl,
    fun _ => acceptedByHost_keeps w _ s, step_of_decode hmoves hdec⟩

end Sys2Proof.Machine
end

section
/-! Progress (spec/60_exceptions.md R271; spec/70_reset_and_hazards.md R301): from a state that meets the invariant every
command completes, and only a host access that breaks the duty of R77 is refused. -/

namespace Sys2Proof.Machine

/-! ## Every command completes -/

/-- A command whose piece does not stop the model completes. -/
theorem exec_of_no_fault {i : Instr} {s : State} (h : ∀ w, commandBody i s ≠ .fault w) :
    ∃ t, exec i s = .next t := by
  rw [exec_eq_finish]
  cases hb : commandBody i s with
  | ok _ u => exact ⟨_, rfl⟩
  | raise e u => exact ⟨_, rfl⟩
  | fault w => exact absurd hb (h w)

/-- The codec aside, only CODE_GEN walks the tree, and on a tree of R141 its walk ends (R160). -/
theorem commandBody_no_fault {i : Instr} {s : State} (ht : TreeInv s.tree) (hc : i ≠ .compress) (hd : i ≠ .decompress)
    (w : Fault) : commandBody i s ≠ .fault w := by
  have raised : ∀ code, (raiseCode code s : Res Unit) ≠ .fault w := fun _ => nofun
  cases i with
  | nop | ftClear | pqClear | bwReset | brReset => exact nofun
  | ftCount b =>
    simp only [commandBody]
    split
    · exact raised _
    · exact nofun
  | ftScan =>
    simp only [commandBody]
    split
    · exact scanFrom_no_fault _ _ _ w
    · exact raised _
  | pqInsert n =>
    simp only [commandBody]
    split
    · exact raised _
    · split
      · exact raised _
      · split
        · exact nofun
        · exact raised _
  | pqExtract =>
    simp only [commandBody]
    split
    · exact nofun
    · exact raised _
  | treeBuild => exact treeBody_no_fault s w
  | codeGen =>
    obtain ⟨codes, -, -, hbody⟩ := codeGenBody_spec ht
    rw [commandBody, hbody]
    exact nofun
  | bwPut b =>
    simp only [commandBody]
    split
    · exact putBit_no_fault b s w
    · exact raised _
  | bwPutCode sym =>
    simp only [commandBody]
    split
    · split
      · exact raised _
      · exact putBits_no_fault _ s w
    · exact raised _
  | bwFlush =>
    simp only [commandBody]
    split
    · exact flushBody_no_fault s w
    · exact raised _
  | brGet =>
    simp only [commandBody]
    split
    · rw [Ne, Res.bind_eq_fault]
      rintro (h | ⟨bit, u, -, h⟩)
      · exact getBit_no_fault s w h
      · cases bit <;> cases h
    · exact raised _
  | compress => exact absurd rfl hc
  | decompress => exact absurd rfl hd

/-- COMPRESS completes: it builds the tree it walks. -/
theorem exec_compress_completes {s : State} (hA : Accepted s) (hw : Mem.wf s.mem) : ∃ t, exec .compress s = .next t := by
  cases hok : s.region.codecOk with
  | false => exact ⟨_, by rw [exec_eq_finish, commandBody, compressSetup_bad hok]; rfl⟩
  | true =>
    rcases compressSetup_spec hok with ⟨hr, -⟩ | ⟨j, hj, hf, hfirst, -⟩
    · obtain ⟨t, hleft, -⟩ := compress_completes hA hok hr hw
      exact ⟨t, hleft.run⟩
    · obtain ⟨t, ht, -⟩ := compress_readFault hok ⟨hj, hf, hfirst⟩
      exact ⟨t, ht⟩

/-- Over a header that can be read, DECOMPRESS completes: a header check fails, or the payload is decoded by the
header's own tree. -/
theorem exec_decompress_of_readable {s : State} (hA : Accepted s) (hw : Mem.wf s.mem) (hok : s.region.codecOk = true)
    (hlen : 1028 ≤ s.region.srcLen.toNat) (hr : SrcReadableTo s 1028) : ∃ t, exec .decompress s = .next t := by
  obtain ⟨-, -, hempty, hmismatch, hzero⟩ := decompressChecksTheHeader s hA hok
  by_cases hsum : headerSum s = headerTotal s
  · by_cases htotal : headerTotal s = 0
    · obtain ⟨t, ht, -⟩ := hzero hlen hr (hsum.trans htotal) htotal
      exact ⟨t, ht⟩
    · obtain ⟨v, hv⟩ := exists_atPayload ⟨hA, hok, hw, hlen, hr, hsum, htotal⟩
      obtain ⟨t, ht, -⟩ := hv.completes
      exact ⟨t, ht⟩
  · by_cases hcounts : headerSum s = 0
    · obtain ⟨t, ht, -⟩ := hempty hlen hr hcounts fun h => hsum (hcounts.trans h.symm)
      exact ⟨t, ht⟩
    · obtain ⟨t, ht, -⟩ := hmismatch hlen hr hcounts hsum
      exact ⟨t, ht⟩

theorem exec_decompress_completes {s : State} (hA : Accepted s) (hw : Mem.wf s.mem) :
    ∃ t, exec .decompress s = .next t := by
  cases hok : s.region.codecOk with
  | false => exact ⟨_, by rw [exec_eq_finish, commandBody, decompressSetup_bad hok]; rfl⟩
  | true =>
    by_cases hlen : 1028 ≤ s.region.srcLen.toNat
    · obtain ⟨m, hm⟩ := exists_readsTo s
      by_cases hread : 1028 ≤ m
      · exact exec_decompress_of_readable hA hw hok hlen fun j hj => hm.clean j (hj.trans_le hread)
      · have hlt : m < 1028 := Nat.lt_of_not_le hread
        exact ⟨_, exec_decompress_of_setup_raise
          (decompressSetup_fault hok hlen hlt (hm.stop (hlt.trans_le hlen)) hm.clean)⟩
    · exact ⟨_, exec_decompress_of_setup_raise (decompressSetup_short hok (Nat.lt_of_not_le hlen))⟩

/-- Every accepted command completes in a state that meets the invariant. -/
theorem exec_of_inv (i : Instr) {s : State} (h : Inv s) (hA : Accepted s) : ∃ t, exec i s = .next t := by
  by_cases hc : i = .compress
  · exact hc ▸ exec_compress_completes hA h.memory
  by_cases hd : i = .decompress
  · exact hd ▸ exec_decompress_completes hA h.memory
  exact exec_of_no_fault (commandBody_no_fault h.tree hc hd)

/-! ## Every step answers -/

theorem coreMoves_busy {s : State} (h : coreMoves s = true) : s.status.busy = true := (Bool.and_eq_true_iff.1 h).1

/-- The core's step: the command's completion, or that of an illegal word. -/
theorem coreStep_of_inv {s : State} (h : Inv s) (hA : Accepted s) : ∃ t, coreStep s = .next t := by
  cases hdec : decode s.cmdWord with
  | command i =>
    rw [coreStep_of_command hdec]
    exact exec_of_inv i h hA
  | illegal why =>
    obtain ⟨t, ht, -⟩ := execIllegal_completes s
    exact ⟨t, (coreStep_of_illegal hdec).trans ht⟩

/-- The host's move answers a next state, or it is refused by the duty, which holds while a command runs. -/
def MadeOrRefused (s : State) (r : Host.Outcome State Fault Refusal) : Prop :=
  (∃ t, r = .next t) ∨ (r = .refused .hostDuty ∧ s.status.busy = true)

theorem madeOrRefused_next (s t : State) : MadeOrRefused s (.next t) := .inl ⟨t, rfl⟩

theorem madeOrRefused_duty (s t : State) (touchesSrc : Bool) (addr : Word) :
    MadeOrRefused s (if dutyForbids s touchesSrc addr then .refused .hostDuty else .next t) := by
  split
  · rename_i hf
    exact .inr ⟨rfl, ((dutyForbids_iff s touchesSrc addr).1 hf).1⟩
  · exact madeOrRefused_next s t

/-- Of the host's accesses the three that R77 names can be refused. -/
theorem hostAct_madeOrRefused (a : HostAction) (s : State) : MadeOrRefused s (hostAct a s) := by
  cases a with
  | readReg off bytes =>
    simp only [hostAct]
    split <;> exact madeOrRefused_next s _
  | writeReg off bytes v =>
    simp only [hostAct]
    split <;> exact madeOrRefused_next s _
  | readMem addr => exact madeOrRefused_duty s _ _ _
  | writeMem addr v => exact madeOrRefused_duty s _ _ _
  | setBusFault kind addr on => exact madeOrRefused_duty s _ _ _
  | wait => exact madeOrRefused_next s _
  | rst => exact madeOrRefused_next s _

theorem hostStep_madeOrRefused (s : State) : MadeOrRefused s (hostStep s) := by
  unfold hostStep
  split
  · exact madeOrRefused_next s s
  · exact hostAct_madeOrRefused _ { s with inbox := _, draws := _ }

/-- Settles O59: the core moves only with an accepted command, which completes; the host's access is made or breaks
the duty. -/
theorem noStepFromTheInvariantStops : Obligations.NoStepFromTheInvariantStops := by
  intro s h
  cases hm : coreMoves s with
  | true =>
    have hA : Accepted s := h.running (coreMoves_busy hm)
    rw [step_of_coreMoves hm]
    exact .inl (coreStep_of_inv (s := s.tick) ⟨h.memory, h.tree, h.queue, h.writer, h.reader, h.codes, h.running⟩
      (accepted_tick hA))
  | false =>
    rw [step_of_host hm]
    exact (hostStep_madeOrRefused s).imp_right fun ⟨hrefused, hbusy⟩ => ⟨hrefused, hbusy, rfl⟩

end Sys2Proof.Machine
end

section
/-! How a command ends (spec/60_exceptions.md R261 to R264, R271): the raises that stop it, and the CODE, DETAIL and
ERR_ADDR each of them leaves. -/

namespace Sys2Proof.Machine

/-- Settles O9: completion sets the three bits, and OVERRUN is on the host's side, which no command writes. -/
theorem completionWritesBusyDonePend : Obligations.CompletionWritesBusyDonePend := by
  intro i s t h
  obtain ⟨hbusy, hdone, hpend⟩ := exec_completes h
  obtain ⟨⟨-, -, hoverrun, -⟩, -⟩ := exec_kept h
  exact ⟨hbusy, hdone, by rw [← hpend, ← hoverrun]⟩

/-! ## The offset of a writing command -/

/-- A piece that writes DST moves its offset within DST_CAP or not at all. -/
theorem Traced.room {α : Type} {pos : State → Nat} {s : State} {r : Res α} (h : Traced pos s r) :
    r.Ends fun t => pos t = pos s ∨ pos t ≤ s.region.dstCap.toNat := by
  cases r with
  | ok a t => exact Trace.room h
  | fault w => exact trivial
  | raise e t =>
    rcases h with h | ⟨-, m, hm, hlt, hpos, -⟩
    · exact h.room
    · rw [hm.region] at hlt
      exact .inr (hpos ▸ hlt.le)

/-- A piece that starts at DST offset 0 never passes DST_CAP. -/
theorem Traced.le_dstCap {α : Type} {pos : State → Nat} {s : State} {r : Res α} (h : Traced pos s r) (h0 : pos s = 0) :
    r.Ends fun t => pos t ≤ s.region.dstCap.toNat :=
  Res.ends_mono h.room fun t ht => by omega

theorem compressWrite_le_dstCap (s : State) : (compressWrite s).Ends fun t => bwPos t ≤ s.region.dstCap.toNat :=
  (compressWrite_traced s).le_dstCap rfl

theorem decompressDecode_le_dstCap {s : State} (h : s.decoded = 0) :
    (decompressDecode s).Ends fun t => decPos t ≤ s.region.dstCap.toNat :=
  (decompressDecode_traced s).le_dstCap (by rw [decPos, h]; rfl)

/-! ## What stops a command -/

/-- A stop without an address: a CODE that R263 lists for the command, with a DETAIL that R261 lists for it. -/
def ListedStop (i : Instr) (e : Raise) (t : State) : Prop :=
  ∃ code detail, code ≠ .ioError ∧ code ∈ possibleCodes i ∧ detail ∈ possibleDetails code ∧ codeStop code detail e t

/-- A stop on a write: at the DST offset the command has reached, which the codec never moves past DST_CAP. -/
def WriteStop (i : Instr) (s : State) (e : Raise) (t : State) : Prop :=
  dstStop (nextDstOffset i) s e t ∧
    (i = .compress ∨ i = .decompress → nextDstOffset i t ≤ s.region.dstCap.toNat)

/-- Every way a command can be stopped: a read or a write of a command that may end with IO_ERROR, or a listed CODE. -/
def CommandStop (i : Instr) (s : State) (e : Raise) (t : State) : Prop :=
  (.ioError ∈ possibleCodes i ∧ (srcStop s e t ∨ WriteStop i s e t)) ∨ ListedStop i e t

theorem srcStop.stops {i : Instr} {s t : State} {e : Raise} (h : srcStop s e t)
    (hi : .ioError ∈ possibleCodes i := by simp [possibleCodes]) : CommandStop i s e t := .inl ⟨hi, .inl h⟩

theorem WriteStop.stops {i : Instr} {s t : State} {e : Raise} (h : WriteStop i s e t)
    (hi : .ioError ∈ possibleCodes i := by simp [possibleCodes]) : CommandStop i s e t := .inl ⟨hi, .inr h⟩

theorem codeStop.stops {i : Instr} {code : StatusCode} {detail : Detail} {s t : State} {e : Raise}
    (h : codeStop code detail e t)
    (hi : code ≠ .ioError ∧ code ∈ possibleCodes i ∧ detail ∈ possibleDetails code := by
      simp [possibleCodes, possibleDetails]) : CommandStop i s e t :=
  .inr ⟨code, detail, hi.1, hi.2.1, hi.2.2, h⟩

/-- A refusal of the command with one of its codes. -/
theorem raiseCode_stops {i : Instr} {code : StatusCode} (s u : State)
    (hi : code ≠ .ioError ∧ code ∈ possibleCodes i ∧ .none ∈ possibleDetails code := by
      simp [possibleCodes, possibleDetails]) : (raiseCode code u : Res Unit).Raises (CommandStop i s) :=
  Res.raises_raise (codeStop.stops rfl hi)

theorem nextDstOffset_eq_bwPos {i : Instr} (h : i ≠ .decompress) : nextDstOffset i = bwPos := by
  cases i with
  | decompress => exact absurd rfl h
  | _ => rfl

/-- The writer's commands take BW_POS as they find it. -/
theorem dstStop.stops {i : Instr} {s t : State} {e : Raise} (h : dstStop bwPos s e t)
    (hi : .ioError ∈ possibleCodes i := by simp [possibleCodes]) (hc : i ≠ .compress := by simp)
    (hd : i ≠ .decompress := by simp) : CommandStop i s e t :=
  WriteStop.stops ⟨by rwa [nextDstOffset_eq_bwPos hd], fun h => (h.elim hc hd).elim⟩ hi

theorem Res.raises_and_ends {α : Type} {r : Res α} {P : Raise → State → Prop} {Q : State → Prop} (h : r.Raises P)
    (he : r.Ends Q) : r.Raises fun e t => P e t ∧ Q t := fun e t hr => ⟨h e t hr, he.of_raise hr⟩

theorem compress_raises (s : State) : (commandBody .compress s).Raises (CommandStop .compress s) := by
  cases hok : s.region.codecOk with
  | false =>
    rw [commandBody, compressSetup_bad hok]
    exact raiseCode_stops s _
  | true =>
    refine Res.raises_bind (Res.raises_mono (compressSetup_raises hok) fun _ _ he => he.stops) (compressSetup_ends s)
      fun _ t ht => ?_
    have hp : SamePlatform s t := ht.platform
    refine Res.raises_mono (Res.raises_and_ends (compressWrite_raises t) (compressWrite_le_dstCap t)) ?_
    rw [hp.src, hp.dst, hp.1]
    rintro e u ⟨he | he | he, hcap⟩
    · exact he.stops
    · exact WriteStop.stops ⟨he, fun _ => hcap⟩
    · exact codeStop.stops he

theorem decompress_raises (s : State) : (commandBody .decompress s).Raises (CommandStop .decompress s) := by
  cases hok : s.region.codecOk with
  | false =>
    rw [commandBody, decompressSetup_bad hok]
    exact raiseCode_stops s _
  | true =>
    refine Res.raises_bind (Res.raises_mono (decompressSetup_raises hok) fun e u he => ?_) (decompressSetup_ends s)
      fun _ t ht => ?_
    · obtain he | he | he | he := he
      · exact he.stops
      all_goals exact he.stops
    · have hp : SamePlatform s t := ht.platform
      have hdecoded : t.decoded = 0 := by rw [ht]
      refine Res.raises_mono (Res.raises_and_ends (decompressDecode_raises t) (decompressDecode_le_dstCap hdecoded)) ?_
      rw [hp.src, hp.dst, hp.1]
      rintro e u ⟨he | he | he, hcap⟩
      · exact he.stops
      · exact WriteStop.stops ⟨he, fun _ => hcap⟩
      · exact codeStop.stops he

/-- Every raise of a command's piece is one of its stops. -/
theorem commandBody_raises (i : Instr) (s : State) : (commandBody i s).Raises (CommandStop i s) := by
  cases i with
  | nop | ftClear | pqClear | bwReset | brReset => exact Res.raises_ok _ _ _
  | ftCount b =>
    simp only [commandBody]
    split
    · exact raiseCode_stops s s
    · exact Res.raises_ok _ _ _
  | ftScan =>
    simp only [commandBody]
    split
    · exact Res.raises_mono (scanBody_raises s) fun _ _ he => he.stops
    · exact raiseCode_stops s s
  | pqInsert n =>
    simp only [commandBody]
    split
    · exact raiseCode_stops s s
    · split
      · exact raiseCode_stops s s
      · split
        · exact Res.raises_ok _ _ _
        · exact raiseCode_stops s s
  | pqExtract =>
    simp only [commandBody]
    split
    · exact Res.raises_ok _ _ _
    · exact raiseCode_stops s s
  | treeBuild => exact Res.raises_mono (treeBody_raises s) fun _ _ he => he.stops
  | codeGen => exact codeGenBody_raises s _
  | bwPut b =>
    simp only [commandBody]
    split
    · exact Res.raises_mono (putBit_raises b s) fun _ _ he => he.stops
    · exact raiseCode_stops s s
  | bwPutCode sym =>
    simp only [commandBody]
    split
    · split
      · exact raiseCode_stops s s
      · exact Res.raises_mono (putBits_raises _ s) fun _ _ he => he.stops
    · exact raiseCode_stops s s
  | bwFlush =>
    simp only [commandBody]
    split
    · exact Res.raises_mono (flushBody_raises s) fun _ _ he => he.stops
    · exact raiseCode_stops s s
  | brGet =>
    simp only [commandBody]
    split
    · refine Res.raises_bind (Res.raises_mono (getBit_raises s) fun _ _ he => he.stops) (getBit_ends s)
        fun bit t _ => ?_
      cases bit with
      | none => exact raiseCode_stops s t
      | some b => exact Res.raises_ok _ _ _
    · exact raiseCode_stops s s
  | compress => exact compress_raises s
  | decompress => exact decompress_raises s

/-- An accepted command that completes ends with OK, or with the report of one of its stops; nothing but the report
writes ERR_ADDR. -/
theorem exec_ok_or_stopped {i : Instr} {s t : State} (hA : Accepted s) (he : exec i s = .next t) :
    (Ended .ok .none t ∧ t.errAddr = 0) ∨
      ∃ e u, CommandStop i s e u ∧ u.errAddr = 0 ∧ t = (u.report e).complete := by
  obtain ⟨hstatus, -, herr⟩ := hA
  rw [exec_eq_finish] at he
  rcases finish_eq_next he with ⟨u, hu, rfl⟩ | ⟨e, u, hu, rfl⟩
  · have hkept : BodyKept (bodyParts i) s u := Res.Ends.of_ok (commandBody_ends i s) hu
    exact .inl ⟨ended_complete (hkept.status.trans hstatus), hkept.errAddr.trans herr⟩
  · have hkept : BodyKept (bodyParts i) s u := Res.Ends.of_raise (commandBody_ends i s) hu
    exact .inr ⟨e, u, commandBody_raises i s e u hu, hkept.errAddr.trans herr, rfl⟩

/-! ## CODE and DETAIL -/

theorem ok_mem_possibleCodes (i : Instr) : .ok ∈ possibleCodes i := by cases i <;> simp [possibleCodes]

/-- A stop has a CODE listed for its command and a DETAIL listed for that CODE. -/
theorem CommandStop.listed {i : Instr} {s t : State} {e : Raise} (h : CommandStop i s e t) :
    e.code ∈ possibleCodes i ∧ e.detail ∈ possibleDetails e.code := by
  rcases h with ⟨hi, ⟨j, -, -, rfl⟩ | ⟨⟨-, -, rfl⟩ | ⟨-, rfl⟩, -⟩⟩ | ⟨code, detail, -, hcode, hdetail, rfl⟩
  · exact ⟨hi, by simp [possibleDetails]⟩
  · exact ⟨hi, by simp [possibleDetails]⟩
  · exact ⟨hi, by simp [possibleDetails]⟩
  · exact ⟨hcode, hdetail⟩

/-- Settles O10: a command ends with OK or as one of its stops reports, and an illegal word by its one raise. -/
theorem possibleStatusCodes : Obligations.PossibleStatusCodes := by
  refine ⟨fun i s t hA he => ?_, fun s t _ he => ?_⟩
  · rcases exec_ok_or_stopped hA he with ⟨hend, -⟩ | ⟨e, u, hstop, -, rfl⟩
    · rw [hend.code, hend.detail]
      exact ⟨ok_mem_possibleCodes i, by simp [possibleDetails]⟩
    · exact hstop.listed
  · obtain ⟨u, hu, hend, -⟩ := execIllegal_completes s
    obtain rfl := Host.Outcome.next.inj (hu.symm.trans he)
    exact hend.code

/-! ## ERR_ADDR -/

theorem nextDstOffset_completed (i : Instr) (e : Raise) (s : State) :
    nextDstOffset i (s.report e).complete = nextDstOffset i s := by
  cases i <;> rfl

/-- The effective address of a DST offset, modulo 2^32 (R264). -/
theorem toNat_dstAddr_mod (r : Region) (o : Nat) : (r.dstAddr o).toNat = (r.dstBase.toNat + o) % 2 ^ 32 := by
  rw [Region.dstAddr, BitVec.toNat_add, BitVec.toNat_ofNat, Nat.add_mod_mod]

/-- Settles O11: OK and the listed codes leave the 0 of acceptance; of the three accesses that stop a command each
has its own DETAIL and address. -/
theorem errAddrNamesTheAccess : Obligations.ErrAddrNamesTheAccess := by
  intro i s t hA he
  rcases exec_ok_or_stopped hA he with ⟨hend, herr⟩ | ⟨e, u, hstop, herr, rfl⟩
  · have hne : t.status.code ≠ .ioError := by rw [hend.code]; exact StatusCode.noConfusion
    exact ⟨fun _ => herr, fun h => absurd h hne, fun h => absurd h hne, fun h => absurd h hne⟩
  · rw [nextDstOffset_completed]
    rcases hstop with ⟨-, ⟨j, hj, hf, rfl⟩ | ⟨⟨hin, hf, rfl⟩ | ⟨hfull, rfl⟩, hcap⟩⟩ | ⟨code, detail, hne, -, -, rfl⟩
    · exact ⟨fun h => absurd rfl h, fun _ _ => ⟨j, hj, hf, rfl⟩, fun _ => Detail.noConfusion, fun _ => Detail.noConfusion⟩
    · exact ⟨fun h => absurd rfl h, fun _ => Detail.noConfusion, fun _ _ => ⟨hin, hf, rfl⟩, fun _ => Detail.noConfusion⟩
    · exact ⟨fun h => absurd rfl h, fun _ => Detail.noConfusion, fun _ => Detail.noConfusion,
        fun _ _ => ⟨hfull, toNat_dstAddr_mod _ _, fun hi => (hcap hi).antisymm hfull⟩⟩
    · exact ⟨fun _ => herr, fun h => absurd h hne, fun h => absurd h hne, fun h => absurd h hne⟩

end Sys2Proof.Machine
end

section
/-! The reset event (spec/70_reset_and_hazards.md R290 to R293): the block at its reset values, and what a command that
it aborts leaves in DST. -/

namespace Sys2Proof.Machine

/-! ## The bytes an aborted command leaves -/

/-- The addresses of the DST region's bytes. -/
def dstAddrs (r : Region) (a : Nat) : Prop := ∃ o, o < r.dstCap.toNat ∧ a = (r.dstAddr o).toNat

/-- A command that completes changes no byte outside DST. -/
theorem exec_keptOutsideDst {i : Instr} {s t : State} (h : exec i s = .next t) :
    MemoryKeptBut (dstAddrs s.region) s t :=
  (memoryWrittenOnlyInDst i s t h).mono fun _ ⟨o, _, ho, ha⟩ => ⟨o, ho, ha⟩

theorem Traced.checked {pos : State → Nat} {s : State} {r : Res Unit} (c : Bool) (code : StatusCode)
    (h : Traced pos s r) : Traced pos s (if c then r else raiseCode code s) := by
  split
  · exact h
  · exact .inl (Trace.refl pos s)

/-- The writes of a command of the writer lie below DST_CAP. -/
theorem writer_span {i : Instr} {s t : State} (h : Traced bwPos s (commandBody i s)) (he : exec i s = .next t) {k : Nat}
    (hk : k < t.bw.pos.toNat - s.bw.pos.toNat) : s.bw.pos.toNat + k < s.region.dstCap.toNat := by
  obtain ⟨u, hu, ht, -⟩ := exec_rest he h.room
  have hpos : t.bw.pos.toNat = bwPos u := by rw [ht]; rfl
  have hs : bwPos s = s.bw.pos.toNat := rfl
  omega

theorem compress_span {s t u : State} (hu : compressSetup s = .ok () u) (he : exec .compress s = .next t) :
    t.bw.pos.toNat ≤ s.region.dstCap.toNat := by
  have hregion : u.region = s.region := (Res.Ends.of_ok (compressSetup_ends s) hu).platform.1
  rw [exec_eq_finish, commandBody, hu] at he
  obtain ⟨v, hv, ht, -⟩ := finish_rest he (compressWrite_le_dstCap u)
  rw [ht, ← hregion]
  exact hv

theorem decompress_span {s t : State} (he : exec .decompress s = .next t) :
    t.decoded.toNat ≤ s.region.dstCap.toNat := by
  have hends : (commandBody .decompress s).Ends fun u => decPos u ≤ s.region.dstCap.toNat := by
    refine Res.ends_bind (P := DecompressSetupOnly s) (decompressSetup_ends s) (fun _ u hu => ?_) fun u hu => ?_
    · rw [← hu.platform.1]
      exact decompressDecode_le_dstCap (by rw [hu])
    · rw [hu]
      exact Nat.zero_le _
  obtain ⟨u, hu, ht, -⟩ := exec_rest he hends
  rw [ht]
  exact hu

/-- Every write of DST that a command has made lies below DST_CAP. -/
theorem dstWrites_below_dstCap {i : Instr} {s t : State} (he : exec i s = .next t) {k : Nat}
    (hk : k < (dstWrites i s t).2) : (dstWrites i s t).1 + k < s.region.dstCap.toNat := by
  cases i with
  | bwPut b => exact writer_span ((putBit_traced b s).checked _ _) he hk
  | bwPutCode sym =>
    refine writer_span (Traced.checked _ _ ?_) he hk
    split
    · exact .inl (Trace.refl bwPos s)
    · exact putBits_traced _ s
  | bwFlush => exact writer_span ((flushBody_traced s).checked _ _) he hk
  | compress =>
    simp only [dstWrites] at hk ⊢
    split at hk
    · rename_i u hu
      have hcap := compress_span hu he
      dsimp only at hk ⊢
      omega
    · cases hk
  | decompress =>
    have hcap := decompress_span he
    simp only [dstWrites] at hk ⊢
    omega
  | nop | ftClear | ftCount | ftScan | pqClear | pqInsert | pqExtract | treeBuild | codeGen | bwReset | brReset
  | brGet => cases hk

/-- Bytes copied at DST offsets change nothing outside DST. -/
theorem copyDst_read_outsideDst {r : Region} {n first a : Nat} (new m : List Host.Cell)
    (h : ∀ k, k < n → dstAddrs r (r.dstAddr (first + k)).toNat) (ha : ¬ dstAddrs r a) :
    Mem.read (copyDst r new n first m) a = Mem.read m a := by
  refine (copyDst_kept r new n first m (dstAddrs r) fun o hlo hhi => ?_).1 a ha
  obtain ⟨k, rfl⟩ := Nat.exists_eq_add_of_le hlo
  exact h k (by omega)

/-- An aborted command, and the byte its abort interrupted, change nothing outside DST (R293). -/
theorem abortedMem_read_outsideDst (i : Instr) (s : State) {a : Nat} (ha : ¬ dstAddrs s.region a) :
    Mem.read (abortedMem i s) a = Mem.read s.mem a := by
  unfold abortedMem
  split
  next t he =>
    dsimp only
    split
    · exact exec_keptOutsideDst he a ha
    · rename_i hk
      have hspan : ∀ k, k < (dstWrites i s t).2 → dstAddrs s.region (s.region.dstAddr ((dstWrites i s t).1 + k)).toNat :=
        fun k hlt => ⟨_, dstWrites_below_dstCap he hlt, rfl⟩
      have hcopy := copyDst_read_outsideDst t.mem s.mem (fun k hlt => hspan k (hlt.trans (Nat.lt_of_not_le hk))) ha
      split
      · have hne : a ≠ (s.region.dstAddr ((dstWrites i s t).1 + Config.freeProgress s.draws)).toNat := fun h =>
          ha (by rw [h]; exact hspan _ (Nat.lt_of_not_le hk))
        rw [Mem.read_write_other _ _ _ _ hne]
        exact hcopy
      · exact hcopy
  · rfl
  · rfl

/-! ## The state after the event -/

/-- Whatever an `rst` leaves of buffer memory, the rest of the state is the reset block's (R292). -/
theorem resetEvent_eq (s : State) : resetEvent s = resetBlock (resetEvent s).mem s := by
  unfold resetEvent
  split
  · split <;> rfl
  · rfl

theorem resetEvent_idle {s : State} (h : s.status.busy = false) : resetEvent s = resetBlock s.mem s :=
  if_neg (by simp [h])

theorem resetEvent_keptOutsideDst (s : State) : MemoryKeptBut (dstAddrs s.region) s (resetEvent s) := by
  intro a ha
  obtain hm | ⟨i, hm⟩ := resetEvent_mem s <;> rw [hm]
  exact abortedMem_read_outsideDst i s ha

/-- The reset block has every part at its reset value but the node store and buffer memory. -/
theorem resetBlock_keeps (mem : List Host.Cell) (s : State) {p : Part} (hm : p ≠ .mem) (ht : p ≠ .tree) :
    keeps p State.reset (resetBlock mem s) := by
  cases p with
  | mem => exact absurd rfl hm
  | tree => exact absurd rfl ht
  | _ => rfl

/-- Settles O24: the event leaves the reset block, over the memory of an idle block or of an aborted command. -/
theorem resetEventRestoresTheBlock : Obligations.ResetEventRestoresTheBlock := by
  intro s
  have hidle : s.status.busy = false → keeps .mem s (resetEvent s) := fun h a => by rw [resetEvent_idle h]; rfl
  have hmem := resetEvent_keptOutsideDst s
  refine ⟨resetEvent s, rfl, ?_⟩
  rw [resetEvent_eq s] at hidle hmem ⊢
  exact ⟨rfl, rfl, rfl, rfl, fun _ => resetBlock_keeps _ s, rfl, rfl, rfl, rfl, rfl, hidle, hmem⟩

end Sys2Proof.Machine
end
